-- ==== Sys2Proof/Word.lean ====
section
/-! DEFINITION. The widths of the machine's values (00_scope R10, R13): plain names for bit vectors. -/

namespace Sys2Proof

/-- `bits32`: an integer register, a floating-point slot, the program counter, an address (R10, R13). -/
abbrev Word := BitVec 32

/-- `bits64`: a double-precision value (R13, R57). -/
abbrev Dword := BitVec 64

/-- One byte of memory (R103). -/
abbrev Byte := BitVec 8

/-- A 5-bit register field: an integer register, a single-precision slot or, through the pairing of
R57, a double-precision register (R50, R152). -/
abbrev Reg := BitVec 5

end Sys2Proof
end

