-- ==== Sys2Proof/Config.lean ====
section
/-! DEFINITION. The parameters the source leaves open (00_scope R11) as plain data with the defaults of R11, and
the one free value of the model, the counter draw (R613). -/

namespace Sys2Proof

/-- `DPAIR_MODE`: how a 5-bit field selects a double pair (10_state R57, decision D5). -/
inductive DPairMode
  | evenPair
  | scaled
  deriving DecidableEq, Repr

/-- `MISALIGNED_DATA`: what a misaligned data access does (20_memory R105, decision D3). -/
inductive MisalignedData
  | bytewise
  | fault
  deriving DecidableEq, Repr

/-- `FFLAGS_MODE`: whether floating-point instructions accrue flags (45_fp_common R470, decision D7). -/
inductive FflagsMode
  | accrue
  | frozen
  deriving DecidableEq, Repr

/-- `FETCH_COHERENCE`: whether a fetch may see a store that no FENCE.I followed (20_memory R120, decision D23). -/
inductive FetchCoherence
  | fault
  | immediate
  deriving DecidableEq, Repr

/-- The kind of a port call (20_memory R107). -/
inductive AccessKind
  | read
  | write
  deriving DecidableEq, Repr

/-- One refusal of `MEM_ADMIT` (R107): it refuses the calls whose address lies in `lo..hi`, whose size is `size`
(any size where none) and whose kind is `kind` (either where none). A list of these can express every predicate on
address, size and kind. DESIGN CHOICE, safe: log entry 4. -/
structure AdmitRefusal where
  lo   : Nat
  hi   : Nat
  size : Option Nat
  kind : Option AccessKind
  deriving DecidableEq, Repr

/-- The parameters of R11, each under its own name. `MEM_ADMIT` is the list of its refusals; `COUNTER_DRAW` is
`Config.counterDraw` below. -/
structure Config where
  dpairMode      : DPairMode
  misalignedData : MisalignedData
  fflagsMode     : FflagsMode
  canonicalNanS  : Word
  canonicalNanD  : Dword
  admitUnnamed   : Bool
  resetPc        : Word
  fetchCoherence : FetchCoherence
  memRefusals    : List AdmitRefusal
  deriving DecidableEq, Repr

/-- The defaults of R11. -/
def Config.default : Config where
  dpairMode      := .evenPair
  misalignedData := .bytewise
  fflagsMode     := .accrue
  canonicalNanS  := 0x7FC00000#32
  canonicalNanD  := 0x7FF8000000000000#64
  admitUnnamed   := true
  resetPc        := 0#32
  fetchCoherence := .fault
  memRefusals    := []

/-- R11 admits "a 32-bit quiet NaN" and "a 64-bit quiet NaN" as canonical NaNs: the exponent field all ones and the
top fraction bit set (45_fp_common R452). -/
def Config.wf (c : Config) : Bool :=
  c.canonicalNanS.extractLsb' 22 9 == 0x1FF#9 && c.canonicalNanD.extractLsb' 51 12 == 0xFFF#12

/-- `COUNTER_DRAW` (48_system R613): the value the n-th read of a counter CSR returns. It is a FREE VALUE: no body,
no constraint, so no proof can depend on it. Log entry 6. -/
opaque Config.counterDraw : Nat → Word

end Sys2Proof
end

