-- ==== Sys2Proof/Machine/State.lean ====
section
/-! DEFINITION. The machine's state as plain data (10_state, 60_exceptions R650 to R658), the reasons a step can stop outside
the spec's own outcomes, and the state right after reset (R72). -/

namespace Sys2Proof.Machine

/-- Why a run halted (60_exceptions R650). -/
inductive HaltReason
  /-- SCALL (48_system R601), code 1. -/
  | scall
  /-- SBREAK (R602), code 2. -/
  | sbreak
  /-- FSQRT of a negative operand (45_fp_common R469), code 3. -/
  | sqrtNeg
  deriving DecidableEq, Repr

/-- Why a run faulted (60_exceptions R653). -/
inductive FaultReason
  /-- ILLEGAL, code 16: no admitted row, a reserved rounding mode, or the CSR check. -/
  | illegal
  /-- REG_PAIR, code 17: a double operand field with no pair. -/
  | regPair
  /-- FETCH_MISALIGNED, code 18: `pc[1:0]` is not 0 at the fetch. -/
  | fetchMisaligned
  /-- DATA_MISALIGNED, code 19: a misaligned access when `MISALIGNED_DATA = fault`. -/
  | dataMisaligned
  /-- FETCH_UNFENCED, code 20: a fetch of a byte stored to since the last FENCE.I. -/
  | fetchUnfenced
  deriving DecidableEq, Repr

/-- The run status (10_state R68). Only `running` admits a step. -/
inductive Status
  | running
  | halted (reason : HaltReason)
  | faulted (reason : FaultReason)
  | stuck
  deriving DecidableEq, Repr

/-- The fault record (60_exceptions R655): an output of a faulting step. -/
structure FaultRecord where
  reason : FaultReason
  pc0    : Word
  word   : Word
  addr   : Word
  deriving DecidableEq, Repr

/-- Memory: the bytes that differ from what an unlisted address reads as, by rising address (20_memory R103). -/
abbrev Memory := List Host.Cell

/-- The whole state. `x`, `f`, `pc`, `frm`, `fflags`, `status` and `modified` are the spec's (R72); `mem` is the launch
memory with the run's writes (R115); `record` is the output of R655; `cfg` holds the parameters of R11, which no step
writes; `draws` counts the counter reads so far and is the model's own (log entry 6). -/
structure State where
  x        : Vector Word 32
  f        : Vector Word 32
  pc       : Word
  frm      : BitVec 3
  fflags   : BitVec 5
  status   : Status
  mem      : Memory
  modified : List Nat
  record   : Option FaultRecord
  cfg      : Config
  draws    : Nat
  deriving DecidableEq, Repr

/-- The state after `begin` over given parameters, memory and draw count (R72, 70_reset R700, R705): every register and
field at its reset value, memory untouched. -/
def State.afterBegin (cfg : Config) (mem : Memory) (draws : Nat) : State where
  x        := Vector.replicate 32 0#32
  f        := Vector.replicate 32 0#32
  pc       := cfg.resetPc
  frm      := 0#3
  fflags   := 0#5
  status   := .running
  mem      := mem
  modified := []
  record   := none
  cfg      := cfg
  draws    := draws

/-- The machine right after reset: `begin` with the default parameters and no memory listed (R72, R11). -/
def State.reset : State := State.afterBegin Config.default [] 0

/-- Faults of the host's interface. There are none: the spec gives every fault of this hardware a next state, with
`status` faulted and the record set (60_exceptions R652, R655), and the model takes it (log entry 7). Nothing raises a
member of this type. Safe. -/
inductive Fault
  deriving DecidableEq, Repr

/-- Why a step or an instruction has no meaning. -/
inductive Refusal
  /-- Raised by `exec`'s arm of an instruction that has no meaning yet. No arm is one. Safe: the run stops. -/
  | notModelled (mnemonic : String)
  /-- Raised by `step` in a status other than `running`: only `running` admits a step (10_state R68, 93 U25). Safe: the
  spec says that no step happens. -/
  | notRunning
  deriving DecidableEq, Repr

end Sys2Proof.Machine
end

