-- ==== Sys2Proof/Machine/Flags.lean ====
section
/-! DEFINITION. The floating-point exception flags (10_state R60, 45_fp_common R470) and `fcsr` as a view of `frm` and `fflags`
(R60, R63). There are no other flags (R65). -/

namespace Sys2Proof.Machine

/-- A set of flags, laid out as in `fflags` (R60). -/
abbrev Flags := BitVec 5

/-- `NV`, invalid operation: bit 4 (R60). -/
abbrev flagNV : Flags := 0b10000#5
/-- `DZ`, divide by zero: bit 3 (R60). -/
abbrev flagDZ : Flags := 0b01000#5
/-- `OF`, overflow: bit 2 (R60). -/
abbrev flagOF : Flags := 0b00100#5
/-- `UF`, underflow: bit 1 (R60). -/
abbrev flagUF : Flags := 0b00010#5
/-- `NX`, inexact: bit 0 (R60). -/
abbrev flagNX : Flags := 0b00001#5
/-- No flag. -/
abbrev flagNone : Flags := 0b00000#5

/-- A flag, when a condition holds. -/
def flagIf (c : Bool) (flag : Flags) : Flags := if c then flag else flagNone

/-- `setflags(mask)` on the flag field alone (R470): accrued, or unchanged when `FFLAGS_MODE = frozen`. -/
def accrued (cfg : Config) (old mask : Flags) : Flags :=
  match cfg.fflagsMode with
  | .accrue => old ||| mask
  | .frozen => old

/-- `setflags(mask)` (R470). -/
def setFlags (mask : Flags) (s : State) : State := { s with fflags := accrued s.cfg s.fflags mask }

/-- The 32-bit view of `fcsr`: `frm` in bits 7:5, `fflags` in bits 4:0, the rest 0 (R60, R63). -/
def fcsrValue (s : State) : Word := 0#24 ++ s.frm ++ s.fflags

/-- A write of the `fcsr` view: `frm <- v[7:5]`, `fflags <- v[4:0]`, the other bits ignored (R63). -/
def writeFcsr (v : Word) (s : State) : State :=
  { s with frm := v.extractLsb' 5 3, fflags := v.extractLsb' 0 5 }

end Sys2Proof.Machine
end

