-- ==== Sys2Proof/Machine/Float.lean ====
section
/-! DEFINITION. The floating-point unit's common rules (45_fp_common): formats, values, rounding and the operations, each over bit
patterns and with the flags it raises. An exact nonzero magnitude is held as a number and a sticky bit, which fixes every rounding
of the exact real value (log entry 17). -/

namespace Sys2Proof.Machine.Fp

open Sys2Proof.Machine

/-- The two formats: single (R450) and double (R451). -/
inductive Fmt
  | S
  | D
  deriving DecidableEq, Repr

/-- Bits of a pattern (R450, R451). -/
abbrev Fmt.width : Fmt → Nat
  | .S => 32
  | .D => 64

/-- The precision `p` (R450, R451). -/
def prec : Fmt → Nat
  | .S => 24
  | .D => 53

/-- The fraction width `w = p - 1` (R452). -/
def fracBits (f : Fmt) : Nat := prec f - 1

/-- The exponent field's width (R450, R451). -/
def expBits : Fmt → Nat
  | .S => 8
  | .D => 11

/-- The exponent bias, which is also `emax` (R450, R451). -/
def bias : Fmt → Nat
  | .S => 127
  | .D => 1023

/-- `emin` (R450, R451). -/
def emin (f : Fmt) : Int := 1 - (bias f : Int)

/-- The all-ones exponent field `Emax` (R452). -/
def expMax (f : Fmt) : Nat := 2 * bias f + 1

/-- The rounding modes (R454). -/
inductive Mode
  | rne
  | rtz
  | rdn
  | rup
  | rmm
  deriving DecidableEq, Repr

/-- The value of a pattern (R452): a NaN, an infinity, a signed zero, or a nonzero finite number
`(-1)^neg * sig * 2^exp`. -/
inductive Value
  | nan (signalling : Bool)
  | inf (neg : Bool)
  | zero (neg : Bool)
  | num (neg : Bool) (sig : Nat) (exp : Int)
  deriving DecidableEq, Repr

/-- The sign bit (R450, R451). -/
def signBit (f : Fmt) (x : BitVec f.width) : Bool := x.getLsbD (f.width - 1)

/-- The exponent field `E` (R450, R451). -/
def expField (f : Fmt) (x : BitVec f.width) : Nat := x.toNat / 2 ^ fracBits f % 2 ^ expBits f

/-- The fraction field `T` (R450, R451). -/
def fracField (f : Fmt) (x : BitVec f.width) : Nat := x.toNat % 2 ^ fracBits f

/-- The value of a bit pattern (R452). -/
def unpack (f : Fmt) (x : BitVec f.width) : Value :=
  if expField f x = expMax f then
    if fracField f x = 0 then .inf (signBit f x)
    else .nan (decide (fracField f x < 2 ^ (fracBits f - 1)))
  else if expField f x = 0 then
    if fracField f x = 0 then .zero (signBit f x)
    else .num (signBit f x) (fracField f x) (emin f - fracBits f)
  else .num (signBit f x) (2 ^ fracBits f + fracField f x) ((expField f x : Int) - bias f - fracBits f)

/-- The pattern with sign `neg`, exponent field `e` and fraction field `t` (R450, R451). -/
def pack (f : Fmt) (neg : Bool) (e t : Nat) : BitVec f.width :=
  BitVec.ofNat f.width ((if neg then 2 ^ (f.width - 1) else 0) + e * 2 ^ fracBits f + t)

/-- A signed infinity (R452). -/
def infinity (f : Fmt) (neg : Bool) : BitVec f.width := pack f neg (expMax f) 0

/-- A signed zero (R452). -/
def zero (f : Fmt) (neg : Bool) : BitVec f.width := pack f neg 0 0

/-- The largest finite magnitude `MAX` with a sign (R452). -/
def maxFinite (f : Fmt) (neg : Bool) : BitVec f.width := pack f neg (expMax f - 1) (2 ^ fracBits f - 1)

/-- The canonical NaN of a format (R463). -/
def canonicalNan (cfg : Config) : (f : Fmt) → BitVec f.width
  | .S => cfg.canonicalNanS
  | .D => cfg.canonicalNanD

/-! ## Rounding (R458 to R461) -/

/-- An exact positive magnitude: `sig * 2^exp` where `sticky` is false, and a real strictly between `sig * 2^exp` and
`(sig + 1) * 2^exp` where it is true. -/
structure Mag where
  sig    : Nat
  exp    : Int
  sticky : Bool
  deriving DecidableEq, Repr

/-- Where a fraction in `[0, 1)` lies. -/
inductive Frac
  | zero
  | below
  | half
  | above
  deriving DecidableEq, Repr

/-- The fraction `(rem + δ) / 2^k` with `0 ≤ rem < 2^k`, where `δ` is 0, or strictly between 0 and 1 if `sticky`. -/
def fracOf (rem k : Nat) (sticky : Bool) : Frac :=
  if k = 0 then (if sticky then .below else .zero)
  else if rem < 2 ^ (k - 1) then (if rem = 0 && !sticky then .zero else .below)
  else if rem = 2 ^ (k - 1) && !sticky then .half
  else .above

/-- `a / 2^q` as its floor and the place of its fraction. A sticky magnitude is asked only with `q > exp`. -/
def quantize (a : Mag) (q : Int) : Nat × Frac :=
  if q ≤ a.exp then (a.sig * 2 ^ (a.exp - q).toNat, fracOf 0 0 a.sticky)
  else
    let k := (q - a.exp).toNat
    (a.sig / 2 ^ k, fracOf (a.sig % 2 ^ k) k a.sticky)

/-- The table of `RoundInt` (R458): whether the floor `n0` is raised by one. -/
def roundsUp (mode : Mode) (neg : Bool) (n0 : Nat) (frac : Frac) : Bool :=
  match frac with
  | .zero => false
  | .below =>
    match mode with
    | .rdn => neg
    | .rup => !neg
    | .rne | .rtz | .rmm => false
  | .half =>
    match mode with
    | .rne => decide (n0 % 2 = 1)
    | .rtz => false
    | .rdn => neg
    | .rup => !neg
    | .rmm => true
  | .above =>
    match mode with
    | .rne => true
    | .rtz => false
    | .rdn => neg
    | .rup => !neg
    | .rmm => true

/-- `RoundInt(a / 2^q, mode, sgn)` (R458). -/
def roundInt (mode : Mode) (neg : Bool) (a : Mag) (q : Int) : Nat :=
  let (n0, frac) := quantize a q
  if roundsUp mode neg n0 frac then n0 + 1 else n0

/-- Whether `a / 2^q` is no integer. -/
def inexactAt (a : Mag) (q : Int) : Bool := decide ((quantize a q).2 ≠ .zero)

/-- `floor(log2(a))` (R458). -/
def exponentOf (a : Mag) : Int := a.exp + (Nat.log2 a.sig : Int)

/-- The overflow result (R459). -/
def overflowResult (f : Fmt) (mode : Mode) (neg : Bool) : BitVec f.width :=
  match mode with
  | .rne | .rmm => infinity f neg
  | .rtz => maxFinite f neg
  | .rdn => if neg then infinity f neg else maxFinite f neg
  | .rup => if neg then maxFinite f neg else infinity f neg

/-- The pattern of `(-1)^neg * n * 2^q`, for `n ≤ 2^p` on the grid of the format: zero, subnormal or normal (R458). -/
def encodeGrid (f : Fmt) (neg : Bool) (n : Nat) (q : Int) : BitVec f.width :=
  if n < 2 ^ fracBits f then pack f neg 0 n
  else if n < 2 ^ prec f then pack f neg (q + fracBits f + bias f).toNat (n - 2 ^ fracBits f)
  else pack f neg (q + fracBits f + 1 + bias f).toNat 0

/-- `round_F(x, mode)` (R458 to R461) of the real with sign `neg` and magnitude `a`. -/
def round (f : Fmt) (mode : Mode) (neg : Bool) (a : Mag) : BitVec f.width × Flags :=
  let e := exponentOf a
  let q := max e (emin f) - prec f + 1
  let n := roundInt mode neg a q
  let inexact := inexactAt a q
  if n ≠ 0 ∧ q + (Nat.log2 n : Int) > bias f then
    (overflowResult f mode neg, flagOF ||| flagNX)
  else
    let qu := e - prec f + 1
    let nu := roundInt mode neg a qu
    let tiny := decide (qu + (Nat.log2 nu : Int) < emin f)
    (encodeGrid f neg n q, flagIf inexact flagNX ||| flagIf (tiny && inexact) flagUF)

/-- `round_F` of the signed number `v * 2^e`; an exact zero is `+0`, or `-0` under RDN (R462, R466, R471). -/
def roundSigned (f : Fmt) (mode : Mode) (v e : Int) : BitVec f.width × Flags :=
  if v = 0 then (zero f (decide (mode = .rdn)), flagNone)
  else round f mode (decide (v < 0)) ⟨v.natAbs, e, false⟩

/-! ## Exact arithmetic on values -/

/-- A finite value as `v * 2^e`; a zero is `0 * 2^0`. A NaN or an infinity, which no caller asks for, gives 0. -/
def signedOf : Value → Int × Int
  | .num neg sig exp => (if neg then -(sig : Int) else sig, exp)
  | .nan _ | .inf _ | .zero _ => (0, 0)

/-- `v1 * 2^e1 + v2 * 2^e2`, exactly. -/
def exactSum (a b : Int × Int) : Int × Int :=
  let e := min a.2 b.2
  (a.1 * 2 ^ (a.2 - e).toNat + b.1 * 2 ^ (b.2 - e).toNat, e)

/-- `v1 * 2^e1 * (v2 * 2^e2)`, exactly. -/
def exactProduct (a b : Int × Int) : Int × Int := (a.1 * b.1, a.2 + b.2)

/-- The sign of a value that has one; a NaN's is not asked for. -/
def signOf : Value → Bool
  | .nan _ => false
  | .inf neg | .zero neg | .num neg _ _ => neg

/-- The value with its sign flipped; a NaN stays a NaN of its kind (R466). -/
def negate : Value → Value
  | .nan s => .nan s
  | .inf neg => .inf (!neg)
  | .zero neg => .zero (!neg)
  | .num neg sig exp => .num (!neg) sig exp

/-- Whether a value is a NaN. -/
def isNan : Value → Bool
  | .nan _ => true
  | .inf _ | .zero _ | .num .. => false

/-- Whether a value is a signalling NaN. -/
def isSignalling : Value → Bool
  | .nan s => s
  | .inf _ | .zero _ | .num .. => false

/-- The result of an invalid operation (R463, R464). -/
def invalid (f : Fmt) (cfg : Config) : BitVec f.width × Flags := (canonicalNan cfg f, flagNV)

/-- The canonical NaN, with NV where an operand signals (R463, R464). -/
def nanResult (f : Fmt) (cfg : Config) (signalling : Bool) : BitVec f.width × Flags :=
  (canonicalNan cfg f, flagIf signalling flagNV)

/-! ## The operations (R466 to R479) -/

/-- `Add_F` on values (R466). -/
def addValues (f : Fmt) (cfg : Config) (mode : Mode) (a b : Value) : BitVec f.width × Flags :=
  if isNan a || isNan b then nanResult f cfg (isSignalling a || isSignalling b)
  else match a, b with
    | .inf s, .inf t => if s = t then (infinity f s, flagNone) else invalid f cfg
    | .inf s, _ => (infinity f s, flagNone)
    | _, .inf t => (infinity f t, flagNone)
    | .zero s, .zero t => if s = t then (zero f s, flagNone) else (zero f (decide (mode = .rdn)), flagNone)
    | a, b => let x := exactSum (signedOf a) (signedOf b); roundSigned f mode x.1 x.2

/-- `Add_F` (R466). -/
def add (f : Fmt) (cfg : Config) (mode : Mode) (a b : BitVec f.width) : BitVec f.width × Flags :=
  addValues f cfg mode (unpack f a) (unpack f b)

/-- `Sub_F(a, b) = Add_F(a, -b)` (R466). -/
def sub (f : Fmt) (cfg : Config) (mode : Mode) (a b : BitVec f.width) : BitVec f.width × Flags :=
  addValues f cfg mode (unpack f a) (negate (unpack f b))

/-- `Mul_F` (R467). -/
def mul (f : Fmt) (cfg : Config) (mode : Mode) (a b : BitVec f.width) : BitVec f.width × Flags :=
  let va := unpack f a
  let vb := unpack f b
  let s := signOf va != signOf vb
  if isNan va || isNan vb then nanResult f cfg (isSignalling va || isSignalling vb)
  else match va, vb with
    | .inf _, .zero _ | .zero _, .inf _ => invalid f cfg
    | .inf _, _ | _, .inf _ => (infinity f s, flagNone)
    | .zero _, _ | _, .zero _ => (zero f s, flagNone)
    | va, vb => let x := exactProduct (signedOf va) (signedOf vb); roundSigned f mode x.1 x.2

/-- `|v1 * 2^e1| / |v2 * 2^e2|` with enough quotient bits for every rounding of the format (R468). -/
def quotientMag (f : Fmt) (sig1 : Nat) (exp1 : Int) (sig2 : Nat) (exp2 : Int) : Mag :=
  let n := sig1 * 2 ^ (2 * prec f)
  ⟨n / sig2, exp1 - exp2 - (2 * prec f : Nat), decide (n % sig2 ≠ 0)⟩

/-- `Div_F` (R468, R481). -/
def div (f : Fmt) (cfg : Config) (mode : Mode) (a b : BitVec f.width) : BitVec f.width × Flags :=
  let va := unpack f a
  let vb := unpack f b
  let s := signOf va != signOf vb
  if isNan va || isNan vb then nanResult f cfg (isSignalling va || isSignalling vb)
  else match va, vb with
    | .inf _, .inf _ | .zero _, .zero _ => invalid f cfg
    | .inf _, _ => (infinity f s, flagNone)
    | _, .inf _ => (zero f s, flagNone)
    | _, .zero _ => (infinity f s, flagDZ)
    | .zero _, _ => (zero f s, flagNone)
    | .num _ sig1 exp1, .num _ sig2 exp2 => round f mode s (quotientMag f sig1 exp1 sig2 exp2)
    | .nan _, _ | _, .nan _ => nanResult f cfg false

/-- The integer square root's bits from bit `k - 1` down, above the root `r` found so far. -/
def isqrtFrom (n : Nat) : Nat → Nat → Nat
  | 0, r => r
  | k + 1, r => isqrtFrom n k (if (r + 2 ^ k) * (r + 2 ^ k) ≤ n then r + 2 ^ k else r)

/-- `floor(sqrt(n))`. -/
def isqrt (n : Nat) : Nat := isqrtFrom n (Nat.log2 n / 2 + 1) 0

/-- `sqrt(sig * 2^exp)` with enough root bits for every rounding of the format (R469). -/
def sqrtMag (f : Fmt) (sig : Nat) (exp : Int) : Mag :=
  let k := 2 * prec f + (exp % 2).toNat
  let n := sig * 2 ^ k
  let r := isqrt n
  ⟨r, (exp - (k : Int)) / 2, decide (r * r ≠ n)⟩

/-- `Sqrt_F` (R469); `none` is the halt of a negative operand. -/
def sqrt (f : Fmt) (cfg : Config) (mode : Mode) (a : BitVec f.width) : Option (BitVec f.width × Flags) :=
  match unpack f a with
  | .nan s => some (nanResult f cfg s)
  | .zero neg => some (zero f neg, flagNone)
  | .inf neg => if neg then none else some (infinity f false, flagNone)
  | .num neg sig exp => if neg then none else some (round f mode false (sqrtMag f sig exp))

/-- Whether a product is of an infinity and a zero (R471). -/
def isInfTimesZero : Value → Value → Bool
  | .inf _, .zero _ | .zero _, .inf _ => true
  | _, _ => false

/-- A signed number with its sign flipped where `neg` holds. -/
def negateIf (neg : Bool) (x : Int × Int) : Int × Int := if neg then (-x.1, x.2) else x

/-- `Fma_F(a, b, c, negp, negc)` (R471): one rounding of the exact value. -/
def fma (f : Fmt) (cfg : Config) (mode : Mode) (negp negc : Bool) (a b c : BitVec f.width) :
    BitVec f.width × Flags :=
  let va := unpack f a
  let vb := unpack f b
  let vc := unpack f c
  let ps := (signOf va != signOf vb) != negp
  let cs := signOf vc != negc
  if isInfTimesZero va vb then invalid f cfg
  else if isNan va || isNan vb || isNan vc then
    nanResult f cfg (isSignalling va || isSignalling vb || isSignalling vc)
  else match va, vb, vc with
    | .inf _, _, .inf _ | _, .inf _, .inf _ => if cs = ps then (infinity f ps, flagNone) else invalid f cfg
    | .inf _, _, _ | _, .inf _, _ => (infinity f ps, flagNone)
    | _, _, .inf _ => (infinity f cs, flagNone)
    | .zero _, _, .zero _ | _, .zero _, .zero _ =>
      if ps = cs then (zero f ps, flagNone) else (zero f (decide (mode = .rdn)), flagNone)
    | va, vb, vc =>
      let p := negateIf negp (exactProduct (signedOf va) (signedOf vb))
      let x := exactSum p (negateIf negc (signedOf vc))
      roundSigned f mode x.1 x.2

/-- The two integer targets of a conversion (R472, R473): `W` signed, `WU` unsigned. -/
inductive IntKind
  | W
  | WU
  deriving DecidableEq, Repr

/-- The least integer of the range (R472). -/
def intMin : IntKind → Int
  | .W => -(2 ^ 31)
  | .WU => 0

/-- The greatest integer of the range (R472). -/
def intMax : IntKind → Int
  | .W => 2 ^ 31 - 1
  | .WU => 2 ^ 32 - 1

/-- A value above the range: the greatest integer, with NV (R472). -/
def saturateHigh (kind : IntKind) : Word × Flags := (BitVec.ofInt 32 (intMax kind), flagNV)

/-- A value below the range: the least integer, with NV (R472). -/
def saturateLow (kind : IntKind) : Word × Flags := (BitVec.ofInt 32 (intMin kind), flagNV)

/-- `CvtToInt_F` (R472). -/
def toInt (f : Fmt) (mode : Mode) (kind : IntKind) (a : BitVec f.width) : Word × Flags :=
  match unpack f a with
  | .nan _ => saturateHigh kind
  | .inf neg => if neg then saturateLow kind else saturateHigh kind
  | .zero _ => (0#32, flagNone)
  | .num neg sig exp =>
    let n := roundInt mode neg ⟨sig, exp, false⟩ 0
    let v : Int := if neg then -(n : Int) else n
    if v > intMax kind then saturateHigh kind
    else if v < intMin kind then saturateLow kind
    else (BitVec.ofInt 32 v, flagIf (inexactAt ⟨sig, exp, false⟩ 0) flagNX)

/-- `CvtFromInt_F` (R473): zero gives `+0`, any other integer is rounded. -/
def fromInt (f : Fmt) (mode : Mode) (kind : IntKind) (v : Word) : BitVec f.width × Flags :=
  let n : Int := match kind with
    | .W => v.toInt
    | .WU => v.toNat
  if n = 0 then (zero f false, flagNone)
  else round f mode (decide (n < 0)) ⟨n.natAbs, 0, false⟩

/-- Conversion between formats (R479): `g` is the source's format, `f` the result's. -/
def convert (f g : Fmt) (cfg : Config) (mode : Mode) (a : BitVec g.width) : BitVec f.width × Flags :=
  match unpack g a with
  | .nan s => nanResult f cfg s
  | .inf neg => (infinity f neg, flagNone)
  | .zero neg => (zero f neg, flagNone)
  | .num neg sig exp => round f mode neg ⟨sig, exp, false⟩

/-- `a < b` as real numbers, infinities included and zeros equal (R474); a NaN is not asked for. -/
def lessValues (a b : Value) : Bool :=
  match a, b with
  | .inf s, .inf t => s && !t
  | .inf s, _ => s
  | _, .inf t => !t
  | a, b => decide ((exactSum (signedOf a) (negateIf true (signedOf b))).1 < 0)

/-- The comparisons (R474). -/
inductive CmpOp
  | eq
  | lt
  | le
  deriving DecidableEq, Repr

/-- `a op b` of two values that are no NaNs (R474). -/
def holds (op : CmpOp) (a b : Value) : Bool :=
  match op with
  | .eq => !lessValues a b && !lessValues b a
  | .lt => lessValues a b
  | .le => !lessValues b a

/-- `Cmp_F` (R474): 0 with NV where either operand is a NaN, quiet or signalling (90_conflicts C4). -/
def compare (f : Fmt) (op : CmpOp) (a b : BitVec f.width) : Word × Flags :=
  let va := unpack f a
  let vb := unpack f b
  if isNan va || isNan vb then (0#32, flagNV)
  else (if holds op va vb then 1#32 else 0#32, flagNone)

/-- `a < b` with `-0 < +0` (R475). -/
def lessOrdered (a b : Value) : Bool :=
  match a, b with
  | .zero s, .zero t => s && !t
  | a, b => lessValues a b

/-- `Min_F` (R475). -/
def minimum (f : Fmt) (cfg : Config) (a b : BitVec f.width) : BitVec f.width × Flags :=
  let va := unpack f a
  let vb := unpack f b
  let r :=
    if isNan va && isNan vb then canonicalNan cfg f
    else if isNan va then b
    else if isNan vb then a
    else if lessOrdered vb va then b else a
  (r, flagIf (isSignalling va || isSignalling vb) flagNV)

/-- `Max_F` (R475). -/
def maximum (f : Fmt) (cfg : Config) (a b : BitVec f.width) : BitVec f.width × Flags :=
  let va := unpack f a
  let vb := unpack f b
  let r :=
    if isNan va && isNan vb then canonicalNan cfg f
    else if isNan va then b
    else if isNan vb then a
    else if lessOrdered va vb then b else a
  (r, flagIf (isSignalling va || isSignalling vb) flagNV)

/-- A pattern with its sign bit replaced: the other bits come from `a` (R476). -/
def withSign (f : Fmt) (neg : Bool) (a : BitVec f.width) : BitVec f.width :=
  pack f neg (expField f a) (fracField f a)

/-- The bit of FCLASS's mask for the class of a pattern (R453, R477). -/
def classBit (f : Fmt) (a : BitVec f.width) : Nat :=
  match unpack f a with
  | .inf neg => if neg then 0 else 7
  | .zero neg => if neg then 3 else 4
  | .nan s => if s then 8 else 9
  | .num neg _ _ =>
    if expField f a = 0 then (if neg then 2 else 5) else (if neg then 1 else 6)

/-- FCLASS's word: exactly the class's bit set (R477). -/
def classMask (f : Fmt) (a : BitVec f.width) : Word := 1#32 <<< classBit f a

end Sys2Proof.Machine.Fp
end

