-- ==== Sys2Proof/Syntax.lean ====
section
/-! DEFINITION. The instructions, one constructor for each of the 118 rows of spec/opcode_table.json (30_encoding section 5),
with the operand fields of the decode bundle (R150). No constructor carries a raw encoding beyond its own fields. -/

namespace Sys2Proof

/-- The instruction bundle of 30_encoding R150: the mnemonic and its operand fields. A register field names an integer
register, a floating-point slot or a double pair as each rule says (R152, R478). -/
inductive Instr
  -- Upper immediates, jumps and branches (40_integer, 41_control_flow). Offsets are the even byte offsets of R165 and R167, bit 0 included.
  /-- LUI (R201). -/
  | lui (rd : Reg) (imm : BitVec 20)
  /-- AUIPC (R202). -/
  | auipc (rd : Reg) (imm : BitVec 20)
  /-- JAL (R260). -/
  | jal (rd : Reg) (offset : BitVec 21)
  /-- JALR (R262). -/
  | jalr (rd rs1 : Reg) (imm : BitVec 12)
  /-- BEQ (R253). -/
  | beq (rs1 rs2 : Reg) (offset : BitVec 13)
  /-- BNE (R254). -/
  | bne (rs1 rs2 : Reg) (offset : BitVec 13)
  /-- BLT (R255). -/
  | blt (rs1 rs2 : Reg) (offset : BitVec 13)
  /-- BGE (R256). -/
  | bge (rs1 rs2 : Reg) (offset : BitVec 13)
  /-- BLTU (R257). -/
  | bltu (rs1 rs2 : Reg) (offset : BitVec 13)
  /-- BGEU (R258). -/
  | bgeu (rs1 rs2 : Reg) (offset : BitVec 13)
  -- Integer loads and stores (42_load_store).
  /-- LB (R301). -/
  | lb (rd rs1 : Reg) (imm : BitVec 12)
  /-- LH (R302). -/
  | lh (rd rs1 : Reg) (imm : BitVec 12)
  /-- LW (R303). -/
  | lw (rd rs1 : Reg) (imm : BitVec 12)
  /-- LBU (R304). -/
  | lbu (rd rs1 : Reg) (imm : BitVec 12)
  /-- LHU (R305). -/
  | lhu (rd rs1 : Reg) (imm : BitVec 12)
  /-- SB (R306). -/
  | sb (rs1 rs2 : Reg) (imm : BitVec 12)
  /-- SH (R307). -/
  | sh (rs1 rs2 : Reg) (imm : BitVec 12)
  /-- SW (R308). -/
  | sw (rs1 rs2 : Reg) (imm : BitVec 12)
  -- Register-immediate (40_integer).
  /-- ADDI (R203). -/
  | addi (rd rs1 : Reg) (imm : BitVec 12)
  /-- SLTI (R204). -/
  | slti (rd rs1 : Reg) (imm : BitVec 12)
  /-- SLTIU (R205). -/
  | sltiu (rd rs1 : Reg) (imm : BitVec 12)
  /-- XORI (R206). -/
  | xori (rd rs1 : Reg) (imm : BitVec 12)
  /-- ORI (R207). -/
  | ori (rd rs1 : Reg) (imm : BitVec 12)
  /-- ANDI (R208). -/
  | andi (rd rs1 : Reg) (imm : BitVec 12)
  /-- SLLI (R209). -/
  | slli (rd rs1 : Reg) (shamt : BitVec 5)
  /-- SRLI (R210). -/
  | srli (rd rs1 : Reg) (shamt : BitVec 5)
  /-- SRAI (R211). -/
  | srai (rd rs1 : Reg) (shamt : BitVec 5)
  -- Register-register (40_integer).
  /-- ADD (R212). -/
  | add (rd rs1 rs2 : Reg)
  /-- SUB (R213). -/
  | sub (rd rs1 rs2 : Reg)
  /-- SLL (R214). -/
  | sll (rd rs1 rs2 : Reg)
  /-- SLT (R215). -/
  | slt (rd rs1 rs2 : Reg)
  /-- SLTU (R216). -/
  | sltu (rd rs1 rs2 : Reg)
  /-- XOR (R217). -/
  | xor (rd rs1 rs2 : Reg)
  /-- SRL (R218). -/
  | srl (rd rs1 rs2 : Reg)
  /-- SRA (R219). -/
  | sra (rd rs1 rs2 : Reg)
  /-- OR (R220). -/
  | or (rd rs1 rs2 : Reg)
  /-- AND (R221). -/
  | and (rd rs1 rs2 : Reg)
  -- Fences, environment call, breakpoint, CSR access (48_system). The reserved fields of the fences are carried, since they are part of the word (R173).
  /-- FENCE (R604). -/
  | fence (rd rs1 : Reg) (fm pred succ : BitVec 4)
  /-- FENCE.I (R605). -/
  | fenceI (rd rs1 : Reg) (imm : BitVec 12)
  /-- SCALL (R601). -/
  | scall
  /-- SBREAK (R602). -/
  | sbreak
  /-- CSRRW (R606). -/
  | csrrw (rd rs1 : Reg) (csr : BitVec 12)
  /-- CSRRS (R607). -/
  | csrrs (rd rs1 : Reg) (csr : BitVec 12)
  /-- CSRRC (R608). -/
  | csrrc (rd rs1 : Reg) (csr : BitVec 12)
  /-- CSRRWI (R609). -/
  | csrrwi (rd : Reg) (uimm : BitVec 5) (csr : BitVec 12)
  /-- CSRRSI (R610). -/
  | csrrsi (rd : Reg) (uimm : BitVec 5) (csr : BitVec 12)
  /-- CSRRCI (R611). -/
  | csrrci (rd : Reg) (uimm : BitVec 5) (csr : BitVec 12)
  -- RV32M (43_muldiv).
  /-- MUL (R351). -/
  | mul (rd rs1 rs2 : Reg)
  /-- MULH (R352). -/
  | mulh (rd rs1 rs2 : Reg)
  /-- MULHSU (R353). -/
  | mulhsu (rd rs1 rs2 : Reg)
  /-- MULHU (R354). -/
  | mulhu (rd rs1 rs2 : Reg)
  /-- DIV (R355). -/
  | div (rd rs1 rs2 : Reg)
  /-- DIVU (R356). -/
  | divu (rd rs1 rs2 : Reg)
  /-- REM (R357). -/
  | rem (rd rs1 rs2 : Reg)
  /-- REMU (R358). -/
  | remu (rd rs1 rs2 : Reg)
  -- RV32A (44_atomic). `aq` and `rl` are decoded and ignored (R400).
  /-- LR.W (R401). -/
  | lrW (rd rs1 : Reg) (aq rl : BitVec 1)
  /-- SC.W (R402). -/
  | scW (rd rs1 rs2 : Reg) (aq rl : BitVec 1)
  /-- AMOSWAP.W (R403). -/
  | amoswapW (rd rs1 rs2 : Reg) (aq rl : BitVec 1)
  /-- AMOADD.W (R404). -/
  | amoaddW (rd rs1 rs2 : Reg) (aq rl : BitVec 1)
  /-- AMOXOR.W (R405). -/
  | amoxorW (rd rs1 rs2 : Reg) (aq rl : BitVec 1)
  /-- AMOAND.W (R406). -/
  | amoandW (rd rs1 rs2 : Reg) (aq rl : BitVec 1)
  /-- AMOOR.W (R407). -/
  | amoorW (rd rs1 rs2 : Reg) (aq rl : BitVec 1)
  /-- AMOMIN.W (R408). -/
  | amominW (rd rs1 rs2 : Reg) (aq rl : BitVec 1)
  /-- AMOMAX.W (R409). -/
  | amomaxW (rd rs1 rs2 : Reg) (aq rl : BitVec 1)
  /-- AMOMINU.W (R410). -/
  | amominuW (rd rs1 rs2 : Reg) (aq rl : BitVec 1)
  /-- AMOMAXU.W (R411). -/
  | amomaxuW (rd rs1 rs2 : Reg) (aq rl : BitVec 1)
  -- RV32F (42_load_store, 46_fp_single). `rm` is the raw field; R456 and R457 are checked by the meaning.
  /-- FLW (R309). -/
  | flw (rd rs1 : Reg) (imm : BitVec 12)
  /-- FSW (R310). -/
  | fsw (rs1 rs2 : Reg) (imm : BitVec 12)
  /-- FADD.S (R501). -/
  | faddS (rd rs1 rs2 : Reg) (rm : BitVec 3)
  /-- FSUB.S (R502). -/
  | fsubS (rd rs1 rs2 : Reg) (rm : BitVec 3)
  /-- FMUL.S (R503). -/
  | fmulS (rd rs1 rs2 : Reg) (rm : BitVec 3)
  /-- FDIV.S (R504). -/
  | fdivS (rd rs1 rs2 : Reg) (rm : BitVec 3)
  /-- FSQRT.S (R505). -/
  | fsqrtS (rd rs1 : Reg) (rm : BitVec 3)
  /-- FMIN.S (R506). -/
  | fminS (rd rs1 rs2 : Reg)
  /-- FMAX.S (R507). -/
  | fmaxS (rd rs1 rs2 : Reg)
  /-- FMADD.S (R508). -/
  | fmaddS (rd rs1 rs2 rs3 : Reg) (rm : BitVec 3)
  /-- FMSUB.S (R509). -/
  | fmsubS (rd rs1 rs2 rs3 : Reg) (rm : BitVec 3)
  /-- FNMSUB.S (R510). -/
  | fnmsubS (rd rs1 rs2 rs3 : Reg) (rm : BitVec 3)
  /-- FNMADD.S (R511). -/
  | fnmaddS (rd rs1 rs2 rs3 : Reg) (rm : BitVec 3)
  /-- FCVT.W.S (R512). -/
  | fcvtWS (rd rs1 : Reg) (rm : BitVec 3)
  /-- FCVT.WU.S (R513). -/
  | fcvtWuS (rd rs1 : Reg) (rm : BitVec 3)
  /-- FCVT.S.W (R514). -/
  | fcvtSW (rd rs1 : Reg) (rm : BitVec 3)
  /-- FCVT.S.WU (R515). -/
  | fcvtSWu (rd rs1 : Reg) (rm : BitVec 3)
  /-- FMV.X.S (R516). -/
  | fmvXS (rd rs1 : Reg)
  /-- FMV.S.X (R517). -/
  | fmvSX (rd rs1 : Reg)
  /-- FEQ.S (R518). -/
  | feqS (rd rs1 rs2 : Reg)
  /-- FLT.S (R519). -/
  | fltS (rd rs1 rs2 : Reg)
  /-- FLE.S (R520). -/
  | fleS (rd rs1 rs2 : Reg)
  /-- FSGNJ.S (R521). -/
  | fsgnjS (rd rs1 rs2 : Reg)
  /-- FSGNJN.S (R522). -/
  | fsgnjnS (rd rs1 rs2 : Reg)
  /-- FSGNJX.S (R523). -/
  | fsgnjxS (rd rs1 rs2 : Reg)
  /-- FCLASS.S (R524). -/
  | fclassS (rd rs1 : Reg)
  -- RV32D (42_load_store, 47_fp_double).
  /-- FLD (R311). -/
  | fld (rd rs1 : Reg) (imm : BitVec 12)
  /-- FSD (R312). -/
  | fsd (rs1 rs2 : Reg) (imm : BitVec 12)
  /-- FADD.D (R551). -/
  | faddD (rd rs1 rs2 : Reg) (rm : BitVec 3)
  /-- FSUB.D (R552). -/
  | fsubD (rd rs1 rs2 : Reg) (rm : BitVec 3)
  /-- FMUL.D (R553). -/
  | fmulD (rd rs1 rs2 : Reg) (rm : BitVec 3)
  /-- FDIV.D (R554). -/
  | fdivD (rd rs1 rs2 : Reg) (rm : BitVec 3)
  /-- FSQRT.D (R555). -/
  | fsqrtD (rd rs1 : Reg) (rm : BitVec 3)
  /-- FMIN.D (R556). -/
  | fminD (rd rs1 rs2 : Reg)
  /-- FMAX.D (R557). -/
  | fmaxD (rd rs1 rs2 : Reg)
  /-- FMADD.D (R558). -/
  | fmaddD (rd rs1 rs2 rs3 : Reg) (rm : BitVec 3)
  /-- FMSUB.D (R559). -/
  | fmsubD (rd rs1 rs2 rs3 : Reg) (rm : BitVec 3)
  /-- FNMSUB.D (R560). -/
  | fnmsubD (rd rs1 rs2 rs3 : Reg) (rm : BitVec 3)
  /-- FNMADD.D (R561). -/
  | fnmaddD (rd rs1 rs2 rs3 : Reg) (rm : BitVec 3)
  /-- FCVT.W.D (R562). -/
  | fcvtWD (rd rs1 : Reg) (rm : BitVec 3)
  /-- FCVT.WU.D (R563). -/
  | fcvtWuD (rd rs1 : Reg) (rm : BitVec 3)
  /-- FCVT.D.W (R564). -/
  | fcvtDW (rd rs1 : Reg) (rm : BitVec 3)
  /-- FCVT.D.WU (R565). -/
  | fcvtDWu (rd rs1 : Reg) (rm : BitVec 3)
  /-- FEQ.D (R566). -/
  | feqD (rd rs1 rs2 : Reg)
  /-- FLT.D (R567). -/
  | fltD (rd rs1 rs2 : Reg)
  /-- FLE.D (R568). -/
  | fleD (rd rs1 rs2 : Reg)
  /-- FSGNJ.D (R569). -/
  | fsgnjD (rd rs1 rs2 : Reg)
  /-- FSGNJN.D (R570). -/
  | fsgnjnD (rd rs1 rs2 : Reg)
  /-- FSGNJX.D (R571). -/
  | fsgnjxD (rd rs1 rs2 : Reg)
  /-- FCLASS.D (R572). -/
  | fclassD (rd rs1 : Reg)
  /-- FCVT.S.D (R573). -/
  | fcvtSD (rd rs1 : Reg) (rm : BitVec 3)
  /-- FCVT.D.S (R574). -/
  | fcvtDS (rd rs1 : Reg) (rm : BitVec 3)
  deriving DecidableEq, Repr

end Sys2Proof
end

