-- ==== Sys2Proof/WellFormed.lean ====
section
/-! DEFINITION. Which instruction terms an encoding exists for. Every field but two is exact in its width; the branch and
jump offsets are even (30_encoding R162, R165, R167). -/

namespace Sys2Proof

/-- An offset whose bit 0 is clear: "offsets are always even" (R162). -/
def evenOffset {n : Nat} (offset : BitVec n) : Bool := !offset.getLsbD 0

/-- An instruction the formats of R153 to R161 can encode: its branch or jump offset, where it has one, is even. -/
def WellFormed : Instr → Bool
  | .jal _ offset => evenOffset offset
  | .beq _ _ offset | .bne _ _ offset | .blt _ _ offset
  | .bge _ _ offset | .bltu _ _ offset | .bgeu _ _ offset => evenOffset offset
  | .lui .. | .auipc .. | .jalr .. => true
  | .lb .. | .lh .. | .lw .. | .lbu .. | .lhu .. | .sb .. | .sh .. | .sw .. => true
  | .addi .. | .slti .. | .sltiu .. | .xori .. | .ori .. | .andi .. | .slli .. | .srli .. | .srai .. => true
  | .add .. | .sub .. | .sll .. | .slt .. | .sltu .. | .xor .. | .srl .. | .sra .. | .or .. | .and .. => true
  | .fence .. | .fenceI .. | .scall | .sbreak => true
  | .csrrw .. | .csrrs .. | .csrrc .. | .csrrwi .. | .csrrsi .. | .csrrci .. => true
  | .mul .. | .mulh .. | .mulhsu .. | .mulhu .. | .div .. | .divu .. | .rem .. | .remu .. => true
  | .lrW .. | .scW .. | .amoswapW .. | .amoaddW .. | .amoxorW .. | .amoandW .. | .amoorW .. => true
  | .amominW .. | .amomaxW .. | .amominuW .. | .amomaxuW .. => true
  | .flw .. | .fsw .. | .faddS .. | .fsubS .. | .fmulS .. | .fdivS .. | .fsqrtS .. | .fminS .. | .fmaxS .. => true
  | .fmaddS .. | .fmsubS .. | .fnmsubS .. | .fnmaddS .. => true
  | .fcvtWS .. | .fcvtWuS .. | .fcvtSW .. | .fcvtSWu .. | .fmvXS .. | .fmvSX .. => true
  | .feqS .. | .fltS .. | .fleS .. | .fsgnjS .. | .fsgnjnS .. | .fsgnjxS .. | .fclassS .. => true
  | .fld .. | .fsd .. | .faddD .. | .fsubD .. | .fmulD .. | .fdivD .. | .fsqrtD .. | .fminD .. | .fmaxD .. => true
  | .fmaddD .. | .fmsubD .. | .fnmsubD .. | .fnmaddD .. => true
  | .fcvtWD .. | .fcvtWuD .. | .fcvtDW .. | .fcvtDWu .. | .fcvtSD .. | .fcvtDS .. => true
  | .feqD .. | .fltD .. | .fleD .. | .fsgnjD .. | .fsgnjnD .. | .fsgnjxD .. | .fclassD .. => true

end Sys2Proof
end

