-- ==== Sys2Proof/Decode.lean ====
section
/-! DEFINITION. Decoding (30_encoding R150 to R177): the fields of a word, the decoder from a word or from bytes to an instruction
or a named rejection, the encoder from the same formats, and the opcode table's masks and matches for the statements.
Checks that need the state (ADMIT_UNNAMED R177, rounding mode R456, R457, register pairs R57, CSR number R612) come
after decoding: log entries 11 and 12. -/

namespace Sys2Proof

/-- Why bytes or a word are no instruction. Every one of these is Fault(ILLEGAL) in a step (R171, R172), but for
`truncated`, which no fetch produces, since a fetch takes four bytes. -/
inductive DecodeError
  /-- Fewer than four bytes (R151). -/
  | truncated
  /-- `w[1:0]` is not `0b11`: a 16-bit compressed encoding (R176). -/
  | notFourByteEncoding
  /-- `w[6:0]` is no major opcode of R170 (custom, reserved and longer-instruction spaces included, R175, R176). -/
  | noMajorOpcode
  /-- The major opcode is one of R170, and no row of the table has the word's minor opcode (R172). -/
  | noMinorOpcode
  deriving DecidableEq, Repr

/-! ## Fields of a word (R152) -/

/-- `w[6:0]` (R152). -/
def fieldOpcode (w : Word) : BitVec 7 := w.extractLsb' 0 7
/-- `w[11:7]` (R152). -/
def fieldRd (w : Word) : Reg := w.extractLsb' 7 5
/-- `w[14:12]`: the minor opcode, or the rounding mode field (R152, R169). -/
def fieldFunct3 (w : Word) : BitVec 3 := w.extractLsb' 12 3
/-- `w[19:15]` (R152), which is also `uimm` (R169). -/
def fieldRs1 (w : Word) : Reg := w.extractLsb' 15 5
/-- `w[24:20]` (R152), which is also `shamt` (R168). -/
def fieldRs2 (w : Word) : Reg := w.extractLsb' 20 5
/-- `w[31:25]` (R152). -/
def fieldFunct7 (w : Word) : BitVec 7 := w.extractLsb' 25 7
/-- `w[31:27]`: the third source register of R4 (R152, R159). -/
def fieldRs3 (w : Word) : Reg := w.extractLsb' 27 5
/-- `w[26:25]`: the format of R4 (R152, R159). -/
def fieldFmt (w : Word) : BitVec 2 := w.extractLsb' 25 2
/-- `w[31:27]`: the AMO operation (R152, R160). -/
def fieldFunct5 (w : Word) : BitVec 5 := w.extractLsb' 27 5
/-- `w[26]` (R160). -/
def fieldAq (w : Word) : BitVec 1 := w.extractLsb' 26 1
/-- `w[25]` (R160). -/
def fieldRl (w : Word) : BitVec 1 := w.extractLsb' 25 1
/-- `w[31:20]`: the CSR number (R169) and the I-immediate's field (R163). -/
def fieldImmI (w : Word) : BitVec 12 := w.extractLsb' 20 12
/-- The S-immediate's field, `w[31:25]` above `w[11:7]` (R164). -/
def fieldImmS (w : Word) : BitVec 12 := w.extractLsb' 25 7 ++ w.extractLsb' 7 5
/-- The branch offset of R165: `w[31]`, `w[7]`, `w[30:25]`, `w[11:8]` and a zero bit. -/
def fieldOffsetB (w : Word) : BitVec 13 :=
  w.extractLsb' 31 1 ++ w.extractLsb' 7 1 ++ w.extractLsb' 25 6 ++ w.extractLsb' 8 4 ++ 0#1
/-- `w[31:12]`: the U-immediate's field (R166). -/
def fieldImmU (w : Word) : BitVec 20 := w.extractLsb' 12 20
/-- The jump offset of R167: `w[31]`, `w[19:12]`, `w[20]`, `w[30:21]` and a zero bit. -/
def fieldOffsetJ (w : Word) : BitVec 21 :=
  w.extractLsb' 31 1 ++ w.extractLsb' 12 8 ++ w.extractLsb' 20 1 ++ w.extractLsb' 21 10 ++ 0#1
/-- `w[31:28]`: FENCE's `fm` (R161). -/
def fieldFm (w : Word) : BitVec 4 := w.extractLsb' 28 4
/-- `w[27:24]`: FENCE's `pred` (R161). -/
def fieldPred (w : Word) : BitVec 4 := w.extractLsb' 24 4
/-- `w[23:20]`: FENCE's `succ` (R161). -/
def fieldSucc (w : Word) : BitVec 4 := w.extractLsb' 20 4

/-! ## The decoder, major opcode by major opcode (R170, section 5 of 30_encoding) -/

/-- LOAD. -/
def decodeLoad (w : Word) : Except DecodeError Instr :=
  match fieldFunct3 w with
  | 0b000#3 => .ok (.lb (fieldRd w) (fieldRs1 w) (fieldImmI w))
  | 0b001#3 => .ok (.lh (fieldRd w) (fieldRs1 w) (fieldImmI w))
  | 0b010#3 => .ok (.lw (fieldRd w) (fieldRs1 w) (fieldImmI w))
  | 0b100#3 => .ok (.lbu (fieldRd w) (fieldRs1 w) (fieldImmI w))
  | 0b101#3 => .ok (.lhu (fieldRd w) (fieldRs1 w) (fieldImmI w))
  | _ => .error .noMinorOpcode

/-- LOAD-FP. -/
def decodeLoadFp (w : Word) : Except DecodeError Instr :=
  match fieldFunct3 w with
  | 0b010#3 => .ok (.flw (fieldRd w) (fieldRs1 w) (fieldImmI w))
  | 0b011#3 => .ok (.fld (fieldRd w) (fieldRs1 w) (fieldImmI w))
  | _ => .error .noMinorOpcode

/-- MISC-MEM: every field but the minor opcode is ignored and carried (R161, R173). -/
def decodeMiscMem (w : Word) : Except DecodeError Instr :=
  match fieldFunct3 w with
  | 0b000#3 => .ok (.fence (fieldRd w) (fieldRs1 w) (fieldFm w) (fieldPred w) (fieldSucc w))
  | 0b001#3 => .ok (.fenceI (fieldRd w) (fieldRs1 w) (fieldImmI w))
  | _ => .error .noMinorOpcode

/-- OP-IMM: the shift forms need `w[31:25]` as the table has it (R173). -/
def decodeOpImm (w : Word) : Except DecodeError Instr :=
  match fieldFunct3 w with
  | 0b000#3 => .ok (.addi (fieldRd w) (fieldRs1 w) (fieldImmI w))
  | 0b010#3 => .ok (.slti (fieldRd w) (fieldRs1 w) (fieldImmI w))
  | 0b011#3 => .ok (.sltiu (fieldRd w) (fieldRs1 w) (fieldImmI w))
  | 0b100#3 => .ok (.xori (fieldRd w) (fieldRs1 w) (fieldImmI w))
  | 0b110#3 => .ok (.ori (fieldRd w) (fieldRs1 w) (fieldImmI w))
  | 0b111#3 => .ok (.andi (fieldRd w) (fieldRs1 w) (fieldImmI w))
  | 0b001#3 =>
    match fieldFunct7 w with
    | 0b0000000#7 => .ok (.slli (fieldRd w) (fieldRs1 w) (fieldRs2 w))
    | _ => .error .noMinorOpcode
  | 0b101#3 =>
    match fieldFunct7 w with
    | 0b0000000#7 => .ok (.srli (fieldRd w) (fieldRs1 w) (fieldRs2 w))
    | 0b0100000#7 => .ok (.srai (fieldRd w) (fieldRs1 w) (fieldRs2 w))
    | _ => .error .noMinorOpcode
  | _ => .error .noMinorOpcode

/-- STORE. -/
def decodeStore (w : Word) : Except DecodeError Instr :=
  match fieldFunct3 w with
  | 0b000#3 => .ok (.sb (fieldRs1 w) (fieldRs2 w) (fieldImmS w))
  | 0b001#3 => .ok (.sh (fieldRs1 w) (fieldRs2 w) (fieldImmS w))
  | 0b010#3 => .ok (.sw (fieldRs1 w) (fieldRs2 w) (fieldImmS w))
  | _ => .error .noMinorOpcode

/-- STORE-FP. -/
def decodeStoreFp (w : Word) : Except DecodeError Instr :=
  match fieldFunct3 w with
  | 0b010#3 => .ok (.fsw (fieldRs1 w) (fieldRs2 w) (fieldImmS w))
  | 0b011#3 => .ok (.fsd (fieldRs1 w) (fieldRs2 w) (fieldImmS w))
  | _ => .error .noMinorOpcode

/-- AMO (R160): word size only (`funct3 = 010`), and LR.W only with `rs2 = 00000` (R173). -/
def decodeAmo (w : Word) : Except DecodeError Instr :=
  match fieldFunct3 w with
  | 0b010#3 =>
    match fieldFunct5 w with
    | 0b00010#5 =>
      match fieldRs2 w with
      | 0b00000#5 => .ok (.lrW (fieldRd w) (fieldRs1 w) (fieldAq w) (fieldRl w))
      | _ => .error .noMinorOpcode
    | 0b00011#5 => .ok (.scW (fieldRd w) (fieldRs1 w) (fieldRs2 w) (fieldAq w) (fieldRl w))
    | 0b00001#5 => .ok (.amoswapW (fieldRd w) (fieldRs1 w) (fieldRs2 w) (fieldAq w) (fieldRl w))
    | 0b00000#5 => .ok (.amoaddW (fieldRd w) (fieldRs1 w) (fieldRs2 w) (fieldAq w) (fieldRl w))
    | 0b00100#5 => .ok (.amoxorW (fieldRd w) (fieldRs1 w) (fieldRs2 w) (fieldAq w) (fieldRl w))
    | 0b01100#5 => .ok (.amoandW (fieldRd w) (fieldRs1 w) (fieldRs2 w) (fieldAq w) (fieldRl w))
    | 0b01000#5 => .ok (.amoorW (fieldRd w) (fieldRs1 w) (fieldRs2 w) (fieldAq w) (fieldRl w))
    | 0b10000#5 => .ok (.amominW (fieldRd w) (fieldRs1 w) (fieldRs2 w) (fieldAq w) (fieldRl w))
    | 0b10100#5 => .ok (.amomaxW (fieldRd w) (fieldRs1 w) (fieldRs2 w) (fieldAq w) (fieldRl w))
    | 0b11000#5 => .ok (.amominuW (fieldRd w) (fieldRs1 w) (fieldRs2 w) (fieldAq w) (fieldRl w))
    | 0b11100#5 => .ok (.amomaxuW (fieldRd w) (fieldRs1 w) (fieldRs2 w) (fieldAq w) (fieldRl w))
    | _ => .error .noMinorOpcode
  | _ => .error .noMinorOpcode

/-- OP with `funct7 = 0000000`. -/
def decodeOpBase (w : Word) : Except DecodeError Instr :=
  match fieldFunct3 w with
  | 0b000#3 => .ok (.add (fieldRd w) (fieldRs1 w) (fieldRs2 w))
  | 0b001#3 => .ok (.sll (fieldRd w) (fieldRs1 w) (fieldRs2 w))
  | 0b010#3 => .ok (.slt (fieldRd w) (fieldRs1 w) (fieldRs2 w))
  | 0b011#3 => .ok (.sltu (fieldRd w) (fieldRs1 w) (fieldRs2 w))
  | 0b100#3 => .ok (.xor (fieldRd w) (fieldRs1 w) (fieldRs2 w))
  | 0b101#3 => .ok (.srl (fieldRd w) (fieldRs1 w) (fieldRs2 w))
  | 0b110#3 => .ok (.or (fieldRd w) (fieldRs1 w) (fieldRs2 w))
  | 0b111#3 => .ok (.and (fieldRd w) (fieldRs1 w) (fieldRs2 w))
  | _ => .error .noMinorOpcode

/-- OP with `funct7 = 0100000`. -/
def decodeOpAlt (w : Word) : Except DecodeError Instr :=
  match fieldFunct3 w with
  | 0b000#3 => .ok (.sub (fieldRd w) (fieldRs1 w) (fieldRs2 w))
  | 0b101#3 => .ok (.sra (fieldRd w) (fieldRs1 w) (fieldRs2 w))
  | _ => .error .noMinorOpcode

/-- OP with `funct7 = 0000001`: RV32M. -/
def decodeOpMulDiv (w : Word) : Except DecodeError Instr :=
  match fieldFunct3 w with
  | 0b000#3 => .ok (.mul (fieldRd w) (fieldRs1 w) (fieldRs2 w))
  | 0b001#3 => .ok (.mulh (fieldRd w) (fieldRs1 w) (fieldRs2 w))
  | 0b010#3 => .ok (.mulhsu (fieldRd w) (fieldRs1 w) (fieldRs2 w))
  | 0b011#3 => .ok (.mulhu (fieldRd w) (fieldRs1 w) (fieldRs2 w))
  | 0b100#3 => .ok (.div (fieldRd w) (fieldRs1 w) (fieldRs2 w))
  | 0b101#3 => .ok (.divu (fieldRd w) (fieldRs1 w) (fieldRs2 w))
  | 0b110#3 => .ok (.rem (fieldRd w) (fieldRs1 w) (fieldRs2 w))
  | 0b111#3 => .ok (.remu (fieldRd w) (fieldRs1 w) (fieldRs2 w))
  | _ => .error .noMinorOpcode

/-- OP. -/
def decodeOp (w : Word) : Except DecodeError Instr :=
  match fieldFunct7 w with
  | 0b0000000#7 => decodeOpBase w
  | 0b0100000#7 => decodeOpAlt w
  | 0b0000001#7 => decodeOpMulDiv w
  | _ => .error .noMinorOpcode

/-- BRANCH. -/
def decodeBranch (w : Word) : Except DecodeError Instr :=
  match fieldFunct3 w with
  | 0b000#3 => .ok (.beq (fieldRs1 w) (fieldRs2 w) (fieldOffsetB w))
  | 0b001#3 => .ok (.bne (fieldRs1 w) (fieldRs2 w) (fieldOffsetB w))
  | 0b100#3 => .ok (.blt (fieldRs1 w) (fieldRs2 w) (fieldOffsetB w))
  | 0b101#3 => .ok (.bge (fieldRs1 w) (fieldRs2 w) (fieldOffsetB w))
  | 0b110#3 => .ok (.bltu (fieldRs1 w) (fieldRs2 w) (fieldOffsetB w))
  | 0b111#3 => .ok (.bgeu (fieldRs1 w) (fieldRs2 w) (fieldOffsetB w))
  | _ => .error .noMinorOpcode

/-- JALR. -/
def decodeJalr (w : Word) : Except DecodeError Instr :=
  match fieldFunct3 w with
  | 0b000#3 => .ok (.jalr (fieldRd w) (fieldRs1 w) (fieldImmI w))
  | _ => .error .noMinorOpcode

/-- SYSTEM with `funct3 = 000`: only the two words of R601 and R602 (R603). -/
def decodeSystemCall (w : Word) : Except DecodeError Instr :=
  match w with
  | 0x00000073#32 => .ok .scall
  | 0x00100073#32 => .ok .sbreak
  | _ => .error .noMinorOpcode

/-- SYSTEM. -/
def decodeSystem (w : Word) : Except DecodeError Instr :=
  match fieldFunct3 w with
  | 0b000#3 => decodeSystemCall w
  | 0b001#3 => .ok (.csrrw (fieldRd w) (fieldRs1 w) (fieldImmI w))
  | 0b010#3 => .ok (.csrrs (fieldRd w) (fieldRs1 w) (fieldImmI w))
  | 0b011#3 => .ok (.csrrc (fieldRd w) (fieldRs1 w) (fieldImmI w))
  | 0b101#3 => .ok (.csrrwi (fieldRd w) (fieldRs1 w) (fieldImmI w))
  | 0b110#3 => .ok (.csrrsi (fieldRd w) (fieldRs1 w) (fieldImmI w))
  | 0b111#3 => .ok (.csrrci (fieldRd w) (fieldRs1 w) (fieldImmI w))
  | _ => .error .noMinorOpcode

/-- MADD (R159). -/
def decodeMadd (w : Word) : Except DecodeError Instr :=
  match fieldFmt w with
  | 0b00#2 => .ok (.fmaddS (fieldRd w) (fieldRs1 w) (fieldRs2 w) (fieldRs3 w) (fieldFunct3 w))
  | 0b01#2 => .ok (.fmaddD (fieldRd w) (fieldRs1 w) (fieldRs2 w) (fieldRs3 w) (fieldFunct3 w))
  | _ => .error .noMinorOpcode

/-- MSUB (R159). -/
def decodeMsub (w : Word) : Except DecodeError Instr :=
  match fieldFmt w with
  | 0b00#2 => .ok (.fmsubS (fieldRd w) (fieldRs1 w) (fieldRs2 w) (fieldRs3 w) (fieldFunct3 w))
  | 0b01#2 => .ok (.fmsubD (fieldRd w) (fieldRs1 w) (fieldRs2 w) (fieldRs3 w) (fieldFunct3 w))
  | _ => .error .noMinorOpcode

/-- NMSUB (R159). -/
def decodeNmsub (w : Word) : Except DecodeError Instr :=
  match fieldFmt w with
  | 0b00#2 => .ok (.fnmsubS (fieldRd w) (fieldRs1 w) (fieldRs2 w) (fieldRs3 w) (fieldFunct3 w))
  | 0b01#2 => .ok (.fnmsubD (fieldRd w) (fieldRs1 w) (fieldRs2 w) (fieldRs3 w) (fieldFunct3 w))
  | _ => .error .noMinorOpcode

/-- NMADD (R159). -/
def decodeNmadd (w : Word) : Except DecodeError Instr :=
  match fieldFmt w with
  | 0b00#2 => .ok (.fnmaddS (fieldRd w) (fieldRs1 w) (fieldRs2 w) (fieldRs3 w) (fieldFunct3 w))
  | 0b01#2 => .ok (.fnmaddD (fieldRd w) (fieldRs1 w) (fieldRs2 w) (fieldRs3 w) (fieldFunct3 w))
  | _ => .error .noMinorOpcode

/-- OP-FP sign injection, `funct7 = 0010000`. -/
def decodeSignInjectS (w : Word) : Except DecodeError Instr :=
  match fieldFunct3 w with
  | 0b000#3 => .ok (.fsgnjS (fieldRd w) (fieldRs1 w) (fieldRs2 w))
  | 0b001#3 => .ok (.fsgnjnS (fieldRd w) (fieldRs1 w) (fieldRs2 w))
  | 0b010#3 => .ok (.fsgnjxS (fieldRd w) (fieldRs1 w) (fieldRs2 w))
  | _ => .error .noMinorOpcode

/-- OP-FP sign injection, `funct7 = 0010001`. -/
def decodeSignInjectD (w : Word) : Except DecodeError Instr :=
  match fieldFunct3 w with
  | 0b000#3 => .ok (.fsgnjD (fieldRd w) (fieldRs1 w) (fieldRs2 w))
  | 0b001#3 => .ok (.fsgnjnD (fieldRd w) (fieldRs1 w) (fieldRs2 w))
  | 0b010#3 => .ok (.fsgnjxD (fieldRd w) (fieldRs1 w) (fieldRs2 w))
  | _ => .error .noMinorOpcode

/-- OP-FP minimum and maximum, `funct7 = 0010100`. -/
def decodeMinMaxS (w : Word) : Except DecodeError Instr :=
  match fieldFunct3 w with
  | 0b000#3 => .ok (.fminS (fieldRd w) (fieldRs1 w) (fieldRs2 w))
  | 0b001#3 => .ok (.fmaxS (fieldRd w) (fieldRs1 w) (fieldRs2 w))
  | _ => .error .noMinorOpcode

/-- OP-FP minimum and maximum, `funct7 = 0010101`. -/
def decodeMinMaxD (w : Word) : Except DecodeError Instr :=
  match fieldFunct3 w with
  | 0b000#3 => .ok (.fminD (fieldRd w) (fieldRs1 w) (fieldRs2 w))
  | 0b001#3 => .ok (.fmaxD (fieldRd w) (fieldRs1 w) (fieldRs2 w))
  | _ => .error .noMinorOpcode

/-- OP-FP comparisons, `funct7 = 1010000`. -/
def decodeCompareS (w : Word) : Except DecodeError Instr :=
  match fieldFunct3 w with
  | 0b000#3 => .ok (.fleS (fieldRd w) (fieldRs1 w) (fieldRs2 w))
  | 0b001#3 => .ok (.fltS (fieldRd w) (fieldRs1 w) (fieldRs2 w))
  | 0b010#3 => .ok (.feqS (fieldRd w) (fieldRs1 w) (fieldRs2 w))
  | _ => .error .noMinorOpcode

/-- OP-FP comparisons, `funct7 = 1010001`. -/
def decodeCompareD (w : Word) : Except DecodeError Instr :=
  match fieldFunct3 w with
  | 0b000#3 => .ok (.fleD (fieldRd w) (fieldRs1 w) (fieldRs2 w))
  | 0b001#3 => .ok (.fltD (fieldRd w) (fieldRs1 w) (fieldRs2 w))
  | 0b010#3 => .ok (.feqD (fieldRd w) (fieldRs1 w) (fieldRs2 w))
  | _ => .error .noMinorOpcode

/-- OP-FP moves out of the float file and FCLASS.S, `funct7 = 1110000`, `rs2 = 00000`. -/
def decodeMoveClassS (w : Word) : Except DecodeError Instr :=
  match fieldRs2 w with
  | 0b00000#5 =>
    match fieldFunct3 w with
    | 0b000#3 => .ok (.fmvXS (fieldRd w) (fieldRs1 w))
    | 0b001#3 => .ok (.fclassS (fieldRd w) (fieldRs1 w))
    | _ => .error .noMinorOpcode
  | _ => .error .noMinorOpcode

/-- OP-FP FCLASS.D, `funct7 = 1110001`, `rs2 = 00000`: there is no FMV of a double pair (R482). -/
def decodeClassD (w : Word) : Except DecodeError Instr :=
  match fieldRs2 w with
  | 0b00000#5 =>
    match fieldFunct3 w with
    | 0b001#3 => .ok (.fclassD (fieldRd w) (fieldRs1 w))
    | _ => .error .noMinorOpcode
  | _ => .error .noMinorOpcode

/-- OP-FP move into the float file, `funct7 = 1111000`, `rs2 = 00000`. -/
def decodeMoveIn (w : Word) : Except DecodeError Instr :=
  match fieldRs2 w with
  | 0b00000#5 =>
    match fieldFunct3 w with
    | 0b000#3 => .ok (.fmvSX (fieldRd w) (fieldRs1 w))
    | _ => .error .noMinorOpcode
  | _ => .error .noMinorOpcode

/-- OP-FP rows whose `rs2` field is a minor opcode and whose `funct3` is `rm`: square root and conversions. -/
def decodeOpFpUnary (w : Word) : Except DecodeError Instr :=
  match fieldFunct7 w, fieldRs2 w with
  | 0b0101100#7, 0b00000#5 => .ok (.fsqrtS (fieldRd w) (fieldRs1 w) (fieldFunct3 w))
  | 0b0101101#7, 0b00000#5 => .ok (.fsqrtD (fieldRd w) (fieldRs1 w) (fieldFunct3 w))
  | 0b1100000#7, 0b00000#5 => .ok (.fcvtWS (fieldRd w) (fieldRs1 w) (fieldFunct3 w))
  | 0b1100000#7, 0b00001#5 => .ok (.fcvtWuS (fieldRd w) (fieldRs1 w) (fieldFunct3 w))
  | 0b1101000#7, 0b00000#5 => .ok (.fcvtSW (fieldRd w) (fieldRs1 w) (fieldFunct3 w))
  | 0b1101000#7, 0b00001#5 => .ok (.fcvtSWu (fieldRd w) (fieldRs1 w) (fieldFunct3 w))
  | 0b1100001#7, 0b00000#5 => .ok (.fcvtWD (fieldRd w) (fieldRs1 w) (fieldFunct3 w))
  | 0b1100001#7, 0b00001#5 => .ok (.fcvtWuD (fieldRd w) (fieldRs1 w) (fieldFunct3 w))
  | 0b1101001#7, 0b00000#5 => .ok (.fcvtDW (fieldRd w) (fieldRs1 w) (fieldFunct3 w))
  | 0b1101001#7, 0b00001#5 => .ok (.fcvtDWu (fieldRd w) (fieldRs1 w) (fieldFunct3 w))
  | 0b0100000#7, 0b00001#5 => .ok (.fcvtSD (fieldRd w) (fieldRs1 w) (fieldFunct3 w))
  | 0b0100001#7, 0b00000#5 => .ok (.fcvtDS (fieldRd w) (fieldRs1 w) (fieldFunct3 w))
  | _, _ => .error .noMinorOpcode

/-- OP-FP. -/
def decodeOpFp (w : Word) : Except DecodeError Instr :=
  match fieldFunct7 w with
  | 0b0000000#7 => .ok (.faddS (fieldRd w) (fieldRs1 w) (fieldRs2 w) (fieldFunct3 w))
  | 0b0000100#7 => .ok (.fsubS (fieldRd w) (fieldRs1 w) (fieldRs2 w) (fieldFunct3 w))
  | 0b0001000#7 => .ok (.fmulS (fieldRd w) (fieldRs1 w) (fieldRs2 w) (fieldFunct3 w))
  | 0b0001100#7 => .ok (.fdivS (fieldRd w) (fieldRs1 w) (fieldRs2 w) (fieldFunct3 w))
  | 0b0000001#7 => .ok (.faddD (fieldRd w) (fieldRs1 w) (fieldRs2 w) (fieldFunct3 w))
  | 0b0000101#7 => .ok (.fsubD (fieldRd w) (fieldRs1 w) (fieldRs2 w) (fieldFunct3 w))
  | 0b0001001#7 => .ok (.fmulD (fieldRd w) (fieldRs1 w) (fieldRs2 w) (fieldFunct3 w))
  | 0b0001101#7 => .ok (.fdivD (fieldRd w) (fieldRs1 w) (fieldRs2 w) (fieldFunct3 w))
  | 0b0010000#7 => decodeSignInjectS w
  | 0b0010001#7 => decodeSignInjectD w
  | 0b0010100#7 => decodeMinMaxS w
  | 0b0010101#7 => decodeMinMaxD w
  | 0b1010000#7 => decodeCompareS w
  | 0b1010001#7 => decodeCompareD w
  | 0b1110000#7 => decodeMoveClassS w
  | 0b1110001#7 => decodeClassD w
  | 0b1111000#7 => decodeMoveIn w
  | _ => decodeOpFpUnary w

/-- A word whose `w[6:0]` is no major opcode of R170. -/
def decodeNoOpcode (w : Word) : DecodeError :=
  if w.extractLsb' 0 2 = 0b11#2 then .noMajorOpcode else .notFourByteEncoding

/-- `decode(w)` (R150, R171): the instruction of the one row that matches, or the reason none does. -/
def decode (w : Word) : Except DecodeError Instr :=
  match fieldOpcode w with
  | 0b0110111#7 => .ok (.lui (fieldRd w) (fieldImmU w))
  | 0b0010111#7 => .ok (.auipc (fieldRd w) (fieldImmU w))
  | 0b1101111#7 => .ok (.jal (fieldRd w) (fieldOffsetJ w))
  | 0b1100111#7 => decodeJalr w
  | 0b1100011#7 => decodeBranch w
  | 0b0000011#7 => decodeLoad w
  | 0b0100011#7 => decodeStore w
  | 0b0010011#7 => decodeOpImm w
  | 0b0110011#7 => decodeOp w
  | 0b0001111#7 => decodeMiscMem w
  | 0b1110011#7 => decodeSystem w
  | 0b0101111#7 => decodeAmo w
  | 0b0000111#7 => decodeLoadFp w
  | 0b0100111#7 => decodeStoreFp w
  | 0b1000011#7 => decodeMadd w
  | 0b1000111#7 => decodeMsub w
  | 0b1001011#7 => decodeNmsub w
  | 0b1001111#7 => decodeNmadd w
  | 0b1010011#7 => decodeOpFp w
  | _ => .error (decodeNoOpcode w)

/-- The word four bytes hold, the byte at the lowest address in bits 7:0 (R151, decision D2). -/
def wordOfBytes (b0 b1 b2 b3 : Byte) : Word := b3 ++ b2 ++ b1 ++ b0

/-- Decode the first four bytes of a byte string; the rest of the string comes back beside the instruction. -/
def decodeBytes : List Byte → Except DecodeError (Instr × List Byte)
  | b0 :: b1 :: b2 :: b3 :: rest =>
    match decode (wordOfBytes b0 b1 b2 b3) with
    | .ok i => .ok (i, rest)
    | .error e => .error e
  | _ => .error .truncated

/-- The four bytes of a word in address order, little-endian (R151, 20_memory R104). -/
def bytesOfWord (w : Word) : List Byte :=
  [w.extractLsb' 0 8, w.extractLsb' 8 8, w.extractLsb' 16 8, w.extractLsb' 24 8]

/-- The instruction the decoder reads from a table word of `nbits` bits, every higher bit 0: the word is laid out as
bytes and decoded. -/
def decodeTableWord (nbits w : Nat) : Option Instr :=
  match decodeBytes (bytesOfWord (BitVec.ofNat 32 (w % 2 ^ nbits))) with
  | .ok (i, _) => some i
  | .error _ => none

/-! ## The encoder (formats R153 to R161) -/

/-- R format (R153); also the shift-immediate form of R154 with `shamt` in the `rs2` place. -/
def formatR (funct7 : BitVec 7) (rs2 rs1 : Reg) (funct3 : BitVec 3) (rd : Reg) (opcode : BitVec 7) : Word :=
  funct7 ++ rs2 ++ rs1 ++ funct3 ++ rd ++ opcode
/-- I format (R154). -/
def formatI (imm : BitVec 12) (rs1 : Reg) (funct3 : BitVec 3) (rd : Reg) (opcode : BitVec 7) : Word :=
  imm ++ rs1 ++ funct3 ++ rd ++ opcode
/-- S format (R155). -/
def formatS (imm : BitVec 12) (rs2 rs1 : Reg) (funct3 : BitVec 3) (opcode : BitVec 7) : Word :=
  imm.extractLsb' 5 7 ++ rs2 ++ rs1 ++ funct3 ++ imm.extractLsb' 0 5 ++ opcode
/-- B format (R156). -/
def formatB (offset : BitVec 13) (rs2 rs1 : Reg) (funct3 : BitVec 3) (opcode : BitVec 7) : Word :=
  offset.extractLsb' 12 1 ++ offset.extractLsb' 5 6 ++ rs2 ++ rs1 ++ funct3 ++
    offset.extractLsb' 1 4 ++ offset.extractLsb' 11 1 ++ opcode
/-- U format (R157). -/
def formatU (imm : BitVec 20) (rd : Reg) (opcode : BitVec 7) : Word :=
  imm ++ rd ++ opcode
/-- J format (R158). -/
def formatJ (offset : BitVec 21) (rd : Reg) (opcode : BitVec 7) : Word :=
  offset.extractLsb' 20 1 ++ offset.extractLsb' 1 10 ++ offset.extractLsb' 11 1 ++
    offset.extractLsb' 12 8 ++ rd ++ opcode
/-- R4 format (R159). -/
def formatR4 (rs3 : Reg) (fmt : BitVec 2) (rs2 rs1 : Reg) (rm : BitVec 3) (rd : Reg) (opcode : BitVec 7) : Word :=
  rs3 ++ fmt ++ rs2 ++ rs1 ++ rm ++ rd ++ opcode
/-- AMO format (R160). -/
def formatAmo (funct5 : BitVec 5) (aq rl : BitVec 1) (rs2 rs1 : Reg) (funct3 : BitVec 3) (rd : Reg)
    (opcode : BitVec 7) : Word :=
  funct5 ++ aq ++ rl ++ rs2 ++ rs1 ++ funct3 ++ rd ++ opcode
/-- FENCE format (R161). -/
def formatFence (fm pred succ : BitVec 4) (rs1 : Reg) (funct3 : BitVec 3) (rd : Reg) (opcode : BitVec 7) : Word :=
  fm ++ pred ++ succ ++ rs1 ++ funct3 ++ rd ++ opcode

/-- The word of an instruction, from the rows of 30_encoding section 5. -/
def encode : Instr → Word
  | .lui rd imm => formatU imm rd 0b0110111#7
  | .auipc rd imm => formatU imm rd 0b0010111#7
  | .jal rd offset => formatJ offset rd 0b1101111#7
  | .jalr rd rs1 imm => formatI imm rs1 0b000#3 rd 0b1100111#7
  | .beq rs1 rs2 offset => formatB offset rs2 rs1 0b000#3 0b1100011#7
  | .bne rs1 rs2 offset => formatB offset rs2 rs1 0b001#3 0b1100011#7
  | .blt rs1 rs2 offset => formatB offset rs2 rs1 0b100#3 0b1100011#7
  | .bge rs1 rs2 offset => formatB offset rs2 rs1 0b101#3 0b1100011#7
  | .bltu rs1 rs2 offset => formatB offset rs2 rs1 0b110#3 0b1100011#7
  | .bgeu rs1 rs2 offset => formatB offset rs2 rs1 0b111#3 0b1100011#7
  | .lb rd rs1 imm => formatI imm rs1 0b000#3 rd 0b0000011#7
  | .lh rd rs1 imm => formatI imm rs1 0b001#3 rd 0b0000011#7
  | .lw rd rs1 imm => formatI imm rs1 0b010#3 rd 0b0000011#7
  | .lbu rd rs1 imm => formatI imm rs1 0b100#3 rd 0b0000011#7
  | .lhu rd rs1 imm => formatI imm rs1 0b101#3 rd 0b0000011#7
  | .sb rs1 rs2 imm => formatS imm rs2 rs1 0b000#3 0b0100011#7
  | .sh rs1 rs2 imm => formatS imm rs2 rs1 0b001#3 0b0100011#7
  | .sw rs1 rs2 imm => formatS imm rs2 rs1 0b010#3 0b0100011#7
  | .addi rd rs1 imm => formatI imm rs1 0b000#3 rd 0b0010011#7
  | .slti rd rs1 imm => formatI imm rs1 0b010#3 rd 0b0010011#7
  | .sltiu rd rs1 imm => formatI imm rs1 0b011#3 rd 0b0010011#7
  | .xori rd rs1 imm => formatI imm rs1 0b100#3 rd 0b0010011#7
  | .ori rd rs1 imm => formatI imm rs1 0b110#3 rd 0b0010011#7
  | .andi rd rs1 imm => formatI imm rs1 0b111#3 rd 0b0010011#7
  | .slli rd rs1 shamt => formatR 0b0000000#7 shamt rs1 0b001#3 rd 0b0010011#7
  | .srli rd rs1 shamt => formatR 0b0000000#7 shamt rs1 0b101#3 rd 0b0010011#7
  | .srai rd rs1 shamt => formatR 0b0100000#7 shamt rs1 0b101#3 rd 0b0010011#7
  | .add rd rs1 rs2 => formatR 0b0000000#7 rs2 rs1 0b000#3 rd 0b0110011#7
  | .sub rd rs1 rs2 => formatR 0b0100000#7 rs2 rs1 0b000#3 rd 0b0110011#7
  | .sll rd rs1 rs2 => formatR 0b0000000#7 rs2 rs1 0b001#3 rd 0b0110011#7
  | .slt rd rs1 rs2 => formatR 0b0000000#7 rs2 rs1 0b010#3 rd 0b0110011#7
  | .sltu rd rs1 rs2 => formatR 0b0000000#7 rs2 rs1 0b011#3 rd 0b0110011#7
  | .xor rd rs1 rs2 => formatR 0b0000000#7 rs2 rs1 0b100#3 rd 0b0110011#7
  | .srl rd rs1 rs2 => formatR 0b0000000#7 rs2 rs1 0b101#3 rd 0b0110011#7
  | .sra rd rs1 rs2 => formatR 0b0100000#7 rs2 rs1 0b101#3 rd 0b0110011#7
  | .or rd rs1 rs2 => formatR 0b0000000#7 rs2 rs1 0b110#3 rd 0b0110011#7
  | .and rd rs1 rs2 => formatR 0b0000000#7 rs2 rs1 0b111#3 rd 0b0110011#7
  | .fence rd rs1 fm pred succ => formatFence fm pred succ rs1 0b000#3 rd 0b0001111#7
  | .fenceI rd rs1 imm => formatI imm rs1 0b001#3 rd 0b0001111#7
  | .scall => 0x00000073#32
  | .sbreak => 0x00100073#32
  | .csrrw rd rs1 csr => formatI csr rs1 0b001#3 rd 0b1110011#7
  | .csrrs rd rs1 csr => formatI csr rs1 0b010#3 rd 0b1110011#7
  | .csrrc rd rs1 csr => formatI csr rs1 0b011#3 rd 0b1110011#7
  | .csrrwi rd uimm csr => formatI csr uimm 0b101#3 rd 0b1110011#7
  | .csrrsi rd uimm csr => formatI csr uimm 0b110#3 rd 0b1110011#7
  | .csrrci rd uimm csr => formatI csr uimm 0b111#3 rd 0b1110011#7
  | .mul rd rs1 rs2 => formatR 0b0000001#7 rs2 rs1 0b000#3 rd 0b0110011#7
  | .mulh rd rs1 rs2 => formatR 0b0000001#7 rs2 rs1 0b001#3 rd 0b0110011#7
  | .mulhsu rd rs1 rs2 => formatR 0b0000001#7 rs2 rs1 0b010#3 rd 0b0110011#7
  | .mulhu rd rs1 rs2 => formatR 0b0000001#7 rs2 rs1 0b011#3 rd 0b0110011#7
  | .div rd rs1 rs2 => formatR 0b0000001#7 rs2 rs1 0b100#3 rd 0b0110011#7
  | .divu rd rs1 rs2 => formatR 0b0000001#7 rs2 rs1 0b101#3 rd 0b0110011#7
  | .rem rd rs1 rs2 => formatR 0b0000001#7 rs2 rs1 0b110#3 rd 0b0110011#7
  | .remu rd rs1 rs2 => formatR 0b0000001#7 rs2 rs1 0b111#3 rd 0b0110011#7
  | .lrW rd rs1 aq rl => formatAmo 0b00010#5 aq rl 0b00000#5 rs1 0b010#3 rd 0b0101111#7
  | .scW rd rs1 rs2 aq rl => formatAmo 0b00011#5 aq rl rs2 rs1 0b010#3 rd 0b0101111#7
  | .amoswapW rd rs1 rs2 aq rl => formatAmo 0b00001#5 aq rl rs2 rs1 0b010#3 rd 0b0101111#7
  | .amoaddW rd rs1 rs2 aq rl => formatAmo 0b00000#5 aq rl rs2 rs1 0b010#3 rd 0b0101111#7
  | .amoxorW rd rs1 rs2 aq rl => formatAmo 0b00100#5 aq rl rs2 rs1 0b010#3 rd 0b0101111#7
  | .amoandW rd rs1 rs2 aq rl => formatAmo 0b01100#5 aq rl rs2 rs1 0b010#3 rd 0b0101111#7
  | .amoorW rd rs1 rs2 aq rl => formatAmo 0b01000#5 aq rl rs2 rs1 0b010#3 rd 0b0101111#7
  | .amominW rd rs1 rs2 aq rl => formatAmo 0b10000#5 aq rl rs2 rs1 0b010#3 rd 0b0101111#7
  | .amomaxW rd rs1 rs2 aq rl => formatAmo 0b10100#5 aq rl rs2 rs1 0b010#3 rd 0b0101111#7
  | .amominuW rd rs1 rs2 aq rl => formatAmo 0b11000#5 aq rl rs2 rs1 0b010#3 rd 0b0101111#7
  | .amomaxuW rd rs1 rs2 aq rl => formatAmo 0b11100#5 aq rl rs2 rs1 0b010#3 rd 0b0101111#7
  | .flw rd rs1 imm => formatI imm rs1 0b010#3 rd 0b0000111#7
  | .fsw rs1 rs2 imm => formatS imm rs2 rs1 0b010#3 0b0100111#7
  | .faddS rd rs1 rs2 rm => formatR 0b0000000#7 rs2 rs1 rm rd 0b1010011#7
  | .fsubS rd rs1 rs2 rm => formatR 0b0000100#7 rs2 rs1 rm rd 0b1010011#7
  | .fmulS rd rs1 rs2 rm => formatR 0b0001000#7 rs2 rs1 rm rd 0b1010011#7
  | .fdivS rd rs1 rs2 rm => formatR 0b0001100#7 rs2 rs1 rm rd 0b1010011#7
  | .fsqrtS rd rs1 rm => formatR 0b0101100#7 0b00000#5 rs1 rm rd 0b1010011#7
  | .fminS rd rs1 rs2 => formatR 0b0010100#7 rs2 rs1 0b000#3 rd 0b1010011#7
  | .fmaxS rd rs1 rs2 => formatR 0b0010100#7 rs2 rs1 0b001#3 rd 0b1010011#7
  | .fmaddS rd rs1 rs2 rs3 rm => formatR4 rs3 0b00#2 rs2 rs1 rm rd 0b1000011#7
  | .fmsubS rd rs1 rs2 rs3 rm => formatR4 rs3 0b00#2 rs2 rs1 rm rd 0b1000111#7
  | .fnmsubS rd rs1 rs2 rs3 rm => formatR4 rs3 0b00#2 rs2 rs1 rm rd 0b1001011#7
  | .fnmaddS rd rs1 rs2 rs3 rm => formatR4 rs3 0b00#2 rs2 rs1 rm rd 0b1001111#7
  | .fcvtWS rd rs1 rm => formatR 0b1100000#7 0b00000#5 rs1 rm rd 0b1010011#7
  | .fcvtWuS rd rs1 rm => formatR 0b1100000#7 0b00001#5 rs1 rm rd 0b1010011#7
  | .fcvtSW rd rs1 rm => formatR 0b1101000#7 0b00000#5 rs1 rm rd 0b1010011#7
  | .fcvtSWu rd rs1 rm => formatR 0b1101000#7 0b00001#5 rs1 rm rd 0b1010011#7
  | .fmvXS rd rs1 => formatR 0b1110000#7 0b00000#5 rs1 0b000#3 rd 0b1010011#7
  | .fmvSX rd rs1 => formatR 0b1111000#7 0b00000#5 rs1 0b000#3 rd 0b1010011#7
  | .feqS rd rs1 rs2 => formatR 0b1010000#7 rs2 rs1 0b010#3 rd 0b1010011#7
  | .fltS rd rs1 rs2 => formatR 0b1010000#7 rs2 rs1 0b001#3 rd 0b1010011#7
  | .fleS rd rs1 rs2 => formatR 0b1010000#7 rs2 rs1 0b000#3 rd 0b1010011#7
  | .fsgnjS rd rs1 rs2 => formatR 0b0010000#7 rs2 rs1 0b000#3 rd 0b1010011#7
  | .fsgnjnS rd rs1 rs2 => formatR 0b0010000#7 rs2 rs1 0b001#3 rd 0b1010011#7
  | .fsgnjxS rd rs1 rs2 => formatR 0b0010000#7 rs2 rs1 0b010#3 rd 0b1010011#7
  | .fclassS rd rs1 => formatR 0b1110000#7 0b00000#5 rs1 0b001#3 rd 0b1010011#7
  | .fld rd rs1 imm => formatI imm rs1 0b011#3 rd 0b0000111#7
  | .fsd rs1 rs2 imm => formatS imm rs2 rs1 0b011#3 0b0100111#7
  | .faddD rd rs1 rs2 rm => formatR 0b0000001#7 rs2 rs1 rm rd 0b1010011#7
  | .fsubD rd rs1 rs2 rm => formatR 0b0000101#7 rs2 rs1 rm rd 0b1010011#7
  | .fmulD rd rs1 rs2 rm => formatR 0b0001001#7 rs2 rs1 rm rd 0b1010011#7
  | .fdivD rd rs1 rs2 rm => formatR 0b0001101#7 rs2 rs1 rm rd 0b1010011#7
  | .fsqrtD rd rs1 rm => formatR 0b0101101#7 0b00000#5 rs1 rm rd 0b1010011#7
  | .fminD rd rs1 rs2 => formatR 0b0010101#7 rs2 rs1 0b000#3 rd 0b1010011#7
  | .fmaxD rd rs1 rs2 => formatR 0b0010101#7 rs2 rs1 0b001#3 rd 0b1010011#7
  | .fmaddD rd rs1 rs2 rs3 rm => formatR4 rs3 0b01#2 rs2 rs1 rm rd 0b1000011#7
  | .fmsubD rd rs1 rs2 rs3 rm => formatR4 rs3 0b01#2 rs2 rs1 rm rd 0b1000111#7
  | .fnmsubD rd rs1 rs2 rs3 rm => formatR4 rs3 0b01#2 rs2 rs1 rm rd 0b1001011#7
  | .fnmaddD rd rs1 rs2 rs3 rm => formatR4 rs3 0b01#2 rs2 rs1 rm rd 0b1001111#7
  | .fcvtWD rd rs1 rm => formatR 0b1100001#7 0b00000#5 rs1 rm rd 0b1010011#7
  | .fcvtWuD rd rs1 rm => formatR 0b1100001#7 0b00001#5 rs1 rm rd 0b1010011#7
  | .fcvtDW rd rs1 rm => formatR 0b1101001#7 0b00000#5 rs1 rm rd 0b1010011#7
  | .fcvtDWu rd rs1 rm => formatR 0b1101001#7 0b00001#5 rs1 rm rd 0b1010011#7
  | .feqD rd rs1 rs2 => formatR 0b1010001#7 rs2 rs1 0b010#3 rd 0b1010011#7
  | .fltD rd rs1 rs2 => formatR 0b1010001#7 rs2 rs1 0b001#3 rd 0b1010011#7
  | .fleD rd rs1 rs2 => formatR 0b1010001#7 rs2 rs1 0b000#3 rd 0b1010011#7
  | .fsgnjD rd rs1 rs2 => formatR 0b0010001#7 rs2 rs1 0b000#3 rd 0b1010011#7
  | .fsgnjnD rd rs1 rs2 => formatR 0b0010001#7 rs2 rs1 0b001#3 rd 0b1010011#7
  | .fsgnjxD rd rs1 rs2 => formatR 0b0010001#7 rs2 rs1 0b010#3 rd 0b1010011#7
  | .fclassD rd rs1 => formatR 0b1110001#7 0b00000#5 rs1 0b001#3 rd 0b1010011#7
  | .fcvtSD rd rs1 rm => formatR 0b0100000#7 0b00001#5 rs1 rm rd 0b1010011#7
  | .fcvtDS rd rs1 rm => formatR 0b0100001#7 0b00000#5 rs1 rm rd 0b1010011#7

/-! ## The opcode table as data (30_encoding section 5), for the statements about decoding -/

/-- One row of the table: the words `w` with `w &&& mask = pattern` are its words (R171; the table's "match"). -/
structure OpcodeRow where
  mnemonic : String
  mask     : Word
  pattern  : Word
  deriving DecidableEq, Repr

/-- Rows of 30_encoding section 5: upper immediates, jumps, branches, loads, stores. -/
def opcodeRowsControl : List OpcodeRow := [
  ⟨"LUI", 0x0000007F#32, 0x00000037#32⟩,
  ⟨"AUIPC", 0x0000007F#32, 0x00000017#32⟩,
  ⟨"JAL", 0x0000007F#32, 0x0000006F#32⟩,
  ⟨"JALR", 0x0000707F#32, 0x00000067#32⟩,
  ⟨"BEQ", 0x0000707F#32, 0x00000063#32⟩,
  ⟨"BNE", 0x0000707F#32, 0x00001063#32⟩,
  ⟨"BLT", 0x0000707F#32, 0x00004063#32⟩,
  ⟨"BGE", 0x0000707F#32, 0x00005063#32⟩,
  ⟨"BLTU", 0x0000707F#32, 0x00006063#32⟩,
  ⟨"BGEU", 0x0000707F#32, 0x00007063#32⟩,
  ⟨"LB", 0x0000707F#32, 0x00000003#32⟩,
  ⟨"LH", 0x0000707F#32, 0x00001003#32⟩,
  ⟨"LW", 0x0000707F#32, 0x00002003#32⟩,
  ⟨"LBU", 0x0000707F#32, 0x00004003#32⟩,
  ⟨"LHU", 0x0000707F#32, 0x00005003#32⟩,
  ⟨"SB", 0x0000707F#32, 0x00000023#32⟩,
  ⟨"SH", 0x0000707F#32, 0x00001023#32⟩,
  ⟨"SW", 0x0000707F#32, 0x00002023#32⟩]

/-- Rows of 30_encoding section 5: integer computational. -/
def opcodeRowsInteger : List OpcodeRow := [
  ⟨"ADDI", 0x0000707F#32, 0x00000013#32⟩,
  ⟨"SLTI", 0x0000707F#32, 0x00002013#32⟩,
  ⟨"SLTIU", 0x0000707F#32, 0x00003013#32⟩,
  ⟨"XORI", 0x0000707F#32, 0x00004013#32⟩,
  ⟨"ORI", 0x0000707F#32, 0x00006013#32⟩,
  ⟨"ANDI", 0x0000707F#32, 0x00007013#32⟩,
  ⟨"SLLI", 0xFE00707F#32, 0x00001013#32⟩,
  ⟨"SRLI", 0xFE00707F#32, 0x00005013#32⟩,
  ⟨"SRAI", 0xFE00707F#32, 0x40005013#32⟩,
  ⟨"ADD", 0xFE00707F#32, 0x00000033#32⟩,
  ⟨"SUB", 0xFE00707F#32, 0x40000033#32⟩,
  ⟨"SLL", 0xFE00707F#32, 0x00001033#32⟩,
  ⟨"SLT", 0xFE00707F#32, 0x00002033#32⟩,
  ⟨"SLTU", 0xFE00707F#32, 0x00003033#32⟩,
  ⟨"XOR", 0xFE00707F#32, 0x00004033#32⟩,
  ⟨"SRL", 0xFE00707F#32, 0x00005033#32⟩,
  ⟨"SRA", 0xFE00707F#32, 0x40005033#32⟩,
  ⟨"OR", 0xFE00707F#32, 0x00006033#32⟩,
  ⟨"AND", 0xFE00707F#32, 0x00007033#32⟩]

/-- Rows of 30_encoding section 5: MISC-MEM and SYSTEM. -/
def opcodeRowsSystem : List OpcodeRow := [
  ⟨"FENCE", 0x0000707F#32, 0x0000000F#32⟩,
  ⟨"FENCE.I", 0x0000707F#32, 0x0000100F#32⟩,
  ⟨"SCALL", 0xFFFFFFFF#32, 0x00000073#32⟩,
  ⟨"SBREAK", 0xFFFFFFFF#32, 0x00100073#32⟩,
  ⟨"CSRRW", 0x0000707F#32, 0x00001073#32⟩,
  ⟨"CSRRS", 0x0000707F#32, 0x00002073#32⟩,
  ⟨"CSRRC", 0x0000707F#32, 0x00003073#32⟩,
  ⟨"CSRRWI", 0x0000707F#32, 0x00005073#32⟩,
  ⟨"CSRRSI", 0x0000707F#32, 0x00006073#32⟩,
  ⟨"CSRRCI", 0x0000707F#32, 0x00007073#32⟩]

/-- Rows of 30_encoding section 5: RV32M. -/
def opcodeRowsM : List OpcodeRow := [
  ⟨"MUL", 0xFE00707F#32, 0x02000033#32⟩,
  ⟨"MULH", 0xFE00707F#32, 0x02001033#32⟩,
  ⟨"MULHSU", 0xFE00707F#32, 0x02002033#32⟩,
  ⟨"MULHU", 0xFE00707F#32, 0x02003033#32⟩,
  ⟨"DIV", 0xFE00707F#32, 0x02004033#32⟩,
  ⟨"DIVU", 0xFE00707F#32, 0x02005033#32⟩,
  ⟨"REM", 0xFE00707F#32, 0x02006033#32⟩,
  ⟨"REMU", 0xFE00707F#32, 0x02007033#32⟩]

/-- Rows of 30_encoding section 5: RV32A. -/
def opcodeRowsA : List OpcodeRow := [
  ⟨"LR.W", 0xF9F0707F#32, 0x1000202F#32⟩,
  ⟨"SC.W", 0xF800707F#32, 0x1800202F#32⟩,
  ⟨"AMOSWAP.W", 0xF800707F#32, 0x0800202F#32⟩,
  ⟨"AMOADD.W", 0xF800707F#32, 0x0000202F#32⟩,
  ⟨"AMOXOR.W", 0xF800707F#32, 0x2000202F#32⟩,
  ⟨"AMOAND.W", 0xF800707F#32, 0x6000202F#32⟩,
  ⟨"AMOOR.W", 0xF800707F#32, 0x4000202F#32⟩,
  ⟨"AMOMIN.W", 0xF800707F#32, 0x8000202F#32⟩,
  ⟨"AMOMAX.W", 0xF800707F#32, 0xA000202F#32⟩,
  ⟨"AMOMINU.W", 0xF800707F#32, 0xC000202F#32⟩,
  ⟨"AMOMAXU.W", 0xF800707F#32, 0xE000202F#32⟩]

/-- Rows of 30_encoding section 5: RV32F. -/
def opcodeRowsF : List OpcodeRow := [
  ⟨"FLW", 0x0000707F#32, 0x00002007#32⟩,
  ⟨"FSW", 0x0000707F#32, 0x00002027#32⟩,
  ⟨"FADD.S", 0xFE00007F#32, 0x00000053#32⟩,
  ⟨"FSUB.S", 0xFE00007F#32, 0x08000053#32⟩,
  ⟨"FMUL.S", 0xFE00007F#32, 0x10000053#32⟩,
  ⟨"FDIV.S", 0xFE00007F#32, 0x18000053#32⟩,
  ⟨"FSQRT.S", 0xFFF0007F#32, 0x58000053#32⟩,
  ⟨"FMIN.S", 0xFE00707F#32, 0x28000053#32⟩,
  ⟨"FMAX.S", 0xFE00707F#32, 0x28001053#32⟩,
  ⟨"FMADD.S", 0x0600007F#32, 0x00000043#32⟩,
  ⟨"FMSUB.S", 0x0600007F#32, 0x00000047#32⟩,
  ⟨"FNMSUB.S", 0x0600007F#32, 0x0000004B#32⟩,
  ⟨"FNMADD.S", 0x0600007F#32, 0x0000004F#32⟩,
  ⟨"FCVT.W.S", 0xFFF0007F#32, 0xC0000053#32⟩,
  ⟨"FCVT.WU.S", 0xFFF0007F#32, 0xC0100053#32⟩,
  ⟨"FCVT.S.W", 0xFFF0007F#32, 0xD0000053#32⟩,
  ⟨"FCVT.S.WU", 0xFFF0007F#32, 0xD0100053#32⟩,
  ⟨"FMV.X.S", 0xFFF0707F#32, 0xE0000053#32⟩,
  ⟨"FMV.S.X", 0xFFF0707F#32, 0xF0000053#32⟩,
  ⟨"FEQ.S", 0xFE00707F#32, 0xA0002053#32⟩,
  ⟨"FLT.S", 0xFE00707F#32, 0xA0001053#32⟩,
  ⟨"FLE.S", 0xFE00707F#32, 0xA0000053#32⟩,
  ⟨"FSGNJ.S", 0xFE00707F#32, 0x20000053#32⟩,
  ⟨"FSGNJN.S", 0xFE00707F#32, 0x20001053#32⟩,
  ⟨"FSGNJX.S", 0xFE00707F#32, 0x20002053#32⟩,
  ⟨"FCLASS.S", 0xFFF0707F#32, 0xE0001053#32⟩]

/-- Rows of 30_encoding section 5: RV32D. -/
def opcodeRowsD : List OpcodeRow := [
  ⟨"FLD", 0x0000707F#32, 0x00003007#32⟩,
  ⟨"FSD", 0x0000707F#32, 0x00003027#32⟩,
  ⟨"FADD.D", 0xFE00007F#32, 0x02000053#32⟩,
  ⟨"FSUB.D", 0xFE00007F#32, 0x0A000053#32⟩,
  ⟨"FMUL.D", 0xFE00007F#32, 0x12000053#32⟩,
  ⟨"FDIV.D", 0xFE00007F#32, 0x1A000053#32⟩,
  ⟨"FSQRT.D", 0xFFF0007F#32, 0x5A000053#32⟩,
  ⟨"FMIN.D", 0xFE00707F#32, 0x2A000053#32⟩,
  ⟨"FMAX.D", 0xFE00707F#32, 0x2A001053#32⟩,
  ⟨"FMADD.D", 0x0600007F#32, 0x02000043#32⟩,
  ⟨"FMSUB.D", 0x0600007F#32, 0x02000047#32⟩,
  ⟨"FNMSUB.D", 0x0600007F#32, 0x0200004B#32⟩,
  ⟨"FNMADD.D", 0x0600007F#32, 0x0200004F#32⟩,
  ⟨"FCVT.W.D", 0xFFF0007F#32, 0xC2000053#32⟩,
  ⟨"FCVT.WU.D", 0xFFF0007F#32, 0xC2100053#32⟩,
  ⟨"FCVT.D.W", 0xFFF0007F#32, 0xD2000053#32⟩,
  ⟨"FCVT.D.WU", 0xFFF0007F#32, 0xD2100053#32⟩,
  ⟨"FEQ.D", 0xFE00707F#32, 0xA2002053#32⟩,
  ⟨"FLT.D", 0xFE00707F#32, 0xA2001053#32⟩,
  ⟨"FLE.D", 0xFE00707F#32, 0xA2000053#32⟩,
  ⟨"FSGNJ.D", 0xFE00707F#32, 0x22000053#32⟩,
  ⟨"FSGNJN.D", 0xFE00707F#32, 0x22001053#32⟩,
  ⟨"FSGNJX.D", 0xFE00707F#32, 0x22002053#32⟩,
  ⟨"FCLASS.D", 0xFFF0707F#32, 0xE2001053#32⟩,
  ⟨"FCVT.S.D", 0xFFF0007F#32, 0x40100053#32⟩,
  ⟨"FCVT.D.S", 0xFFF0007F#32, 0x42000053#32⟩]

/-- The 118 rows. -/
def opcodeTable : List OpcodeRow :=
  opcodeRowsControl ++ opcodeRowsInteger ++ opcodeRowsSystem ++ opcodeRowsM ++ opcodeRowsA ++ opcodeRowsF ++ opcodeRowsD

/-- Whether a word is a word of a row (R171). -/
def OpcodeRow.matches (r : OpcodeRow) (w : Word) : Bool := w &&& r.mask == r.pattern

/-- The row of an instruction. -/
def tableRow : Instr → OpcodeRow
  | .lui .. => ⟨"LUI", 0x0000007F#32, 0x00000037#32⟩
  | .auipc .. => ⟨"AUIPC", 0x0000007F#32, 0x00000017#32⟩
  | .jal .. => ⟨"JAL", 0x0000007F#32, 0x0000006F#32⟩
  | .jalr .. => ⟨"JALR", 0x0000707F#32, 0x00000067#32⟩
  | .beq .. => ⟨"BEQ", 0x0000707F#32, 0x00000063#32⟩
  | .bne .. => ⟨"BNE", 0x0000707F#32, 0x00001063#32⟩
  | .blt .. => ⟨"BLT", 0x0000707F#32, 0x00004063#32⟩
  | .bge .. => ⟨"BGE", 0x0000707F#32, 0x00005063#32⟩
  | .bltu .. => ⟨"BLTU", 0x0000707F#32, 0x00006063#32⟩
  | .bgeu .. => ⟨"BGEU", 0x0000707F#32, 0x00007063#32⟩
  | .lb .. => ⟨"LB", 0x0000707F#32, 0x00000003#32⟩
  | .lh .. => ⟨"LH", 0x0000707F#32, 0x00001003#32⟩
  | .lw .. => ⟨"LW", 0x0000707F#32, 0x00002003#32⟩
  | .lbu .. => ⟨"LBU", 0x0000707F#32, 0x00004003#32⟩
  | .lhu .. => ⟨"LHU", 0x0000707F#32, 0x00005003#32⟩
  | .sb .. => ⟨"SB", 0x0000707F#32, 0x00000023#32⟩
  | .sh .. => ⟨"SH", 0x0000707F#32, 0x00001023#32⟩
  | .sw .. => ⟨"SW", 0x0000707F#32, 0x00002023#32⟩
  | .addi .. => ⟨"ADDI", 0x0000707F#32, 0x00000013#32⟩
  | .slti .. => ⟨"SLTI", 0x0000707F#32, 0x00002013#32⟩
  | .sltiu .. => ⟨"SLTIU", 0x0000707F#32, 0x00003013#32⟩
  | .xori .. => ⟨"XORI", 0x0000707F#32, 0x00004013#32⟩
  | .ori .. => ⟨"ORI", 0x0000707F#32, 0x00006013#32⟩
  | .andi .. => ⟨"ANDI", 0x0000707F#32, 0x00007013#32⟩
  | .slli .. => ⟨"SLLI", 0xFE00707F#32, 0x00001013#32⟩
  | .srli .. => ⟨"SRLI", 0xFE00707F#32, 0x00005013#32⟩
  | .srai .. => ⟨"SRAI", 0xFE00707F#32, 0x40005013#32⟩
  | .add .. => ⟨"ADD", 0xFE00707F#32, 0x00000033#32⟩
  | .sub .. => ⟨"SUB", 0xFE00707F#32, 0x40000033#32⟩
  | .sll .. => ⟨"SLL", 0xFE00707F#32, 0x00001033#32⟩
  | .slt .. => ⟨"SLT", 0xFE00707F#32, 0x00002033#32⟩
  | .sltu .. => ⟨"SLTU", 0xFE00707F#32, 0x00003033#32⟩
  | .xor .. => ⟨"XOR", 0xFE00707F#32, 0x00004033#32⟩
  | .srl .. => ⟨"SRL", 0xFE00707F#32, 0x00005033#32⟩
  | .sra .. => ⟨"SRA", 0xFE00707F#32, 0x40005033#32⟩
  | .or .. => ⟨"OR", 0xFE00707F#32, 0x00006033#32⟩
  | .and .. => ⟨"AND", 0xFE00707F#32, 0x00007033#32⟩
  | .fence .. => ⟨"FENCE", 0x0000707F#32, 0x0000000F#32⟩
  | .fenceI .. => ⟨"FENCE.I", 0x0000707F#32, 0x0000100F#32⟩
  | .scall => ⟨"SCALL", 0xFFFFFFFF#32, 0x00000073#32⟩
  | .sbreak => ⟨"SBREAK", 0xFFFFFFFF#32, 0x00100073#32⟩
  | .csrrw .. => ⟨"CSRRW", 0x0000707F#32, 0x00001073#32⟩
  | .csrrs .. => ⟨"CSRRS", 0x0000707F#32, 0x00002073#32⟩
  | .csrrc .. => ⟨"CSRRC", 0x0000707F#32, 0x00003073#32⟩
  | .csrrwi .. => ⟨"CSRRWI", 0x0000707F#32, 0x00005073#32⟩
  | .csrrsi .. => ⟨"CSRRSI", 0x0000707F#32, 0x00006073#32⟩
  | .csrrci .. => ⟨"CSRRCI", 0x0000707F#32, 0x00007073#32⟩
  | .mul .. => ⟨"MUL", 0xFE00707F#32, 0x02000033#32⟩
  | .mulh .. => ⟨"MULH", 0xFE00707F#32, 0x02001033#32⟩
  | .mulhsu .. => ⟨"MULHSU", 0xFE00707F#32, 0x02002033#32⟩
  | .mulhu .. => ⟨"MULHU", 0xFE00707F#32, 0x02003033#32⟩
  | .div .. => ⟨"DIV", 0xFE00707F#32, 0x02004033#32⟩
  | .divu .. => ⟨"DIVU", 0xFE00707F#32, 0x02005033#32⟩
  | .rem .. => ⟨"REM", 0xFE00707F#32, 0x02006033#32⟩
  | .remu .. => ⟨"REMU", 0xFE00707F#32, 0x02007033#32⟩
  | .lrW .. => ⟨"LR.W", 0xF9F0707F#32, 0x1000202F#32⟩
  | .scW .. => ⟨"SC.W", 0xF800707F#32, 0x1800202F#32⟩
  | .amoswapW .. => ⟨"AMOSWAP.W", 0xF800707F#32, 0x0800202F#32⟩
  | .amoaddW .. => ⟨"AMOADD.W", 0xF800707F#32, 0x0000202F#32⟩
  | .amoxorW .. => ⟨"AMOXOR.W", 0xF800707F#32, 0x2000202F#32⟩
  | .amoandW .. => ⟨"AMOAND.W", 0xF800707F#32, 0x6000202F#32⟩
  | .amoorW .. => ⟨"AMOOR.W", 0xF800707F#32, 0x4000202F#32⟩
  | .amominW .. => ⟨"AMOMIN.W", 0xF800707F#32, 0x8000202F#32⟩
  | .amomaxW .. => ⟨"AMOMAX.W", 0xF800707F#32, 0xA000202F#32⟩
  | .amominuW .. => ⟨"AMOMINU.W", 0xF800707F#32, 0xC000202F#32⟩
  | .amomaxuW .. => ⟨"AMOMAXU.W", 0xF800707F#32, 0xE000202F#32⟩
  | .flw .. => ⟨"FLW", 0x0000707F#32, 0x00002007#32⟩
  | .fsw .. => ⟨"FSW", 0x0000707F#32, 0x00002027#32⟩
  | .faddS .. => ⟨"FADD.S", 0xFE00007F#32, 0x00000053#32⟩
  | .fsubS .. => ⟨"FSUB.S", 0xFE00007F#32, 0x08000053#32⟩
  | .fmulS .. => ⟨"FMUL.S", 0xFE00007F#32, 0x10000053#32⟩
  | .fdivS .. => ⟨"FDIV.S", 0xFE00007F#32, 0x18000053#32⟩
  | .fsqrtS .. => ⟨"FSQRT.S", 0xFFF0007F#32, 0x58000053#32⟩
  | .fminS .. => ⟨"FMIN.S", 0xFE00707F#32, 0x28000053#32⟩
  | .fmaxS .. => ⟨"FMAX.S", 0xFE00707F#32, 0x28001053#32⟩
  | .fmaddS .. => ⟨"FMADD.S", 0x0600007F#32, 0x00000043#32⟩
  | .fmsubS .. => ⟨"FMSUB.S", 0x0600007F#32, 0x00000047#32⟩
  | .fnmsubS .. => ⟨"FNMSUB.S", 0x0600007F#32, 0x0000004B#32⟩
  | .fnmaddS .. => ⟨"FNMADD.S", 0x0600007F#32, 0x0000004F#32⟩
  | .fcvtWS .. => ⟨"FCVT.W.S", 0xFFF0007F#32, 0xC0000053#32⟩
  | .fcvtWuS .. => ⟨"FCVT.WU.S", 0xFFF0007F#32, 0xC0100053#32⟩
  | .fcvtSW .. => ⟨"FCVT.S.W", 0xFFF0007F#32, 0xD0000053#32⟩
  | .fcvtSWu .. => ⟨"FCVT.S.WU", 0xFFF0007F#32, 0xD0100053#32⟩
  | .fmvXS .. => ⟨"FMV.X.S", 0xFFF0707F#32, 0xE0000053#32⟩
  | .fmvSX .. => ⟨"FMV.S.X", 0xFFF0707F#32, 0xF0000053#32⟩
  | .feqS .. => ⟨"FEQ.S", 0xFE00707F#32, 0xA0002053#32⟩
  | .fltS .. => ⟨"FLT.S", 0xFE00707F#32, 0xA0001053#32⟩
  | .fleS .. => ⟨"FLE.S", 0xFE00707F#32, 0xA0000053#32⟩
  | .fsgnjS .. => ⟨"FSGNJ.S", 0xFE00707F#32, 0x20000053#32⟩
  | .fsgnjnS .. => ⟨"FSGNJN.S", 0xFE00707F#32, 0x20001053#32⟩
  | .fsgnjxS .. => ⟨"FSGNJX.S", 0xFE00707F#32, 0x20002053#32⟩
  | .fclassS .. => ⟨"FCLASS.S", 0xFFF0707F#32, 0xE0001053#32⟩
  | .fld .. => ⟨"FLD", 0x0000707F#32, 0x00003007#32⟩
  | .fsd .. => ⟨"FSD", 0x0000707F#32, 0x00003027#32⟩
  | .faddD .. => ⟨"FADD.D", 0xFE00007F#32, 0x02000053#32⟩
  | .fsubD .. => ⟨"FSUB.D", 0xFE00007F#32, 0x0A000053#32⟩
  | .fmulD .. => ⟨"FMUL.D", 0xFE00007F#32, 0x12000053#32⟩
  | .fdivD .. => ⟨"FDIV.D", 0xFE00007F#32, 0x1A000053#32⟩
  | .fsqrtD .. => ⟨"FSQRT.D", 0xFFF0007F#32, 0x5A000053#32⟩
  | .fminD .. => ⟨"FMIN.D", 0xFE00707F#32, 0x2A000053#32⟩
  | .fmaxD .. => ⟨"FMAX.D", 0xFE00707F#32, 0x2A001053#32⟩
  | .fmaddD .. => ⟨"FMADD.D", 0x0600007F#32, 0x02000043#32⟩
  | .fmsubD .. => ⟨"FMSUB.D", 0x0600007F#32, 0x02000047#32⟩
  | .fnmsubD .. => ⟨"FNMSUB.D", 0x0600007F#32, 0x0200004B#32⟩
  | .fnmaddD .. => ⟨"FNMADD.D", 0x0600007F#32, 0x0200004F#32⟩
  | .fcvtWD .. => ⟨"FCVT.W.D", 0xFFF0007F#32, 0xC2000053#32⟩
  | .fcvtWuD .. => ⟨"FCVT.WU.D", 0xFFF0007F#32, 0xC2100053#32⟩
  | .fcvtDW .. => ⟨"FCVT.D.W", 0xFFF0007F#32, 0xD2000053#32⟩
  | .fcvtDWu .. => ⟨"FCVT.D.WU", 0xFFF0007F#32, 0xD2100053#32⟩
  | .feqD .. => ⟨"FEQ.D", 0xFE00707F#32, 0xA2002053#32⟩
  | .fltD .. => ⟨"FLT.D", 0xFE00707F#32, 0xA2001053#32⟩
  | .fleD .. => ⟨"FLE.D", 0xFE00707F#32, 0xA2000053#32⟩
  | .fsgnjD .. => ⟨"FSGNJ.D", 0xFE00707F#32, 0x22000053#32⟩
  | .fsgnjnD .. => ⟨"FSGNJN.D", 0xFE00707F#32, 0x22001053#32⟩
  | .fsgnjxD .. => ⟨"FSGNJX.D", 0xFE00707F#32, 0x22002053#32⟩
  | .fclassD .. => ⟨"FCLASS.D", 0xFFF0707F#32, 0xE2001053#32⟩
  | .fcvtSD .. => ⟨"FCVT.S.D", 0xFFF0007F#32, 0x40100053#32⟩
  | .fcvtDS .. => ⟨"FCVT.D.S", 0xFFF0007F#32, 0x42000053#32⟩

/-! ## The rows the source does not name (R177) -/

/-- Whether an instruction's row is marked `(u)` (R177): admitted only when `ADMIT_UNNAMED = true`. -/
def isUnnamed : Instr → Bool
  | .fence .. | .fenceI .. | .csrrw .. | .csrrs .. | .csrrc .. | .csrrwi .. | .csrrsi .. | .csrrci ..
  | .fsgnjS .. | .fsgnjnS .. | .fsgnjxS .. | .fclassS .. | .fsgnjD .. | .fsgnjnD .. | .fsgnjxD ..
  | .fclassD .. | .fcvtSD .. | .fcvtDS .. => true
  | .lui .. | .auipc .. | .jal .. | .jalr .. | .beq .. | .bne .. | .blt .. | .bge .. | .bltu .. | .bgeu ..
  | .lb .. | .lh .. | .lw .. | .lbu .. | .lhu .. | .sb .. | .sh .. | .sw .. | .addi .. | .slti .. | .sltiu ..
  | .xori .. | .ori .. | .andi .. | .slli .. | .srli .. | .srai .. | .add .. | .sub .. | .sll .. | .slt ..
  | .sltu .. | .xor .. | .srl .. | .sra .. | .or .. | .and .. | .scall | .sbreak | .mul .. | .mulh ..
  | .mulhsu .. | .mulhu .. | .div .. | .divu .. | .rem .. | .remu .. | .lrW .. | .scW .. | .amoswapW ..
  | .amoaddW .. | .amoxorW .. | .amoandW .. | .amoorW .. | .amominW .. | .amomaxW .. | .amominuW ..
  | .amomaxuW .. | .flw .. | .fsw .. | .faddS .. | .fsubS .. | .fmulS .. | .fdivS .. | .fsqrtS .. | .fminS ..
  | .fmaxS .. | .fmaddS .. | .fmsubS .. | .fnmsubS .. | .fnmaddS .. | .fcvtWS .. | .fcvtWuS .. | .fcvtSW ..
  | .fcvtSWu .. | .fmvXS .. | .fmvSX .. | .feqS .. | .fltS .. | .fleS .. | .fld .. | .fsd .. | .faddD ..
  | .fsubD .. | .fmulD .. | .fdivD .. | .fsqrtD .. | .fminD .. | .fmaxD .. | .fmaddD .. | .fmsubD ..
  | .fnmsubD .. | .fnmaddD .. | .fcvtWD .. | .fcvtWuD .. | .fcvtDW .. | .fcvtDWu .. | .feqD .. | .fltD ..
  | .fleD .. => false

end Sys2Proof
end

