-- ==== Sys2Proof/Machine/Ops.lean ====
section
/-! DEFINITION. The named operations over registers, memory, the memory port and `status`: 00_scope R15 to R17, 20_memory R101 to
R107, 60_exceptions R650 to R661. A halt, a fault and a stuck step are taken here, each as one shared operation. -/

namespace Sys2Proof.Machine

/-- The outcome of an instruction or a step. -/
abbrev Result := Host.Outcome State Fault Refusal

/-! ## Registers -/

/-- `x[r]`: 0 for `r = 0` (R15, 10_state R51). -/
def readX (r : Reg) (s : State) : Word := if r = 0#5 then 0#32 else s.x.get r.toFin

/-- The integer register file after `x[r] <- v`; a write to `x0` is discarded (R15, R51). -/
def putX (file : Vector Word 32) (r : Reg) (v : Word) : Vector Word 32 :=
  if r = 0#5 then file else file.set r.toNat v r.isLt

/-- `x[r] <- v` (R15, R51). -/
def writeX (r : Reg) (v : Word) (s : State) : State := { s with x := putX s.x r v }

/-- `f[r]`: one raw slot (R15, R56). -/
def readF (r : Reg) (s : State) : Word := s.f.get r.toFin

/-- The slots after `f[r] <- v` (R15, R59). -/
def putF (file : Vector Word 32) (r : Reg) (v : Word) : Vector Word 32 := file.set r.toNat v r.isLt

/-- `f[r] <- v`: no slot is hardwired (R15, R59). -/
def writeF (r : Reg) (v : Word) (s : State) : State := { s with f := putF s.f r v }

/-- `pc <- t` (R17). -/
def jumpTo (t : Word) (s : State) : State := { s with pc := t }

/-- `pc <- pc0 + 4`, modulo 2^32 (41_control_flow R250). -/
def advance (s : State) : State := jumpTo (s.pc + 4#32) s

/-! ## Memory (20_memory) -/

/-- What an address that memory does not list reads as. DESIGN CHOICE, unsafe: the spec leaves the launch memory to the
environment (93 U12); its vectors take 0. Log entry 1. -/
def unlistedByte : Byte := 0#8

/-- The byte at an address. -/
def Memory.get : Memory → Nat → Byte
  | [], _ => unlistedByte
  | (k, v) :: rest, a => if k = a then v else Memory.get rest a

/-- Memory with one byte written, in canonical form again: writing `unlistedByte` removes the entry. -/
def Memory.put : Memory → Nat → Byte → Memory
  | [], a, b => if b = unlistedByte then [] else [(a, b)]
  | (k, v) :: rest, a, b =>
    if a < k then (if b = unlistedByte then (k, v) :: rest else (a, b) :: (k, v) :: rest)
    else if a = k then (if b = unlistedByte then rest else (a, b) :: rest)
    else (k, v) :: Memory.put rest a b

/-- The canonical form: addresses strictly rising and below 2^32 (R103), no entry equal to `unlistedByte`. -/
def Memory.wf : Memory → Bool
  | [] => true
  | [(k, v)] => decide (k < 2 ^ 32) && !decide (v = unlistedByte)
  | (k, v) :: (k', v') :: rest =>
    decide (k < k') && !decide (v = unlistedByte) && Memory.wf ((k', v') :: rest)

/-- The memory byte at a 32-bit address (R101). -/
def readByte (m : Memory) (a : Word) : Byte := Memory.get m a.toNat

/-- `MemRead(a, 1)` (R101). -/
def memRead8 (m : Memory) (a : Word) : BitVec 8 := readByte m a

/-- `MemRead(a, 2)`: little-endian, addresses modulo 2^32 (R101). -/
def memRead16 (m : Memory) (a : Word) : BitVec 16 := readByte m (a + 1#32) ++ readByte m a

/-- `MemRead(a, 4)`: little-endian, addresses modulo 2^32 (R101). -/
def memRead32 (m : Memory) (a : Word) : Word :=
  readByte m (a + 3#32) ++ readByte m (a + 2#32) ++ readByte m (a + 1#32) ++ readByte m a

/-- `MemWrite`: the bytes of a value from the lowest address up, addresses modulo 2^32 (R102). -/
def memWrite (m : Memory) (a : Word) : List Byte → Memory
  | [] => m
  | b :: bs => memWrite (Memory.put m a.toNat b) (a + 1#32) bs

/-- The bytes `MemWrite(a, 1, v)` stores (R102). -/
def bytes8 (v : Word) : List Byte := [v.extractLsb' 0 8]
/-- The bytes `MemWrite(a, 2, v)` stores, low byte first (R102). -/
def bytes16 (v : Word) : List Byte := [v.extractLsb' 0 8, v.extractLsb' 8 8]
/-- The bytes `MemWrite(a, 4, v)` stores, low byte first (R102). -/
def bytes32 (v : Word) : List Byte := bytesOfWord v
/-- The bytes of FSD's two words, low word first (R106, 42_load_store R312). -/
def bytes64 (v : Dword) : List Byte := bytesOfWord (v.extractLsb' 0 32) ++ bytesOfWord (v.extractLsb' 32 32)

/-- A set of byte addresses with one more, kept strictly rising. -/
def insertAddr (a : Nat) : List Nat → List Nat
  | [] => [a]
  | k :: rest => if a < k then a :: k :: rest else if a = k then k :: rest else k :: insertAddr a rest

/-- `modified` with `n` bytes from `a` added, addresses modulo 2^32 (10_state R69). -/
def markModified (set : List Nat) (a : Word) : Nat → List Nat
  | 0 => set
  | n + 1 => markModified (insertAddr a.toNat set) (a + 1#32) n

/-- A store's effect: the bytes written (R102) and, when `FETCH_COHERENCE = fault`, their addresses in `modified`
(R69, R120; log entry 10). -/
def storeBytes (a : Word) (bs : List Byte) (s : State) : State :=
  { s with
    mem := memWrite s.mem a bs
    modified := match s.cfg.fetchCoherence with
      | .fault => markModified s.modified a bs.length
      | .immediate => s.modified }

/-! ## The memory port's checks -/

/-- A port call (R100, R106): address, size in bytes, kind. -/
structure PortCall where
  addr : Word
  size : Nat
  kind : AccessKind
  deriving DecidableEq, Repr

/-- Whether one entry of the configuration refuses a call. -/
def refusalApplies (r : AdmitRefusal) (c : PortCall) : Bool :=
  decide (r.lo ≤ c.addr.toNat) && decide (c.addr.toNat ≤ r.hi)
    && (match r.size with | none => true | some n => decide (n = c.size))
    && (match r.kind with | none => true | some k => decide (k = c.kind))

/-- `MEM_ADMIT` (R107): no entry refuses the call. -/
def memAdmit (cfg : Config) (c : PortCall) : Bool := cfg.memRefusals.all fun r => !refusalApplies r c

/-- `MisalignCheck` fails (R105): the address is not a multiple of `n`, and `MISALIGNED_DATA = fault`. -/
def misalignFaults (cfg : Config) (a : Word) (n : Nat) : Bool :=
  match cfg.misalignedData with
  | .fault => decide (a.toNat % n ≠ 0)
  | .bytewise => false

/-! ## The outcomes that end a run (60_exceptions) -/

/-- The word at `pc`. Every fault after the fetch is raised before anything is written, so this is the word the step
fetched (R655; log entry 9). -/
def currentWord (s : State) : Word := memRead32 s.mem s.pc

/-- TAKING A FAULT (R652, R655): `status` and the record are set, and nothing else changes, `pc` included. -/
def raiseFaultWith (reason : FaultReason) (word addr : Word) (s : State) : Result :=
  .next { s with status := .faulted reason, record := some ⟨reason, s.pc, word, addr⟩ }

/-- A fault of a fetched instruction: the record holds its word (R655). -/
def raiseFault (reason : FaultReason) (addr : Word) (s : State) : Result :=
  raiseFaultWith reason (currentWord s) addr s

/-- A fault of the fetch itself: the record's word is 0 and its address is `pc` (R655, R660, R661). -/
def raiseFetchFault (reason : FaultReason) (s : State) : Result :=
  raiseFaultWith reason 0#32 s.pc s

/-- TAKING A HALT (R650): the instruction's own effects stand, `pc <- pc0 + 4`, and `status` is set. No record (R650). -/
def raiseHalt (reason : HaltReason) (s : State) : Result :=
  .next { advance s with status := .halted reason }

/-- STUCK (R107, R658): nothing but `status` changes. -/
def raiseStuck (s : State) : Result := .next { s with status := .stuck }

/-! There is no return from a halt, a fault or a stuck step but a new `begin` (R651, R658, R664): `beginRun` of
Machine/Port.lean. -/

/-- The checks every data access passes before its first port call, in the order of 42_load_store R300 and 44_atomic R400:
alignment (R105), then the admission of every port call (R107). The record's address is the access's own (R655). -/
def withAccess (a : Word) (align : Nat) (calls : List PortCall) (s : State) (done : Result) : Result :=
  if misalignFaults s.cfg a align then raiseFault .dataMisaligned a s
  else if calls.all (memAdmit s.cfg) then done
  else raiseStuck s

/-! ## Endings shared by the instructions -/

/-- `x[rd] <- v`, then `pc <- pc0 + 4`. -/
def finishX (rd : Reg) (v : Word) (s : State) : Result := .next (advance (writeX rd v s))

/-- `x[rd] <- v ; setflags(flags)`, then `pc <- pc0 + 4`. -/
def finishXFlags (rd : Reg) (v : Word) (flags : Flags) (s : State) : Result :=
  .next (advance (setFlags flags (writeX rd v s)))

/-- `f[rd] <- v`, then `pc <- pc0 + 4`. -/
def finishF (rd : Reg) (v : Word) (s : State) : Result := .next (advance (writeF rd v s))

/-- `f[rd] <- r ; setflags(flags)`, then `pc <- pc0 + 4`. -/
def finishFFlags (rd : Reg) (r : Word × Flags) (s : State) : Result :=
  .next (advance (setFlags r.2 (writeF rd r.1 s)))

/-! ## The fetch boundary (R660, R661) -/

/-- The bytes of the word at `pc` that are in `modified` (R661). -/
def fetchUnfenced (s : State) : Bool :=
  match s.cfg.fetchCoherence with
  | .immediate => false
  | .fault =>
    s.modified.contains s.pc.toNat || s.modified.contains (s.pc + 1#32).toNat
      || s.modified.contains (s.pc + 2#32).toNat || s.modified.contains (s.pc + 3#32).toNat

/-- The port call of a fetch: a word read at `pc` (R660; log entry 5). -/
def fetchCall (s : State) : PortCall := ⟨s.pc, 4, .read⟩

/-- Whether an instruction is admitted by `ADMIT_UNNAMED` (30_encoding R177). -/
def admitted (cfg : Config) (i : Instr) : Bool := cfg.admitUnnamed || !isUnnamed i

/-- What the fetch and the decoding of one step give. -/
inductive Fetched
  | instr (i : Instr)
  | fault (reason : FaultReason)
  | refused
  | illegal
  deriving DecidableEq, Repr

/-- Fetch and decode at `pc`, the checks in the order of R656: alignment, unfenced bytes, admission, decoding with
`ADMIT_UNNAMED`. -/
def fetch (s : State) : Fetched :=
  if s.pc.extractLsb' 0 2 ≠ 0#2 then .fault .fetchMisaligned
  else if fetchUnfenced s then .fault .fetchUnfenced
  else if !memAdmit s.cfg (fetchCall s) then .refused
  else match decode (currentWord s) with
    | .error _ => .illegal
    | .ok i => if admitted s.cfg i then .instr i else .illegal

/-- `s` with a word stored where the next fetch reads it, and fetchable: its bytes are taken out of `modified`. -/
def placeFetchWord (s : State) (w : Word) : State :=
  { s with
    mem := memWrite s.mem s.pc (bytesOfWord w)
    modified := s.modified.filter fun a =>
      !(a == s.pc.toNat || a == (s.pc + 1#32).toNat || a == (s.pc + 2#32).toNat || a == (s.pc + 3#32).toNat) }

end Sys2Proof.Machine
end

