-- ==== Sys2Proof/Machine/Operands.lean ====
section
/-! DEFINITION. Operand forms: immediates (30_encoding R162 to R169), effective addresses (20_memory R111), shift amounts (R168),
double pairs (10_state R57) and rounding modes (45_fp_common R454 to R457), the last two with the faults they raise. -/

namespace Sys2Proof.Machine

/-! ## Immediates -/

/-- The I- and S-immediate: the 12-bit field sign-extended (R162, R163, R164). -/
def imm12 (imm : BitVec 12) : Word := imm.signExtend 32

/-- The U-immediate: the 20-bit field in bits 31:12, zeros below (R166). -/
def immU (imm : BitVec 20) : Word := imm ++ 0#12

/-- The branch offset sign-extended (R165). -/
def immB (offset : BitVec 13) : Word := offset.signExtend 32

/-- The jump offset sign-extended (R167). -/
def immJ (offset : BitVec 21) : Word := offset.signExtend 32

/-- The effective address `x[rs1] + sext_32(imm12)`, modulo 2^32 (R111, 42_load_store R300). -/
def effAddr (rs1 : Reg) (imm : BitVec 12) (s : State) : Word := readX rs1 s + imm12 imm

/-- A register shift amount: the low 5 bits, 0 to 31 (R168). -/
def shiftAmount (v : Word) : Nat := (v.extractLsb' 0 5).toNat

/-- 1 or 0, the result of a comparison. -/
def boolWord (b : Bool) : Word := if b then 1#32 else 0#32

/-! ## Double pairs (R57) -/

/-- The slots of a double register: `lo` holds bits 31:0, `hi` bits 63:32. -/
structure Pair where
  lo : Reg
  hi : Reg
  deriving DecidableEq, Repr

/-- The pair a field names under `DPAIR_MODE`, or none (R57). -/
def pairOf (cfg : Config) (r : Reg) : Option Pair :=
  match cfg.dpairMode with
  | .evenPair => if r.getLsbD 0 then none else some ⟨r, r + 1#5⟩
  | .scaled => if 16 ≤ r.toNat then none else some ⟨2#5 * r, 2#5 * r + 1#5⟩

/-- `F64(r)` of a mapped pair: the high slot above the low one (R57). -/
def readPair (p : Pair) (s : State) : Dword := readF p.hi s ++ readF p.lo s

/-- `F64(r) <- v` of a mapped pair (R57). -/
def writePair (p : Pair) (v : Dword) (s : State) : State :=
  writeF p.hi (v.extractLsb' 32 32) (writeF p.lo (v.extractLsb' 0 32) s)

/-- The register-pair check of one double operand: Fault(REG_PAIR) where the field names no pair (R57, R480). -/
def withPair (r : Reg) (s : State) (done : Pair → Result) : Result :=
  match pairOf s.cfg r with
  | some p => done p
  | none => raiseFault .regPair 0#32 s

/-- `F64(rd) <- v`, then `pc <- pc0 + 4`. -/
def finishD (d : Pair) (v : Dword) (s : State) : Result := .next (advance (writePair d v s))

/-- `F64(rd) <- r ; setflags(flags)`, then `pc <- pc0 + 4`. -/
def finishDFlags (d : Pair) (r : Dword × Flags) (s : State) : Result :=
  .next (advance (setFlags r.2 (writePair d r.1 s)))

/-! ## Rounding modes (R454 to R457) -/

/-- The rounding mode a 3-bit value names; 5, 6 and 7 name none (R454, 10_state R62). -/
def modeOf (v : BitVec 3) : Option Fp.Mode :=
  match v with
  | 0b000#3 => some .rne
  | 0b001#3 => some .rtz
  | 0b010#3 => some .rdn
  | 0b011#3 => some .rup
  | 0b100#3 => some .rmm
  | _ => none

/-- `rm_eff(rm)` with its checks: `rm = 111` takes `frm`, any other `rm` stands for itself, and a value that names no
mode gives none (R455, R456, R457). -/
def effectiveMode (rm frm : BitVec 3) : Option Fp.Mode := modeOf (if rm = 0b111#3 then frm else rm)

/-- The rounding-mode check, before anything else the instruction does: Fault(ILLEGAL) where it fails (R455 to R457). -/
def withMode (rm : BitVec 3) (s : State) (done : Fp.Mode → Result) : Result :=
  match effectiveMode rm s.frm with
  | some mode => done mode
  | none => raiseFault .illegal 0#32 s

end Sys2Proof.Machine
end

