-- ==== Sys2Proof/Machine/Atomic.lean ====
section
/-! DEFINITION. The atomic read-modify-write controller (44_atomic): no reservation (R412), `aq` and `rl` ignored (R400). -/

namespace Sys2Proof.Machine

/-- The AMO template (R414): the old word into `x[rd]`, the combined word back to memory, always written; every operand
is read before any write (R413). -/
def amo (op : Word → Word → Word) (rd rs1 rs2 : Reg) (s : State) : Result :=
  withAccess (readX rs1 s) 4 [⟨readX rs1 s, 4, .read⟩, ⟨readX rs1 s, 4, .write⟩] s
    (.next (advance (writeX rd (memRead32 s.mem (readX rs1 s))
      (storeBytes (readX rs1 s) (bytes32 (op (memRead32 s.mem (readX rs1 s)) (readX rs2 s))) s))))

/-- The signed minimum: `old` where it is less, else `b` (R408). -/
def minSigned (old b : Word) : Word := if old.slt b then old else b
/-- The signed maximum: `old` where it is greater, else `b` (R409). -/
def maxSigned (old b : Word) : Word := if b.slt old then old else b
/-- The unsigned minimum: `old` where it is less, else `b` (R410). -/
def minUnsigned (old b : Word) : Word := if old.ult b then old else b
/-- The unsigned maximum: `old` where it is greater, else `b` (R411). -/
def maxUnsigned (old b : Word) : Word := if b.ult old then old else b

/-- LR.W (R401): an unconditional load of the word at `x[rs1]`. -/
def execLrW (rd rs1 : Reg) (s : State) : Result :=
  withAccess (readX rs1 s) 4 [⟨readX rs1 s, 4, .read⟩] s
    (finishX rd (memRead32 s.mem (readX rs1 s)) s)

/-- SC.W (R402): an unconditional store of `x[rs2]` at `x[rs1]`; `x[rd] <- 0`, success. -/
def execScW (rd rs1 rs2 : Reg) (s : State) : Result :=
  withAccess (readX rs1 s) 4 [⟨readX rs1 s, 4, .write⟩] s
    (.next (advance (writeX rd 0#32 (storeBytes (readX rs1 s) (bytes32 (readX rs2 s)) s))))

/-- AMOSWAP.W (R403): writes `x[rs2]`. -/
def execAmoswapW (rd rs1 rs2 : Reg) (s : State) : Result :=
  amo (fun _ b => b) rd rs1 rs2 s

/-- AMOADD.W (R404): writes the sum, wrapping. -/
def execAmoaddW (rd rs1 rs2 : Reg) (s : State) : Result :=
  amo (fun old b => old + b) rd rs1 rs2 s

/-- AMOXOR.W (R405): writes the exclusive or. -/
def execAmoxorW (rd rs1 rs2 : Reg) (s : State) : Result :=
  amo (fun old b => old ^^^ b) rd rs1 rs2 s

/-- AMOAND.W (R406): writes the and. -/
def execAmoandW (rd rs1 rs2 : Reg) (s : State) : Result :=
  amo (fun old b => old &&& b) rd rs1 rs2 s

/-- AMOOR.W (R407): writes the or. -/
def execAmoorW (rd rs1 rs2 : Reg) (s : State) : Result :=
  amo (fun old b => old ||| b) rd rs1 rs2 s

/-- AMOMIN.W (R408): writes the signed minimum. -/
def execAmominW (rd rs1 rs2 : Reg) (s : State) : Result :=
  amo minSigned rd rs1 rs2 s

/-- AMOMAX.W (R409): writes the signed maximum. -/
def execAmomaxW (rd rs1 rs2 : Reg) (s : State) : Result :=
  amo maxSigned rd rs1 rs2 s

/-- AMOMINU.W (R410): writes the unsigned minimum. -/
def execAmominuW (rd rs1 rs2 : Reg) (s : State) : Result :=
  amo minUnsigned rd rs1 rs2 s

/-- AMOMAXU.W (R411): writes the unsigned maximum. -/
def execAmomaxuW (rd rs1 rs2 : Reg) (s : State) : Result :=
  amo maxUnsigned rd rs1 rs2 s

end Sys2Proof.Machine
end

