-- ==== Sys2Proof/Machine/ControlFlow.lean ====
section
/-! DEFINITION. The control-flow unit (41_control_flow): no delay slot, no alignment check of a target (R251, R252). -/

namespace Sys2Proof.Machine

/-- A conditional branch: `pc <- pc0 + immB` where the condition holds, else `pc <- pc0 + 4` (R253). -/
def branch (taken : Bool) (offset : BitVec 13) (s : State) : Result :=
  .next (if taken then jumpTo (s.pc + immB offset) s else advance s)

/-- A jump: the link `pc0 + 4` into `x[rd]`, then `pc <- target` (R259). The target is computed before the link is
written (R19, R262). -/
def jumpAndLink (rd : Reg) (target : Word) (s : State) : Result :=
  .next (jumpTo target (writeX rd (s.pc + 4#32) s))

/-- The JALR target: bit 0 of `x[rs1] + immI` cleared (R261). -/
def jalrTarget (rs1 : Reg) (imm : BitVec 12) (s : State) : Word := effAddr rs1 imm s &&& 0xFFFFFFFE#32

/-- BEQ (R253): taken where the operands are equal. -/
def execBeq (rs1 rs2 : Reg) (offset : BitVec 13) (s : State) : Result :=
  branch (readX rs1 s == readX rs2 s) offset s

/-- BNE (R254): taken where the operands differ. -/
def execBne (rs1 rs2 : Reg) (offset : BitVec 13) (s : State) : Result :=
  branch (readX rs1 s != readX rs2 s) offset s

/-- BLT (R255): taken where `x[rs1] <s x[rs2]`. -/
def execBlt (rs1 rs2 : Reg) (offset : BitVec 13) (s : State) : Result :=
  branch ((readX rs1 s).slt (readX rs2 s)) offset s

/-- BGE (R256): taken where `x[rs1] >=s x[rs2]`. -/
def execBge (rs1 rs2 : Reg) (offset : BitVec 13) (s : State) : Result :=
  branch (!(readX rs1 s).slt (readX rs2 s)) offset s

/-- BLTU (R257): taken where `x[rs1] <u x[rs2]`. -/
def execBltu (rs1 rs2 : Reg) (offset : BitVec 13) (s : State) : Result :=
  branch ((readX rs1 s).ult (readX rs2 s)) offset s

/-- BGEU (R258): taken where `x[rs1] >=u x[rs2]`. -/
def execBgeu (rs1 rs2 : Reg) (offset : BitVec 13) (s : State) : Result :=
  branch (!(readX rs1 s).ult (readX rs2 s)) offset s

/-- JAL (R260): `x[rd] <- pc0 + 4 ; pc <- pc0 + immJ`. -/
def execJal (rd : Reg) (offset : BitVec 21) (s : State) : Result :=
  jumpAndLink rd (s.pc + immJ offset) s

/-- JALR (R262): `x[rd] <- pc0 + 4 ; pc <- (x[rs1] + immI) & ~1`. -/
def execJalr (rd rs1 : Reg) (imm : BitVec 12) (s : State) : Result :=
  jumpAndLink rd (jalrTarget rs1 imm s) s

end Sys2Proof.Machine
end

