-- ==== Sys2Proof/Machine/Double.lean ====
section
/-! DEFINITION. The double-precision instructions (47_fp_double): the rm check, then the pair checks of `rd`, `rs1`, `rs2`, `rs3` in that
order (45_fp_common R480), then the operation. -/

namespace Sys2Proof.Machine

/-- A two-operand arithmetic instruction (R551 to R554). -/
def arithD (op : Config → Fp.Mode → Dword → Dword → Dword × Flags) (rd rs1 rs2 : Reg) (rm : BitVec 3) (s : State) : Result :=
  withMode rm s fun mode =>
    withPair rd s fun d => withPair rs1 s fun a => withPair rs2 s fun b =>
      finishDFlags d (op s.cfg mode (readPair a s) (readPair b s)) s

/-- A minimum or a maximum (R556, R557). -/
def minMaxD (op : Config → Dword → Dword → Dword × Flags) (rd rs1 rs2 : Reg) (s : State) : Result :=
  withPair rd s fun d => withPair rs1 s fun a => withPair rs2 s fun b =>
    finishDFlags d (op s.cfg (readPair a s) (readPair b s)) s

/-- A fused multiply-add (R558 to R561). -/
def fusedD (negp negc : Bool) (rd rs1 rs2 rs3 : Reg) (rm : BitVec 3) (s : State) : Result :=
  withMode rm s fun mode =>
    withPair rd s fun d => withPair rs1 s fun a => withPair rs2 s fun b => withPair rs3 s fun c =>
      finishDFlags d (Fp.fma .D s.cfg mode negp negc (readPair a s) (readPair b s) (readPair c s)) s

/-- A conversion to an integer register (R562, R563). -/
def toIntD (kind : Fp.IntKind) (rd rs1 : Reg) (rm : BitVec 3) (s : State) : Result :=
  withMode rm s fun mode =>
    withPair rs1 s fun a =>
      finishXFlags rd (Fp.toInt .D mode kind (readPair a s)).1 (Fp.toInt .D mode kind (readPair a s)).2 s

/-- A conversion from an integer register: always exact, no flag (R564, R565). -/
def fromIntD (kind : Fp.IntKind) (rd rs1 : Reg) (rm : BitVec 3) (s : State) : Result :=
  withMode rm s fun mode =>
    withPair rd s fun d => finishD d (Fp.fromInt .D mode kind (readX rs1 s)).1 s

/-- A comparison into an integer register (R566 to R568). -/
def compareD (op : Fp.CmpOp) (rd rs1 rs2 : Reg) (s : State) : Result :=
  withPair rs1 s fun a => withPair rs2 s fun b =>
    finishXFlags rd (Fp.compare .D op (readPair a s) (readPair b s)).1 (Fp.compare .D op (readPair a s) (readPair b s)).2 s

/-- A sign injection: `neg` gives the result's sign from both operands (R569 to R571). -/
def signInjectD (neg : Dword → Dword → Bool) (rd rs1 rs2 : Reg) (s : State) : Result :=
  withPair rd s fun d => withPair rs1 s fun a => withPair rs2 s fun b =>
    finishD d (Fp.withSign .D (neg (readPair a s) (readPair b s)) (readPair a s)) s

/-- FADD.D (R551): `Add_D`. -/
def execFaddD (rd rs1 rs2 : Reg) (rm : BitVec 3) (s : State) : Result :=
  arithD (Fp.add .D) rd rs1 rs2 rm s

/-- FSUB.D (R552): `Sub_D`. -/
def execFsubD (rd rs1 rs2 : Reg) (rm : BitVec 3) (s : State) : Result :=
  arithD (Fp.sub .D) rd rs1 rs2 rm s

/-- FMUL.D (R553): `Mul_D`. -/
def execFmulD (rd rs1 rs2 : Reg) (rm : BitVec 3) (s : State) : Result :=
  arithD (Fp.mul .D) rd rs1 rs2 rm s

/-- FDIV.D (R554): `Div_D`. -/
def execFdivD (rd rs1 rs2 : Reg) (rm : BitVec 3) (s : State) : Result :=
  arithD (Fp.div .D) rd rs1 rs2 rm s

/-- FSQRT.D (R555): `Sqrt_D`; a negative operand halts with NV accrued and the pair unwritten (R469, R650). -/
def execFsqrtD (rd rs1 : Reg) (rm : BitVec 3) (s : State) : Result :=
  withMode rm s fun mode =>
    withPair rd s fun d => withPair rs1 s fun a =>
      match Fp.sqrt .D s.cfg mode (readPair a s) with
      | some r => finishDFlags d r s
      | none => raiseHalt .sqrtNeg (setFlags flagNV s)

/-- FMIN.D (R556): `Min_D`. -/
def execFminD (rd rs1 rs2 : Reg) (s : State) : Result :=
  minMaxD (Fp.minimum .D) rd rs1 rs2 s

/-- FMAX.D (R557): `Max_D`. -/
def execFmaxD (rd rs1 rs2 : Reg) (s : State) : Result :=
  minMaxD (Fp.maximum .D) rd rs1 rs2 s

/-- FMADD.D (R558): `(fs1 * fs2) + fs3`, one rounding. -/
def execFmaddD (rd rs1 rs2 rs3 : Reg) (rm : BitVec 3) (s : State) : Result :=
  fusedD false false rd rs1 rs2 rs3 rm s

/-- FMSUB.D (R559): `(fs1 * fs2) - fs3`, one rounding. -/
def execFmsubD (rd rs1 rs2 rs3 : Reg) (rm : BitVec 3) (s : State) : Result :=
  fusedD false true rd rs1 rs2 rs3 rm s

/-- FNMSUB.D (R560): `-(fs1 * fs2) + fs3`, one rounding. -/
def execFnmsubD (rd rs1 rs2 rs3 : Reg) (rm : BitVec 3) (s : State) : Result :=
  fusedD true false rd rs1 rs2 rs3 rm s

/-- FNMADD.D (R561): `-(fs1 * fs2) - fs3`, one rounding. -/
def execFnmaddD (rd rs1 rs2 rs3 : Reg) (rm : BitVec 3) (s : State) : Result :=
  fusedD true true rd rs1 rs2 rs3 rm s

/-- FCVT.W.D (R562): to a signed word. -/
def execFcvtWD (rd rs1 : Reg) (rm : BitVec 3) (s : State) : Result :=
  toIntD .W rd rs1 rm s

/-- FCVT.WU.D (R563): to an unsigned word. -/
def execFcvtWuD (rd rs1 : Reg) (rm : BitVec 3) (s : State) : Result :=
  toIntD .WU rd rs1 rm s

/-- FCVT.D.W (R564): from a signed word. -/
def execFcvtDW (rd rs1 : Reg) (rm : BitVec 3) (s : State) : Result :=
  fromIntD .W rd rs1 rm s

/-- FCVT.D.WU (R565): from an unsigned word. -/
def execFcvtDWu (rd rs1 : Reg) (rm : BitVec 3) (s : State) : Result :=
  fromIntD .WU rd rs1 rm s

/-- FCVT.S.D (R573): double to single; only `rs1` names a pair. -/
def execFcvtSD (rd rs1 : Reg) (rm : BitVec 3) (s : State) : Result :=
  withMode rm s fun mode =>
    withPair rs1 s fun a => finishFFlags rd (Fp.convert .S .D s.cfg mode (readPair a s)) s

/-- FCVT.D.S (R574): single to double; only `rd` names a pair. -/
def execFcvtDS (rd rs1 : Reg) (rm : BitVec 3) (s : State) : Result :=
  withMode rm s fun mode =>
    withPair rd s fun d => finishDFlags d (Fp.convert .D .S s.cfg mode (readF rs1 s)) s

/-- FEQ.D (R566): 1, or 0; NV where either operand is a NaN (90_conflicts C4). -/
def execFeqD (rd rs1 rs2 : Reg) (s : State) : Result :=
  compareD .eq rd rs1 rs2 s

/-- FLT.D (R567): 1, or 0; NV where either operand is a NaN (90_conflicts C4). -/
def execFltD (rd rs1 rs2 : Reg) (s : State) : Result :=
  compareD .lt rd rs1 rs2 s

/-- FLE.D (R568): 1, or 0; NV where either operand is a NaN (90_conflicts C4). -/
def execFleD (rd rs1 rs2 : Reg) (s : State) : Result :=
  compareD .le rd rs1 rs2 s

/-- FSGNJ.D (R569): `fs1` with the sign of `fs2`. -/
def execFsgnjD (rd rs1 rs2 : Reg) (s : State) : Result :=
  signInjectD (fun _ b => Fp.signBit .D b) rd rs1 rs2 s

/-- FSGNJN.D (R570): `fs1` with the opposite of the sign of `fs2`. -/
def execFsgnjnD (rd rs1 rs2 : Reg) (s : State) : Result :=
  signInjectD (fun _ b => !Fp.signBit .D b) rd rs1 rs2 s

/-- FSGNJX.D (R571): `fs1` with the exclusive or of both signs. -/
def execFsgnjxD (rd rs1 rs2 : Reg) (s : State) : Result :=
  signInjectD (fun a b => Fp.signBit .D a != Fp.signBit .D b) rd rs1 rs2 s

/-- FCLASS.D (R572): the class mask of `fs1`. -/
def execFclassD (rd rs1 : Reg) (s : State) : Result :=
  withPair rs1 s fun a => finishX rd (Fp.classMask .D (readPair a s)) s

end Sys2Proof.Machine
end

