-- ==== Sys2Proof/Machine/Integer.lean ====
section
/-! DEFINITION. The integer execution unit (40_integer): 32-bit wrap-around, no flag, no fault (R200). -/

namespace Sys2Proof.Machine

/-- LUI (R201): `x[rd] <- immU`. -/
def execLui (rd : Reg) (imm : BitVec 20) (s : State) : Result :=
  finishX rd (immU imm) s

/-- AUIPC (R202): `x[rd] <- pc0 + immU`. -/
def execAuipc (rd : Reg) (imm : BitVec 20) (s : State) : Result :=
  finishX rd (s.pc + immU imm) s

/-- ADDI (R203): `x[rs1] + immI`, wrapping; NOP is one of its forms. -/
def execAddi (rd rs1 : Reg) (imm : BitVec 12) (s : State) : Result :=
  finishX rd (readX rs1 s + imm12 imm) s

/-- SLTI (R204): 1 where `x[rs1] <s immI`. -/
def execSlti (rd rs1 : Reg) (imm : BitVec 12) (s : State) : Result :=
  finishX rd (boolWord ((readX rs1 s).slt (imm12 imm))) s

/-- SLTIU (R205): 1 where `x[rs1] <u immI`, the immediate sign-extended first. -/
def execSltiu (rd rs1 : Reg) (imm : BitVec 12) (s : State) : Result :=
  finishX rd (boolWord ((readX rs1 s).ult (imm12 imm))) s

/-- XORI (R206): `x[rs1] ^ immI`. -/
def execXori (rd rs1 : Reg) (imm : BitVec 12) (s : State) : Result :=
  finishX rd (readX rs1 s ^^^ imm12 imm) s

/-- ORI (R207): `x[rs1] | immI`. -/
def execOri (rd rs1 : Reg) (imm : BitVec 12) (s : State) : Result :=
  finishX rd (readX rs1 s ||| imm12 imm) s

/-- ANDI (R208): `x[rs1] & immI`. -/
def execAndi (rd rs1 : Reg) (imm : BitVec 12) (s : State) : Result :=
  finishX rd (readX rs1 s &&& imm12 imm) s

/-- SLLI (R209): `x[rs1] << shamt`. -/
def execSlli (rd rs1 : Reg) (shamt : BitVec 5) (s : State) : Result :=
  finishX rd (readX rs1 s <<< shamt.toNat) s

/-- SRLI (R210): `x[rs1] >>u shamt`. -/
def execSrli (rd rs1 : Reg) (shamt : BitVec 5) (s : State) : Result :=
  finishX rd (readX rs1 s >>> shamt.toNat) s

/-- SRAI (R211): `x[rs1] >>s shamt`. -/
def execSrai (rd rs1 : Reg) (shamt : BitVec 5) (s : State) : Result :=
  finishX rd ((readX rs1 s).sshiftRight shamt.toNat) s

/-- ADD (R212): `x[rs1] + x[rs2]`, wrapping. -/
def execAdd (rd rs1 rs2 : Reg) (s : State) : Result :=
  finishX rd (readX rs1 s + readX rs2 s) s

/-- SUB (R213): `x[rs1] - x[rs2]`, wrapping. -/
def execSub (rd rs1 rs2 : Reg) (s : State) : Result :=
  finishX rd (readX rs1 s - readX rs2 s) s

/-- SLL (R214): `x[rs1] << x[rs2][4:0]`. -/
def execSll (rd rs1 rs2 : Reg) (s : State) : Result :=
  finishX rd (readX rs1 s <<< shiftAmount (readX rs2 s)) s

/-- SLT (R215): 1 where `x[rs1] <s x[rs2]`. -/
def execSlt (rd rs1 rs2 : Reg) (s : State) : Result :=
  finishX rd (boolWord ((readX rs1 s).slt (readX rs2 s))) s

/-- SLTU (R216): 1 where `x[rs1] <u x[rs2]`. -/
def execSltu (rd rs1 rs2 : Reg) (s : State) : Result :=
  finishX rd (boolWord ((readX rs1 s).ult (readX rs2 s))) s

/-- XOR (R217): `x[rs1] ^ x[rs2]`. -/
def execXor (rd rs1 rs2 : Reg) (s : State) : Result :=
  finishX rd (readX rs1 s ^^^ readX rs2 s) s

/-- SRL (R218): `x[rs1] >>u x[rs2][4:0]`. -/
def execSrl (rd rs1 rs2 : Reg) (s : State) : Result :=
  finishX rd (readX rs1 s >>> shiftAmount (readX rs2 s)) s

/-- SRA (R219): `x[rs1] >>s x[rs2][4:0]`. -/
def execSra (rd rs1 rs2 : Reg) (s : State) : Result :=
  finishX rd ((readX rs1 s).sshiftRight (shiftAmount (readX rs2 s))) s

/-- OR (R220): `x[rs1] | x[rs2]`. -/
def execOr (rd rs1 rs2 : Reg) (s : State) : Result :=
  finishX rd (readX rs1 s ||| readX rs2 s) s

/-- AND (R221): `x[rs1] & x[rs2]`. -/
def execAnd (rd rs1 rs2 : Reg) (s : State) : Result :=
  finishX rd (readX rs1 s &&& readX rs2 s) s

end Sys2Proof.Machine
end

