-- ==== Sys2Proof/Machine/LoadStore.lean ====
section
/-! DEFINITION. The memory access unit (42_load_store): base plus 12-bit displacement, the checks of R300 before any port call. -/

namespace Sys2Proof.Machine

/-- An integer load of `n` bytes at `a` whose extended value is `v` (R300, R106). -/
def loadX (rd : Reg) (a : Word) (n : Nat) (v : Word) (s : State) : Result :=
  withAccess a n [⟨a, n, .read⟩] s (finishX rd v s)

/-- A store of the bytes `bs`, one port call, at `a` (R300, R106). -/
def storeAt (a : Word) (bs : List Byte) (s : State) : Result :=
  withAccess a bs.length [⟨a, bs.length, .write⟩] s (.next (advance (storeBytes a bs s)))

/-- The two word calls of FLD and FSD, low word first (R106). -/
def doubleCalls (a : Word) (kind : AccessKind) : List PortCall := [⟨a, 4, kind⟩, ⟨a + 4#32, 4, kind⟩]

/-- LB (R301): `x[rd] <- sext_32(MemRead(EA, 1))`. -/
def execLb (rd rs1 : Reg) (imm : BitVec 12) (s : State) : Result :=
  loadX rd (effAddr rs1 imm s) 1 ((memRead8 s.mem (effAddr rs1 imm s)).signExtend 32) s

/-- LH (R302): `x[rd] <- sext_32(MemRead(EA, 2))`. -/
def execLh (rd rs1 : Reg) (imm : BitVec 12) (s : State) : Result :=
  loadX rd (effAddr rs1 imm s) 2 ((memRead16 s.mem (effAddr rs1 imm s)).signExtend 32) s

/-- LW (R303): `x[rd] <- MemRead(EA, 4)`. -/
def execLw (rd rs1 : Reg) (imm : BitVec 12) (s : State) : Result :=
  loadX rd (effAddr rs1 imm s) 4 (memRead32 s.mem (effAddr rs1 imm s)) s

/-- LBU (R304): `x[rd] <- zext_32(MemRead(EA, 1))`. -/
def execLbu (rd rs1 : Reg) (imm : BitVec 12) (s : State) : Result :=
  loadX rd (effAddr rs1 imm s) 1 ((memRead8 s.mem (effAddr rs1 imm s)).zeroExtend 32) s

/-- LHU (R305): `x[rd] <- zext_32(MemRead(EA, 2))`. -/
def execLhu (rd rs1 : Reg) (imm : BitVec 12) (s : State) : Result :=
  loadX rd (effAddr rs1 imm s) 2 ((memRead16 s.mem (effAddr rs1 imm s)).zeroExtend 32) s

/-- SB (R306): the low byte of `x[rs2]` at `EA`. -/
def execSb (rs1 rs2 : Reg) (imm : BitVec 12) (s : State) : Result :=
  storeAt (effAddr rs1 imm s) (bytes8 (readX rs2 s)) s

/-- SH (R307): the low half-word of `x[rs2]` at `EA`. -/
def execSh (rs1 rs2 : Reg) (imm : BitVec 12) (s : State) : Result :=
  storeAt (effAddr rs1 imm s) (bytes16 (readX rs2 s)) s

/-- SW (R308): `x[rs2]` at `EA`. -/
def execSw (rs1 rs2 : Reg) (imm : BitVec 12) (s : State) : Result :=
  storeAt (effAddr rs1 imm s) (bytes32 (readX rs2 s)) s

/-- FLW (R309): raw bits of the word at `EA` into slot `rd`. -/
def execFlw (rd rs1 : Reg) (imm : BitVec 12) (s : State) : Result :=
  withAccess (effAddr rs1 imm s) 4 [⟨effAddr rs1 imm s, 4, .read⟩] s
    (finishF rd (memRead32 s.mem (effAddr rs1 imm s)) s)

/-- FSW (R310): raw bits of slot `rs2` into the word at `EA`. -/
def execFsw (rs1 rs2 : Reg) (imm : BitVec 12) (s : State) : Result :=
  storeAt (effAddr rs1 imm s) (bytes32 (readF rs2 s)) s

/-- FLD (R311): the pair check, then the words at `EA` (low) and `EA + 4` (high) into the pair. -/
def execFld (rd rs1 : Reg) (imm : BitVec 12) (s : State) : Result :=
  withPair rd s fun d =>
    withAccess (effAddr rs1 imm s) 8 (doubleCalls (effAddr rs1 imm s) .read) s
      (finishD d (memRead32 s.mem (effAddr rs1 imm s + 4#32) ++ memRead32 s.mem (effAddr rs1 imm s)) s)

/-- FSD (R312): the pair check, then the low word at `EA` and the high word at `EA + 4`. -/
def execFsd (rs1 rs2 : Reg) (imm : BitVec 12) (s : State) : Result :=
  withPair rs2 s fun p =>
    withAccess (effAddr rs1 imm s) 8 (doubleCalls (effAddr rs1 imm s) .write) s
      (.next (advance (storeBytes (effAddr rs1 imm s) (bytes64 (readPair p s)) s)))

end Sys2Proof.Machine
end

