-- ==== Sys2Proof/Machine/MulDiv.lean ====
section
/-! DEFINITION. The multiply/divide unit (43_muldiv): exact integer products and quotients, narrowed at the end (R350). No fault. -/

namespace Sys2Proof.Machine

/-- Bits 63:32 of an exact product as a 64-bit two's-complement value (R350). -/
def highHalf (p : Int) : Word := (BitVec.ofInt 64 p).extractLsb' 32 32

/-- Bits 31:0 of an exact product (R350). -/
def lowHalf (p : Int) : Word := (BitVec.ofInt 64 p).extractLsb' 0 32

/-- Signed division (R355, R359): by zero all ones, the overflow case the dividend, else truncated toward zero. -/
def divSigned (a b : Word) : Word :=
  if b.toInt = 0 then 0xFFFFFFFF#32
  else if a.toInt = -2 ^ 31 ∧ b.toInt = -1 then 0x80000000#32
  else BitVec.ofInt 32 (a.toInt.tdiv b.toInt)

/-- Unsigned division (R356, R359): by zero all ones. -/
def divUnsigned (a b : Word) : Word :=
  if b.toNat = 0 then 0xFFFFFFFF#32 else BitVec.ofNat 32 (a.toNat / b.toNat)

/-- Signed remainder (R357, R359): by zero the dividend, the overflow case 0, else with the dividend's sign. -/
def remSigned (a b : Word) : Word :=
  if b.toInt = 0 then a
  else if a.toInt = -2 ^ 31 ∧ b.toInt = -1 then 0#32
  else BitVec.ofInt 32 (a.toInt - b.toInt * a.toInt.tdiv b.toInt)

/-- Unsigned remainder (R358, R359): by zero the dividend. -/
def remUnsigned (a b : Word) : Word :=
  if b.toNat = 0 then a else BitVec.ofNat 32 (a.toNat % b.toNat)

/-- MUL (R351): low half of signed × signed. -/
def execMul (rd rs1 rs2 : Reg) (s : State) : Result :=
  finishX rd (lowHalf ((readX rs1 s).toInt * (readX rs2 s).toInt)) s

/-- MULH (R352): high half of signed × signed. -/
def execMulh (rd rs1 rs2 : Reg) (s : State) : Result :=
  finishX rd (highHalf ((readX rs1 s).toInt * (readX rs2 s).toInt)) s

/-- MULHSU (R353): high half of signed `x[rs1]` × unsigned `x[rs2]`. -/
def execMulhsu (rd rs1 rs2 : Reg) (s : State) : Result :=
  finishX rd (highHalf ((readX rs1 s).toInt * ((readX rs2 s).toNat : Int))) s

/-- MULHU (R354): high half of unsigned × unsigned. -/
def execMulhu (rd rs1 rs2 : Reg) (s : State) : Result :=
  finishX rd (highHalf (((readX rs1 s).toNat : Int) * ((readX rs2 s).toNat : Int))) s

/-- DIV (R355): signed division. -/
def execDiv (rd rs1 rs2 : Reg) (s : State) : Result :=
  finishX rd (divSigned (readX rs1 s) (readX rs2 s)) s

/-- DIVU (R356): unsigned division. -/
def execDivu (rd rs1 rs2 : Reg) (s : State) : Result :=
  finishX rd (divUnsigned (readX rs1 s) (readX rs2 s)) s

/-- REM (R357): signed remainder. -/
def execRem (rd rs1 rs2 : Reg) (s : State) : Result :=
  finishX rd (remSigned (readX rs1 s) (readX rs2 s)) s

/-- REMU (R358): unsigned remainder. -/
def execRemu (rd rs1 rs2 : Reg) (s : State) : Result :=
  finishX rd (remUnsigned (readX rs1 s) (readX rs2 s)) s

end Sys2Proof.Machine
end

