-- ==== Sys2Proof/Machine/Single.lean ====
section
/-! DEFINITION. The single-precision instructions (46_fp_single) over the operations of 45_fp_common. An operand is one raw slot (R478). -/

namespace Sys2Proof.Machine

/-- A two-operand arithmetic instruction: the rm check, then the operation (R501 to R504). -/
def arithS (op : Config → Fp.Mode → Word → Word → Word × Flags) (rd rs1 rs2 : Reg) (rm : BitVec 3) (s : State) : Result :=
  withMode rm s fun mode => finishFFlags rd (op s.cfg mode (readF rs1 s) (readF rs2 s)) s

/-- A fused multiply-add: the rm check, then one rounding (R508 to R511). -/
def fusedS (negp negc : Bool) (rd rs1 rs2 rs3 : Reg) (rm : BitVec 3) (s : State) : Result :=
  withMode rm s fun mode =>
    finishFFlags rd (Fp.fma .S s.cfg mode negp negc (readF rs1 s) (readF rs2 s) (readF rs3 s)) s

/-- A conversion to an integer register (R512, R513). -/
def toIntS (kind : Fp.IntKind) (rd rs1 : Reg) (rm : BitVec 3) (s : State) : Result :=
  withMode rm s fun mode =>
    finishXFlags rd (Fp.toInt .S mode kind (readF rs1 s)).1 (Fp.toInt .S mode kind (readF rs1 s)).2 s

/-- A conversion from an integer register (R514, R515). -/
def fromIntS (kind : Fp.IntKind) (rd rs1 : Reg) (rm : BitVec 3) (s : State) : Result :=
  withMode rm s fun mode => finishFFlags rd (Fp.fromInt .S mode kind (readX rs1 s)) s

/-- A comparison into an integer register (R518 to R520). -/
def compareS (op : Fp.CmpOp) (rd rs1 rs2 : Reg) (s : State) : Result :=
  finishXFlags rd (Fp.compare .S op (readF rs1 s) (readF rs2 s)).1 (Fp.compare .S op (readF rs1 s) (readF rs2 s)).2 s

/-- FADD.S (R501): the rm check, then `Add_S`. -/
def execFaddS (rd rs1 rs2 : Reg) (rm : BitVec 3) (s : State) : Result :=
  arithS (Fp.add .S) rd rs1 rs2 rm s

/-- FSUB.S (R502): the rm check, then `Sub_S`. -/
def execFsubS (rd rs1 rs2 : Reg) (rm : BitVec 3) (s : State) : Result :=
  arithS (Fp.sub .S) rd rs1 rs2 rm s

/-- FMUL.S (R503): the rm check, then `Mul_S`. -/
def execFmulS (rd rs1 rs2 : Reg) (rm : BitVec 3) (s : State) : Result :=
  arithS (Fp.mul .S) rd rs1 rs2 rm s

/-- FDIV.S (R504): the rm check, then `Div_S`. -/
def execFdivS (rd rs1 rs2 : Reg) (rm : BitVec 3) (s : State) : Result :=
  arithS (Fp.div .S) rd rs1 rs2 rm s

/-- FSQRT.S (R505): the rm check, then `Sqrt_S`; a negative operand halts with NV accrued and `f[rd]` unwritten (R469, R650). -/
def execFsqrtS (rd rs1 : Reg) (rm : BitVec 3) (s : State) : Result :=
  withMode rm s fun mode =>
    match Fp.sqrt .S s.cfg mode (readF rs1 s) with
    | some r => finishFFlags rd r s
    | none => raiseHalt .sqrtNeg (setFlags flagNV s)

/-- FMIN.S (R506): `Min_S`. -/
def execFminS (rd rs1 rs2 : Reg) (s : State) : Result :=
  finishFFlags rd (Fp.minimum .S s.cfg (readF rs1 s) (readF rs2 s)) s

/-- FMAX.S (R507): `Max_S`. -/
def execFmaxS (rd rs1 rs2 : Reg) (s : State) : Result :=
  finishFFlags rd (Fp.maximum .S s.cfg (readF rs1 s) (readF rs2 s)) s

/-- FMADD.S (R508): `(fs1 * fs2) + fs3`, one rounding. -/
def execFmaddS (rd rs1 rs2 rs3 : Reg) (rm : BitVec 3) (s : State) : Result :=
  fusedS false false rd rs1 rs2 rs3 rm s

/-- FMSUB.S (R509): `(fs1 * fs2) - fs3`, one rounding. -/
def execFmsubS (rd rs1 rs2 rs3 : Reg) (rm : BitVec 3) (s : State) : Result :=
  fusedS false true rd rs1 rs2 rs3 rm s

/-- FNMSUB.S (R510): `-(fs1 * fs2) + fs3`, one rounding. -/
def execFnmsubS (rd rs1 rs2 rs3 : Reg) (rm : BitVec 3) (s : State) : Result :=
  fusedS true false rd rs1 rs2 rs3 rm s

/-- FNMADD.S (R511): `-(fs1 * fs2) - fs3`, one rounding. -/
def execFnmaddS (rd rs1 rs2 rs3 : Reg) (rm : BitVec 3) (s : State) : Result :=
  fusedS true true rd rs1 rs2 rs3 rm s

/-- FCVT.W.S (R512): to a signed word. -/
def execFcvtWS (rd rs1 : Reg) (rm : BitVec 3) (s : State) : Result :=
  toIntS .W rd rs1 rm s

/-- FCVT.WU.S (R513): to an unsigned word. -/
def execFcvtWuS (rd rs1 : Reg) (rm : BitVec 3) (s : State) : Result :=
  toIntS .WU rd rs1 rm s

/-- FCVT.S.W (R514): from a signed word. -/
def execFcvtSW (rd rs1 : Reg) (rm : BitVec 3) (s : State) : Result :=
  fromIntS .W rd rs1 rm s

/-- FCVT.S.WU (R515): from an unsigned word. -/
def execFcvtSWu (rd rs1 : Reg) (rm : BitVec 3) (s : State) : Result :=
  fromIntS .WU rd rs1 rm s

/-- FMV.X.S (R516): `x[rd] <- f[rs1]`, raw bits. -/
def execFmvXS (rd rs1 : Reg) (s : State) : Result :=
  finishX rd (readF rs1 s) s

/-- FMV.S.X (R517): `f[rd] <- x[rs1]`, raw bits. -/
def execFmvSX (rd rs1 : Reg) (s : State) : Result :=
  finishF rd (readX rs1 s) s

/-- FEQ.S (R518): 1, or 0; NV where either operand is a NaN (90_conflicts C4). -/
def execFeqS (rd rs1 rs2 : Reg) (s : State) : Result :=
  compareS .eq rd rs1 rs2 s

/-- FLT.S (R519): 1, or 0; NV where either operand is a NaN (90_conflicts C4). -/
def execFltS (rd rs1 rs2 : Reg) (s : State) : Result :=
  compareS .lt rd rs1 rs2 s

/-- FLE.S (R520): 1, or 0; NV where either operand is a NaN (90_conflicts C4). -/
def execFleS (rd rs1 rs2 : Reg) (s : State) : Result :=
  compareS .le rd rs1 rs2 s

/-- FSGNJ.S (R521): `fs1` with the sign of `fs2`. -/
def execFsgnjS (rd rs1 rs2 : Reg) (s : State) : Result :=
  finishF rd (Fp.withSign .S (Fp.signBit .S (readF rs2 s)) (readF rs1 s)) s

/-- FSGNJN.S (R522): `fs1` with the opposite of the sign of `fs2`. -/
def execFsgnjnS (rd rs1 rs2 : Reg) (s : State) : Result :=
  finishF rd (Fp.withSign .S (!Fp.signBit .S (readF rs2 s)) (readF rs1 s)) s

/-- FSGNJX.S (R523): `fs1` with the exclusive or of both signs. -/
def execFsgnjxS (rd rs1 rs2 : Reg) (s : State) : Result :=
  finishF rd (Fp.withSign .S (Fp.signBit .S (readF rs1 s) != Fp.signBit .S (readF rs2 s)) (readF rs1 s)) s

/-- FCLASS.S (R524): the class mask of `fs1`. -/
def execFclassS (rd rs1 : Reg) (s : State) : Result :=
  finishX rd (Fp.classMask .S (readF rs1 s)) s

end Sys2Proof.Machine
end

