-- ==== Sys2Proof/Machine/System.lean ====
section
/-! DEFINITION. The system instructions (48_system): halts, fences, and CSR access over `fflags`, `frm`, `fcsr` and the counters. -/

namespace Sys2Proof.Machine

/-- Whether a CSR number is a counter: `cycle`, `time`, `instret` and their high halves (R612, R613). -/
def isCounter (csr : BitVec 12) : Bool :=
  match csr with
  | 0xC00#12 | 0xC01#12 | 0xC02#12 | 0xC80#12 | 0xC81#12 | 0xC82#12 => true
  | _ => false

/-- Whether a CSR number is one of the floating-point registers (R612, 10_state R63). -/
def isFloatCsr (csr : BitVec 12) : Bool :=
  match csr with
  | 0x001#12 | 0x002#12 | 0x003#12 => true
  | _ => false

/-- The CSR check (R612): the floating-point CSRs always, a counter only where the instruction does not write, no other. -/
def csrAllowed (csr : BitVec 12) (writes : Bool) : Bool := isFloatCsr csr || (isCounter csr && !writes)

/-- `CSR_read(csr)` (R612, R613): a view of `fcsr`, or a draw. -/
def csrRead (csr : BitVec 12) (s : State) : Word :=
  match csr with
  | 0x001#12 => s.fflags.zeroExtend 32
  | 0x002#12 => s.frm.zeroExtend 32
  | 0x003#12 => fcsrValue s
  | _ => Config.counterDraw s.draws

/-- What a read leaves: a counter read uses up one draw (R613; log entry 6). -/
def afterCsrRead (csr : BitVec 12) (s : State) : State :=
  if isCounter csr then { s with draws := s.draws + 1 } else s

/-- `CSR_write(csr, v)` (R612, R63). The CSR check lets no write of another number through. -/
def csrWrite (csr : BitVec 12) (v : Word) (s : State) : State :=
  match csr with
  | 0x001#12 => { s with fflags := v.extractLsb' 0 5 }
  | 0x002#12 => { s with frm := v.extractLsb' 0 3 }
  | 0x003#12 => writeFcsr v s
  | _ => s

/-- A CSR instruction (R606 to R611): the check, the read where there is one, the write of `new t` where there is one,
then `x[rd] <- t`. The operand in `new` is read before any write (R19). -/
def csrAccess (rd : Reg) (csr : BitVec 12) (reads writes : Bool) (new : Word → Word) (s : State) : Result :=
  if csrAllowed csr writes then
    let t := if reads then csrRead csr s else 0#32
    let s1 := if reads then afterCsrRead csr s else s
    let s2 := if writes then csrWrite csr (new t) s1 else s1
    if reads then finishX rd t s2 else .next (advance s2)
  else raiseFault .illegal 0#32 s

/-- FENCE (R604): only `pc` advances: every earlier access has completed (20_memory R117). -/
def execFence (s : State) : Result :=
  .next (advance s)

/-- FENCE.I (R605): empties `modified` when `FETCH_COHERENCE = fault`. -/
def execFenceI (s : State) : Result :=
  .next (advance { s with
    modified := match s.cfg.fetchCoherence with
      | .fault => []
      | .immediate => s.modified })

/-- SCALL (R601): halts with SCALL. -/
def execScall (s : State) : Result :=
  raiseHalt .scall s

/-- SBREAK (R602): halts with SBREAK. -/
def execSbreak (s : State) : Result :=
  raiseHalt .sbreak s

/-- CSRRW (R606): reads unless `rd = x0`, writes `x[rs1]`. -/
def execCsrrw (rd rs1 : Reg) (csr : BitVec 12) (s : State) : Result :=
  csrAccess rd csr (rd != 0#5) true (fun _ => readX rs1 s) s

/-- CSRRS (R607): reads, and sets the bits of `x[rs1]` unless the field `rs1` is 0. -/
def execCsrrs (rd rs1 : Reg) (csr : BitVec 12) (s : State) : Result :=
  csrAccess rd csr true (rs1 != 0#5) (fun t => t ||| readX rs1 s) s

/-- CSRRC (R608): reads, and clears the bits of `x[rs1]` unless the field `rs1` is 0. -/
def execCsrrc (rd rs1 : Reg) (csr : BitVec 12) (s : State) : Result :=
  csrAccess rd csr true (rs1 != 0#5) (fun t => t &&& ~~~(readX rs1 s)) s

/-- CSRRWI (R609): reads unless `rd = x0`, writes `uimm`. -/
def execCsrrwi (rd : Reg) (uimm : BitVec 5) (csr : BitVec 12) (s : State) : Result :=
  csrAccess rd csr (rd != 0#5) true (fun _ => uimm.zeroExtend 32) s

/-- CSRRSI (R610): reads, and sets the bits of `uimm` unless it is 0. -/
def execCsrrsi (rd : Reg) (uimm : BitVec 5) (csr : BitVec 12) (s : State) : Result :=
  csrAccess rd csr true (uimm != 0#5) (fun t => t ||| uimm.zeroExtend 32) s

/-- CSRRCI (R611): reads, and clears the bits of `uimm` unless it is 0. -/
def execCsrrci (rd : Reg) (uimm : BitVec 5) (csr : BitVec 12) (s : State) : Result :=
  csrAccess rd csr true (uimm != 0#5) (fun t => t &&& ~~~(uimm.zeroExtend 32)) s

end Sys2Proof.Machine
end

