-- ==== Sys2Proof/Machine/Step.lean ====
section
/-! DEFINITION. One step (00_scope R9, 60_exceptions R656): only `running` admits one; the fetch and its checks; then the decoded
instruction's meaning, with nothing added around it (every meaning sets `pc` itself, R250). -/

namespace Sys2Proof.Machine

/-- One step of the block with its fetch boundary. -/
def step (s : State) : Host.Outcome State Fault Refusal :=
  match s.status with
  | .running =>
    match fetch s with
    | .instr i => exec i s
    | .fault reason => raiseFetchFault reason s
    | .refused => raiseStuck s
    | .illegal => raiseFault .illegal 0#32 s
  | .halted _ | .faulted _ | .stuck => .refused .notRunning

/-- `s` with the instruction word `w` (its low `nbits` bits) stored where the next step fetches: at `pc`, and fetchable
(R705; log entry 15). -/
def State.withFetchWord (s : State) (nbits w : Nat) : State :=
  placeFetchWord s (BitVec.ofNat 32 (w % 2 ^ nbits))

end Sys2Proof.Machine
end

