-- ==== Sys2Proof/Machine/Port.lean ====
section
/-! DEFINITION. What the environment does between steps (00_scope R8): the lifecycle hooks (70_reset R700) and the state-access port
(10_state R70). No step uses them (R70); they are operations of their own on a state. -/

namespace Sys2Proof.Machine

/-- `begin` (R700, R72, R705): every register and status field at its reset value, memory and parameters untouched. The
draw count goes on (log entry 20). -/
def beginRun (s : State) : State := State.afterBegin s.cfg s.mem s.draws

/-- `end` (R700): no state change, an observation point only, in any status. -/
def endRun (s : State) : State := s

/-- Port read of `x[i]` (R70). -/
def portReadX (i : Reg) (s : State) : Word := readX i s
/-- Port write of `x[i]`; a write to `x0` is discarded (R70, R51). -/
def portWriteX (i : Reg) (v : Word) (s : State) : State := writeX i v s
/-- Port read of `f[i]` (R70). -/
def portReadF (i : Reg) (s : State) : Word := readF i s
/-- Port write of `f[i]` (R70). -/
def portWriteF (i : Reg) (v : Word) (s : State) : State := writeF i v s
/-- Port read of `pc` (R70). -/
def portReadPc (s : State) : Word := s.pc
/-- Port write of `pc`: any value, unaligned ones included (R70, R660). -/
def portWritePc (v : Word) (s : State) : State := jumpTo v s
/-- Port read of `fcsr`, the view `0x003` (R70, R63). -/
def portReadFcsr (s : State) : Word := fcsrValue s
/-- Port write of `fcsr` (R70, R63). -/
def portWriteFcsr (v : Word) (s : State) : State := writeFcsr v s

/-- The halt output (R8, R650): the reason of a halted state. -/
def haltOutput (s : State) : Option HaltReason :=
  match s.status with
  | .halted reason => some reason
  | .running | .faulted _ | .stuck => none

/-- The code of a halt reason (R650). -/
def haltCode : HaltReason → Nat
  | .scall => 1
  | .sbreak => 2
  | .sqrtNeg => 3

/-- The code of a fault reason (R653). -/
def faultCode : FaultReason → Nat
  | .illegal => 16
  | .regPair => 17
  | .fetchMisaligned => 18
  | .dataMisaligned => 19
  | .fetchUnfenced => 20

end Sys2Proof.Machine
end

