-- ==== Sys2Proof/RealFloat.lean ====
section
/-! DEFINITION. The floating-point rules of 45_fp_common written over the real numbers, as relations between operands and outcomes, for the
statements alone: the machine never uses them. They are transcribed from the rules, not from Machine/Float.lean. -/

namespace Sys2Proof.Ieee

open Sys2Proof.Machine
open Sys2Proof.Machine.Fp (Fmt Mode)

/-! ## Values of patterns (R452) -/

/-- `E = Emax`, `T ≠ 0`. -/
def IsNan (f : Fmt) (x : BitVec f.width) : Prop := Fp.expField f x = Fp.expMax f ∧ Fp.fracField f x ≠ 0

/-- A NaN with `T[w-1] = 0`. -/
def IsSignallingNan (f : Fmt) (x : BitVec f.width) : Prop :=
  IsNan f x ∧ (Fp.fracField f x).testBit (Fp.fracBits f - 1) = false

/-- `E = Emax`, `T = 0`, of a given sign. -/
def IsInf (f : Fmt) (x : BitVec f.width) (neg : Bool) : Prop :=
  Fp.expField f x = Fp.expMax f ∧ Fp.fracField f x = 0 ∧ Fp.signBit f x = neg

/-- `E = 0`, `T = 0`, of a given sign. -/
def IsZero (f : Fmt) (x : BitVec f.width) (neg : Bool) : Prop :=
  Fp.expField f x = 0 ∧ Fp.fracField f x = 0 ∧ Fp.signBit f x = neg

/-- A negative operand of FSQRT (R469): sign 1, no NaN and not -0; -infinity and the negative subnormals are such operands. -/
def IsNegativeOperand (f : Fmt) (x : BitVec f.width) : Prop :=
  Fp.signBit f x = true ∧ ¬IsNan f x ∧ ¬IsZero f x true

/-- `E = 0`, `T ≠ 0`, of a given sign. -/
def IsSubnormal (f : Fmt) (x : BitVec f.width) (neg : Bool) : Prop :=
  Fp.expField f x = 0 ∧ Fp.fracField f x ≠ 0 ∧ Fp.signBit f x = neg

/-- `1 ≤ E ≤ Emax - 1`, of a given sign. -/
def IsNormal (f : Fmt) (x : BitVec f.width) (neg : Bool) : Prop :=
  Fp.expField f x ≠ 0 ∧ Fp.expField f x ≠ Fp.expMax f ∧ Fp.signBit f x = neg

/-- A finite pattern with a given sign and magnitude: zero, subnormal or normal. -/
def HasMagnitude (f : Fmt) (x : BitVec f.width) (neg : Bool) (r : ℝ) : Prop :=
  Fp.signBit f x = neg ∧ Fp.expField f x ≠ Fp.expMax f ∧
  (Fp.expField f x = 0 → r = (Fp.fracField f x : ℝ) * 2 ^ (Fp.emin f - Fp.fracBits f)) ∧
  (Fp.expField f x ≠ 0 → r = ((2 : ℝ) ^ Fp.fracBits f + Fp.fracField f x) *
    2 ^ ((Fp.expField f x : ℤ) - Fp.bias f - Fp.fracBits f))

/-- A finite pattern's exact real value. -/
def HasValue (f : Fmt) (x : BitVec f.width) (v : ℝ) : Prop :=
  ∃ r : ℝ, (HasMagnitude f x false r ∧ v = r) ∨ (HasMagnitude f x true r ∧ v = -r)

/-- The largest finite magnitude with a sign (R452). -/
def IsMax (f : Fmt) (x : BitVec f.width) (neg : Bool) : Prop :=
  Fp.expField f x = Fp.expMax f - 1 ∧ Fp.fracField f x = 2 ^ Fp.fracBits f - 1 ∧ Fp.signBit f x = neg

/-- `-x`: the sign bit flipped, every other bit kept (R466). -/
def flipSign (f : Fmt) (x : BitVec f.width) : BitVec f.width := x ^^^ BitVec.twoPow f.width (f.width - 1)

/-! ## Rounding (R458 to R461) -/

/-- When `RoundInt` gives `n0 + 1` for a fraction that is not 0 (the table of R458). -/
def RoundsUp (mode : Mode) (neg : Bool) (n0 : ℕ) (frac : ℝ) : Prop :=
  match mode with
  | .rne => 1 / 2 < frac ∨ (frac = 1 / 2 ∧ n0 % 2 = 1)
  | .rtz => False
  | .rdn => neg = true
  | .rup => neg = false
  | .rmm => 1 / 2 ≤ frac

/-- `n = RoundInt(m, mode, neg)` (R458). -/
def IsRoundInt (mode : Mode) (neg : Bool) (m : ℝ) (n : ℕ) : Prop :=
  ∃ (n0 : ℕ) (frac : ℝ), m = n0 + frac ∧ 0 ≤ frac ∧ frac < 1 ∧
    ((frac ≠ 0 ∧ RoundsUp mode neg n0 frac) → n = n0 + 1) ∧
    (¬(frac ≠ 0 ∧ RoundsUp mode neg n0 frac) → n = n0)

/-- `MAX_F` as a real: `(2^p - 1) * 2^(emax - p + 1)` (R450 to R452). -/
def IsMaxReal (f : Fmt) (r : ℝ) : Prop := r = ((2 : ℝ) ^ Fp.prec f - 1) * 2 ^ ((Fp.bias f : ℤ) - Fp.prec f + 1)

/-- The table of R459. -/
def IsOverflowResult (f : Fmt) (mode : Mode) (neg : Bool) (x : BitVec f.width) : Prop :=
  match mode with
  | .rne | .rmm => IsInf f x neg
  | .rtz => IsMax f x neg
  | .rdn => (neg = false → IsMax f x neg) ∧ (neg = true → IsInf f x neg)
  | .rup => (neg = false → IsInf f x neg) ∧ (neg = true → IsMax f x neg)

/-- `(r, flags) = round_F(x, mode)` (R458 to R461, R465), for a nonzero real `x`. -/
def RoundsTo (f : Fmt) (mode : Mode) (x : ℝ) (out : BitVec f.width × Flags) : Prop :=
  ∃ (neg : Bool) (e q : ℤ) (n nu : ℕ) (maxReal : ℝ),
    (neg = true ↔ x < 0) ∧ IsMaxReal f maxReal ∧
    (2 : ℝ) ^ e ≤ |x| ∧ |x| < (2 : ℝ) ^ (e + 1) ∧
    q = max e (Fp.emin f) - Fp.prec f + 1 ∧
    IsRoundInt mode neg (|x| / 2 ^ q) n ∧
    IsRoundInt mode neg (|x| / 2 ^ (e - Fp.prec f + 1)) nu ∧
    (maxReal < n * 2 ^ q → out.2 = flagOF ||| flagNX ∧ IsOverflowResult f mode neg out.1) ∧
    (n * 2 ^ q ≤ maxReal →
      HasMagnitude f out.1 neg (n * 2 ^ q) ∧
      (out.2.getLsbD 0 = true ↔ n * 2 ^ q ≠ |x|) ∧
      (out.2.getLsbD 1 = true ↔ nu * 2 ^ (e - Fp.prec f + 1) < (2 : ℝ) ^ Fp.emin f ∧ n * 2 ^ q ≠ |x|) ∧
      out.2 &&& (flagNV ||| flagDZ ||| flagOF) = flagNone)

/-! ## Outcomes the operations share -/

/-- The canonical NaN with no flag but, where asked, NV (R463, R464). -/
def IsNanResult (f : Fmt) (cfg : Config) (nv : Prop) (out : BitVec f.width × Flags) : Prop :=
  out.1 = Fp.canonicalNan cfg f ∧ (nv → out.2 = flagNV) ∧ (¬nv → out.2 = flagNone)

/-- An infinity of a sign, with no flag. -/
def IsInfResult (f : Fmt) (neg : Bool) (out : BitVec f.width × Flags) : Prop := IsInf f out.1 neg ∧ out.2 = flagNone

/-- A zero of a sign, with no flag. -/
def IsZeroResult (f : Fmt) (neg : Bool) (out : BitVec f.width × Flags) : Prop := IsZero f out.1 neg ∧ out.2 = flagNone

/-- An exact sum: rounded where it is not 0, and where it is 0, `+0`, or `-0` under RDN (R462). -/
def IsSumResult (f : Fmt) (mode : Mode) (x : ℝ) (out : BitVec f.width × Flags) : Prop :=
  (x = 0 → IsZeroResult f (mode == .rdn) out) ∧ (x ≠ 0 → RoundsTo f mode x out)

/-! ## The operations (R466 to R475, R479) -/

/-- `Add_F(a, b, mode)` (R466, R462). -/
structure AddRule (f : Fmt) (cfg : Config) (mode : Mode) (a b : BitVec f.width) (out : BitVec f.width × Flags) :
    Prop where
  nan : IsNan f a ∨ IsNan f b → IsNanResult f cfg (IsSignallingNan f a ∨ IsSignallingNan f b) out
  oppositeInf : ∀ s, IsInf f a s → IsInf f b (!s) → IsNanResult f cfg True out
  infFirst : ∀ s, IsInf f a s → ¬IsNan f b → ¬IsInf f b (!s) → IsInfResult f s out
  infSecond : ∀ s, IsInf f b s → ¬IsNan f a → ¬IsInf f a (!s) → IsInfResult f s out
  sameZeros : ∀ s, IsZero f a s → IsZero f b s → IsZeroResult f s out
  oppositeZeros : ∀ s, IsZero f a s → IsZero f b (!s) → IsZeroResult f (mode == .rdn) out
  finite : ∀ x y, HasValue f a x → HasValue f b y → (x ≠ 0 ∨ y ≠ 0) → IsSumResult f mode (x + y) out

/-- `Mul_F(a, b, mode)` (R467). -/
structure MulRule (f : Fmt) (cfg : Config) (mode : Mode) (a b : BitVec f.width) (out : BitVec f.width × Flags) :
    Prop where
  nan : IsNan f a ∨ IsNan f b → IsNanResult f cfg (IsSignallingNan f a ∨ IsSignallingNan f b) out
  infZero : ∀ s t, IsInf f a s → IsZero f b t → IsNanResult f cfg True out
  zeroInf : ∀ s t, IsZero f a s → IsInf f b t → IsNanResult f cfg True out
  infInf : ∀ s t, IsInf f a s → IsInf f b t → IsInfResult f (s != t) out
  infFinite : ∀ s y, IsInf f a s → HasValue f b y → y ≠ 0 → IsInfResult f (s != Fp.signBit f b) out
  finiteInf : ∀ t x, HasValue f a x → IsInf f b t → x ≠ 0 → IsInfResult f (Fp.signBit f a != t) out
  zero : ∀ x y, HasValue f a x → HasValue f b y → x * y = 0 → IsZeroResult f (Fp.signBit f a != Fp.signBit f b) out
  finite : ∀ x y, HasValue f a x → HasValue f b y → x * y ≠ 0 → RoundsTo f mode (x * y) out

/-- `Div_F(a, b, mode)` (R468, R481). -/
structure DivRule (f : Fmt) (cfg : Config) (mode : Mode) (a b : BitVec f.width) (out : BitVec f.width × Flags) :
    Prop where
  nan : IsNan f a ∨ IsNan f b → IsNanResult f cfg (IsSignallingNan f a ∨ IsSignallingNan f b) out
  infInf : ∀ s t, IsInf f a s → IsInf f b t → IsNanResult f cfg True out
  zeroZero : ∀ s t, IsZero f a s → IsZero f b t → IsNanResult f cfg True out
  infFinite : ∀ s y, IsInf f a s → HasValue f b y → IsInfResult f (s != Fp.signBit f b) out
  finiteInf : ∀ t x, HasValue f a x → IsInf f b t → IsZeroResult f (Fp.signBit f a != t) out
  byZero : ∀ t x, HasValue f a x → x ≠ 0 → IsZero f b t →
    IsInf f out.1 (Fp.signBit f a != t) ∧ out.2 = flagDZ
  zeroDividend : ∀ s y, IsZero f a s → HasValue f b y → y ≠ 0 → IsZeroResult f (s != Fp.signBit f b) out
  finite : ∀ x y, HasValue f a x → HasValue f b y → x ≠ 0 → y ≠ 0 → RoundsTo f mode (x / y) out

/-- `Sqrt_F(a, mode)` (R469); no outcome is the halt. -/
structure SqrtRule (f : Fmt) (cfg : Config) (mode : Mode) (a : BitVec f.width)
    (out : Option (BitVec f.width × Flags)) : Prop where
  nan : IsNan f a → ∃ o, out = some o ∧ IsNanResult f cfg (IsSignallingNan f a) o
  zero : ∀ s, IsZero f a s → out = some (a, flagNone)
  negative : ¬IsNan f a → ¬IsZero f a true → Fp.signBit f a = true → out = none
  inf : IsInf f a false → out = some (a, flagNone)
  finite : ∀ x, HasValue f a x → 0 < x → ∃ o, out = some o ∧ RoundsTo f mode (Real.sqrt x) o

/-- A real with its sign flipped where `neg` holds. -/
def SignedReal (neg : Bool) (x y : ℝ) : Prop := (neg = false → y = x) ∧ (neg = true → y = -x)

/-- `Fma_F(a, b, c, negp, negc, mode)` (R471, R462). -/
structure FmaRule (f : Fmt) (cfg : Config) (mode : Mode) (negp negc : Bool) (a b c : BitVec f.width)
    (out : BitVec f.width × Flags) : Prop where
  infZero : ∀ s t, IsInf f a s → IsZero f b t → IsNanResult f cfg True out
  zeroInf : ∀ s t, IsZero f a s → IsInf f b t → IsNanResult f cfg True out
  nan : (IsNan f a ∨ IsNan f b ∨ IsNan f c) → (∀ s t, ¬(IsInf f a s ∧ IsZero f b t)) →
    (∀ s t, ¬(IsZero f a s ∧ IsInf f b t)) →
    IsNanResult f cfg (IsSignallingNan f a ∨ IsSignallingNan f b ∨ IsSignallingNan f c) out
  oppositeInf : ∀ ps, ((∃ s, IsInf f a s) ∨ (∃ s, IsInf f b s)) → ¬IsNan f a → ¬IsNan f b →
    (∀ t, ¬IsZero f a t) → (∀ t, ¬IsZero f b t) → ps = ((Fp.signBit f a != Fp.signBit f b) != negp) →
    ∀ sc, IsInf f c sc → (sc != negc) = !ps → IsNanResult f cfg True out
  infProduct : ∀ ps, ((∃ s, IsInf f a s) ∨ (∃ s, IsInf f b s)) → ¬IsNan f a → ¬IsNan f b → ¬IsNan f c →
    (∀ t, ¬IsZero f a t) → (∀ t, ¬IsZero f b t) → ps = ((Fp.signBit f a != Fp.signBit f b) != negp) →
    (∀ sc, IsInf f c sc → (sc != negc) = ps) → IsInfResult f ps out
  infAddend : ∀ x y sc, HasValue f a x → HasValue f b y → IsInf f c sc → IsInfResult f (sc != negc) out
  zeros : ∀ x y ps sc, HasValue f a x → HasValue f b y → x * y = 0 → IsZero f c sc →
    ps = ((Fp.signBit f a != Fp.signBit f b) != negp) →
    (ps = (sc != negc) → IsZeroResult f ps out) ∧ (ps ≠ (sc != negc) → IsZeroResult f (mode == .rdn) out)
  finite : ∀ x y z p d, HasValue f a x → HasValue f b y → HasValue f c z → (x * y ≠ 0 ∨ z ≠ 0) →
    SignedReal negp (x * y) p → SignedReal negc z d → IsSumResult f mode (p + d) out

/-- `CvtToInt_F(a, mode, kind)` for a range `lo .. hi` (R472). -/
structure ToIntRule (f : Fmt) (mode : Mode) (lo hi : ℤ) (a : BitVec f.width) (out : Word × Flags) : Prop where
  nan : IsNan f a → out = (BitVec.ofInt 32 hi, flagNV)
  posInf : IsInf f a false → out = (BitVec.ofInt 32 hi, flagNV)
  negInf : IsInf f a true → out = (BitVec.ofInt 32 lo, flagNV)
  finite : ∀ neg r, HasMagnitude f a neg r → ∃ (n : ℕ) (v : ℤ), IsRoundInt mode neg r n ∧
    (neg = false → v = n) ∧ (neg = true → v = -(n : ℤ)) ∧
    (hi < v → out = (BitVec.ofInt 32 hi, flagNV)) ∧
    (v < lo → out = (BitVec.ofInt 32 lo, flagNV)) ∧
    (lo ≤ v → v ≤ hi → out.1 = BitVec.ofInt 32 v ∧
      ((n : ℝ) = r → out.2 = flagNone) ∧ ((n : ℝ) ≠ r → out.2 = flagNX))

/-- `CvtFromInt_F` of the integer `n` (R473). -/
structure FromIntRule (f : Fmt) (mode : Mode) (n : ℤ) (out : BitVec f.width × Flags) : Prop where
  zero : n = 0 → IsZeroResult f false out
  nonzero : n ≠ 0 → RoundsTo f mode (n : ℝ) out

/-- Conversion from format `g` to format `f` (R479). -/
structure ConvertRule (f g : Fmt) (cfg : Config) (mode : Mode) (a : BitVec g.width) (out : BitVec f.width × Flags) :
    Prop where
  nan : IsNan g a → IsNanResult f cfg (IsSignallingNan g a) out
  inf : ∀ s, IsInf g a s → IsInfResult f s out
  zero : ∀ s, IsZero g a s → IsZeroResult f s out
  finite : ∀ x, HasValue g a x → x ≠ 0 → RoundsTo f mode x out

/-- The real or infinite operands of a comparison, in order: `a < b` (R474). -/
def IsLess (f : Fmt) (a b : BitVec f.width) : Prop :=
  (∃ x y, HasValue f a x ∧ HasValue f b y ∧ x < y) ∨
  (IsInf f a true ∧ ¬IsInf f b true ∧ ¬IsNan f b) ∨
  (IsInf f b false ∧ ¬IsInf f a false ∧ ¬IsNan f a)

/-- Equal as real numbers or as infinities (R474): `-0 = +0`. -/
def IsEqual (f : Fmt) (a b : BitVec f.width) : Prop :=
  (∃ x, HasValue f a x ∧ HasValue f b x) ∨ (∃ s, IsInf f a s ∧ IsInf f b s)

/-- `a op b` of R474. -/
def Compares (f : Fmt) (op : Fp.CmpOp) (a b : BitVec f.width) : Prop :=
  match op with
  | .eq => IsEqual f a b
  | .lt => IsLess f a b
  | .le => IsLess f a b ∨ IsEqual f a b

/-- `Cmp_F(a, b, op)` (R474). -/
structure CompareRule (f : Fmt) (op : Fp.CmpOp) (a b : BitVec f.width) (out : Word × Flags) : Prop where
  nan : IsNan f a ∨ IsNan f b → out = (0#32, flagNV)
  holds : ¬IsNan f a → ¬IsNan f b → Compares f op a b → out = (1#32, flagNone)
  fails : ¬IsNan f a → ¬IsNan f b → ¬Compares f op a b → out = (0#32, flagNone)

/-- `a` comes before `b`, with `-0 < +0` (R475). -/
def IsBefore (f : Fmt) (a b : BitVec f.width) : Prop := IsLess f a b ∨ (IsZero f a true ∧ IsZero f b false)

/-- `Min_F(a, b)` (R475). -/
structure MinRule (f : Fmt) (cfg : Config) (a b : BitVec f.width) (out : BitVec f.width × Flags) : Prop where
  bothNan : IsNan f a → IsNan f b → out.1 = Fp.canonicalNan cfg f
  firstNan : IsNan f a → ¬IsNan f b → out.1 = b
  secondNan : ¬IsNan f a → IsNan f b → out.1 = a
  first : ¬IsNan f a → ¬IsNan f b → IsBefore f a b → out.1 = a
  second : ¬IsNan f a → ¬IsNan f b → IsBefore f b a → out.1 = b
  signalling : IsSignallingNan f a ∨ IsSignallingNan f b → out.2 = flagNV
  noFlag : ¬(IsSignallingNan f a ∨ IsSignallingNan f b) → out.2 = flagNone
  operand : ¬IsNan f a → ¬IsNan f b → out.1 = a ∨ out.1 = b

/-- `Max_F(a, b)` (R475). -/
structure MaxRule (f : Fmt) (cfg : Config) (a b : BitVec f.width) (out : BitVec f.width × Flags) : Prop where
  bothNan : IsNan f a → IsNan f b → out.1 = Fp.canonicalNan cfg f
  firstNan : IsNan f a → ¬IsNan f b → out.1 = b
  secondNan : ¬IsNan f a → IsNan f b → out.1 = a
  first : ¬IsNan f a → ¬IsNan f b → IsBefore f b a → out.1 = a
  second : ¬IsNan f a → ¬IsNan f b → IsBefore f a b → out.1 = b
  signalling : IsSignallingNan f a ∨ IsSignallingNan f b → out.2 = flagNV
  noFlag : ¬(IsSignallingNan f a ∨ IsSignallingNan f b) → out.2 = flagNone
  operand : ¬IsNan f a → ¬IsNan f b → out.1 = a ∨ out.1 = b

/-- The class of `a` and its bit of FCLASS (R453, R477). -/
def IsClass (f : Fmt) (a : BitVec f.width) : ℕ → Prop
  | 0 => IsInf f a true
  | 1 => IsNormal f a true
  | 2 => IsSubnormal f a true
  | 3 => IsZero f a true
  | 4 => IsZero f a false
  | 5 => IsSubnormal f a false
  | 6 => IsNormal f a false
  | 7 => IsInf f a false
  | 8 => IsSignallingNan f a
  | 9 => IsNan f a ∧ ¬IsSignallingNan f a
  | _ => False

end Sys2Proof.Ieee
end

