-- ==== Sys2Proof/Safety.lean ====
section
/-! DEFINITION. What the claims mean by a good state and a good run: the invariant of every step, and the runs the spec asks a
proof to show (60_exceptions R658). -/

namespace Sys2Proof.Machine

/-- A set of byte addresses in canonical form: strictly rising, below 2^32 (10_state R69, 20_memory R103). -/
def addrSetWf : List Nat → Bool
  | [] => true
  | [a] => decide (a < 2 ^ 32)
  | a :: b :: rest => decide (a < b) && addrSetWf (b :: rest)

/-- `status` and the record agree (R652, R655): a record exactly in a faulted state, with its reason and its `pc0`. -/
def recordAgrees (s : State) : Bool :=
  match s.status, s.record with
  | .faulted reason, some r => decide (r.reason = reason) && decide (r.pc0 = s.pc)
  | .faulted _, none => false
  | .running, none | .halted _, none | .stuck, none => true
  | .running, some _ | .halted _, some _ | .stuck, some _ => false

/-- What every reachable state satisfies. -/
structure Inv (s : State) : Prop where
  /-- Memory is in its canonical form. -/
  memory : Memory.wf s.mem = true
  /-- "`gpr[0]` is always 0 before and after any execution step" (R51). -/
  x0 : s.x[0] = 0#32
  /-- `modified` is in its canonical form. -/
  modified : addrSetWf s.modified = true
  /-- The canonical NaNs are quiet NaNs (R11). -/
  cfg : s.cfg.wf = true
  /-- `status` and the record agree (R652, R655). -/
  record : recordAgrees s = true

/-- A step that the spec admits and gives an outcome. -/
def Steps (s : State) : Prop := ∃ t, step s = .next t

/-- A run of `n` steps that ends running: nothing halted, faulted or got stuck on the way. -/
def RunsFor : Nat → State → State → Prop
  | 0, s, t => s = t ∧ s.status = .running
  | n + 1, s, t => ∃ u, s.status = .running ∧ step s = .next u ∧ RunsFor n u t

end Sys2Proof.Machine
end

