-- ==== Sys2Proof/Claims.lean ====
section
/-! DEFINITION. The words the obligations are stated in: what an instruction completes with, what it leaves unchanged, and the checks of the
spec in the spec's own terms. The machine never uses them. -/

namespace Sys2Proof.Claims

open Sys2Proof.Machine

/-! ## Outcomes -/

/-- `exec i s` answers a next state, and that state satisfies `P`. -/
def Completes (i : Instr) (s : State) (P : State → Prop) : Prop := ∃ t, exec i s = .next t ∧ P t

/-- The instruction's word is `w` (its rule's encoding line), and it completes with `P` (its rule's pseudocode). -/
def Means (i : Instr) (w : Word) (s : State) (P : State → Prop) : Prop := encode i = w ∧ Completes i s P

/-- The state a fault leaves (60_exceptions R652, R655): `status` and the record, nothing else. -/
def faultOutcome (s : State) (reason : FaultReason) (word addr : Word) : State :=
  { s with status := .faulted reason, record := some ⟨reason, s.pc, word, addr⟩ }

/-- The state a halt leaves (R650) beside the instruction's own effects: `pc0 + 4` and `status`. -/
def haltOutcome (s : State) (reason : HaltReason) : State := { s with pc := s.pc + 4#32, status := .halted reason }

/-- The state a refused access leaves (R658): `status`, nothing else. -/
def stuckOutcome (s : State) : State := { s with status := .stuck }

/-! ## What is left unchanged -/

/-- Every integer register but those listed reads as before. -/
def KeepsX (s t : State) (but : List Reg) : Prop := ∀ r, r ∉ but → readX r t = readX r s

/-- Every floating-point slot but those listed reads as before. -/
def KeepsF (s t : State) (but : List Reg) : Prop := ∀ r, r ∉ but → readF r t = readF r s

/-- `frm` and every flag are as before. -/
def KeepsFcsr (s t : State) : Prop := t.frm = s.frm ∧ t.fflags = s.fflags

/-- Every byte of memory, and the set `modified`, are as before. -/
def KeepsMemory (s t : State) : Prop := (∀ a : Word, readByte t.mem a = readByte s.mem a) ∧ t.modified = s.modified

/-- `status`, the fault record, the parameters and the draw count are as before. -/
def KeepsRun (s t : State) : Prop := t.status = s.status ∧ t.record = s.record ∧ t.cfg = s.cfg ∧ t.draws = s.draws

/-- `pc <- pc0 + 4` (41_control_flow R250). -/
def Advances (s t : State) : Prop := t.pc = s.pc + 4#32

/-- `setflags(flags)` and nothing else of `fcsr` (45_fp_common R470). -/
def Accrues (s : State) (flags : Flags) (t : State) : Prop :=
  t.frm = s.frm ∧ (s.cfg.fflagsMode = .accrue → t.fflags = s.fflags ||| flags) ∧
    (s.cfg.fflagsMode = .frozen → t.fflags = s.fflags)

/-! ## Results -/

/-- `x[rd] <- v`, `pc <- pc0 + 4`, and nothing else. -/
structure XResult (s : State) (rd : Reg) (v : Word) (t : State) : Prop where
  result : readX rd t = if rd = 0#5 then 0#32 else v
  otherX : KeepsX s t [rd]
  slots : KeepsF s t []
  fcsr : KeepsFcsr s t
  memory : KeepsMemory s t
  run : KeepsRun s t
  pc : Advances s t

/-- `x[rd] <- v ; setflags(flags)`, `pc <- pc0 + 4`, and nothing else. -/
structure XFlagResult (s : State) (rd : Reg) (v : Word) (flags : Flags) (t : State) : Prop where
  result : readX rd t = if rd = 0#5 then 0#32 else v
  otherX : KeepsX s t [rd]
  slots : KeepsF s t []
  fcsr : Accrues s flags t
  memory : KeepsMemory s t
  run : KeepsRun s t
  pc : Advances s t

/-- `f[rd] <- v ; setflags(flags)`, `pc <- pc0 + 4`, and nothing else. -/
structure FResult (s : State) (rd : Reg) (v : Word) (flags : Flags) (t : State) : Prop where
  result : readF rd t = v
  otherF : KeepsF s t [rd]
  registers : KeepsX s t []
  fcsr : Accrues s flags t
  memory : KeepsMemory s t
  run : KeepsRun s t
  pc : Advances s t

/-- The two slots of a double written with `v`, low word in `lo`; `setflags(flags)`; `pc <- pc0 + 4`; and nothing else. -/
structure DResult (s : State) (lo hi : Reg) (v : Dword) (flags : Flags) (t : State) : Prop where
  low : readF lo t = v.extractLsb' 0 32
  high : readF hi t = v.extractLsb' 32 32
  otherF : KeepsF s t [lo, hi]
  registers : KeepsX s t []
  fcsr : Accrues s flags t
  memory : KeepsMemory s t
  run : KeepsRun s t
  pc : Advances s t

/-- Every other byte of memory is kept, and the bytes from `a` up are the list's (20_memory R102). -/
def Stores (s : State) (a : Word) (bytes : List Byte) (t : State) : Prop :=
  (∀ x : Word, (x - a).toNat < bytes.length → some (readByte t.mem x) = bytes[(x - a).toNat]?) ∧
  (∀ x : Word, bytes.length ≤ (x - a).toNat → readByte t.mem x = readByte s.mem x)

/-- The stored addresses join `modified` when `FETCH_COHERENCE = fault` (10_state R69). -/
def MarksModified (s : State) (a : Word) (n : Nat) (t : State) : Prop :=
  (s.cfg.fetchCoherence = .immediate → t.modified = s.modified) ∧
  (s.cfg.fetchCoherence = .fault → ∀ x : Word, x.toNat ∈ t.modified ↔ (x - a).toNat < n ∨ x.toNat ∈ s.modified)

/-- A store of some bytes at `a`, `pc <- pc0 + 4`, and nothing else. -/
structure StoreResult (s : State) (a : Word) (bytes : List Byte) (t : State) : Prop where
  memory : Stores s a bytes t
  modified : MarksModified s a bytes.length t
  registers : KeepsX s t []
  slots : KeepsF s t []
  fcsr : KeepsFcsr s t
  run : KeepsRun s t
  pc : Advances s t

/-- A store of some bytes at `a`, `x[rd] <- v`, `pc <- pc0 + 4`, and nothing else. -/
structure StoreXResult (s : State) (a : Word) (bytes : List Byte) (rd : Reg) (v : Word) (t : State) : Prop where
  memory : Stores s a bytes t
  modified : MarksModified s a bytes.length t
  result : readX rd t = if rd = 0#5 then 0#32 else v
  otherX : KeepsX s t [rd]
  slots : KeepsF s t []
  fcsr : KeepsFcsr s t
  run : KeepsRun s t
  pc : Advances s t

/-- `pc <- target`, and nothing else. -/
structure JumpResult (s : State) (target : Word) (t : State) : Prop where
  registers : KeepsX s t []
  slots : KeepsF s t []
  fcsr : KeepsFcsr s t
  memory : KeepsMemory s t
  run : KeepsRun s t
  pc : t.pc = target

/-- `x[rd] <- pc0 + 4 ; pc <- target`, and nothing else. -/
structure LinkResult (s : State) (rd : Reg) (target : Word) (t : State) : Prop where
  link : readX rd t = if rd = 0#5 then 0#32 else s.pc + 4#32
  otherX : KeepsX s t [rd]
  slots : KeepsF s t []
  fcsr : KeepsFcsr s t
  memory : KeepsMemory s t
  run : KeepsRun s t
  pc : t.pc = target

/-- What a CSR write of `v` leaves in `frm` and `fflags`, or, where nothing is written, that they are kept
(10_state R63, 48_system R612). -/
def FcsrAfter (s : State) (csr : BitVec 12) (written : Option Word) (t : State) : Prop :=
  match written with
  | none => KeepsFcsr s t
  | some v =>
    (csr = 0x001#12 → t.fflags = v.extractLsb' 0 5 ∧ t.frm = s.frm) ∧
    (csr = 0x002#12 → t.fflags = s.fflags ∧ t.frm = v.extractLsb' 0 3) ∧
    (csr = 0x003#12 → t.fflags = v.extractLsb' 0 5 ∧ t.frm = v.extractLsb' 5 3)

/-- A CSR instruction that reads `v` (none: it does not read) and writes `written` (none: it does not write), `n` draws
taken. -/
structure CsrResult (s : State) (rd : Reg) (csr : BitVec 12) (v written : Option Word) (n : Nat) (t : State) :
    Prop where
  result : ∀ w, v = some w → readX rd t = if rd = 0#5 then 0#32 else w
  noResult : v = none → readX rd t = readX rd s
  otherX : KeepsX s t [rd]
  slots : KeepsF s t []
  fcsr : FcsrAfter s csr written t
  memory : KeepsMemory s t
  run : t.status = s.status ∧ t.record = s.record ∧ t.cfg = s.cfg
  draws : t.draws = s.draws + n
  pc : Advances s t

/-! ## Conditions of the spec -/

/-- `CSR_read(csr)` of the floating-point CSRs (10_state R63, 48_system R612). -/
def FloatCsrValue (s : State) (csr : BitVec 12) (v : Word) : Prop :=
  (csr = 0x001#12 ∧ v = s.fflags.zeroExtend 32) ∨ (csr = 0x002#12 ∧ v = s.frm.zeroExtend 32) ∨
    (csr = 0x003#12 ∧ v = (s.frm ++ s.fflags).zeroExtend 32)

/-- The counter CSRs (R612, R613). -/
def counterCsrs : List (BitVec 12) := [0xC00#12, 0xC01#12, 0xC02#12, 0xC80#12, 0xC81#12, 0xC82#12]

/-- The code of a rounding mode (45_fp_common R454). -/
def modeCode : Fp.Mode → BitVec 3
  | .rne => 0b000#3
  | .rtz => 0b001#3
  | .rdn => 0b010#3
  | .rup => 0b011#3
  | .rmm => 0b100#3

/-- `rm_eff(rm)` is the code of a mode: no check of R456 or R457 fails (R455). -/
def RmSelects (rm frm : BitVec 3) (mode : Fp.Mode) : Prop :=
  (rm ≠ 0b111#3 ∧ rm = modeCode mode) ∨ (rm = 0b111#3 ∧ frm = modeCode mode)

/-- The slots a field names as a double register (10_state R57). -/
def PairIs (cfg : Config) (r lo hi : Reg) : Prop :=
  (cfg.dpairMode = .evenPair ∧ r.toNat % 2 = 0 ∧ lo = r ∧ hi.toNat = r.toNat + 1) ∨
  (cfg.dpairMode = .scaled ∧ r.toNat < 16 ∧ lo.toNat = 2 * r.toNat ∧ hi.toNat = 2 * r.toNat + 1)

/-- `F64` of two slots: `{f[hi], f[lo]}` (R57). -/
def doubleOf (s : State) (lo hi : Reg) : Dword := readF hi s ++ readF lo s

/-- `MEM_ADMIT(a, n, kind)` (20_memory R107). -/
def Admits (cfg : Config) (a : Word) (n : Nat) (kind : AccessKind) : Prop := memAdmit cfg ⟨a, n, kind⟩ = true

/-- `MisalignCheck(a, n)` passes (R105). -/
def AlignOk (cfg : Config) (a : Word) (n : Nat) : Prop := cfg.misalignedData = .bytewise ∨ a.toNat % n = 0

/-- `EA = x[rs1] + sext_32(imm12)` (R111). -/
def dispAddr (s : State) (rs1 : Reg) (imm : BitVec 12) : Word := readX rs1 s + imm.signExtend 32

/-- The little-endian half-word at `a` (R101). -/
def halfAt (s : State) (a : Word) : BitVec 16 := readByte s.mem (a + 1#32) ++ readByte s.mem a

/-- The little-endian word at `a` (R101). -/
def wordAt (s : State) (a : Word) : Word :=
  readByte s.mem (a + 3#32) ++ readByte s.mem (a + 2#32) ++ readByte s.mem (a + 1#32) ++ readByte s.mem a

/-- The four bytes of a word, low byte first (R102). -/
def leBytes (v : Word) : List Byte := [v.extractLsb' 0 8, v.extractLsb' 8 8, v.extractLsb' 16 8, v.extractLsb' 24 8]

/-- A data access: its address, the alignment it is checked against, and its port calls (R105, R106). -/
structure Access where
  addr  : Word
  align : Nat
  calls : List PortCall

/-- The access of each instruction of R106; none for every other instruction. -/
def accessOf (s : State) : Instr → Option Access
  | .lb _ rs1 imm | .lbu _ rs1 imm => some ⟨dispAddr s rs1 imm, 1, [⟨dispAddr s rs1 imm, 1, .read⟩]⟩
  | .lh _ rs1 imm | .lhu _ rs1 imm => some ⟨dispAddr s rs1 imm, 2, [⟨dispAddr s rs1 imm, 2, .read⟩]⟩
  | .lw _ rs1 imm | .flw _ rs1 imm => some ⟨dispAddr s rs1 imm, 4, [⟨dispAddr s rs1 imm, 4, .read⟩]⟩
  | .sb rs1 _ imm => some ⟨dispAddr s rs1 imm, 1, [⟨dispAddr s rs1 imm, 1, .write⟩]⟩
  | .sh rs1 _ imm => some ⟨dispAddr s rs1 imm, 2, [⟨dispAddr s rs1 imm, 2, .write⟩]⟩
  | .sw rs1 _ imm | .fsw rs1 _ imm => some ⟨dispAddr s rs1 imm, 4, [⟨dispAddr s rs1 imm, 4, .write⟩]⟩
  | .fld _ rs1 imm =>
    some ⟨dispAddr s rs1 imm, 8, [⟨dispAddr s rs1 imm, 4, .read⟩, ⟨dispAddr s rs1 imm + 4#32, 4, .read⟩]⟩
  | .fsd rs1 _ imm =>
    some ⟨dispAddr s rs1 imm, 8, [⟨dispAddr s rs1 imm, 4, .write⟩, ⟨dispAddr s rs1 imm + 4#32, 4, .write⟩]⟩
  | .lrW _ rs1 _ _ => some ⟨readX rs1 s, 4, [⟨readX rs1 s, 4, .read⟩]⟩
  | .scW _ rs1 _ _ _ => some ⟨readX rs1 s, 4, [⟨readX rs1 s, 4, .write⟩]⟩
  | .amoswapW _ rs1 _ _ _ | .amoaddW _ rs1 _ _ _ | .amoxorW _ rs1 _ _ _ | .amoandW _ rs1 _ _ _
  | .amoorW _ rs1 _ _ _ | .amominW _ rs1 _ _ _ | .amomaxW _ rs1 _ _ _ | .amominuW _ rs1 _ _ _
  | .amomaxuW _ rs1 _ _ _ => some ⟨readX rs1 s, 4, [⟨readX rs1 s, 4, .read⟩, ⟨readX rs1 s, 4, .write⟩]⟩
  | _ => none

/-- The `rm` field of an instruction that has one (R454, R455). -/
def rmField : Instr → Option (BitVec 3)
  | .faddS _ _ _ rm | .fsubS _ _ _ rm | .fmulS _ _ _ rm | .fdivS _ _ _ rm | .fsqrtS _ _ rm
  | .fmaddS _ _ _ _ rm | .fmsubS _ _ _ _ rm | .fnmsubS _ _ _ _ rm | .fnmaddS _ _ _ _ rm
  | .fcvtWS _ _ rm | .fcvtWuS _ _ rm | .fcvtSW _ _ rm | .fcvtSWu _ _ rm
  | .faddD _ _ _ rm | .fsubD _ _ _ rm | .fmulD _ _ _ rm | .fdivD _ _ _ rm | .fsqrtD _ _ rm
  | .fmaddD _ _ _ _ rm | .fmsubD _ _ _ _ rm | .fnmsubD _ _ _ _ rm | .fnmaddD _ _ _ _ rm
  | .fcvtWD _ _ rm | .fcvtWuD _ _ rm | .fcvtDW _ _ rm | .fcvtDWu _ _ rm | .fcvtSD _ _ rm | .fcvtDS _ _ rm => some rm
  | _ => none

/-- The fields of an instruction that name double registers (R57, R480, 60_exceptions R654). -/
def doubleFields : Instr → List Reg
  | .fld rd _ _ => [rd]
  | .fsd _ rs2 _ => [rs2]
  | .faddD rd rs1 rs2 _ | .fsubD rd rs1 rs2 _ | .fmulD rd rs1 rs2 _ | .fdivD rd rs1 rs2 _
  | .fminD rd rs1 rs2 | .fmaxD rd rs1 rs2
  | .fsgnjD rd rs1 rs2 | .fsgnjnD rd rs1 rs2 | .fsgnjxD rd rs1 rs2 => [rd, rs1, rs2]
  | .fmaddD rd rs1 rs2 rs3 _ | .fmsubD rd rs1 rs2 rs3 _ | .fnmsubD rd rs1 rs2 rs3 _
  | .fnmaddD rd rs1 rs2 rs3 _ => [rd, rs1, rs2, rs3]
  | .fsqrtD rd rs1 _ => [rd, rs1]
  | .fcvtWD _ rs1 _ | .fcvtWuD _ rs1 _ | .fclassD _ rs1 | .fcvtSD _ rs1 _ => [rs1]
  | .fcvtDW rd _ _ | .fcvtDWu rd _ _ | .fcvtDS rd _ _ => [rd]
  | .feqD _ rs1 rs2 | .fltD _ rs1 rs2 | .fleD _ rs1 rs2 => [rs1, rs2]
  | _ => []

/-- The CSR number of a CSR instruction and whether it writes (48_system R612). -/
def csrField : Instr → Option (BitVec 12 × Bool)
  | .csrrw _ _ csr | .csrrwi _ _ csr => some (csr, true)
  | .csrrs _ rs1 csr | .csrrc _ rs1 csr => some (csr, rs1 != 0#5)
  | .csrrsi _ uimm csr | .csrrci _ uimm csr => some (csr, uimm != 0#5)
  | _ => none

/-- The instructions that write memory (R106). -/
def writesMemory : Instr → Bool
  | .sb .. | .sh .. | .sw .. | .fsw .. | .fsd .. | .scW .. | .amoswapW .. | .amoaddW .. | .amoxorW .. | .amoandW ..
  | .amoorW .. | .amominW .. | .amomaxW .. | .amominuW .. | .amomaxuW .. => true
  | _ => false

/-! ## The fetch boundary (60_exceptions R656, R660, R661) -/

/-- Some byte of the word at `pc` is in `modified`, and `FETCH_COHERENCE = fault` (R661). -/
def Unfenced (s : State) : Prop :=
  s.cfg.fetchCoherence = .fault ∧ ∃ x : Word, (x - s.pc).toNat < 4 ∧ x.toNat ∈ s.modified

/-- A running state whose fetch passes its three checks; that the fetch asks about a 4-byte read at `pc` is log entry 5. -/
def Fetchable (s : State) : Prop :=
  s.status = .running ∧ s.pc.toNat % 4 = 0 ∧ ¬Unfenced s ∧ Admits s.cfg s.pc 4 .read

/-- A decoded instruction is admitted: it is not marked `(u)`, or `ADMIT_UNNAMED = true` (30_encoding R177). -/
def Admitted (s : State) (i : Instr) : Prop := s.cfg.admitUnnamed = true ∨ isUnnamed i = false

end Sys2Proof.Claims
end

