-- ==== Sys2Proof/Certificates/Slice0/Obligations.lean ====
section
/-! DEFINITION. The statements for the provers, O1 to O60 in OBLIGATIONS.json: each a proposition about the model, in the words of Claims.lean
and RealFloat.lean. -/

open Sys2Proof Sys2Proof.Machine Sys2Proof.Claims Sys2Proof.Ieee

/-- O1, tier 3. Decoding the encoding of any well-formed instruction gives that instruction back, with every operand.
Rests on 30_encoding.md sections 2 to 5. -/
def Obligations.DecodeInvertsEncode : Prop :=
  ∀ i : Instr, WellFormed i = true →
    decode (encode i) = .ok i ∧
    ∀ rest : List Byte, decodeBytes (bytesOfWord (encode i) ++ rest) = .ok (i, rest)

/-- O2, tier 3. Every word that decodes is the encoding of the well-formed instruction it decodes to: no bit is dropped.
Rests on 30_encoding.md sections 2 to 6. -/
def Obligations.EncodeInvertsDecode : Prop :=
  ∀ (w : Word) (i : Instr), decode w = .ok i → WellFormed i = true ∧ encode i = w

/-- O3, tier 3. The decoder accepts exactly the words of the opcode table, each as its own row, and no two rows overlap.
Rests on 30_encoding.md section 4 (R171), 30_encoding.md section 5, the opcode table, 30_encoding.md section 6 (R172,
R177). -/
def Obligations.DecodeFollowsOpcodeTable : Prop :=
  (∀ (w : Word) (i : Instr), decode w = .ok i → tableRow i ∈ opcodeTable ∧ w &&& (tableRow i).mask = (tableRow i).pattern) ∧
  (∀ (w : Word) (row : OpcodeRow), row ∈ opcodeTable → w &&& row.mask = row.pattern →
    ∃ i, decode w = .ok i ∧ tableRow i = row) ∧
  (∀ w : Word, (∀ row ∈ opcodeTable, w &&& row.mask ≠ row.pattern) → ∃ e, decode w = .error e) ∧
  (∀ (w : Word) (row row' : OpcodeRow), row ∈ opcodeTable → row' ∈ opcodeTable →
    w &&& row.mask = row.pattern → w &&& row'.mask = row'.pattern → row = row') ∧
  (∀ i : Instr, isUnnamed i = true ↔ (tableRow i).mnemonic ∈
    ["FENCE", "FENCE.I", "CSRRW", "CSRRS", "CSRRC", "CSRRWI", "CSRRSI", "CSRRCI", "FSGNJ.S", "FSGNJN.S", "FSGNJX.S",
     "FCLASS.S", "FSGNJ.D", "FSGNJN.D", "FSGNJX.D", "FCLASS.D", "FCVT.S.D", "FCVT.D.S"])

/-- O4, tier 1. Example words of the spec decode to the instructions they are written for. Rests on 40_integer.md to
48_system.md, the example words of the instruction rules. -/
def Obligations.SpecExampleWordsDecode : Prop :=
  decode 0x123452B7#32 = .ok (.lui 5#5 0x12345#20) ∧
  decode 0xFFF30293#32 = .ok (.addi 5#5 6#5 0xFFF#12) ∧
  decode 0x41F35293#32 = .ok (.srai 5#5 6#5 31#5) ∧
  decode 0x407302B3#32 = .ok (.sub 5#5 6#5 7#5) ∧
  decode 0xFE731EE3#32 = .ok (.bne 6#5 7#5 0x1FFC#13) ∧
  decode 0x010000EF#32 = .ok (.jal 1#5 16#21) ∧
  decode 0x003280E7#32 = .ok (.jalr 1#5 5#5 3#12) ∧
  decode 0xFFC32283#32 = .ok (.lw 5#5 6#5 0xFFC#12) ∧
  decode 0xFE732E23#32 = .ok (.sw 6#5 7#5 0xFFC#12) ∧
  decode 0x027362B3#32 = .ok (.rem 5#5 6#5 7#5) ∧
  decode 0x160322AF#32 = .ok (.lrW 5#5 6#5 1#1 1#1) ∧
  decode 0xE07322AF#32 = .ok (.amomaxuW 5#5 6#5 7#5 0#1 0#1) ∧
  decode 0x00132227#32 = .ok (.fsw 6#5 1#5 4#12) ∧
  decode 0x183110D3#32 = .ok (.fdivS 1#5 2#5 3#5 0b001#3) ∧
  decode 0x203100CF#32 = .ok (.fnmaddS 1#5 2#5 3#5 4#5 0b000#3) ∧
  decode 0xC01102D3#32 = .ok (.fcvtWuS 5#5 2#5 0b000#3) ∧
  decode 0x00833107#32 = .ok (.fld 2#5 6#5 8#12) ∧
  decode 0x4262014B#32 = .ok (.fnmsubD 2#5 4#5 6#5 8#5 0b000#3) ∧
  decode 0x42008153#32 = .ok (.fcvtDS 2#5 1#5 0b000#3) ∧
  decode 0x0330000F#32 = .ok (.fence 0#5 0#5 0b0000#4 0b0011#4 0b0011#4) ∧
  decode 0x00100073#32 = .ok (.sbreak) ∧
  decode 0x001262F3#32 = .ok (.csrrsi 5#5 4#5 0x001#12)

/-- O5, tier 2. Every SYSTEM word with funct3 = 000 but SCALL and SBREAK faults ILLEGAL and changes nothing else. Rests on
R603. -/
def Obligations.PrivilegedWordsAreIllegal : Prop :=
  (∀ w : Word, w.extractLsb' 0 7 = 0b1110011#7 → w.extractLsb' 12 3 = 0b000#3 → w ≠ 0x00000073#32 → w ≠ 0x00100073#32 →
    (∃ e, decode w = .error e) ∧
    ∀ s : State, Fetchable s → wordAt s s.pc = w → step s = .next (faultOutcome s .illegal w 0#32)) ∧
  (∀ w ∈ [0x00200073#32, 0x10200073#32, 0x30200073#32, 0x10500073#32],
    w.extractLsb' 0 7 = 0b1110011#7 ∧ w.extractLsb' 12 3 = 0b000#3 ∧ w ≠ 0x00000073#32 ∧ w ≠ 0x00100073#32) ∧
  (∀ rs1 rs2 : Reg, ∀ w : Word, w = 0b0001001#7 ++ rs2 ++ rs1 ++ 0b000#3 ++ 0b00000#5 ++ 0b1110011#7 →
    w.extractLsb' 0 7 = 0b1110011#7 ∧ w.extractLsb' 12 3 = 0b000#3 ∧ w ≠ 0x00000073#32 ∧ w ≠ 0x00100073#32)

/-- O6, tier 1. A step at a fetchable word that decodes to an admitted instruction is exactly exec of that instruction.
Rests on 30_encoding.md section 1 (R150), 60_exceptions.md section 3, 00_scope.md section 2 (R9). -/
def Obligations.StepRunsDecodedInstruction : Prop :=
  ∀ (s : State) (i : Instr), Fetchable s → decode (wordAt s s.pc) = .ok i → Admitted s i → step s = exec i s

/-- O7, tier 2. The fetch checks: misaligned pc, then unfenced bytes, then a refused fetch (stuck), then an illegal word.
Rests on 60_exceptions.md section 2 (R656, items 1 to 4), 60_exceptions.md section 3 (R660, R661), 30_encoding.md
section 6 (R172, R177), log entry 5 (that a fetch asks MEM_ADMIT about a 4-byte read at pc is the model's choice,
DEDUCED: no rule spells the call out). -/
def Obligations.FetchChecksInOrder : Prop :=
  ∀ s : State, s.status = .running →
    (s.pc.toNat % 4 ≠ 0 → step s = .next (faultOutcome s .fetchMisaligned 0#32 s.pc)) ∧
    (s.pc.toNat % 4 = 0 → Unfenced s → step s = .next (faultOutcome s .fetchUnfenced 0#32 s.pc)) ∧
    (s.pc.toNat % 4 = 0 → ¬Unfenced s → ¬Admits s.cfg s.pc 4 .read → step s = .next (stuckOutcome s)) ∧
    (Fetchable s → (∀ i, decode (wordAt s s.pc) = .ok i → ¬Admitted s i) →
      step s = .next (faultOutcome s .illegal (wordAt s s.pc) 0#32))

/-- O8, tier 2. A running state always has a next state; a halted, faulted or stuck state has no step. Rests on
10_state.md section 6 (R68), 00_scope.md section 2 (R9), 60_exceptions.md section 1 (R651), log entry 7 (the refusal
notRunning is the model's form of "no step"). -/
def Obligations.OnlyRunningSteps : Prop :=
  ∀ s : State, (s.status = .running → ∃ t, step s = .next t) ∧ (s.status ≠ .running → step s = .refused .notRunning)

/-- O9, tier 2. A step that faults changes nothing but status and the fault record, and the record is as R655 says. Rests
on R652, R655. -/
def Obligations.FaultChangesOnlyStatusAndRecord : Prop :=
  ∀ (s t : State) (reason : FaultReason), step s = .next t → t.status = .faulted reason →
    (∃ word addr : Word, t = faultOutcome s reason word addr ∧
      (reason = .fetchMisaligned ∨ reason = .fetchUnfenced → word = 0#32 ∧ addr = s.pc) ∧
      (reason = .illegal ∨ reason = .regPair → word = wordAt s s.pc ∧ addr = 0#32) ∧
      (reason = .dataMisaligned → word = wordAt s s.pc ∧
        ∃ i acc, decode word = .ok i ∧ accessOf s i = some acc ∧ addr = acc.addr)) ∧
    ∀ u, step t ≠ .next u

/-- O10, tier 2. A step that gets stuck changes nothing but status, and only a refused access makes it stuck. Rests on
60_exceptions.md section 1 (R658), 20_memory.md section 5 (R107), 60_exceptions.md section 3 (R660), log entry 5 (that
a fetch asks MEM_ADMIT about a 4-byte read at pc is the model's choice, DEDUCED: no rule spells the call out). -/
def Obligations.StuckChangesOnlyStatus : Prop :=
  ∀ s t : State, step s = .next t → t.status = .stuck →
    t = stuckOutcome s ∧ (∀ u, step t ≠ .next u) ∧
    (¬Admits s.cfg s.pc 4 .read ∨
      ∃ i acc, decode (wordAt s s.pc) = .ok i ∧ accessOf s i = some acc ∧ ∃ c ∈ acc.calls, memAdmit s.cfg c = false)

/-- O11, tier 2. A halting step sets pc to pc0 + 4 and status, after no effect but NV for a negative square root. Rests on
R650. -/
def Obligations.HaltsAreScallSbreakAndNegativeSqrt : Prop :=
  (∀ (s t : State) (reason : HaltReason), step s = .next t → t.status = .halted reason →
    (∃ i, decode (wordAt s s.pc) = .ok i ∧
      (reason = .scall → i = .scall ∧ t = haltOutcome s .scall) ∧
      (reason = .sbreak → i = .sbreak ∧ t = haltOutcome s .sbreak) ∧
      (reason = .sqrtNeg →
        ((∃ rd rs1 rm, i = .fsqrtS rd rs1 rm ∧ IsNegativeOperand .S (readF rs1 s)) ∨
          ∃ rd rs1 rm lo hi, i = .fsqrtD rd rs1 rm ∧ PairIs s.cfg rs1 lo hi ∧ IsNegativeOperand .D (doubleOf s lo hi)) ∧
        Accrues s flagNV t ∧ t = haltOutcome { s with fflags := t.fflags } .sqrtNeg)) ∧
    haltOutput t = some reason) ∧
  haltCode .scall = 1 ∧ haltCode .sbreak = 2 ∧ haltCode .sqrtNeg = 3

/-- O12, tier 2. Which instructions can end ILLEGAL, REG_PAIR, DATA_MISALIGNED, stuck or halted, and that no other can.
Rests on R654. -/
def Obligations.OutcomesByInstruction : Prop :=
  (∀ (i : Instr) (s t : State), s.status = .running → exec i s = .next t →
    (t.status = .faulted .illegal → rmField i ≠ none ∨ csrField i ≠ none) ∧
    (t.status = .faulted .regPair → doubleFields i ≠ []) ∧
    (t.status = .faulted .dataMisaligned → ∃ acc, accessOf s i = some acc ∧ acc.align ≠ 1) ∧
    (t.status = .stuck → accessOf s i ≠ none) ∧
    (∀ reason, t.status = .halted reason → i = .scall ∨ i = .sbreak ∨
      (∃ rd rs1 rm, i = .fsqrtS rd rs1 rm) ∨ ∃ rd rs1 rm, i = .fsqrtD rd rs1 rm) ∧
    t.status ≠ .faulted .fetchMisaligned ∧ t.status ≠ .faulted .fetchUnfenced) ∧
  (∀ s : State, s.status = .running → s.pc.toNat % 4 ≠ 0 → step s = .next (faultOutcome s .fetchMisaligned 0#32 s.pc)) ∧
  (∀ s : State, s.status = .running → s.pc.toNat % 4 = 0 → Unfenced s →
    step s = .next (faultOutcome s .fetchUnfenced 0#32 s.pc)) ∧
  (∀ s : State, Fetchable s → (∀ i, decode (wordAt s s.pc) = .ok i → ¬Admitted s i) →
    step s = .next (faultOutcome s .illegal (wordAt s s.pc) 0#32))

/-- O13, tier 3. Every step keeps the invariant: memory and modified canonical, x0 = 0, parameters legal, record agrees.
Rests on 10_state.md sections 1, 6 and 8 (R51, R68, R69, R73), 20_memory.md section 2 (R103), 60_exceptions.md section
1 (R652, R655), log entries 1, 8, 10, 18. -/
def Obligations.StepKeepsInvariant : Prop :=
  ∀ s t : State, Inv s → step s = .next t → Inv t

/-- O14, tier 1. The state after reset, and every state begin leaves over a good state, satisfy the invariant. Rests on
10_state.md section 8 (R72), 00_scope.md section 3 (R11), log entry 1 (reset memory lists nothing: the model's
choice), log entries 3 and 18 (the parameters as data, at their defaults, and Config.wf: the model's choices), log
entry 8 (the record held in State, none at reset: the model's choice), log entry 20 (what begin keeps: the model's
choice). -/
def Obligations.ResetMeetsInvariant : Prop :=
  Inv State.reset ∧ ∀ s : State, Inv s → Inv (beginRun s)

/-- O15, tier 2. No step makes pc odd. Rests on 60_exceptions.md section 3 (R660), 41_control_flow.md sections 1 to 3
(R251, R261). -/
def Obligations.StepKeepsPcEven : Prop :=
  ∀ s t : State, s.pc.toNat % 2 = 0 → step s = .next t → t.pc.toNat % 2 = 0

/-- O16, tier 2. Only a CSR instruction clears a flag or changes frm, and with FFLAGS_MODE = frozen nothing else sets a
flag. Rests on R61. -/
def Obligations.FlagsAreStickyAndFrmIsCsrOnly : Prop :=
  (∀ (i : Instr) (s t : State), exec i s = .next t → csrField i = none →
    t.frm = s.frm ∧ s.fflags &&& t.fflags = s.fflags ∧ (s.cfg.fflagsMode = .frozen → t.fflags = s.fflags)) ∧
  (∀ s : State, ∃ t, exec (.csrrwi 0#5 0#5 0x001#12) s = .next t ∧ t.fflags = flagNone) ∧
  (∀ s : State, (portWriteFcsr 0#32 s).fflags = flagNone ∧ (beginRun s).fflags = flagNone)

/-- O17, tier 2. No instruction but the stores, SC.W and the AMOs changes a byte of memory; only those and FENCE.I change
modified. Rests on 20_memory.md sections 1 to 5 (R102, R103, R106), 10_state.md section 6 (R69), 48_system.md section
3 (R605). -/
def Obligations.OnlyStoresChangeMemory : Prop :=
  ∀ (i : Instr) (s t : State), exec i s = .next t → writesMemory i = false →
    t.mem = s.mem ∧ (∀ a : Word, readByte t.mem a = readByte s.mem a) ∧
    (t.modified = s.modified ∨ ∃ rd rs1 imm, i = .fenceI rd rs1 imm)

/-- O18, tier 1. begin and reset: registers, slots, fcsr zero, pc = RESET_PC, running, modified empty, memory untouched.
Rests on 10_state.md section 8 (R72), 70_reset_and_hazards.md (R700: end changes nothing; R705: begin does not touch
memory), 00_scope.md section 3 (R11), log entry 3 (the default parameters in State.reset: the model's choice), log
entry 8 (no record after begin and reset: the model's choice), log entry 20 (begin keeps the parameters: the model's
choice). -/
def Obligations.BeginZeroesEverything : Prop :=
  (∀ s : State, (∀ r, readX r (beginRun s) = 0#32) ∧ (∀ r, readF r (beginRun s) = 0#32) ∧
    (∀ lo hi, doubleOf (beginRun s) lo hi = 0#64) ∧ (beginRun s).frm = 0#3 ∧ (beginRun s).fflags = 0#5 ∧
    (beginRun s).pc = s.cfg.resetPc ∧ (beginRun s).status = .running ∧ (beginRun s).modified = [] ∧
    (beginRun s).record = none ∧ (beginRun s).mem = s.mem ∧ (beginRun s).cfg = s.cfg ∧ endRun s = s) ∧
  (∀ r, readX r State.reset = 0#32) ∧ (∀ r, readF r State.reset = 0#32) ∧ State.reset.frm = 0#3 ∧
  State.reset.fflags = 0#5 ∧ State.reset.pc = 0#32 ∧ State.reset.status = .running ∧ State.reset.modified = [] ∧
  State.reset.record = none ∧ State.reset.cfg = Config.default

/-- O19, tier 1. The state-access port reads what it wrote, changes nothing else, and discards a write to x0. Rests on
R70. -/
def Obligations.PortWritesAndX0 : Prop :=
  ∀ (s : State) (i : Reg) (v : Word),
    portReadX 0#5 s = 0#32 ∧ portWriteX 0#5 v s = s ∧
    portReadX i (portWriteX i v s) = (if i = 0#5 then 0#32 else v) ∧
    (∀ r, r ≠ i → portReadX r (portWriteX i v s) = portReadX r s) ∧
    KeepsF s (portWriteX i v s) [] ∧ KeepsFcsr s (portWriteX i v s) ∧ KeepsMemory s (portWriteX i v s) ∧
    KeepsRun s (portWriteX i v s) ∧ (portWriteX i v s).pc = s.pc ∧
    portReadF i (portWriteF i v s) = v ∧ KeepsF s (portWriteF i v s) [i] ∧ KeepsX s (portWriteF i v s) [] ∧
    KeepsFcsr s (portWriteF i v s) ∧ KeepsMemory s (portWriteF i v s) ∧ KeepsRun s (portWriteF i v s) ∧
    (portWriteF i v s).pc = s.pc ∧
    portReadPc (portWritePc v s) = v ∧ portWritePc v s = { s with pc := v } ∧
    portWriteFcsr v s = { s with frm := v.extractLsb' 5 3, fflags := v.extractLsb' 0 5 } ∧
    portReadFcsr s = (s.frm ++ s.fflags).zeroExtend 32

/-- O20, tier 2. x0 reads 0 before and after every step; an instruction whose rd is x0 still has its other effects. Rests
on R51. -/
def Obligations.X0ReadsZeroAfterEveryStep : Prop :=
  (∀ s t : State, readX 0#5 s = 0#32 ∧ (step s = .next t → readX 0#5 t = 0#32 ∧ (s.x[0] = 0#32 → t.x[0] = 0#32))) ∧
  (∀ (v : Word) (s : State), writeX 0#5 v s = s ∧ portWriteX 0#5 v s = s) ∧
  (∀ (s : State) (offset : BitVec 21), exec (.jal 0#5 offset) s = .next { s with pc := s.pc + offset.signExtend 32 }) ∧
  (∀ (s : State) (rs1 rs2 : Reg), Completes (.feqS 0#5 rs1 rs2) s fun t =>
    KeepsX s t [] ∧ Accrues s (Fp.compare .S .eq (readF rs1 s) (readF rs2 s)).2 t) ∧
  (∀ (s : State) (rs1 rs2 : Reg) (aq rl : BitVec 1), Memory.wf s.mem = true → AlignOk s.cfg (readX rs1 s) 4 →
    Admits s.cfg (readX rs1 s) 4 .read → Admits s.cfg (readX rs1 s) 4 .write →
    Completes (.amoswapW 0#5 rs1 rs2 aq rl) s fun t => KeepsX s t [] ∧ Stores s (readX rs1 s) (leBytes (readX rs2 s)) t) ∧
  (∀ (s : State) (rs1 : Reg) (imm : BitVec 12), ¬Admits s.cfg (dispAddr s rs1 imm) 1 .read →
    exec (.lb 0#5 rs1 imm) s = .next (stuckOutcome s))

/-- O21, tier 2. Which slots a double register is, under both DPAIR_MODE values, and that singles and doubles alias. Rests
on R57, R58. -/
def Obligations.DoublePairsShareSlots : Prop :=
  (∀ (cfg : Config) (r lo hi : Reg), pairOf cfg r = some ⟨lo, hi⟩ ↔ PairIs cfg r lo hi) ∧
  (∀ (cfg : Config) (r : Reg), pairOf cfg r = none ↔
    (cfg.dpairMode = .evenPair ∧ r.toNat % 2 = 1) ∨ (cfg.dpairMode = .scaled ∧ 16 ≤ r.toNat)) ∧
  (∀ (cfg : Config) (r lo hi : Reg) (v : Dword) (w : Word) (s : State), PairIs cfg r lo hi →
    readPair ⟨lo, hi⟩ s = doubleOf s lo hi ∧
    readF lo (writePair ⟨lo, hi⟩ v s) = v.extractLsb' 0 32 ∧ readF hi (writePair ⟨lo, hi⟩ v s) = v.extractLsb' 32 32 ∧
    KeepsF s (writePair ⟨lo, hi⟩ v s) [lo, hi] ∧ doubleOf (writePair ⟨lo, hi⟩ v s) lo hi = v ∧
    doubleOf (writeF lo w s) lo hi = (doubleOf s lo hi).extractLsb' 32 32 ++ w ∧
    doubleOf (writeF hi w s) lo hi = w ++ (doubleOf s lo hi).extractLsb' 0 32)

/-- O22, tier 2. MemRead and MemWrite are little-endian, wrap at 2^32, read back, and change no other byte. Rests on R101,
R102. -/
def Obligations.MemoryReadsWhatWasWritten : Prop :=
  ∀ (m : Memory) (a v : Word), Memory.wf m = true →
    (∀ k < 1, (memRead8 m a).extractLsb' (8 * k) 8 = readByte m (a + BitVec.ofNat 32 k)) ∧
    (∀ k < 2, (memRead16 m a).extractLsb' (8 * k) 8 = readByte m (a + BitVec.ofNat 32 k)) ∧
    (∀ k < 4, (memRead32 m a).extractLsb' (8 * k) 8 = readByte m (a + BitVec.ofNat 32 k)) ∧
    (∀ n ∈ [1, 2, 4], ∀ bs, bs = (if n = 1 then bytes8 v else if n = 2 then bytes16 v else bytes32 v) →
      bs.length = n ∧ Memory.wf (memWrite m a bs) = true ∧
      (∀ k < n, readByte (memWrite m a bs) (a + BitVec.ofNat 32 k) = v.extractLsb' (8 * k) 8) ∧
      (∀ x : Word, n ≤ (x - a).toNat → readByte (memWrite m a bs) x = readByte m x)) ∧
    memRead8 (memWrite m a (bytes8 v)) a = v.extractLsb' 0 8 ∧
    memRead16 (memWrite m a (bytes16 v)) a = v.extractLsb' 0 16 ∧
    memRead32 (memWrite m a (bytes32 v)) a = v

/-- O23, tier 2. With MISALIGNED_DATA = fault, a misaligned access faults DATA_MISALIGNED with its address, before any
access. Rests on 20_memory.md section 4 (R105), 42_load_store.md section 1 (R300), 44_atomic.md section 1 (R400),
60_exceptions.md section 2 (R656, items 6 and 7). -/
def Obligations.MisalignedAccessFaults : Prop :=
  (∀ (i : Instr) (s : State) (acc : Access), accessOf s i = some acc →
    (∀ r ∈ doubleFields i, ∃ lo hi, PairIs s.cfg r lo hi) →
    s.cfg.misalignedData = .fault → acc.addr.toNat % acc.align ≠ 0 →
    exec i s = .next (faultOutcome s .dataMisaligned (wordAt s s.pc) acc.addr)) ∧
  (∀ (i : Instr) (s t : State), s.status = .running → s.cfg.misalignedData = .bytewise → exec i s = .next t →
    t.status ≠ .faulted .dataMisaligned)

/-- O24, tier 2. If MEM_ADMIT refuses any port call of an instruction, it makes none, changes nothing, and is stuck. Rests
on R107. -/
def Obligations.RefusedAccessIsStuck : Prop :=
  ∀ (i : Instr) (s : State) (acc : Access), accessOf s i = some acc →
    (∀ r ∈ doubleFields i, ∃ lo hi, PairIs s.cfg r lo hi) → AlignOk s.cfg acc.addr acc.align →
    (∃ c ∈ acc.calls, ¬Admits s.cfg c.addr c.size c.kind) → exec i s = .next (stuckOutcome s)

/-- O25, tier 2. A load after a store to the same address gives the stored value: SW then LW, LBU, LHU; FSD then FLD; FSW
then FLW. Rests on 20_memory.md section 3 (R104), 20_memory.md section 8 (R115), 42_load_store.md sections 2 to 4
(R303, R311). -/
def Obligations.LoadsSeeEarlierStores : Prop :=
  ∀ (s : State) (rs1 rs2 rd rb : Reg) (imm : BitVec 12) (a v : Word), Memory.wf s.mem = true →
    a = dispAddr s rs1 imm → readX rb s = a → v = readX rs2 s →
    (AlignOk s.cfg a 4 → Admits s.cfg a 4 .write → ∃ t, exec (.sw rs1 rs2 imm) s = .next t ∧
      (Admits s.cfg a 4 .read → Completes (.lw rd rb 0#12) t fun u => readX rd u = if rd = 0#5 then 0#32 else v) ∧
      (Admits s.cfg a 1 .read → Completes (.lbu rd rb 0#12) t fun u =>
        readX rd u = if rd = 0#5 then 0#32 else (v.extractLsb' 0 8).zeroExtend 32) ∧
      (Admits s.cfg (a + 3#32) 1 .read → Completes (.lbu rd rb 3#12) t fun u =>
        readX rd u = if rd = 0#5 then 0#32 else (v.extractLsb' 24 8).zeroExtend 32) ∧
      (Admits s.cfg (a + 2#32) 2 .read → Completes (.lhu rd rb 2#12) t fun u =>
        readX rd u = if rd = 0#5 then 0#32 else (v.extractLsb' 16 16).zeroExtend 32)) ∧
    (AlignOk s.cfg a 4 → Admits s.cfg a 4 .write → ∃ t, exec (.fsw rs1 rs2 imm) s = .next t ∧
      (Admits s.cfg a 4 .read → Completes (.flw rd rb 0#12) t fun u => readF rd u = readF rs2 s)) ∧
    (∀ lo hi lo' hi', PairIs s.cfg rs2 lo hi → PairIs s.cfg rd lo' hi' → AlignOk s.cfg a 8 →
      Admits s.cfg a 4 .write → Admits s.cfg (a + 4#32) 4 .write → ∃ t, exec (.fsd rs1 rs2 imm) s = .next t ∧
        (Admits s.cfg a 4 .read → Admits s.cfg (a + 4#32) 4 .read →
          Completes (.fld rd rb 0#12) t fun u => doubleOf u lo' hi' = doubleOf s lo hi))

/-- O26, tier 1. LUI and AUIPC: encoding, result, and everything else unchanged. Rests on R201, R202. -/
def Obligations.UpperImmediateResults : Prop :=
  ∀ (s : State) (rd : Reg) (imm : BitVec 20),
    Means (.lui rd imm) (imm ++ rd ++ 0b0110111#7) s
      (XResult s rd (imm ++ 0#12)) ∧
    Means (.auipc rd imm) (imm ++ rd ++ 0b0010111#7) s
      (XResult s rd (s.pc + (imm ++ 0#12)))

/-- O27, tier 1. The nine register-immediate instructions: encoding, result, and everything else unchanged. Rests on R203,
R204, R205, R206, R207, R208, R209, R210, R211. -/
def Obligations.ImmediateAluResults : Prop :=
  ∀ (s : State) (rd rs1 : Reg) (imm : BitVec 12) (shamt : BitVec 5),
    Means (.addi rd rs1 imm) (imm ++ rs1 ++ 0b000#3 ++ rd ++ 0b0010011#7) s
      (XResult s rd (readX rs1 s + imm.signExtend 32)) ∧
    Means (.slti rd rs1 imm) (imm ++ rs1 ++ 0b010#3 ++ rd ++ 0b0010011#7) s
      (XResult s rd (if (readX rs1 s).toInt < (imm.signExtend 32 : Word).toInt then 1#32 else 0#32)) ∧
    Means (.sltiu rd rs1 imm) (imm ++ rs1 ++ 0b011#3 ++ rd ++ 0b0010011#7) s
      (XResult s rd (if (readX rs1 s).toNat < (imm.signExtend 32 : Word).toNat then 1#32 else 0#32)) ∧
    Means (.xori rd rs1 imm) (imm ++ rs1 ++ 0b100#3 ++ rd ++ 0b0010011#7) s
      (XResult s rd (readX rs1 s ^^^ imm.signExtend 32)) ∧
    Means (.ori rd rs1 imm) (imm ++ rs1 ++ 0b110#3 ++ rd ++ 0b0010011#7) s
      (XResult s rd (readX rs1 s ||| imm.signExtend 32)) ∧
    Means (.andi rd rs1 imm) (imm ++ rs1 ++ 0b111#3 ++ rd ++ 0b0010011#7) s
      (XResult s rd (readX rs1 s &&& imm.signExtend 32)) ∧
    Means (.slli rd rs1 shamt) (0b0000000#7 ++ shamt ++ rs1 ++ 0b001#3 ++ rd ++ 0b0010011#7) s
      (XResult s rd (readX rs1 s <<< shamt.toNat)) ∧
    Means (.srli rd rs1 shamt) (0b0000000#7 ++ shamt ++ rs1 ++ 0b101#3 ++ rd ++ 0b0010011#7) s
      (XResult s rd (readX rs1 s >>> shamt.toNat)) ∧
    Means (.srai rd rs1 shamt) (0b0100000#7 ++ shamt ++ rs1 ++ 0b101#3 ++ rd ++ 0b0010011#7) s
      (XResult s rd ((readX rs1 s).sshiftRight shamt.toNat)) ∧
    (∀ w : Word, w.extractLsb' 0 7 = 0b0010011#7 → w.extractLsb' 12 3 = 0b001#3 → w.getLsbD 25 = true →
      ∃ e, decode w = .error e)

/-- O28, tier 2. The ten register-register instructions: encoding, result, and everything else unchanged. Rests on R212,
R213, R214, R215, R216, R217, R218, R219, R220, R221. -/
def Obligations.RegisterAluResults : Prop :=
  ∀ (s : State) (rd rs1 rs2 : Reg),
    Means (.add rd rs1 rs2) (0b0000000#7 ++ rs2 ++ rs1 ++ 0b000#3 ++ rd ++ 0b0110011#7) s
      (XResult s rd (readX rs1 s + readX rs2 s)) ∧
    Means (.sub rd rs1 rs2) (0b0100000#7 ++ rs2 ++ rs1 ++ 0b000#3 ++ rd ++ 0b0110011#7) s
      (XResult s rd (readX rs1 s - readX rs2 s)) ∧
    Means (.sll rd rs1 rs2) (0b0000000#7 ++ rs2 ++ rs1 ++ 0b001#3 ++ rd ++ 0b0110011#7) s
      (XResult s rd (readX rs1 s <<< ((readX rs2 s).toNat % 32))) ∧
    Means (.slt rd rs1 rs2) (0b0000000#7 ++ rs2 ++ rs1 ++ 0b010#3 ++ rd ++ 0b0110011#7) s
      (XResult s rd (if (readX rs1 s).toInt < (readX rs2 s).toInt then 1#32 else 0#32)) ∧
    Means (.sltu rd rs1 rs2) (0b0000000#7 ++ rs2 ++ rs1 ++ 0b011#3 ++ rd ++ 0b0110011#7) s
      (XResult s rd (if (readX rs1 s).toNat < (readX rs2 s).toNat then 1#32 else 0#32)) ∧
    Means (.xor rd rs1 rs2) (0b0000000#7 ++ rs2 ++ rs1 ++ 0b100#3 ++ rd ++ 0b0110011#7) s
      (XResult s rd (readX rs1 s ^^^ readX rs2 s)) ∧
    Means (.srl rd rs1 rs2) (0b0000000#7 ++ rs2 ++ rs1 ++ 0b101#3 ++ rd ++ 0b0110011#7) s
      (XResult s rd (readX rs1 s >>> ((readX rs2 s).toNat % 32))) ∧
    Means (.sra rd rs1 rs2) (0b0100000#7 ++ rs2 ++ rs1 ++ 0b101#3 ++ rd ++ 0b0110011#7) s
      (XResult s rd ((readX rs1 s).sshiftRight ((readX rs2 s).toNat % 32))) ∧
    Means (.or rd rs1 rs2) (0b0000000#7 ++ rs2 ++ rs1 ++ 0b110#3 ++ rd ++ 0b0110011#7) s
      (XResult s rd (readX rs1 s ||| readX rs2 s)) ∧
    Means (.and rd rs1 rs2) (0b0000000#7 ++ rs2 ++ rs1 ++ 0b111#3 ++ rd ++ 0b0110011#7) s
      (XResult s rd (readX rs1 s &&& readX rs2 s))

/-- O29, tier 1. MUL, MULH, MULHSU, MULHU: encoding, the half of the exact product, and everything else unchanged. Rests
on R351, R352, R353, R354. -/
def Obligations.MultiplyResults : Prop :=
  ∀ (s : State) (rd rs1 rs2 : Reg),
    Means (.mul rd rs1 rs2) (0b0000001#7 ++ rs2 ++ rs1 ++ 0b000#3 ++ rd ++ 0b0110011#7) s
      (XResult s rd ((BitVec.ofInt 64 ((readX rs1 s).toInt * (readX rs2 s).toInt)).extractLsb' 0 32)) ∧
    Means (.mulh rd rs1 rs2) (0b0000001#7 ++ rs2 ++ rs1 ++ 0b001#3 ++ rd ++ 0b0110011#7) s
      (XResult s rd ((BitVec.ofInt 64 ((readX rs1 s).toInt * (readX rs2 s).toInt)).extractLsb' 32 32)) ∧
    Means (.mulhsu rd rs1 rs2) (0b0000001#7 ++ rs2 ++ rs1 ++ 0b010#3 ++ rd ++ 0b0110011#7) s
      (XResult s rd ((BitVec.ofInt 64 ((readX rs1 s).toInt * ((readX rs2 s).toNat : Int))).extractLsb' 32 32)) ∧
    Means (.mulhu rd rs1 rs2) (0b0000001#7 ++ rs2 ++ rs1 ++ 0b011#3 ++ rd ++ 0b0110011#7) s
      (XResult s rd ((BitVec.ofNat 64 ((readX rs1 s).toNat * (readX rs2 s).toNat)).extractLsb' 32 32))

/-- O30, tier 2. DIV, DIVU, REM, REMU with every special division: result, law of division, everything else unchanged.
Rests on R355, R356, R357, R358, R359. -/
def Obligations.DivideResults : Prop :=
  ∀ (s : State) (rd rs1 rs2 : Reg) (a b : Word), a = readX rs1 s → b = readX rs2 s →
    (b = 0#32 →
      Means (.div rd rs1 rs2) (0b0000001#7 ++ rs2 ++ rs1 ++ 0b100#3 ++ rd ++ 0b0110011#7) s
        (XResult s rd 0xFFFFFFFF#32) ∧
      Means (.divu rd rs1 rs2) (0b0000001#7 ++ rs2 ++ rs1 ++ 0b101#3 ++ rd ++ 0b0110011#7) s
        (XResult s rd 0xFFFFFFFF#32) ∧
      Means (.rem rd rs1 rs2) (0b0000001#7 ++ rs2 ++ rs1 ++ 0b110#3 ++ rd ++ 0b0110011#7) s
        (XResult s rd a) ∧
      Means (.remu rd rs1 rs2) (0b0000001#7 ++ rs2 ++ rs1 ++ 0b111#3 ++ rd ++ 0b0110011#7) s
        (XResult s rd a)) ∧
    (a = 0x80000000#32 → b = 0xFFFFFFFF#32 →
      Means (.div rd rs1 rs2) (0b0000001#7 ++ rs2 ++ rs1 ++ 0b100#3 ++ rd ++ 0b0110011#7) s
        (XResult s rd 0x80000000#32) ∧
      Means (.divu rd rs1 rs2) (0b0000001#7 ++ rs2 ++ rs1 ++ 0b101#3 ++ rd ++ 0b0110011#7) s
        (XResult s rd 0#32) ∧
      Means (.rem rd rs1 rs2) (0b0000001#7 ++ rs2 ++ rs1 ++ 0b110#3 ++ rd ++ 0b0110011#7) s
        (XResult s rd 0#32) ∧
      Means (.remu rd rs1 rs2) (0b0000001#7 ++ rs2 ++ rs1 ++ 0b111#3 ++ rd ++ 0b0110011#7) s
        (XResult s rd 0x80000000#32)) ∧
    (b ≠ 0#32 → ¬(a = 0x80000000#32 ∧ b = 0xFFFFFFFF#32) →
      ∃ q r : Int, a.toInt = q * b.toInt + r ∧ |r| < |b.toInt| ∧ (r = 0 ∨ (r < 0 ↔ a.toInt < 0)) ∧
        -2 ^ 31 ≤ q ∧ q < 2 ^ 31 ∧
        Means (.div rd rs1 rs2) (0b0000001#7 ++ rs2 ++ rs1 ++ 0b100#3 ++ rd ++ 0b0110011#7) s
          (XResult s rd (BitVec.ofInt 32 q)) ∧
        Means (.rem rd rs1 rs2) (0b0000001#7 ++ rs2 ++ rs1 ++ 0b110#3 ++ rd ++ 0b0110011#7) s
          (XResult s rd (BitVec.ofInt 32 r))) ∧
    (b ≠ 0#32 →
      Means (.divu rd rs1 rs2) (0b0000001#7 ++ rs2 ++ rs1 ++ 0b101#3 ++ rd ++ 0b0110011#7) s
        (XResult s rd (BitVec.ofNat 32 (a.toNat / b.toNat))) ∧
      Means (.remu rd rs1 rs2) (0b0000001#7 ++ rs2 ++ rs1 ++ 0b111#3 ++ rd ++ 0b0110011#7) s
        (XResult s rd (BitVec.ofNat 32 (a.toNat % b.toNat))))

/-- O31, tier 2. The six branches: encoding, taken and not taken, and everything but pc unchanged. Rests on R253, R254,
R255, R256, R257, R258. -/
def Obligations.BranchResults : Prop :=
  ∀ (s : State) (rs1 rs2 : Reg) (offset : BitVec 13),
    Means (.beq rs1 rs2 offset) (offset.extractLsb' 12 1 ++ offset.extractLsb' 5 6 ++ rs2 ++ rs1 ++ 0b000#3 ++ offset.extractLsb' 1 4 ++
        offset.extractLsb' 11 1 ++ 0b1100011#7) s
      (JumpResult s (if readX rs1 s = readX rs2 s then s.pc + offset.signExtend 32 else s.pc + 4#32)) ∧
    Means (.bne rs1 rs2 offset) (offset.extractLsb' 12 1 ++ offset.extractLsb' 5 6 ++ rs2 ++ rs1 ++ 0b001#3 ++ offset.extractLsb' 1 4 ++
        offset.extractLsb' 11 1 ++ 0b1100011#7) s
      (JumpResult s (if readX rs1 s ≠ readX rs2 s then s.pc + offset.signExtend 32 else s.pc + 4#32)) ∧
    Means (.blt rs1 rs2 offset) (offset.extractLsb' 12 1 ++ offset.extractLsb' 5 6 ++ rs2 ++ rs1 ++ 0b100#3 ++ offset.extractLsb' 1 4 ++
        offset.extractLsb' 11 1 ++ 0b1100011#7) s
      (JumpResult s (if (readX rs1 s).toInt < (readX rs2 s).toInt then s.pc + offset.signExtend 32 else s.pc + 4#32)) ∧
    Means (.bge rs1 rs2 offset) (offset.extractLsb' 12 1 ++ offset.extractLsb' 5 6 ++ rs2 ++ rs1 ++ 0b101#3 ++ offset.extractLsb' 1 4 ++
        offset.extractLsb' 11 1 ++ 0b1100011#7) s
      (JumpResult s (if (readX rs2 s).toInt ≤ (readX rs1 s).toInt then s.pc + offset.signExtend 32 else s.pc + 4#32)) ∧
    Means (.bltu rs1 rs2 offset) (offset.extractLsb' 12 1 ++ offset.extractLsb' 5 6 ++ rs2 ++ rs1 ++ 0b110#3 ++ offset.extractLsb' 1 4 ++
        offset.extractLsb' 11 1 ++ 0b1100011#7) s
      (JumpResult s (if (readX rs1 s).toNat < (readX rs2 s).toNat then s.pc + offset.signExtend 32 else s.pc + 4#32)) ∧
    Means (.bgeu rs1 rs2 offset) (offset.extractLsb' 12 1 ++ offset.extractLsb' 5 6 ++ rs2 ++ rs1 ++ 0b111#3 ++ offset.extractLsb' 1 4 ++
        offset.extractLsb' 11 1 ++ 0b1100011#7) s
      (JumpResult s (if (readX rs2 s).toNat ≤ (readX rs1 s).toNat then s.pc + offset.signExtend 32 else s.pc + 4#32))

/-- O32, tier 2. JAL and JALR: encoding, link, target (from the old rs1, bit 0 cleared), and everything else unchanged.
Rests on R259, R260, R261, R262. -/
def Obligations.JumpResults : Prop :=
  ∀ (s : State) (rd rs1 : Reg) (offset : BitVec 21) (imm : BitVec 12),
    Means (.jal rd offset) (offset.extractLsb' 20 1 ++ offset.extractLsb' 1 10 ++ offset.extractLsb' 11 1 ++ offset.extractLsb' 12 8 ++
        rd ++ 0b1101111#7) s
      (LinkResult s rd (s.pc + offset.signExtend 32)) ∧
    Means (.jalr rd rs1 imm) (imm ++ rs1 ++ 0b000#3 ++ rd ++ 0b1100111#7) s
      (LinkResult s rd ((readX rs1 s + imm.signExtend 32) &&& 0xFFFFFFFE#32)) ∧
    ((readX rs1 s + imm.signExtend 32) &&& 0xFFFFFFFE#32).toNat = (readX rs1 s + imm.signExtend 32).toNat / 2 * 2

/-- O33, tier 1. LB, LH, LW, LBU, LHU complete when aligned or bytewise and admitted: address, value, everything else
unchanged. Rests on 42_load_store.md sections 1 and 2 (R300 to R305), 20_memory.md sections 1 and 7 (R101, R111). -/
def Obligations.IntegerLoadResults : Prop :=
  ∀ (s : State) (rd rs1 : Reg) (imm : BitVec 12) (a : Word), a = dispAddr s rs1 imm →
    (AlignOk s.cfg a 1 → Admits s.cfg a 1 .read →
      Means (.lb rd rs1 imm) (imm ++ rs1 ++ 0b000#3 ++ rd ++ 0b0000011#7) s
        (XResult s rd ((readByte s.mem a).signExtend 32))) ∧
    (AlignOk s.cfg a 2 → Admits s.cfg a 2 .read →
      Means (.lh rd rs1 imm) (imm ++ rs1 ++ 0b001#3 ++ rd ++ 0b0000011#7) s
        (XResult s rd ((halfAt s a).signExtend 32))) ∧
    (AlignOk s.cfg a 4 → Admits s.cfg a 4 .read →
      Means (.lw rd rs1 imm) (imm ++ rs1 ++ 0b010#3 ++ rd ++ 0b0000011#7) s
        (XResult s rd (wordAt s a))) ∧
    (AlignOk s.cfg a 1 → Admits s.cfg a 1 .read →
      Means (.lbu rd rs1 imm) (imm ++ rs1 ++ 0b100#3 ++ rd ++ 0b0000011#7) s
        (XResult s rd ((readByte s.mem a).zeroExtend 32))) ∧
    (AlignOk s.cfg a 2 → Admits s.cfg a 2 .read →
      Means (.lhu rd rs1 imm) (imm ++ rs1 ++ 0b101#3 ++ rd ++ 0b0000011#7) s
        (XResult s rd ((halfAt s a).zeroExtend 32)))

/-- O34, tier 1. SB, SH, SW complete when aligned or bytewise and admitted: exactly the bytes stored, everything else
unchanged. Rests on 42_load_store.md sections 1 and 3 (R300, R306 to R308), 20_memory.md sections 1 and 7 (R102,
R111), 10_state.md section 6 (R69). -/
def Obligations.IntegerStoreResults : Prop :=
  ∀ (s : State) (rs1 rs2 : Reg) (imm : BitVec 12) (a v : Word), Memory.wf s.mem = true → a = dispAddr s rs1 imm →
    v = readX rs2 s →
    (AlignOk s.cfg a 1 → Admits s.cfg a 1 .write →
      Means (.sb rs1 rs2 imm) (imm.extractLsb' 5 7 ++ rs2 ++ rs1 ++ 0b000#3 ++ imm.extractLsb' 0 5 ++ 0b0100011#7) s
        (StoreResult s a [v.extractLsb' 0 8])) ∧
    (AlignOk s.cfg a 2 → Admits s.cfg a 2 .write →
      Means (.sh rs1 rs2 imm) (imm.extractLsb' 5 7 ++ rs2 ++ rs1 ++ 0b001#3 ++ imm.extractLsb' 0 5 ++ 0b0100011#7) s
        (StoreResult s a [v.extractLsb' 0 8, v.extractLsb' 8 8])) ∧
    (AlignOk s.cfg a 4 → Admits s.cfg a 4 .write →
      Means (.sw rs1 rs2 imm) (imm.extractLsb' 5 7 ++ rs2 ++ rs1 ++ 0b010#3 ++ imm.extractLsb' 0 5 ++ 0b0100011#7) s
        (StoreResult s a (leBytes v)))

/-- O35, tier 1. FLW and FSW move raw bits between one slot and memory, set no flag, and change nothing else. Rests on
42_load_store.md section 4 (R309, R310), 10_state.md section 3 (R56). -/
def Obligations.SingleLoadStoreResults : Prop :=
  ∀ (s : State) (rd rs1 rs2 : Reg) (imm : BitVec 12) (a : Word), a = dispAddr s rs1 imm →
    (AlignOk s.cfg a 4 → Admits s.cfg a 4 .read →
      Means (.flw rd rs1 imm) (imm ++ rs1 ++ 0b010#3 ++ rd ++ 0b0000111#7) s
        (FResult s rd (wordAt s a) flagNone)) ∧
    (Memory.wf s.mem = true → AlignOk s.cfg a 4 → Admits s.cfg a 4 .write →
      Means (.fsw rs1 rs2 imm) (imm.extractLsb' 5 7 ++ rs2 ++ rs1 ++ 0b010#3 ++ imm.extractLsb' 0 5 ++ 0b0100111#7) s
        (StoreResult s a (leBytes (readF rs2 s))))

/-- O36, tier 2. FLD and FSD move a pair as two words, low word first, and change nothing else. Rests on 42_load_store.md
section 4 (R311, R312), 10_state.md section 3 (R57), 20_memory.md section 5 (R106). -/
def Obligations.DoubleLoadStoreResults : Prop :=
  ∀ (s : State) (rd rs1 rs2 lo hi : Reg) (imm : BitVec 12) (a : Word), a = dispAddr s rs1 imm → AlignOk s.cfg a 8 →
    (PairIs s.cfg rd lo hi → Admits s.cfg a 4 .read → Admits s.cfg (a + 4#32) 4 .read →
      Means (.fld rd rs1 imm) (imm ++ rs1 ++ 0b011#3 ++ rd ++ 0b0000111#7) s
        (DResult s lo hi (wordAt s (a + 4#32) ++ wordAt s a) flagNone)) ∧
    (Memory.wf s.mem = true → PairIs s.cfg rs2 lo hi → Admits s.cfg a 4 .write → Admits s.cfg (a + 4#32) 4 .write →
      Means (.fsd rs1 rs2 imm) (imm.extractLsb' 5 7 ++ rs2 ++ rs1 ++ 0b011#3 ++ imm.extractLsb' 0 5 ++ 0b0100111#7) s
        (StoreResult s a (leBytes (readF lo s) ++ leBytes (readF hi s))))

/-- O37, tier 1. LR.W is a plain load, SC.W a plain store that always reports success; aq and rl do nothing. Rests on
44_atomic.md sections 1 and 2 (R400 to R402, R412, R413), 10_state.md section 6 (R66). -/
def Obligations.LoadReservedStoreConditionalResults : Prop :=
  ∀ (s : State) (rd rs1 rs2 : Reg) (aq rl : BitVec 1) (a : Word), a = readX rs1 s → AlignOk s.cfg a 4 →
    (Admits s.cfg a 4 .read →
      Means (.lrW rd rs1 aq rl) (0b00010#5 ++ aq ++ rl ++ 0b00000#5 ++ rs1 ++ 0b010#3 ++ rd ++ 0b0101111#7) s
        (XResult s rd (wordAt s a))) ∧
    (Memory.wf s.mem = true → Admits s.cfg a 4 .write →
      Means (.scW rd rs1 rs2 aq rl) (0b00011#5 ++ aq ++ rl ++ rs2 ++ rs1 ++ 0b010#3 ++ rd ++ 0b0101111#7) s
        (StoreXResult s a (leBytes (readX rs2 s)) rd 0#32))

/-- O38, tier 2. The nine AMOs: the old word in rd, the combined word stored, everything else unchanged. Rests on
44_atomic.md sections 1 and 3 (R400, R403 to R411, R413, R414), 20_memory.md section 5 (R106). -/
def Obligations.AmoResults : Prop :=
  ∀ (s : State) (rd rs1 rs2 : Reg) (aq rl : BitVec 1) (a old b : Word), Memory.wf s.mem = true →
    a = readX rs1 s → old = wordAt s a → b = readX rs2 s →
    AlignOk s.cfg a 4 → Admits s.cfg a 4 .read → Admits s.cfg a 4 .write →
    Means (.amoswapW rd rs1 rs2 aq rl) (0b00001#5 ++ aq ++ rl ++ rs2 ++ rs1 ++ 0b010#3 ++ rd ++ 0b0101111#7) s
      (StoreXResult s a (leBytes b) rd old) ∧
    Means (.amoaddW rd rs1 rs2 aq rl) (0b00000#5 ++ aq ++ rl ++ rs2 ++ rs1 ++ 0b010#3 ++ rd ++ 0b0101111#7) s
      (StoreXResult s a (leBytes (old + b)) rd old) ∧
    Means (.amoxorW rd rs1 rs2 aq rl) (0b00100#5 ++ aq ++ rl ++ rs2 ++ rs1 ++ 0b010#3 ++ rd ++ 0b0101111#7) s
      (StoreXResult s a (leBytes (old ^^^ b)) rd old) ∧
    Means (.amoandW rd rs1 rs2 aq rl) (0b01100#5 ++ aq ++ rl ++ rs2 ++ rs1 ++ 0b010#3 ++ rd ++ 0b0101111#7) s
      (StoreXResult s a (leBytes (old &&& b)) rd old) ∧
    Means (.amoorW rd rs1 rs2 aq rl) (0b01000#5 ++ aq ++ rl ++ rs2 ++ rs1 ++ 0b010#3 ++ rd ++ 0b0101111#7) s
      (StoreXResult s a (leBytes (old ||| b)) rd old) ∧
    Means (.amominW rd rs1 rs2 aq rl) (0b10000#5 ++ aq ++ rl ++ rs2 ++ rs1 ++ 0b010#3 ++ rd ++ 0b0101111#7) s
      (StoreXResult s a (leBytes (if old.toInt < b.toInt then old else b)) rd old) ∧
    Means (.amomaxW rd rs1 rs2 aq rl) (0b10100#5 ++ aq ++ rl ++ rs2 ++ rs1 ++ 0b010#3 ++ rd ++ 0b0101111#7) s
      (StoreXResult s a (leBytes (if b.toInt < old.toInt then old else b)) rd old) ∧
    Means (.amominuW rd rs1 rs2 aq rl) (0b11000#5 ++ aq ++ rl ++ rs2 ++ rs1 ++ 0b010#3 ++ rd ++ 0b0101111#7) s
      (StoreXResult s a (leBytes (if old.toNat < b.toNat then old else b)) rd old) ∧
    Means (.amomaxuW rd rs1 rs2 aq rl) (0b11100#5 ++ aq ++ rl ++ rs2 ++ rs1 ++ 0b010#3 ++ rd ++ 0b0101111#7) s
      (StoreXResult s a (leBytes (if b.toNat < old.toNat then old else b)) rd old)

/-- O39, tier 1. FADD.S, FSUB.S, FMUL.S, FDIV.S and the four FMA.S forms write Add_S .. Fma_S of the raw slots and its
flags. Rests on 46_fp_single.md sections 1 and 2 (R501 to R504, R508 to R511), 45_fp_common.md sections 1, 2 and 4
(R478, R455, R470). -/
def Obligations.SingleArithmeticResults : Prop :=
  ∀ (s : State) (rd rs1 rs2 rs3 : Reg) (rm : BitVec 3) (mode : Fp.Mode) (a b c : Word), RmSelects rm s.frm mode →
    a = readF rs1 s → b = readF rs2 s → c = readF rs3 s →
    Means (.faddS rd rs1 rs2 rm) (0b0000000#7 ++ rs2 ++ rs1 ++ rm ++ rd ++ 0b1010011#7) s
      (FResult s rd (Fp.add .S s.cfg mode a b).1 (Fp.add .S s.cfg mode a b).2) ∧
    Means (.fsubS rd rs1 rs2 rm) (0b0000100#7 ++ rs2 ++ rs1 ++ rm ++ rd ++ 0b1010011#7) s
      (FResult s rd (Fp.sub .S s.cfg mode a b).1 (Fp.sub .S s.cfg mode a b).2) ∧
    Means (.fmulS rd rs1 rs2 rm) (0b0001000#7 ++ rs2 ++ rs1 ++ rm ++ rd ++ 0b1010011#7) s
      (FResult s rd (Fp.mul .S s.cfg mode a b).1 (Fp.mul .S s.cfg mode a b).2) ∧
    Means (.fdivS rd rs1 rs2 rm) (0b0001100#7 ++ rs2 ++ rs1 ++ rm ++ rd ++ 0b1010011#7) s
      (FResult s rd (Fp.div .S s.cfg mode a b).1 (Fp.div .S s.cfg mode a b).2) ∧
    Means (.fmaddS rd rs1 rs2 rs3 rm) (rs3 ++ 0b00#2 ++ rs2 ++ rs1 ++ rm ++ rd ++ 0b1000011#7) s
      (FResult s rd (Fp.fma .S s.cfg mode false false a b c).1 (Fp.fma .S s.cfg mode false false a b c).2) ∧
    Means (.fmsubS rd rs1 rs2 rs3 rm) (rs3 ++ 0b00#2 ++ rs2 ++ rs1 ++ rm ++ rd ++ 0b1000111#7) s
      (FResult s rd (Fp.fma .S s.cfg mode false true a b c).1 (Fp.fma .S s.cfg mode false true a b c).2) ∧
    Means (.fnmsubS rd rs1 rs2 rs3 rm) (rs3 ++ 0b00#2 ++ rs2 ++ rs1 ++ rm ++ rd ++ 0b1001011#7) s
      (FResult s rd (Fp.fma .S s.cfg mode true false a b c).1 (Fp.fma .S s.cfg mode true false a b c).2) ∧
    Means (.fnmaddS rd rs1 rs2 rs3 rm) (rs3 ++ 0b00#2 ++ rs2 ++ rs1 ++ rm ++ rd ++ 0b1001111#7) s
      (FResult s rd (Fp.fma .S s.cfg mode true true a b c).1 (Fp.fma .S s.cfg mode true true a b c).2)

/-- O40, tier 2. FADD.D, FSUB.D, FMUL.D, FDIV.D and the four FMA.D forms write Add_D .. Fma_D of the pairs and its flags.
Rests on 47_fp_double.md sections 1 and 2 (R551 to R554, R558 to R561), 45_fp_common.md sections 1, 2 and 4 (R478,
R455, R470, R480). -/
def Obligations.DoubleArithmeticResults : Prop :=
  ∀ (s : State) (rd rs1 rs2 rs3 lo hi lo1 hi1 lo2 hi2 : Reg) (rm : BitVec 3) (mode : Fp.Mode) (a b : Dword),
    RmSelects rm s.frm mode → PairIs s.cfg rd lo hi → PairIs s.cfg rs1 lo1 hi1 → PairIs s.cfg rs2 lo2 hi2 →
    a = doubleOf s lo1 hi1 → b = doubleOf s lo2 hi2 →
    Means (.faddD rd rs1 rs2 rm) (0b0000001#7 ++ rs2 ++ rs1 ++ rm ++ rd ++ 0b1010011#7) s
      (DResult s lo hi (Fp.add .D s.cfg mode a b).1 (Fp.add .D s.cfg mode a b).2) ∧
    Means (.fsubD rd rs1 rs2 rm) (0b0000101#7 ++ rs2 ++ rs1 ++ rm ++ rd ++ 0b1010011#7) s
      (DResult s lo hi (Fp.sub .D s.cfg mode a b).1 (Fp.sub .D s.cfg mode a b).2) ∧
    Means (.fmulD rd rs1 rs2 rm) (0b0001001#7 ++ rs2 ++ rs1 ++ rm ++ rd ++ 0b1010011#7) s
      (DResult s lo hi (Fp.mul .D s.cfg mode a b).1 (Fp.mul .D s.cfg mode a b).2) ∧
    Means (.fdivD rd rs1 rs2 rm) (0b0001101#7 ++ rs2 ++ rs1 ++ rm ++ rd ++ 0b1010011#7) s
      (DResult s lo hi (Fp.div .D s.cfg mode a b).1 (Fp.div .D s.cfg mode a b).2) ∧
    (∀ (lo3 hi3 : Reg) (c : Dword), PairIs s.cfg rs3 lo3 hi3 → c = doubleOf s lo3 hi3 →
      Means (.fmaddD rd rs1 rs2 rs3 rm) (rs3 ++ 0b01#2 ++ rs2 ++ rs1 ++ rm ++ rd ++ 0b1000011#7) s
        (DResult s lo hi (Fp.fma .D s.cfg mode false false a b c).1 (Fp.fma .D s.cfg mode false false a b c).2) ∧
      Means (.fmsubD rd rs1 rs2 rs3 rm) (rs3 ++ 0b01#2 ++ rs2 ++ rs1 ++ rm ++ rd ++ 0b1000111#7) s
        (DResult s lo hi (Fp.fma .D s.cfg mode false true a b c).1 (Fp.fma .D s.cfg mode false true a b c).2) ∧
      Means (.fnmsubD rd rs1 rs2 rs3 rm) (rs3 ++ 0b01#2 ++ rs2 ++ rs1 ++ rm ++ rd ++ 0b1001011#7) s
        (DResult s lo hi (Fp.fma .D s.cfg mode true false a b c).1 (Fp.fma .D s.cfg mode true false a b c).2) ∧
      Means (.fnmaddD rd rs1 rs2 rs3 rm) (rs3 ++ 0b01#2 ++ rs2 ++ rs1 ++ rm ++ rd ++ 0b1001111#7) s
        (DResult s lo hi (Fp.fma .D s.cfg mode true true a b c).1 (Fp.fma .D s.cfg mode true true a b c).2))

/-- O41, tier 2. FSQRT.S and FSQRT.D write the root, or halt SQRT_NEG on a negative operand with NV accrued and nothing
written. Rests on 46_fp_single.md section 1 (R505), 47_fp_double.md section 1 (R555), 45_fp_common.md section 5
(R469), 60_exceptions.md section 1 (R650). -/
def Obligations.SquareRootResults : Prop :=
  ∀ (s : State) (rd rs1 lo hi lo1 hi1 : Reg) (rm : BitVec 3) (mode : Fp.Mode), RmSelects rm s.frm mode →
    (∀ a : Word, a = readF rs1 s → (IsNan .S a ∨ IsZero .S a true ∨ Fp.signBit .S a = false) →
      ∃ r, Fp.sqrt .S s.cfg mode a = some r ∧
        Means (.fsqrtS rd rs1 rm) (0b0101100#7 ++ 0b00000#5 ++ rs1 ++ rm ++ rd ++ 0b1010011#7) s
          (FResult s rd r.1 r.2)) ∧
    (∀ a : Word, a = readF rs1 s → ¬IsNan .S a → ¬IsZero .S a true → Fp.signBit .S a = true →
      Completes (.fsqrtS rd rs1 rm) s fun t =>
        Accrues s flagNV t ∧ t = haltOutcome { s with fflags := t.fflags } .sqrtNeg) ∧
    (PairIs s.cfg rd lo hi → PairIs s.cfg rs1 lo1 hi1 → ∀ a : Dword, a = doubleOf s lo1 hi1 →
      ((IsNan .D a ∨ IsZero .D a true ∨ Fp.signBit .D a = false) →
        ∃ r, Fp.sqrt .D s.cfg mode a = some r ∧
          Means (.fsqrtD rd rs1 rm) (0b0101101#7 ++ 0b00000#5 ++ rs1 ++ rm ++ rd ++ 0b1010011#7) s
            (DResult s lo hi r.1 r.2)) ∧
      (¬IsNan .D a → ¬IsZero .D a true → Fp.signBit .D a = true →
        Completes (.fsqrtD rd rs1 rm) s fun t =>
          Accrues s flagNV t ∧ t = haltOutcome { s with fflags := t.fflags } .sqrtNeg))

/-- O42, tier 1. FCVT.W.S, FCVT.WU.S, FCVT.W.D, FCVT.WU.D write CvtToInt of the operand in rd and accrue its flag. Rests
on 46_fp_single.md section 3 (R512, R513), 47_fp_double.md section 3 (R562, R563), 45_fp_common.md section 5 (R472). -/
def Obligations.FloatToIntResults : Prop :=
  ∀ (s : State) (rd rs1 lo1 hi1 : Reg) (rm : BitVec 3) (mode : Fp.Mode), RmSelects rm s.frm mode →
    Means (.fcvtWS rd rs1 rm) (0b1100000#7 ++ 0b00000#5 ++ rs1 ++ rm ++ rd ++ 0b1010011#7) s
      (XFlagResult s rd (Fp.toInt .S mode .W (readF rs1 s)).1 (Fp.toInt .S mode .W (readF rs1 s)).2) ∧
    Means (.fcvtWuS rd rs1 rm) (0b1100000#7 ++ 0b00001#5 ++ rs1 ++ rm ++ rd ++ 0b1010011#7) s
      (XFlagResult s rd (Fp.toInt .S mode .WU (readF rs1 s)).1 (Fp.toInt .S mode .WU (readF rs1 s)).2) ∧
    (PairIs s.cfg rs1 lo1 hi1 →
      Means (.fcvtWD rd rs1 rm) (0b1100001#7 ++ 0b00000#5 ++ rs1 ++ rm ++ rd ++ 0b1010011#7) s
        (XFlagResult s rd (Fp.toInt .D mode .W (doubleOf s lo1 hi1)).1 (Fp.toInt .D mode .W (doubleOf s lo1 hi1)).2) ∧
      Means (.fcvtWuD rd rs1 rm) (0b1100001#7 ++ 0b00001#5 ++ rs1 ++ rm ++ rd ++ 0b1010011#7) s
        (XFlagResult s rd (Fp.toInt .D mode .WU (doubleOf s lo1 hi1)).1 (Fp.toInt .D mode .WU (doubleOf s lo1 hi1)).2))

/-- O43, tier 1. FCVT from an integer register and between formats: result, flags, pair use, everything else unchanged.
Rests on 46_fp_single.md section 3 (R514, R515), 47_fp_double.md section 3 (R564, R565, R573, R574), 45_fp_common.md
section 5 (R473, R479). -/
def Obligations.IntAndFormatConversionResults : Prop :=
  ∀ (s : State) (rd rs1 lo hi : Reg) (rm : BitVec 3) (mode : Fp.Mode), RmSelects rm s.frm mode →
    Means (.fcvtSW rd rs1 rm) (0b1101000#7 ++ 0b00000#5 ++ rs1 ++ rm ++ rd ++ 0b1010011#7) s
      (FResult s rd (Fp.fromInt .S mode .W (readX rs1 s)).1 (Fp.fromInt .S mode .W (readX rs1 s)).2) ∧
    Means (.fcvtSWu rd rs1 rm) (0b1101000#7 ++ 0b00001#5 ++ rs1 ++ rm ++ rd ++ 0b1010011#7) s
      (FResult s rd (Fp.fromInt .S mode .WU (readX rs1 s)).1 (Fp.fromInt .S mode .WU (readX rs1 s)).2) ∧
    (PairIs s.cfg rd lo hi →
      Means (.fcvtDW rd rs1 rm) (0b1101001#7 ++ 0b00000#5 ++ rs1 ++ rm ++ rd ++ 0b1010011#7) s
        (DResult s lo hi (Fp.fromInt .D mode .W (readX rs1 s)).1 flagNone) ∧
      Means (.fcvtDWu rd rs1 rm) (0b1101001#7 ++ 0b00001#5 ++ rs1 ++ rm ++ rd ++ 0b1010011#7) s
        (DResult s lo hi (Fp.fromInt .D mode .WU (readX rs1 s)).1 flagNone) ∧
      Means (.fcvtDS rd rs1 rm) (0b0100001#7 ++ 0b00000#5 ++ rs1 ++ rm ++ rd ++ 0b1010011#7) s
        (DResult s lo hi (Fp.convert .D .S s.cfg mode (readF rs1 s)).1 (Fp.convert .D .S s.cfg mode (readF rs1 s)).2)) ∧
    (PairIs s.cfg rs1 lo hi →
      Means (.fcvtSD rd rs1 rm) (0b0100000#7 ++ 0b00001#5 ++ rs1 ++ rm ++ rd ++ 0b1010011#7) s
        (FResult s rd (Fp.convert .S .D s.cfg mode (doubleOf s lo hi)).1 (Fp.convert .S .D s.cfg mode (doubleOf s lo hi)).2))

/-- O44, tier 2. FMV, FSGNJ and FCLASS: raw bits, the sign bit replaced, and the class mask; no flag; everything else
unchanged. Rests on 46_fp_single.md sections 4 and 6 (R516, R517, R521 to R524), 47_fp_double.md section 5 (R569 to
R572), 45_fp_common.md section 5 (R476, R477, R482). -/
def Obligations.MoveSignAndClassResults : Prop :=
  ∀ (s : State) (rd rs1 rs2 : Reg) (a b : Word), a = readF rs1 s → b = readF rs2 s →
    Means (.fmvXS rd rs1) (0b1110000#7 ++ 0b00000#5 ++ rs1 ++ 0b000#3 ++ rd ++ 0b1010011#7) s
      (XResult s rd a) ∧
    Means (.fmvSX rd rs1) (0b1111000#7 ++ 0b00000#5 ++ rs1 ++ 0b000#3 ++ rd ++ 0b1010011#7) s
      (FResult s rd (readX rs1 s) flagNone) ∧
    Means (.fsgnjS rd rs1 rs2) (0b0010000#7 ++ rs2 ++ rs1 ++ 0b000#3 ++ rd ++ 0b1010011#7) s
      (FResult s rd (BitVec.ofBool (b.getLsbD 31) ++ a.extractLsb' 0 31) flagNone) ∧
    Means (.fsgnjnS rd rs1 rs2) (0b0010000#7 ++ rs2 ++ rs1 ++ 0b001#3 ++ rd ++ 0b1010011#7) s
      (FResult s rd (BitVec.ofBool (!b.getLsbD 31) ++ a.extractLsb' 0 31) flagNone) ∧
    Means (.fsgnjxS rd rs1 rs2) (0b0010000#7 ++ rs2 ++ rs1 ++ 0b010#3 ++ rd ++ 0b1010011#7) s
      (FResult s rd (BitVec.ofBool (a.getLsbD 31 ^^ b.getLsbD 31) ++ a.extractLsb' 0 31) flagNone) ∧
    (∃ k, IsClass .S a k ∧ Means (.fclassS rd rs1) (0b1110000#7 ++ 0b00000#5 ++ rs1 ++ 0b001#3 ++ rd ++ 0b1010011#7) s
      (XResult s rd (1#32 <<< k))) ∧
    ∀ (lo hi lo1 hi1 lo2 hi2 : Reg) (p q : Dword), PairIs s.cfg rs1 lo1 hi1 → p = doubleOf s lo1 hi1 →
      (PairIs s.cfg rd lo hi → PairIs s.cfg rs2 lo2 hi2 → q = doubleOf s lo2 hi2 →
        Means (.fsgnjD rd rs1 rs2) (0b0010001#7 ++ rs2 ++ rs1 ++ 0b000#3 ++ rd ++ 0b1010011#7) s
          (DResult s lo hi (BitVec.ofBool (q.getLsbD 63) ++ p.extractLsb' 0 63) flagNone) ∧
        Means (.fsgnjnD rd rs1 rs2) (0b0010001#7 ++ rs2 ++ rs1 ++ 0b001#3 ++ rd ++ 0b1010011#7) s
          (DResult s lo hi (BitVec.ofBool (!q.getLsbD 63) ++ p.extractLsb' 0 63) flagNone) ∧
        Means (.fsgnjxD rd rs1 rs2) (0b0010001#7 ++ rs2 ++ rs1 ++ 0b010#3 ++ rd ++ 0b1010011#7) s
          (DResult s lo hi (BitVec.ofBool (p.getLsbD 63 ^^ q.getLsbD 63) ++ p.extractLsb' 0 63) flagNone)) ∧
      ∃ k, IsClass .D p k ∧ Means (.fclassD rd rs1) (0b1110001#7 ++ 0b00000#5 ++ rs1 ++ 0b001#3 ++ rd ++ 0b1010011#7) s
        (XResult s rd (1#32 <<< k))

/-- O45, tier 1. FMIN, FMAX, FEQ, FLT, FLE, single and double, write Min_F, Max_F or Cmp_F and its flag, whatever frm
holds. Rests on 46_fp_single.md sections 1 and 5 (R506, R507, R518 to R520), 47_fp_double.md sections 1 and 4 (R556,
R557, R566 to R568), 45_fp_common.md section 5 (R474, R475). -/
def Obligations.MinMaxCompareResults : Prop :=
  ∀ (s : State) (rd rs1 rs2 : Reg),
    Means (.fminS rd rs1 rs2) (0b0010100#7 ++ rs2 ++ rs1 ++ 0b000#3 ++ rd ++ 0b1010011#7) s
      (FResult s rd (Fp.minimum .S s.cfg (readF rs1 s) (readF rs2 s)).1 (Fp.minimum .S s.cfg (readF rs1 s) (readF rs2 s)).2) ∧
    Means (.fmaxS rd rs1 rs2) (0b0010100#7 ++ rs2 ++ rs1 ++ 0b001#3 ++ rd ++ 0b1010011#7) s
      (FResult s rd (Fp.maximum .S s.cfg (readF rs1 s) (readF rs2 s)).1 (Fp.maximum .S s.cfg (readF rs1 s) (readF rs2 s)).2) ∧
    Means (.feqS rd rs1 rs2) (0b1010000#7 ++ rs2 ++ rs1 ++ 0b010#3 ++ rd ++ 0b1010011#7) s
      (XFlagResult s rd (Fp.compare .S .eq (readF rs1 s) (readF rs2 s)).1 (Fp.compare .S .eq (readF rs1 s) (readF rs2 s)).2) ∧
    Means (.fltS rd rs1 rs2) (0b1010000#7 ++ rs2 ++ rs1 ++ 0b001#3 ++ rd ++ 0b1010011#7) s
      (XFlagResult s rd (Fp.compare .S .lt (readF rs1 s) (readF rs2 s)).1 (Fp.compare .S .lt (readF rs1 s) (readF rs2 s)).2) ∧
    Means (.fleS rd rs1 rs2) (0b1010000#7 ++ rs2 ++ rs1 ++ 0b000#3 ++ rd ++ 0b1010011#7) s
      (XFlagResult s rd (Fp.compare .S .le (readF rs1 s) (readF rs2 s)).1 (Fp.compare .S .le (readF rs1 s) (readF rs2 s)).2) ∧
    ∀ (lo1 hi1 lo2 hi2 : Reg) (a b : Dword), PairIs s.cfg rs1 lo1 hi1 → PairIs s.cfg rs2 lo2 hi2 →
      a = doubleOf s lo1 hi1 → b = doubleOf s lo2 hi2 →
      (∀ lo hi : Reg, PairIs s.cfg rd lo hi →
        Means (.fminD rd rs1 rs2) (0b0010101#7 ++ rs2 ++ rs1 ++ 0b000#3 ++ rd ++ 0b1010011#7) s
          (DResult s lo hi (Fp.minimum .D s.cfg a b).1 (Fp.minimum .D s.cfg a b).2) ∧
        Means (.fmaxD rd rs1 rs2) (0b0010101#7 ++ rs2 ++ rs1 ++ 0b001#3 ++ rd ++ 0b1010011#7) s
          (DResult s lo hi (Fp.maximum .D s.cfg a b).1 (Fp.maximum .D s.cfg a b).2)) ∧
      Means (.feqD rd rs1 rs2) (0b1010001#7 ++ rs2 ++ rs1 ++ 0b010#3 ++ rd ++ 0b1010011#7) s
        (XFlagResult s rd (Fp.compare .D .eq a b).1 (Fp.compare .D .eq a b).2) ∧
      Means (.fltD rd rs1 rs2) (0b1010001#7 ++ rs2 ++ rs1 ++ 0b001#3 ++ rd ++ 0b1010011#7) s
        (XFlagResult s rd (Fp.compare .D .lt a b).1 (Fp.compare .D .lt a b).2) ∧
      Means (.fleD rd rs1 rs2) (0b1010001#7 ++ rs2 ++ rs1 ++ 0b000#3 ++ rd ++ 0b1010011#7) s
        (XFlagResult s rd (Fp.compare .D .le a b).1 (Fp.compare .D .le a b).2)

/-- O46, tier 1. SCALL and SBREAK halt with their reason at pc0 + 4 and change nothing else. Rests on R601, R602. -/
def Obligations.EnvironmentCallsHalt : Prop :=
  ∀ s : State, encode .scall = 0x00000073#32 ∧ encode .sbreak = 0x00100073#32 ∧
    exec .scall s = .next (haltOutcome s .scall) ∧ exec .sbreak s = .next (haltOutcome s .sbreak) ∧
    (∀ u, step (haltOutcome s .scall) ≠ .next u) ∧ (∀ u, step (haltOutcome s .sbreak) ≠ .next u)

/-- O47, tier 1. FENCE only advances pc; FENCE.I also empties modified when FETCH_COHERENCE = fault. Rests on 48_system.md
section 3 (R604, R605), 30_encoding.md section 6 (R173), 20_memory.md sections 9 and 11 (R117, R120). -/
def Obligations.FenceResults : Prop :=
  ∀ (s : State) (rd rs1 : Reg) (fm pred succ : BitVec 4) (imm : BitVec 12),
    encode (.fence rd rs1 fm pred succ) = fm ++ pred ++ succ ++ rs1 ++ 0b000#3 ++ rd ++ 0b0001111#7 ∧
    exec (.fence rd rs1 fm pred succ) s = .next { s with pc := s.pc + 4#32 } ∧
    encode (.fenceI rd rs1 imm) = imm ++ rs1 ++ 0b001#3 ++ rd ++ 0b0001111#7 ∧
    (s.cfg.fetchCoherence = .fault →
      exec (.fenceI rd rs1 imm) s = .next { s with pc := s.pc + 4#32, modified := [] }) ∧
    (s.cfg.fetchCoherence = .immediate → exec (.fenceI rd rs1 imm) s = .next { s with pc := s.pc + 4#32 })

/-- O48, tier 2. The six CSR instructions on fflags, frm and fcsr: old value read, new value written, everything else
unchanged. Rests on 48_system.md section 4 (R606 to R614), 10_state.md section 4 (R60, R63), log entry 6 (the draw
count is the model's own). -/
def Obligations.CsrResults : Prop :=
  ∀ (s : State) (rd rs1 : Reg) (uimm : BitVec 5) (csr : BitVec 12) (v x u : Word), FloatCsrValue s csr v →
    x = readX rs1 s → u = uimm.zeroExtend 32 →
    Means (.csrrw rd rs1 csr) (csr ++ rs1 ++ 0b001#3 ++ rd ++ 0b1110011#7) s
      (CsrResult s rd csr (if rd = 0#5 then none else some v) (some x) 0) ∧
    Means (.csrrs rd rs1 csr) (csr ++ rs1 ++ 0b010#3 ++ rd ++ 0b1110011#7) s
      (CsrResult s rd csr (some v) (if rs1 = 0#5 then none else some (v ||| x)) 0) ∧
    Means (.csrrc rd rs1 csr) (csr ++ rs1 ++ 0b011#3 ++ rd ++ 0b1110011#7) s
      (CsrResult s rd csr (some v) (if rs1 = 0#5 then none else some (v &&& ~~~x)) 0) ∧
    Means (.csrrwi rd uimm csr) (csr ++ uimm ++ 0b101#3 ++ rd ++ 0b1110011#7) s
      (CsrResult s rd csr (if rd = 0#5 then none else some v) (some u) 0) ∧
    Means (.csrrsi rd uimm csr) (csr ++ uimm ++ 0b110#3 ++ rd ++ 0b1110011#7) s
      (CsrResult s rd csr (some v) (if uimm = 0#5 then none else some (v ||| u)) 0) ∧
    Means (.csrrci rd uimm csr) (csr ++ uimm ++ 0b111#3 ++ rd ++ 0b1110011#7) s
      (CsrResult s rd csr (some v) (if uimm = 0#5 then none else some (v &&& ~~~u)) 0)

/-- O49, tier 2. A counter CSR reads as a free draw; a counter write or any other CSR number faults ILLEGAL, changing
nothing. Rests on 48_system.md section 4 (R606 to R613), 10_state.md section 4 (R63, R64), 60_exceptions.md section 7
(R675), log entry 6 (the draw count and the opaque draw are the model's own). -/
def Obligations.CounterReadsAndCsrCheck : Prop :=
  (∀ (s : State) (rd : Reg) (csr : BitVec 12), csr ∈ counterCsrs →
    Completes (.csrrs rd 0#5 csr) s (CsrResult s rd csr (some (Config.counterDraw s.draws)) none 1) ∧
    Completes (.csrrc rd 0#5 csr) s (CsrResult s rd csr (some (Config.counterDraw s.draws)) none 1) ∧
    Completes (.csrrsi rd 0#5 csr) s (CsrResult s rd csr (some (Config.counterDraw s.draws)) none 1) ∧
    Completes (.csrrci rd 0#5 csr) s (CsrResult s rd csr (some (Config.counterDraw s.draws)) none 1)) ∧
  (∀ (i : Instr) (s : State) (csr : BitVec 12) (writes : Bool), csrField i = some (csr, writes) →
    csr ∉ [0x001#12, 0x002#12, 0x003#12] → (csr ∈ counterCsrs → writes = true) →
    exec i s = .next (faultOutcome s .illegal (wordAt s s.pc) 0#32))

/-- O50, tier 2. rm = 101 or 110, or rm = 111 with frm 5, 6 or 7, faults ILLEGAL before any other check and changes
nothing. Rests on R456, R457. -/
def Obligations.ReservedRoundingModeFaults : Prop :=
  (∀ (i : Instr) (s : State) (rm : BitVec 3), rmField i = some rm →
    (rm = 0b101#3 ∨ rm = 0b110#3 ∨ (rm = 0b111#3 ∧ s.frm.toNat ∈ [5, 6, 7])) →
    exec i s = .next (faultOutcome s .illegal (wordAt s s.pc) 0#32)) ∧
  (∀ rm frm : BitVec 3, ¬(rm = 0b101#3 ∨ rm = 0b110#3 ∨ (rm = 0b111#3 ∧ frm.toNat ∈ [5, 6, 7])) →
    ∃ mode, RmSelects rm frm mode ∧ effectiveMode rm frm = some mode)

/-- O51, tier 2. A double operand field that names no pair faults REG_PAIR after the rm check and before any access. Rests
on 10_state.md section 3 (R57), 45_fp_common.md section 2 (R480), 60_exceptions.md sections 1 and 2 (R654, R656 item
6). -/
def Obligations.UnpairedDoubleFieldFaults : Prop :=
  ∀ (i : Instr) (s : State) (r : Reg), r ∈ doubleFields i → (∀ lo hi, ¬PairIs s.cfg r lo hi) →
    (∀ rm, rmField i = some rm → ∃ mode, RmSelects rm s.frm mode) →
    exec i s = .next (faultOutcome s .regPair (wordAt s s.pc) 0#32)

/-- O52, tier 3. Add_F and Sub_F are R466: NaNs, infinities, zeros, and otherwise the exact real sum rounded as R458 says.
Rests on 45_fp_common.md section 3 (R458 to R462, R465), 45_fp_common.md section 4 (R463, R464), 45_fp_common.md
section 5 (R466), log entry 17. -/
def Obligations.AddSubMeetsIeee : Prop :=
  ∀ (f : Fp.Fmt) (cfg : Config) (mode : Fp.Mode) (a b : BitVec f.width),
    AddRule f cfg mode a b (Fp.add f cfg mode a b) ∧ AddRule f cfg mode a (flipSign f b) (Fp.sub f cfg mode a b)

/-- O53, tier 3. Mul_F is R467: NaNs, infinities, zeros, and otherwise the exact real product rounded as R458 says. Rests
on 45_fp_common.md section 3 (R458 to R462, R465), 45_fp_common.md section 4 (R463, R464), 45_fp_common.md section 5
(R467), log entry 17. -/
def Obligations.MulMeetsIeee : Prop :=
  ∀ (f : Fp.Fmt) (cfg : Config) (mode : Fp.Mode) (a b : BitVec f.width), MulRule f cfg mode a b (Fp.mul f cfg mode a b)

/-- O54, tier 3. Div_F is R468: NaNs, infinities, zeros, DZ, and otherwise the exact real quotient rounded as R458 says.
Rests on 45_fp_common.md section 3 (R458 to R462, R465), 45_fp_common.md section 4 (R463, R464, R481), 45_fp_common.md
section 5 (R468), log entry 17. -/
def Obligations.DivMeetsIeee : Prop :=
  ∀ (f : Fp.Fmt) (cfg : Config) (mode : Fp.Mode) (a b : BitVec f.width), DivRule f cfg mode a b (Fp.div f cfg mode a b)

/-- O55, tier 3. Sqrt_F is R469: NaNs, zeros, +inf, the halt for a negative operand, and otherwise the exact real root
rounded. Rests on 45_fp_common.md section 3 (R458 to R462), 45_fp_common.md section 5 (R469), log entry 17. -/
def Obligations.SqrtMeetsIeee : Prop :=
  ∀ (f : Fp.Fmt) (cfg : Config) (mode : Fp.Mode) (a : BitVec f.width), SqrtRule f cfg mode a (Fp.sqrt f cfg mode a)

/-- O56, tier 3. Fma_F is R471 in all four forms: one rounding of the exact real product and sum. Rests on 45_fp_common.md
section 3 (R458 to R462, R465), 45_fp_common.md section 4 (R463, R464), 45_fp_common.md section 5 (R471), log entry
17. -/
def Obligations.FmaMeetsIeee : Prop :=
  ∀ (f : Fp.Fmt) (cfg : Config) (mode : Fp.Mode) (negp negc : Bool) (a b c : BitVec f.width),
    FmaRule f cfg mode negp negc a b c (Fp.fma f cfg mode negp negc a b c)

/-- O57, tier 3. CvtToInt_F is R472: rounded to an integer, saturated with NV outside the range, NX when inexact. Rests on
R472. -/
def Obligations.ToIntMeetsIeee : Prop :=
  ∀ (f : Fp.Fmt) (mode : Fp.Mode) (a : BitVec f.width),
    ToIntRule f mode (-2 ^ 31) (2 ^ 31 - 1) a (Fp.toInt f mode .W a) ∧
    ToIntRule f mode 0 (2 ^ 32 - 1) a (Fp.toInt f mode .WU a)

/-- O58, tier 3. CvtFromInt_F is R473 and the format conversions are R479; to double both are exact and raise no flag.
Rests on R473, R479. -/
def Obligations.ConversionsMeetIeee : Prop :=
  (∀ (f : Fp.Fmt) (mode : Fp.Mode) (v : Word), FromIntRule f mode v.toInt (Fp.fromInt f mode .W v) ∧
    FromIntRule f mode v.toNat (Fp.fromInt f mode .WU v)) ∧
  (∀ (mode : Fp.Mode) (v : Word),
    HasValue .D (Fp.fromInt .D mode .W v).1 v.toInt ∧ (Fp.fromInt .D mode .W v).2 = flagNone ∧
    HasValue .D (Fp.fromInt .D mode .WU v).1 v.toNat ∧ (Fp.fromInt .D mode .WU v).2 = flagNone) ∧
  (∀ (cfg : Config) (mode : Fp.Mode) (a : Dword), ConvertRule .S .D cfg mode a (Fp.convert .S .D cfg mode a)) ∧
  (∀ (cfg : Config) (mode : Fp.Mode) (a : Word), ConvertRule .D .S cfg mode a (Fp.convert .D .S cfg mode a)) ∧
  (∀ (cfg : Config) (mode : Fp.Mode) (a : Word) (x : ℝ), HasValue .S a x →
    HasValue .D (Fp.convert .D .S cfg mode a).1 x ∧ (Fp.convert .D .S cfg mode a).2 = flagNone)

/-- O59, tier 3. Cmp_F is R474 (NV for any NaN) and Min_F, Max_F are R475 (with -0 below +0). Rests on R474, R475. -/
def Obligations.CompareMinMaxMeetIeee : Prop :=
  ∀ (f : Fp.Fmt) (cfg : Config) (a b : BitVec f.width),
    (∀ op : Fp.CmpOp, CompareRule f op a b (Fp.compare f op a b)) ∧
    MinRule f cfg a b (Fp.minimum f cfg a b) ∧ MaxRule f cfg a b (Fp.maximum f cfg a b)

/-- O60, tier 2. Fields of both formats, and that every pattern is in exactly one of the ten classes, which FCLASS
reports. Rests on R453, R477. -/
def Obligations.PatternFieldsAndClasses : Prop :=
  (∀ x : Word, Fp.signBit .S x = x.getLsbD 31 ∧ Fp.expField .S x = (x.extractLsb' 23 8).toNat ∧
    Fp.fracField .S x = (x.extractLsb' 0 23).toNat) ∧
  (∀ x : Dword, Fp.signBit .D x = x.getLsbD 63 ∧ Fp.expField .D x = (x.extractLsb' 52 11).toNat ∧
    Fp.fracField .D x = (x.extractLsb' 0 52).toNat) ∧
  (∀ (f : Fp.Fmt) (x : BitVec f.width), ∃ k, IsClass f x k ∧ (∀ j, IsClass f x j → j = k) ∧ k ≤ 9 ∧
    ∀ i, (Fp.classMask f x).getLsbD i = decide (i = k))
end

