-- ==== Sys2Proof/Laws/Decode.lean ====
section
/-! SUPPORT. The fields of each format's word, and each format rebuilt from a word's fields (30_encoding R152 to R161): what the round trips of
decoding rest on. -/

namespace Sys2Proof

/-- Bits cut out of bits cut out. -/
theorem extract_extract {w : Nat} (x : BitVec w) (s n s' n' : Nat) (h : s' + n' ≤ n) :
    (x.extractLsb' s n).extractLsb' s' n' = x.extractLsb' (s + s') n' := by
  apply BitVec.eq_of_getLsbD_eq; intro i hi
  simp only [BitVec.getLsbD_extractLsb', hi, decide_true, Bool.true_and, Nat.add_assoc,
    show s' + i < n by omega]

/-- An even offset's bit 0. -/
theorem evenOffset_bit {n : Nat} {x : BitVec n} (h : evenOffset x = true) : x.extractLsb' 0 1 = 0#1 := by
  simp only [evenOffset, Bool.not_eq_true'] at h
  apply BitVec.eq_of_getLsbD_eq; intro i hi
  have : i = 0 := by omega
  subst this
  simpa using h

/-! ## R format -/

@[simp] theorem fieldFunct7_formatR (f7 : BitVec 7) (rs2 rs1 : Reg) (f3 : BitVec 3) (rd : Reg) (op : BitVec 7) : fieldFunct7 (formatR f7 rs2 rs1 f3 rd op) = f7 := by
  simp (disch := omega) only [fieldFunct7, formatR, BitVec.extractLsb'_append_eq_of_le]; simp
@[simp] theorem fieldRs2_formatR (f7 : BitVec 7) (rs2 rs1 : Reg) (f3 : BitVec 3) (rd : Reg) (op : BitVec 7) : fieldRs2 (formatR f7 rs2 rs1 f3 rd op) = rs2 := by
  simp (disch := omega) only [fieldRs2, formatR, BitVec.extractLsb'_append_eq_of_add_le, BitVec.extractLsb'_append_eq_of_le]; simp
@[simp] theorem fieldRs1_formatR (f7 : BitVec 7) (rs2 rs1 : Reg) (f3 : BitVec 3) (rd : Reg) (op : BitVec 7) : fieldRs1 (formatR f7 rs2 rs1 f3 rd op) = rs1 := by
  simp (disch := omega) only [fieldRs1, formatR, BitVec.extractLsb'_append_eq_of_add_le, BitVec.extractLsb'_append_eq_of_le]; simp
@[simp] theorem fieldFunct3_formatR (f7 : BitVec 7) (rs2 rs1 : Reg) (f3 : BitVec 3) (rd : Reg) (op : BitVec 7) : fieldFunct3 (formatR f7 rs2 rs1 f3 rd op) = f3 := by
  simp (disch := omega) only [fieldFunct3, formatR, BitVec.extractLsb'_append_eq_of_add_le, BitVec.extractLsb'_append_eq_of_le]; simp
@[simp] theorem fieldRd_formatR (f7 : BitVec 7) (rs2 rs1 : Reg) (f3 : BitVec 3) (rd : Reg) (op : BitVec 7) : fieldRd (formatR f7 rs2 rs1 f3 rd op) = rd := by
  simp (disch := omega) only [fieldRd, formatR, BitVec.extractLsb'_append_eq_of_add_le, BitVec.extractLsb'_append_eq_of_le]; simp
@[simp] theorem fieldOpcode_formatR (f7 : BitVec 7) (rs2 rs1 : Reg) (f3 : BitVec 3) (rd : Reg) (op : BitVec 7) : fieldOpcode (formatR f7 rs2 rs1 f3 rd op) = op := by
  simp (disch := omega) only [fieldOpcode, formatR, BitVec.extractLsb'_append_eq_of_add_le]; simp
/-- A word is its fields in this format. -/
theorem formatR_fields (w : Word) :
    formatR (fieldFunct7 w) (fieldRs2 w) (fieldRs1 w) (fieldFunct3 w) (fieldRd w) (fieldOpcode w) = w := by
  simp only [formatR, fieldFunct7, fieldRs2, fieldRs1, fieldFunct3, fieldRd, fieldOpcode]
  simp (disch := omega) only [BitVec.extractLsb'_append_extractLsb'_eq_extractLsb']
  simp

/-! ## I format -/

@[simp] theorem fieldImmI_formatI (imm : BitVec 12) (rs1 : Reg) (f3 : BitVec 3) (rd : Reg) (op : BitVec 7) : fieldImmI (formatI imm rs1 f3 rd op) = imm := by
  simp (disch := omega) only [fieldImmI, formatI, BitVec.extractLsb'_append_eq_of_le]; simp
@[simp] theorem fieldRs1_formatI (imm : BitVec 12) (rs1 : Reg) (f3 : BitVec 3) (rd : Reg) (op : BitVec 7) : fieldRs1 (formatI imm rs1 f3 rd op) = rs1 := by
  simp (disch := omega) only [fieldRs1, formatI, BitVec.extractLsb'_append_eq_of_add_le, BitVec.extractLsb'_append_eq_of_le]; simp
@[simp] theorem fieldFunct3_formatI (imm : BitVec 12) (rs1 : Reg) (f3 : BitVec 3) (rd : Reg) (op : BitVec 7) : fieldFunct3 (formatI imm rs1 f3 rd op) = f3 := by
  simp (disch := omega) only [fieldFunct3, formatI, BitVec.extractLsb'_append_eq_of_add_le, BitVec.extractLsb'_append_eq_of_le]; simp
@[simp] theorem fieldRd_formatI (imm : BitVec 12) (rs1 : Reg) (f3 : BitVec 3) (rd : Reg) (op : BitVec 7) : fieldRd (formatI imm rs1 f3 rd op) = rd := by
  simp (disch := omega) only [fieldRd, formatI, BitVec.extractLsb'_append_eq_of_add_le, BitVec.extractLsb'_append_eq_of_le]; simp
@[simp] theorem fieldOpcode_formatI (imm : BitVec 12) (rs1 : Reg) (f3 : BitVec 3) (rd : Reg) (op : BitVec 7) : fieldOpcode (formatI imm rs1 f3 rd op) = op := by
  simp (disch := omega) only [fieldOpcode, formatI, BitVec.extractLsb'_append_eq_of_add_le]; simp
/-- A word is its fields in this format. -/
theorem formatI_fields (w : Word) :
    formatI (fieldImmI w) (fieldRs1 w) (fieldFunct3 w) (fieldRd w) (fieldOpcode w) = w := by
  simp only [formatI, fieldImmI, fieldRs1, fieldFunct3, fieldRd, fieldOpcode]
  simp (disch := omega) only [BitVec.extractLsb'_append_extractLsb'_eq_extractLsb']
  simp

/-! ## S format -/

@[simp] theorem fieldImmS_formatS (imm : BitVec 12) (rs2 rs1 : Reg) (f3 : BitVec 3) (op : BitVec 7) : fieldImmS (formatS imm rs2 rs1 f3 op) = imm := by
  simp (disch := omega) only [fieldImmS, formatS, BitVec.extractLsb'_append_eq_of_add_le, BitVec.extractLsb'_append_eq_of_le]
  simp only [Nat.reduceSub, BitVec.extractLsb'_eq_self]
  rw [BitVec.extractLsb'_append_extractLsb'_eq_extractLsb' (by rfl)]; simp
@[simp] theorem fieldRs2_formatS (imm : BitVec 12) (rs2 rs1 : Reg) (f3 : BitVec 3) (op : BitVec 7) : fieldRs2 (formatS imm rs2 rs1 f3 op) = rs2 := by
  simp (disch := omega) only [fieldRs2, formatS, BitVec.extractLsb'_append_eq_of_add_le, BitVec.extractLsb'_append_eq_of_le]; simp
@[simp] theorem fieldRs1_formatS (imm : BitVec 12) (rs2 rs1 : Reg) (f3 : BitVec 3) (op : BitVec 7) : fieldRs1 (formatS imm rs2 rs1 f3 op) = rs1 := by
  simp (disch := omega) only [fieldRs1, formatS, BitVec.extractLsb'_append_eq_of_add_le, BitVec.extractLsb'_append_eq_of_le]; simp
@[simp] theorem fieldFunct3_formatS (imm : BitVec 12) (rs2 rs1 : Reg) (f3 : BitVec 3) (op : BitVec 7) : fieldFunct3 (formatS imm rs2 rs1 f3 op) = f3 := by
  simp (disch := omega) only [fieldFunct3, formatS, BitVec.extractLsb'_append_eq_of_add_le, BitVec.extractLsb'_append_eq_of_le]; simp
@[simp] theorem fieldOpcode_formatS (imm : BitVec 12) (rs2 rs1 : Reg) (f3 : BitVec 3) (op : BitVec 7) : fieldOpcode (formatS imm rs2 rs1 f3 op) = op := by
  simp (disch := omega) only [fieldOpcode, formatS, BitVec.extractLsb'_append_eq_of_add_le]; simp
/-- A word is its fields in this format. -/
theorem formatS_fields (w : Word) :
    formatS (fieldImmS w) (fieldRs2 w) (fieldRs1 w) (fieldFunct3 w) (fieldOpcode w) = w := by
  simp only [formatS, fieldImmS, fieldRs2, fieldRs1, fieldFunct3, fieldOpcode]
  simp (disch := omega) only [BitVec.extractLsb'_append_eq_of_add_le, BitVec.extractLsb'_append_eq_of_le]
  simp (disch := omega) only [extract_extract]
  simp (disch := omega) only [BitVec.extractLsb'_append_extractLsb'_eq_extractLsb']
  simp

/-! ## B format -/

@[simp] theorem fieldRs2_formatB (offset : BitVec 13) (rs2 rs1 : Reg) (f3 : BitVec 3) (op : BitVec 7) : fieldRs2 (formatB offset rs2 rs1 f3 op) = rs2 := by
  simp (disch := omega) only [fieldRs2, formatB, BitVec.extractLsb'_append_eq_of_add_le, BitVec.extractLsb'_append_eq_of_le]; simp
@[simp] theorem fieldRs1_formatB (offset : BitVec 13) (rs2 rs1 : Reg) (f3 : BitVec 3) (op : BitVec 7) : fieldRs1 (formatB offset rs2 rs1 f3 op) = rs1 := by
  simp (disch := omega) only [fieldRs1, formatB, BitVec.extractLsb'_append_eq_of_add_le, BitVec.extractLsb'_append_eq_of_le]; simp
@[simp] theorem fieldFunct3_formatB (offset : BitVec 13) (rs2 rs1 : Reg) (f3 : BitVec 3) (op : BitVec 7) : fieldFunct3 (formatB offset rs2 rs1 f3 op) = f3 := by
  simp (disch := omega) only [fieldFunct3, formatB, BitVec.extractLsb'_append_eq_of_add_le, BitVec.extractLsb'_append_eq_of_le]; simp
@[simp] theorem fieldOpcode_formatB (offset : BitVec 13) (rs2 rs1 : Reg) (f3 : BitVec 3) (op : BitVec 7) : fieldOpcode (formatB offset rs2 rs1 f3 op) = op := by
  simp (disch := omega) only [fieldOpcode, formatB, BitVec.extractLsb'_append_eq_of_add_le]; simp
theorem fieldOffsetB_formatB (offset : BitVec 13) (rs2 rs1 : Reg) (f3 : BitVec 3) (op : BitVec 7) (he : evenOffset offset = true) :
    fieldOffsetB (formatB offset rs2 rs1 f3 op) = offset := by
  simp (disch := omega) only [fieldOffsetB, formatB, BitVec.extractLsb'_append_eq_of_add_le, BitVec.extractLsb'_append_eq_of_le]
  simp only [Nat.reduceSub, BitVec.extractLsb'_eq_self]
  rw [← evenOffset_bit he]
  simp (disch := omega) only [BitVec.extractLsb'_append_extractLsb'_eq_extractLsb']
  simp
/-- A word is its fields in this format. -/
theorem formatB_fields (w : Word) :
    formatB (fieldOffsetB w) (fieldRs2 w) (fieldRs1 w) (fieldFunct3 w) (fieldOpcode w) = w := by
  simp only [formatB, fieldOffsetB, fieldRs2, fieldRs1, fieldFunct3, fieldOpcode]
  simp (disch := omega) only [BitVec.extractLsb'_append_eq_of_add_le, BitVec.extractLsb'_append_eq_of_le]
  simp (disch := omega) only [extract_extract]
  simp (disch := omega) only [BitVec.extractLsb'_append_extractLsb'_eq_extractLsb']
  simp

/-! ## U format -/

@[simp] theorem fieldImmU_formatU (imm : BitVec 20) (rd : Reg) (op : BitVec 7) : fieldImmU (formatU imm rd op) = imm := by
  simp (disch := omega) only [fieldImmU, formatU, BitVec.extractLsb'_append_eq_of_le]; simp
@[simp] theorem fieldRd_formatU (imm : BitVec 20) (rd : Reg) (op : BitVec 7) : fieldRd (formatU imm rd op) = rd := by
  simp (disch := omega) only [fieldRd, formatU, BitVec.extractLsb'_append_eq_of_add_le, BitVec.extractLsb'_append_eq_of_le]; simp
@[simp] theorem fieldOpcode_formatU (imm : BitVec 20) (rd : Reg) (op : BitVec 7) : fieldOpcode (formatU imm rd op) = op := by
  simp (disch := omega) only [fieldOpcode, formatU, BitVec.extractLsb'_append_eq_of_add_le]; simp
/-- A word is its fields in this format. -/
theorem formatU_fields (w : Word) :
    formatU (fieldImmU w) (fieldRd w) (fieldOpcode w) = w := by
  simp only [formatU, fieldImmU, fieldRd, fieldOpcode]
  simp (disch := omega) only [BitVec.extractLsb'_append_extractLsb'_eq_extractLsb']
  simp

/-! ## J format -/

@[simp] theorem fieldRd_formatJ (offset : BitVec 21) (rd : Reg) (op : BitVec 7) : fieldRd (formatJ offset rd op) = rd := by
  simp (disch := omega) only [fieldRd, formatJ, BitVec.extractLsb'_append_eq_of_add_le, BitVec.extractLsb'_append_eq_of_le]; simp
@[simp] theorem fieldOpcode_formatJ (offset : BitVec 21) (rd : Reg) (op : BitVec 7) : fieldOpcode (formatJ offset rd op) = op := by
  simp (disch := omega) only [fieldOpcode, formatJ, BitVec.extractLsb'_append_eq_of_add_le]; simp
theorem fieldOffsetJ_formatJ (offset : BitVec 21) (rd : Reg) (op : BitVec 7) (he : evenOffset offset = true) :
    fieldOffsetJ (formatJ offset rd op) = offset := by
  simp (disch := omega) only [fieldOffsetJ, formatJ, BitVec.extractLsb'_append_eq_of_add_le, BitVec.extractLsb'_append_eq_of_le]
  simp only [Nat.reduceSub, BitVec.extractLsb'_eq_self]
  rw [← evenOffset_bit he]
  simp (disch := omega) only [BitVec.extractLsb'_append_extractLsb'_eq_extractLsb']
  simp
/-- A word is its fields in this format. -/
theorem formatJ_fields (w : Word) :
    formatJ (fieldOffsetJ w) (fieldRd w) (fieldOpcode w) = w := by
  simp only [formatJ, fieldOffsetJ, fieldRd, fieldOpcode]
  simp (disch := omega) only [BitVec.extractLsb'_append_eq_of_add_le, BitVec.extractLsb'_append_eq_of_le]
  simp (disch := omega) only [extract_extract]
  simp (disch := omega) only [BitVec.extractLsb'_append_extractLsb'_eq_extractLsb']
  simp

/-! ## R4 format -/

@[simp] theorem fieldRs3_formatR4 (rs3 : Reg) (fmt : BitVec 2) (rs2 rs1 : Reg) (rm : BitVec 3) (rd : Reg) (op : BitVec 7) : fieldRs3 (formatR4 rs3 fmt rs2 rs1 rm rd op) = rs3 := by
  simp (disch := omega) only [fieldRs3, formatR4, BitVec.extractLsb'_append_eq_of_le]; simp
@[simp] theorem fieldFmt_formatR4 (rs3 : Reg) (fmt : BitVec 2) (rs2 rs1 : Reg) (rm : BitVec 3) (rd : Reg) (op : BitVec 7) : fieldFmt (formatR4 rs3 fmt rs2 rs1 rm rd op) = fmt := by
  simp (disch := omega) only [fieldFmt, formatR4, BitVec.extractLsb'_append_eq_of_add_le, BitVec.extractLsb'_append_eq_of_le]; simp
@[simp] theorem fieldRs2_formatR4 (rs3 : Reg) (fmt : BitVec 2) (rs2 rs1 : Reg) (rm : BitVec 3) (rd : Reg) (op : BitVec 7) : fieldRs2 (formatR4 rs3 fmt rs2 rs1 rm rd op) = rs2 := by
  simp (disch := omega) only [fieldRs2, formatR4, BitVec.extractLsb'_append_eq_of_add_le, BitVec.extractLsb'_append_eq_of_le]; simp
@[simp] theorem fieldRs1_formatR4 (rs3 : Reg) (fmt : BitVec 2) (rs2 rs1 : Reg) (rm : BitVec 3) (rd : Reg) (op : BitVec 7) : fieldRs1 (formatR4 rs3 fmt rs2 rs1 rm rd op) = rs1 := by
  simp (disch := omega) only [fieldRs1, formatR4, BitVec.extractLsb'_append_eq_of_add_le, BitVec.extractLsb'_append_eq_of_le]; simp
@[simp] theorem fieldFunct3_formatR4 (rs3 : Reg) (fmt : BitVec 2) (rs2 rs1 : Reg) (rm : BitVec 3) (rd : Reg) (op : BitVec 7) : fieldFunct3 (formatR4 rs3 fmt rs2 rs1 rm rd op) = rm := by
  simp (disch := omega) only [fieldFunct3, formatR4, BitVec.extractLsb'_append_eq_of_add_le, BitVec.extractLsb'_append_eq_of_le]; simp
@[simp] theorem fieldRd_formatR4 (rs3 : Reg) (fmt : BitVec 2) (rs2 rs1 : Reg) (rm : BitVec 3) (rd : Reg) (op : BitVec 7) : fieldRd (formatR4 rs3 fmt rs2 rs1 rm rd op) = rd := by
  simp (disch := omega) only [fieldRd, formatR4, BitVec.extractLsb'_append_eq_of_add_le, BitVec.extractLsb'_append_eq_of_le]; simp
@[simp] theorem fieldOpcode_formatR4 (rs3 : Reg) (fmt : BitVec 2) (rs2 rs1 : Reg) (rm : BitVec 3) (rd : Reg) (op : BitVec 7) : fieldOpcode (formatR4 rs3 fmt rs2 rs1 rm rd op) = op := by
  simp (disch := omega) only [fieldOpcode, formatR4, BitVec.extractLsb'_append_eq_of_add_le]; simp
/-- A word is its fields in this format. -/
theorem formatR4_fields (w : Word) :
    formatR4 (fieldRs3 w) (fieldFmt w) (fieldRs2 w) (fieldRs1 w) (fieldFunct3 w) (fieldRd w) (fieldOpcode w) = w := by
  simp only [formatR4, fieldRs3, fieldFmt, fieldRs2, fieldRs1, fieldFunct3, fieldRd, fieldOpcode]
  simp (disch := omega) only [BitVec.extractLsb'_append_extractLsb'_eq_extractLsb']
  simp

/-! ## AMO format -/

@[simp] theorem fieldFunct5_formatAmo (f5 : BitVec 5) (aq rl : BitVec 1) (rs2 rs1 : Reg) (f3 : BitVec 3) (rd : Reg) (op : BitVec 7) : fieldFunct5 (formatAmo f5 aq rl rs2 rs1 f3 rd op) = f5 := by
  simp (disch := omega) only [fieldFunct5, formatAmo, BitVec.extractLsb'_append_eq_of_le]; simp
@[simp] theorem fieldAq_formatAmo (f5 : BitVec 5) (aq rl : BitVec 1) (rs2 rs1 : Reg) (f3 : BitVec 3) (rd : Reg) (op : BitVec 7) : fieldAq (formatAmo f5 aq rl rs2 rs1 f3 rd op) = aq := by
  simp (disch := omega) only [fieldAq, formatAmo, BitVec.extractLsb'_append_eq_of_add_le, BitVec.extractLsb'_append_eq_of_le]; simp
@[simp] theorem fieldRl_formatAmo (f5 : BitVec 5) (aq rl : BitVec 1) (rs2 rs1 : Reg) (f3 : BitVec 3) (rd : Reg) (op : BitVec 7) : fieldRl (formatAmo f5 aq rl rs2 rs1 f3 rd op) = rl := by
  simp (disch := omega) only [fieldRl, formatAmo, BitVec.extractLsb'_append_eq_of_add_le, BitVec.extractLsb'_append_eq_of_le]; simp
@[simp] theorem fieldRs2_formatAmo (f5 : BitVec 5) (aq rl : BitVec 1) (rs2 rs1 : Reg) (f3 : BitVec 3) (rd : Reg) (op : BitVec 7) : fieldRs2 (formatAmo f5 aq rl rs2 rs1 f3 rd op) = rs2 := by
  simp (disch := omega) only [fieldRs2, formatAmo, BitVec.extractLsb'_append_eq_of_add_le, BitVec.extractLsb'_append_eq_of_le]; simp
@[simp] theorem fieldRs1_formatAmo (f5 : BitVec 5) (aq rl : BitVec 1) (rs2 rs1 : Reg) (f3 : BitVec 3) (rd : Reg) (op : BitVec 7) : fieldRs1 (formatAmo f5 aq rl rs2 rs1 f3 rd op) = rs1 := by
  simp (disch := omega) only [fieldRs1, formatAmo, BitVec.extractLsb'_append_eq_of_add_le, BitVec.extractLsb'_append_eq_of_le]; simp
@[simp] theorem fieldFunct3_formatAmo (f5 : BitVec 5) (aq rl : BitVec 1) (rs2 rs1 : Reg) (f3 : BitVec 3) (rd : Reg) (op : BitVec 7) : fieldFunct3 (formatAmo f5 aq rl rs2 rs1 f3 rd op) = f3 := by
  simp (disch := omega) only [fieldFunct3, formatAmo, BitVec.extractLsb'_append_eq_of_add_le, BitVec.extractLsb'_append_eq_of_le]; simp
@[simp] theorem fieldRd_formatAmo (f5 : BitVec 5) (aq rl : BitVec 1) (rs2 rs1 : Reg) (f3 : BitVec 3) (rd : Reg) (op : BitVec 7) : fieldRd (formatAmo f5 aq rl rs2 rs1 f3 rd op) = rd := by
  simp (disch := omega) only [fieldRd, formatAmo, BitVec.extractLsb'_append_eq_of_add_le, BitVec.extractLsb'_append_eq_of_le]; simp
@[simp] theorem fieldOpcode_formatAmo (f5 : BitVec 5) (aq rl : BitVec 1) (rs2 rs1 : Reg) (f3 : BitVec 3) (rd : Reg) (op : BitVec 7) : fieldOpcode (formatAmo f5 aq rl rs2 rs1 f3 rd op) = op := by
  simp (disch := omega) only [fieldOpcode, formatAmo, BitVec.extractLsb'_append_eq_of_add_le]; simp
/-- A word is its fields in this format. -/
theorem formatAmo_fields (w : Word) :
    formatAmo (fieldFunct5 w) (fieldAq w) (fieldRl w) (fieldRs2 w) (fieldRs1 w) (fieldFunct3 w) (fieldRd w) (fieldOpcode w) = w := by
  simp only [formatAmo, fieldFunct5, fieldAq, fieldRl, fieldRs2, fieldRs1, fieldFunct3, fieldRd, fieldOpcode]
  simp (disch := omega) only [BitVec.extractLsb'_append_extractLsb'_eq_extractLsb']
  simp

/-! ## FENCE format -/

@[simp] theorem fieldFm_formatFence (fm pred succ : BitVec 4) (rs1 : Reg) (f3 : BitVec 3) (rd : Reg) (op : BitVec 7) : fieldFm (formatFence fm pred succ rs1 f3 rd op) = fm := by
  simp (disch := omega) only [fieldFm, formatFence, BitVec.extractLsb'_append_eq_of_le]; simp
@[simp] theorem fieldPred_formatFence (fm pred succ : BitVec 4) (rs1 : Reg) (f3 : BitVec 3) (rd : Reg) (op : BitVec 7) : fieldPred (formatFence fm pred succ rs1 f3 rd op) = pred := by
  simp (disch := omega) only [fieldPred, formatFence, BitVec.extractLsb'_append_eq_of_add_le, BitVec.extractLsb'_append_eq_of_le]; simp
@[simp] theorem fieldSucc_formatFence (fm pred succ : BitVec 4) (rs1 : Reg) (f3 : BitVec 3) (rd : Reg) (op : BitVec 7) : fieldSucc (formatFence fm pred succ rs1 f3 rd op) = succ := by
  simp (disch := omega) only [fieldSucc, formatFence, BitVec.extractLsb'_append_eq_of_add_le, BitVec.extractLsb'_append_eq_of_le]; simp
@[simp] theorem fieldRs1_formatFence (fm pred succ : BitVec 4) (rs1 : Reg) (f3 : BitVec 3) (rd : Reg) (op : BitVec 7) : fieldRs1 (formatFence fm pred succ rs1 f3 rd op) = rs1 := by
  simp (disch := omega) only [fieldRs1, formatFence, BitVec.extractLsb'_append_eq_of_add_le, BitVec.extractLsb'_append_eq_of_le]; simp
@[simp] theorem fieldFunct3_formatFence (fm pred succ : BitVec 4) (rs1 : Reg) (f3 : BitVec 3) (rd : Reg) (op : BitVec 7) : fieldFunct3 (formatFence fm pred succ rs1 f3 rd op) = f3 := by
  simp (disch := omega) only [fieldFunct3, formatFence, BitVec.extractLsb'_append_eq_of_add_le, BitVec.extractLsb'_append_eq_of_le]; simp
@[simp] theorem fieldRd_formatFence (fm pred succ : BitVec 4) (rs1 : Reg) (f3 : BitVec 3) (rd : Reg) (op : BitVec 7) : fieldRd (formatFence fm pred succ rs1 f3 rd op) = rd := by
  simp (disch := omega) only [fieldRd, formatFence, BitVec.extractLsb'_append_eq_of_add_le, BitVec.extractLsb'_append_eq_of_le]; simp
@[simp] theorem fieldOpcode_formatFence (fm pred succ : BitVec 4) (rs1 : Reg) (f3 : BitVec 3) (rd : Reg) (op : BitVec 7) : fieldOpcode (formatFence fm pred succ rs1 f3 rd op) = op := by
  simp (disch := omega) only [fieldOpcode, formatFence, BitVec.extractLsb'_append_eq_of_add_le]; simp
/-- A word is its fields in this format. -/
theorem formatFence_fields (w : Word) :
    formatFence (fieldFm w) (fieldPred w) (fieldSucc w) (fieldRs1 w) (fieldFunct3 w) (fieldRd w) (fieldOpcode w) = w := by
  simp only [formatFence, fieldFm, fieldPred, fieldSucc, fieldRs1, fieldFunct3, fieldRd, fieldOpcode]
  simp (disch := omega) only [BitVec.extractLsb'_append_extractLsb'_eq_extractLsb']
  simp

/-! ## Offsets, and words under a mask -/

/-- A decoded branch offset is even (R165). -/
theorem evenOffset_fieldOffsetB (w : Word) : evenOffset (fieldOffsetB w) = true := by
  simp only [evenOffset, fieldOffsetB, BitVec.getLsbD_append]; rfl

/-- A decoded jump offset is even (R167). -/
theorem evenOffset_fieldOffsetJ (w : Word) : evenOffset (fieldOffsetJ w) = true := by
  simp only [evenOffset, fieldOffsetJ, BitVec.getLsbD_append]; rfl

/-- A word that matches a row has the row's bits in every field the row's mask covers (R171). -/
theorem field_of_mask {w mask pattern : Word} (h : w &&& mask = pattern) (s n : Nat)
    (hm : mask.extractLsb' s n = BitVec.allOnes n) : w.extractLsb' s n = pattern.extractLsb' s n := by
  rw [← h, BitVec.extractLsb'_and, hm, BitVec.and_allOnes]

/-- The bytes of a word are the word again (R151). -/
theorem wordOfBytes_bytes (w : Word) :
    wordOfBytes (w.extractLsb' 0 8) (w.extractLsb' 8 8) (w.extractLsb' 16 8) (w.extractLsb' 24 8) = w := by
  simp (disch := omega) only [wordOfBytes, BitVec.extractLsb'_append_extractLsb'_eq_extractLsb']
  simp

end Sys2Proof
end

