-- ==== Sys2Proof/Laws/Fp.lean ====
section
/-! SUPPORT. The rounding function of Machine/Float.lean meets R458 over the reals: fields of packed patterns, the place of a fraction, the
rounded integer, and `round_roundsTo`. -/

namespace Sys2Proof.Machine.Fp

open Sys2Proof.Ieee

/-! ## Parameters -/

theorem width_eq (f : Fmt) : f.width = 1 + expBits f + fracBits f := by cases f <;> rfl
theorem prec_eq (f : Fmt) : prec f = fracBits f + 1 := by cases f <;> rfl
theorem two_le_fracBits (f : Fmt) : 2 ≤ fracBits f := by cases f <;> decide
theorem bias_eq (f : Fmt) : 2 ^ expBits f = 2 * bias f + 2 := by cases f <;> rfl
theorem fracBits_lt_bias (f : Fmt) : fracBits f + 2 < bias f := by cases f <;> decide
theorem expMax_eq (f : Fmt) : expMax f = 2 * bias f + 1 := rfl
theorem emin_eq (f : Fmt) : emin f = 1 - (bias f : Int) := rfl

/-! ## Fields of a packed pattern -/

theorem pack_toNat (f : Fmt) (neg : Bool) (e t : Nat) (he : e < 2 ^ expBits f) (ht : t < 2 ^ fracBits f) :
    (pack f neg e t).toNat = (if neg then 2 ^ (expBits f + fracBits f) else 0) + e * 2 ^ fracBits f + t := by
  have h1 : e * 2 ^ fracBits f + t < 2 ^ (expBits f + fracBits f) := by
    rw [pow_add]
    calc e * 2 ^ fracBits f + t < e * 2 ^ fracBits f + 2 ^ fracBits f := by omega
      _ = (e + 1) * 2 ^ fracBits f := by ring
      _ ≤ _ := Nat.mul_le_mul_right _ he
  have hw : f.width - 1 = expBits f + fracBits f := by rw [width_eq]; omega
  have hw' : f.width = (expBits f + fracBits f) + 1 := by rw [width_eq]; omega
  rw [pack, BitVec.toNat_ofNat, Nat.mod_eq_of_lt, hw]
  rw [hw]; rw [hw', pow_succ]; split <;> omega

theorem pack_expField (f : Fmt) (neg : Bool) (e t : Nat) (he : e < 2 ^ expBits f) (ht : t < 2 ^ fracBits f) :
    expField f (pack f neg e t) = e := by
  rw [expField, pack_toNat f neg e t he ht]
  have hpos : 0 < 2 ^ fracBits f := Nat.two_pow_pos _
  cases neg
  · simp only [Bool.false_eq_true, if_false, zero_add]
    rw [Nat.mul_comm e, Nat.mul_add_div hpos, Nat.div_eq_of_lt ht, Nat.add_zero, Nat.mod_eq_of_lt he]
  · simp only [if_true]
    rw [pow_add, show 2 ^ expBits f * 2 ^ fracBits f + e * 2 ^ fracBits f + t
      = 2 ^ fracBits f * (2 ^ expBits f + e) + t by ring, Nat.mul_add_div hpos, Nat.div_eq_of_lt ht,
      Nat.add_zero, Nat.add_mod_left, Nat.mod_eq_of_lt he]

theorem pack_fracField (f : Fmt) (neg : Bool) (e t : Nat) (he : e < 2 ^ expBits f) (ht : t < 2 ^ fracBits f) :
    fracField f (pack f neg e t) = t := by
  rw [fracField, pack_toNat f neg e t he ht]
  cases neg
  · simp only [Bool.false_eq_true, if_false, zero_add]
    rw [Nat.mul_comm e, Nat.mul_add_mod, Nat.mod_eq_of_lt ht]
  · simp only [if_true]
    rw [pow_add, show 2 ^ expBits f * 2 ^ fracBits f + e * 2 ^ fracBits f + t
      = 2 ^ fracBits f * (2 ^ expBits f + e) + t by ring, Nat.mul_add_mod, Nat.mod_eq_of_lt ht]

theorem pack_signBit (f : Fmt) (neg : Bool) (e t : Nat) (he : e < 2 ^ expBits f) (ht : t < 2 ^ fracBits f) :
    signBit f (pack f neg e t) = neg := by
  have hw : f.width - 1 = expBits f + fracBits f := by rw [width_eq]; omega
  have h1 : e * 2 ^ fracBits f + t < 2 ^ (expBits f + fracBits f) := by
    rw [pow_add]
    calc e * 2 ^ fracBits f + t < e * 2 ^ fracBits f + 2 ^ fracBits f := by omega
      _ = (e + 1) * 2 ^ fracBits f := by ring
      _ ≤ _ := Nat.mul_le_mul_right _ he
  rw [signBit, BitVec.getLsbD, pack_toNat f neg e t he ht, hw]
  cases neg
  · simp only [Bool.false_eq_true, if_false, zero_add]
    exact Nat.testBit_lt_two_pow h1
  · simp only [if_true, add_assoc]
    rw [Nat.testBit_two_pow_add_eq, Nat.testBit_lt_two_pow h1]; rfl

theorem expMax_lt (f : Fmt) : expMax f < 2 ^ expBits f := by rw [bias_eq, expMax_eq]; omega

theorem isInf_infinity (f : Fmt) (neg : Bool) : IsInf f (infinity f neg) neg :=
  ⟨pack_expField f neg _ _ (expMax_lt f) (Nat.two_pow_pos _), pack_fracField f neg _ _ (expMax_lt f) (Nat.two_pow_pos _),
    pack_signBit f neg _ _ (expMax_lt f) (Nat.two_pow_pos _)⟩

theorem isZero_zero (f : Fmt) (neg : Bool) : IsZero f (zero f neg) neg :=
  ⟨pack_expField f neg _ _ (Nat.two_pow_pos _) (Nat.two_pow_pos _), pack_fracField f neg _ _ (Nat.two_pow_pos _) (Nat.two_pow_pos _),
    pack_signBit f neg _ _ (Nat.two_pow_pos _) (Nat.two_pow_pos _)⟩

theorem isMax_maxFinite (f : Fmt) (neg : Bool) : IsMax f (maxFinite f neg) neg := by
  have he : expMax f - 1 < 2 ^ expBits f := by have := expMax_lt f; omega
  have ht : 2 ^ fracBits f - 1 < 2 ^ fracBits f := by have := Nat.two_pow_pos (fracBits f); omega
  exact ⟨pack_expField f neg _ _ he ht, pack_fracField f neg _ _ he ht, pack_signBit f neg _ _ he ht⟩

theorem overflowResult_meets (f : Fmt) (mode : Mode) (neg : Bool) :
    IsOverflowResult f mode neg (overflowResult f mode neg) := by
  cases mode <;> cases neg <;> simp [IsOverflowResult, overflowResult, isInf_infinity, isMax_maxFinite]

/-! ## Magnitudes -/

/-- The real a magnitude stands for. -/
def Stands (a : Mag) (m : ℝ) : Prop :=
  a.sig ≠ 0 ∧ (a.sticky = false → m = a.sig * 2 ^ a.exp) ∧
    (a.sticky = true → (a.sig : ℝ) * 2 ^ a.exp < m ∧ m < (a.sig + 1) * 2 ^ a.exp)

/-- What a `Frac` says of a fraction. -/
def Frac.Says : Frac → ℝ → Prop
  | .zero, r => r = 0
  | .below, r => 0 < r ∧ r < 1 / 2
  | .half, r => r = 1 / 2
  | .above, r => 1 / 2 < r ∧ r < 1

theorem two_zpow_pos (k : ℤ) : (0 : ℝ) < 2 ^ k := zpow_pos (by norm_num) k

theorem Stands.pos {a : Mag} {m : ℝ} (h : Stands a m) : 0 < m := by
  obtain ⟨h0, h1, h2⟩ := h
  have hs : (0 : ℝ) < a.sig := by exact_mod_cast Nat.pos_of_ne_zero h0
  cases hst : a.sticky
  · rw [h1 hst]; exact mul_pos hs (two_zpow_pos _)
  · exact lt_trans (mul_pos hs (two_zpow_pos _)) (h2 hst).1

/-- `floor(log2)` of the real. -/
theorem Stands.exponent {a : Mag} {m : ℝ} (h : Stands a m) :
    (2 : ℝ) ^ exponentOf a ≤ m ∧ m < (2 : ℝ) ^ (exponentOf a + 1) := by
  obtain ⟨h0, h1, h2⟩ := h
  have hlo : 2 ^ Nat.log2 a.sig ≤ a.sig := Nat.log2_self_le h0
  have hhi : a.sig < 2 ^ (Nat.log2 a.sig + 1) := Nat.lt_log2_self
  have hp := two_zpow_pos a.exp
  have elo : (2 : ℝ) ^ exponentOf a = 2 ^ Nat.log2 a.sig * 2 ^ a.exp := by
    rw [exponentOf, zpow_add₀ (by norm_num), zpow_natCast, mul_comm]
  have ehi : (2 : ℝ) ^ (exponentOf a + 1) = 2 ^ (Nat.log2 a.sig + 1) * 2 ^ a.exp := by
    rw [zpow_add₀ (by norm_num), elo]; ring
  have hlo' : (2 : ℝ) ^ Nat.log2 a.sig ≤ a.sig := by exact_mod_cast hlo
  have hhi' : (a.sig : ℝ) + 1 ≤ 2 ^ (Nat.log2 a.sig + 1) := by exact_mod_cast hhi
  rw [elo, ehi]
  cases hst : a.sticky
  · rw [h1 hst]
    exact ⟨mul_le_mul_of_nonneg_right hlo' hp.le, by apply mul_lt_mul_of_pos_right _ hp; linarith⟩
  · obtain ⟨h3, h4⟩ := h2 hst
    exact ⟨(mul_le_mul_of_nonneg_right hlo' hp.le).trans h3.le,
      h4.trans_le (mul_le_mul_of_nonneg_right hhi' hp.le)⟩

theorem fracOf_says {rem k : Nat} {sticky : Bool} {d : ℝ} (hr : rem < 2 ^ k) (hd0 : sticky = false → d = 0)
    (hd1 : sticky = true → 0 < d ∧ d < 1) (hk : sticky = true → k ≠ 0) :
    (fracOf rem k sticky).Says ((rem + d) / 2 ^ k) := by
  have hp : (0 : ℝ) < 2 ^ k := by positivity
  unfold fracOf
  by_cases h0 : k = 0
  · subst h0
    have : sticky = false := by cases sticky <;> simp_all
    subst this
    have : rem = 0 := by simpa using hr
    simp [Frac.Says, this, hd0 rfl]
  · rw [if_neg h0]
    have hk2 : (2 : ℕ) ^ k = 2 * 2 ^ (k - 1) := by
      rw [← pow_succ', Nat.sub_add_cancel (Nat.pos_of_ne_zero h0)]
    have hkr : (2 : ℝ) ^ k = 2 * 2 ^ (k - 1) := by exact_mod_cast hk2
    have hd : 0 ≤ d ∧ d < 1 := by
      cases sticky
      · rw [hd0 rfl]; norm_num
      · exact ⟨(hd1 rfl).1.le, (hd1 rfl).2⟩
    by_cases h1 : rem < 2 ^ (k - 1)
    · rw [if_pos h1]
      have h1' : (rem : ℝ) + 1 ≤ 2 ^ (k - 1) := by exact_mod_cast h1
      by_cases h2 : (decide (rem = 0) && !sticky) = true
      · rw [if_pos h2]
        simp at h2
        simp [Frac.Says, h2.1, hd0 h2.2]
      · rw [if_neg h2]
        refine ⟨div_pos ?_ hp, ?_⟩
        · rcases Nat.eq_zero_or_pos rem with hz | hz
          · have : sticky = true := by simpa [hz] using h2
            have := (hd1 this).1
            rw [hz]; simpa using this
          · have : (1 : ℝ) ≤ rem := by exact_mod_cast hz
            linarith [hd.1]
        · rw [div_lt_iff₀ hp, hkr]; linarith [hd.2]
    · rw [if_neg h1]
      have h1' : (2 : ℝ) ^ (k - 1) ≤ rem := by exact_mod_cast not_lt.1 h1
      by_cases h2 : (decide (rem = 2 ^ (k - 1)) && !sticky) = true
      · rw [if_pos h2]
        simp at h2
        have : (rem : ℝ) = 2 ^ (k - 1) := by exact_mod_cast h2.1
        simp only [Frac.Says, hd0 h2.2, this, hkr]
        field_simp; ring
      · rw [if_neg h2]
        have hr' : (rem : ℝ) + 1 ≤ 2 ^ k := by exact_mod_cast hr
        refine ⟨?_, ?_⟩
        · rw [lt_div_iff₀ hp, hkr]
          rcases Nat.lt_or_ge (2 ^ (k - 1)) rem with hz | hz
          · have : (2 : ℝ) ^ (k - 1) + 1 ≤ rem := by exact_mod_cast hz
            linarith [hd.1]
          · have he : rem = 2 ^ (k - 1) := le_antisymm hz (not_lt.1 h1)
            have : sticky = true := by simpa [he] using h2
            have := (hd1 this).1
            linarith
        · rw [div_lt_one hp]; linarith [hd.2]

/-- The floor and the fraction of `m / 2^q`. -/
theorem quantize_says {a : Mag} {m : ℝ} (h : Stands a m) {q : ℤ} (hq : a.sticky = true → a.exp < q) :
    ∃ r : ℝ, m / 2 ^ q = (quantize a q).1 + r ∧ 0 ≤ r ∧ r < 1 ∧ (quantize a q).2.Says r := by
  obtain ⟨-, h1, h2⟩ := h
  have hpq := two_zpow_pos q
  unfold quantize
  by_cases hle : q ≤ a.exp
  · rw [if_pos hle]
    have hst : a.sticky = false := by
      cases hs : a.sticky
      · rfl
      · have := hq hs; omega
    refine ⟨0, ?_, le_rfl, one_pos, ?_⟩
    · rw [h1 hst]
      obtain ⟨k, hk⟩ := Int.eq_ofNat_of_zero_le (sub_nonneg.2 hle)
      have hk' : a.exp = k + q := by have : a.exp - q = k := hk; omega
      rw [hk]; simp only [Int.toNat_natCast, Nat.cast_mul, Nat.cast_pow, Nat.cast_ofNat, add_zero]
      rw [hk', zpow_add₀ (by norm_num), zpow_natCast]; field_simp
    · simp [hst, fracOf, Frac.Says]
  · rw [if_neg hle]
    obtain ⟨k, hk⟩ := Int.eq_ofNat_of_zero_le (show 0 ≤ q - a.exp by omega)
    have hk' : q = k + a.exp := by have : q - a.exp = k := hk; omega
    have hk0 : k ≠ 0 := by rintro rfl; simp at hk'; omega
    have hp := two_zpow_pos a.exp
    have h2k : (0 : ℝ) < 2 ^ k := by positivity
    simp only [hk, Int.toNat_natCast]
    obtain ⟨d, hd, hd0, hd1⟩ : ∃ d : ℝ, m = (a.sig + d) * 2 ^ a.exp ∧ (a.sticky = false → d = 0) ∧
        (a.sticky = true → 0 < d ∧ d < 1) := by
      refine ⟨m / 2 ^ a.exp - a.sig, by field_simp; ring, fun hs => ?_, fun hs => ?_⟩
      · rw [h1 hs]; field_simp; ring
      · obtain ⟨h3, h4⟩ := h2 hs
        constructor
        · rw [sub_pos, lt_div_iff₀ hp]; exact h3
        · rw [sub_lt_iff_lt_add, div_lt_iff₀ hp, add_comm]; exact h4
    have hsig : (a.sig : ℝ) = 2 ^ k * (a.sig / 2 ^ k : ℕ) + (a.sig % 2 ^ k : ℕ) := by
      exact_mod_cast (Nat.div_add_mod a.sig (2 ^ k)).symm
    have hrem : a.sig % 2 ^ k < 2 ^ k := Nat.mod_lt _ (Nat.two_pow_pos k)
    have hsays := fracOf_says (rem := a.sig % 2 ^ k) (k := k) (sticky := a.sticky) (d := d) hrem hd0 hd1 fun _ => hk0
    have hdd : 0 ≤ d ∧ d < 1 := by
      cases hs : a.sticky
      · rw [hd0 hs]; norm_num
      · exact ⟨(hd1 hs).1.le, (hd1 hs).2⟩
    have hrem' : ((a.sig % 2 ^ k : ℕ) : ℝ) + 1 ≤ 2 ^ k := by exact_mod_cast hrem
    refine ⟨((a.sig % 2 ^ k : ℕ) + d) / 2 ^ k, ?_, ?_, ?_, hsays⟩
    · rw [hd, hk', zpow_add₀ (by norm_num), zpow_natCast, hsig]; field_simp
      ring
    · exact div_nonneg (by linarith [hdd.1, (Nat.cast_nonneg (a.sig % 2 ^ k) : (0:ℝ) ≤ _)]) h2k.le
    · rw [div_lt_one h2k]; linarith [hdd.2]

/-- `roundInt` is `RoundInt` (R458). -/
theorem roundInt_is {a : Mag} {m : ℝ} (h : Stands a m) {q : ℤ} (hq : a.sticky = true → a.exp < q) (mode : Mode)
    (neg : Bool) : IsRoundInt mode neg (m / 2 ^ q) (roundInt mode neg a q) := by
  obtain ⟨r, hr, h0, h1, hs⟩ := quantize_says h hq
  refine ⟨(quantize a q).1, r, hr, h0, h1, ?_⟩
  unfold roundInt
  generalize quantize a q = p at *
  obtain ⟨n0, fr⟩ := p
  have key : roundsUp mode neg n0 fr = true ↔ (r ≠ 0 ∧ RoundsUp mode neg n0 r) := by
    cases fr <;> simp only [Frac.Says] at hs
    · simp [roundsUp, hs]
    · have hne : r ≠ 0 := hs.1.ne'
      have h2 : ¬(1 / 2 < r) := by linarith [hs.2]
      have h3 : ¬(1 / 2 = r) := by intro h; linarith [hs.2]
      have h4 : ¬(1 / 2 ≤ r) := by linarith [hs.2]
      cases mode <;> simp [roundsUp, RoundsUp, hne] <;> grind
    · have hne : r ≠ 0 := by rw [hs]; norm_num
      cases mode <;> simp [roundsUp, RoundsUp, hs]
    · have hne : r ≠ 0 := by intro h; rw [h] at hs; norm_num at hs
      have h4 : 1 / 2 ≤ r := hs.1.le
      cases mode <;> simp [roundsUp, RoundsUp, hne] <;> grind
  constructor
  · intro hu; simp [key.2 hu]
  · intro hu; simp [Bool.eq_false_iff.2 fun h => hu (key.1 h)]

/-- `inexactAt` is 'not an integer'. -/
theorem inexactAt_iff {a : Mag} {m : ℝ} (h : Stands a m) {q : ℤ} (hq : a.sticky = true → a.exp < q) (mode : Mode)
    (neg : Bool) : inexactAt a q = true ↔ (roundInt mode neg a q : ℝ) * 2 ^ q ≠ m := by
  obtain ⟨r, hr, h0, h1, hs⟩ := quantize_says h hq
  have hp := two_zpow_pos q
  have hm : m = ((quantize a q).1 + r) * 2 ^ q := by rw [← hr]; field_simp
  have e1 : inexactAt a q = true ↔ r ≠ 0 := by
    unfold inexactAt
    generalize (quantize a q).2 = fr at *
    cases fr <;> simp only [Frac.Says] at hs <;> simp
    · exact hs
    · exact hs.1.ne'
    · rw [hs]; norm_num
    · intro h; rw [h] at hs; norm_num at hs
  rw [e1, hm, ne_eq, ne_eq, not_iff_not, mul_left_inj' hp.ne']
  unfold roundInt
  constructor
  · intro hz
    have : (quantize a q).2 = .zero := by
      generalize (quantize a q).2 = fr at *
      cases fr <;> simp only [Frac.Says] at hs <;> simp <;> grind
    simp [hz, this, roundsUp]
  · intro he
    simp only at he
    split at he
    · push_cast at he; linarith
    · linarith

/-! ## The result -/

/-- A rounded integer lies within one of the real, on the side its floor allows. -/
theorem roundInt_bounds {a : Mag} {m : ℝ} (h : Stands a m) {q : ℤ} (hq : a.sticky = true → a.exp < q) (mode : Mode)
    (neg : Bool) {lo hi : Nat} (hlo : (lo : ℝ) * 2 ^ q ≤ m) (hhi : m < (hi : ℝ) * 2 ^ q) :
    lo ≤ roundInt mode neg a q ∧ roundInt mode neg a q ≤ hi := by
  obtain ⟨r, hr, h0, h1, -⟩ := quantize_says h hq
  have hp := two_zpow_pos q
  have hlo' : (lo : ℝ) ≤ m / 2 ^ q := by rwa [le_div_iff₀ hp]
  have hhi' : m / 2 ^ q < (hi : ℝ) := by rwa [div_lt_iff₀ hp]
  have b1 : lo ≤ (quantize a q).1 := by
    have : (lo : ℝ) < ((quantize a q).1 + 1 : ℕ) := by push_cast; linarith
    have : lo < (quantize a q).1 + 1 := by exact_mod_cast this
    omega
  have b2 : (quantize a q).1 + 1 ≤ hi := by
    have : ((quantize a q).1 : ℝ) < hi := by linarith
    have : (quantize a q).1 < hi := by exact_mod_cast this
    omega
  unfold roundInt
  simp only
  split <;> omega

theorem log2_lt_iff {n k : Nat} (hn : n ≠ 0) : Nat.log2 n < k ↔ n < 2 ^ k := Nat.log2_lt hn

/-- `q + log2 n` against a bound, as a comparison of reals. -/
theorem log2_add_lt_iff {n : Nat} (hn : n ≠ 0) (q b : ℤ) : q + (Nat.log2 n : ℤ) < b ↔ (n : ℝ) * 2 ^ q < 2 ^ b := by
  have hp := two_zpow_pos q
  constructor
  · intro h
    have h1 : (n : ℝ) < 2 ^ (Nat.log2 n + 1) := by exact_mod_cast Nat.lt_log2_self
    calc (n : ℝ) * 2 ^ q < 2 ^ (Nat.log2 n + 1) * 2 ^ q := by apply mul_lt_mul_of_pos_right h1 hp
      _ = 2 ^ (((Nat.log2 n + 1 : ℕ) : ℤ) + q) := by rw [zpow_add₀ (by norm_num), zpow_natCast]
      _ ≤ 2 ^ b := zpow_le_zpow_right₀ (by norm_num) (by push_cast; omega)
  · intro h
    by_contra hc
    have h1 : (2 : ℝ) ^ Nat.log2 n ≤ n := by exact_mod_cast Nat.log2_self_le hn
    have : (2 : ℝ) ^ b ≤ n * 2 ^ q := by
      calc (2 : ℝ) ^ b ≤ 2 ^ ((Nat.log2 n : ℤ) + q) := zpow_le_zpow_right₀ (by norm_num) (by omega)
        _ = 2 ^ Nat.log2 n * 2 ^ q := by rw [zpow_add₀ (by norm_num), zpow_natCast]
        _ ≤ n * 2 ^ q := mul_le_mul_of_nonneg_right h1 hp.le
    linarith

/-- `q + log2 n > emax` is 'exceeds MAX' for a magnitude on the grid. -/
theorem overflow_iff (f : Fmt) {n : Nat} {q : ℤ} (hn : n ≤ 2 ^ prec f) {maxReal : ℝ} (hmax : IsMaxReal f maxReal) :
    (n ≠ 0 ∧ q + (Nat.log2 n : ℤ) > bias f) ↔ maxReal < (n : ℝ) * 2 ^ q := by
  have hq0 := two_zpow_pos q
  have h2p : (1 : ℝ) ≤ 2 ^ prec f := one_le_pow₀ (by norm_num)
  have hB : (2 : ℝ) ^ ((bias f : ℤ) + 1) = 2 ^ prec f * 2 ^ ((bias f : ℤ) - prec f + 1) := by
    rw [← zpow_natCast, ← zpow_add₀ (by norm_num)]; congr 1; ring
  have hC := two_zpow_pos ((bias f : ℤ) - prec f + 1)
  have hmax0 : maxReal < 2 ^ ((bias f : ℤ) + 1) := by rw [hmax, hB]; nlinarith
  by_cases h0 : n = 0
  · subst h0
    have : (0 : ℝ) ≤ maxReal := by rw [hmax]; exact mul_nonneg (by linarith) hC.le
    simp; linarith
  have key := log2_add_lt_iff h0 q ((bias f : ℤ) + 1)
  constructor
  · rintro ⟨-, hgt⟩
    have : ¬((n : ℝ) * 2 ^ q < 2 ^ ((bias f : ℤ) + 1)) := fun h => by have := key.2 h; omega
    linarith
  · intro hlt
    refine ⟨h0, ?_⟩
    by_contra hc
    have hlt' : (n : ℝ) * 2 ^ q < 2 ^ ((bias f : ℤ) + 1) := key.1 (by omega)
    apply absurd hlt (not_lt.2 _)
    by_cases hqs : (bias f : ℤ) - prec f + 1 ≤ q
    · obtain ⟨k, hk⟩ := Int.eq_ofNat_of_zero_le (show 0 ≤ q - ((bias f : ℤ) - prec f + 1) by omega)
      have hq' : q = k + ((bias f : ℤ) - prec f + 1) := by have : q - ((bias f : ℤ) - prec f + 1) = k := hk; omega
      have e : (n : ℝ) * 2 ^ q = (n * 2 ^ k : ℕ) * 2 ^ ((bias f : ℤ) - prec f + 1) := by
        rw [hq', zpow_add₀ (by norm_num), zpow_natCast]; push_cast; ring
      rw [e, hB] at hlt'
      have : ((n * 2 ^ k : ℕ) : ℝ) < (2 ^ prec f : ℕ) := by
        push_cast; push_cast at hlt'; exact lt_of_mul_lt_mul_right hlt' hC.le
      have : n * 2 ^ k < 2 ^ prec f := by exact_mod_cast this
      have : ((n * 2 ^ k : ℕ) : ℝ) + 1 ≤ (2 ^ prec f : ℕ) := by exact_mod_cast this
      rw [e, hmax]; push_cast at *; apply mul_le_mul_of_nonneg_right _ hC.le; linarith
    · have hn' : (n : ℝ) ≤ 2 ^ prec f := by exact_mod_cast hn
      have hpp : (2 : ℝ) ≤ 2 ^ prec f := by
        calc (2 : ℝ) = 2 ^ 1 := by norm_num
          _ ≤ 2 ^ prec f := pow_le_pow_right₀ (by norm_num) (by rw [prec_eq]; omega)
      have hqq : (2 : ℝ) * 2 ^ q ≤ 2 ^ ((bias f : ℤ) - prec f + 1) := by
        calc (2 : ℝ) * 2 ^ q = 2 ^ (q + 1) := by rw [zpow_add₀ (by norm_num)]; ring
          _ ≤ _ := zpow_le_zpow_right₀ (by norm_num) (by omega)
      rw [hmax]
      calc (n : ℝ) * 2 ^ q ≤ 2 ^ prec f * 2 ^ q := mul_le_mul_of_nonneg_right hn' hq0.le
        _ ≤ 2 * (2 ^ prec f - 1) * 2 ^ q := by apply mul_le_mul_of_nonneg_right _ hq0.le; linarith
        _ = (2 ^ prec f - 1) * (2 * 2 ^ q) := by ring
        _ ≤ _ := mul_le_mul_of_nonneg_left hqq (by linarith)

/-- `encodeGrid` gives the pattern of a magnitude on the format's grid that does not overflow. -/
theorem encodeGrid_magnitude (f : Fmt) (neg : Bool) {n : Nat} {q : ℤ} (hn : n ≤ 2 ^ prec f)
    (hq : emin f - prec f + 1 ≤ q) (hsub : n < 2 ^ fracBits f → q = emin f - prec f + 1)
    (hov : ¬(n ≠ 0 ∧ q + (Nat.log2 n : ℤ) > bias f)) :
    HasMagnitude f (encodeGrid f neg n q) neg (n * 2 ^ q) := by
  have hwb := fracBits_lt_bias f
  have hpw := prec_eq f
  have hem := emin_eq f
  have hbe := bias_eq f
  have hmx := expMax_eq f
  have h2w := Nat.two_pow_pos (fracBits f)
  unfold encodeGrid
  by_cases h1 : n < 2 ^ fracBits f
  · rw [if_pos h1]
    have e0 : (0 : ℕ) < 2 ^ expBits f := Nat.two_pow_pos _
    refine ⟨pack_signBit f neg 0 n e0 h1, ?_, fun _ => ?_, fun h => ?_⟩
    · rw [pack_expField f neg 0 n e0 h1]; omega
    · rw [pack_fracField f neg 0 n e0 h1, hsub h1]; congr 2; omega
    · rw [pack_expField f neg 0 n e0 h1] at h; exact absurd rfl h
  · rw [if_neg h1]
    have hn0 : n ≠ 0 := by omega
    have hge : ¬(q + (Nat.log2 n : ℤ) > bias f) := fun h => hov ⟨hn0, h⟩
    by_cases h2 : n < 2 ^ prec f
    · rw [if_pos h2]
      have hlog : fracBits f ≤ Nat.log2 n := (Nat.le_log2 hn0).2 (not_lt.1 h1)
      have ht : n - 2 ^ fracBits f < 2 ^ fracBits f := by rw [hpw, pow_succ] at h2; omega
      obtain ⟨E, hE⟩ := Int.eq_ofNat_of_zero_le (show 0 ≤ q + fracBits f + bias f by omega)
      rw [hE, Int.toNat_natCast]
      have hEb : E < 2 ^ expBits f := by omega
      refine ⟨pack_signBit f neg _ _ hEb ht, ?_, fun h => ?_, fun _ => ?_⟩
      · rw [pack_expField f neg _ _ hEb ht]; omega
      · rw [pack_expField f neg _ _ hEb ht] at h; omega
      · rw [pack_expField f neg _ _ hEb ht, pack_fracField f neg _ _ hEb ht, Nat.cast_sub (not_lt.1 h1)]
        push_cast
        rw [show ((E : ℤ) - bias f - fracBits f) = q by omega]; ring
    · rw [if_neg h2]
      have he : n = 2 ^ prec f := le_antisymm hn (not_lt.1 h2)
      have hlog : Nat.log2 n = prec f := by rw [he, Nat.log2_two_pow]
      rw [hlog] at hge
      obtain ⟨E, hE⟩ := Int.eq_ofNat_of_zero_le (show 0 ≤ q + fracBits f + 1 + bias f by omega)
      rw [hE, Int.toNat_natCast]
      have hEb : E < 2 ^ expBits f := by omega
      refine ⟨pack_signBit f neg _ _ hEb h2w, ?_, fun h => ?_, fun _ => ?_⟩
      · rw [pack_expField f neg _ _ hEb h2w]; omega
      · rw [pack_expField f neg _ _ hEb h2w] at h; omega
      · rw [pack_expField f neg _ _ hEb h2w, pack_fracField f neg _ _ hEb h2w, he]
        rw [show ((E : ℤ) - bias f - fracBits f) = q + 1 by omega, zpow_add₀ (by norm_num), hpw]
        push_cast; ring

/-- The bits of `round`'s flags. -/
theorem round_flags (b c : Bool) :
    (flagIf b flagNX ||| flagIf (c && b) flagUF).getLsbD 0 = b ∧
    (flagIf b flagNX ||| flagIf (c && b) flagUF).getLsbD 1 = (c && b) ∧
    (flagIf b flagNX ||| flagIf (c && b) flagUF) &&& (flagNV ||| flagDZ ||| flagOF) = flagNone := by
  revert b c; decide

/-- `round` is `round_F` of R458 on every nonzero real its magnitude stands for. A sticky magnitude needs the format's
precision in bits. -/
theorem round_roundsTo (f : Fmt) (mode : Mode) (neg : Bool) {a : Mag} {x : ℝ} (h : Stands a |x|)
    (hneg : neg = true ↔ x < 0) (hbits : a.sticky = true → prec f ≤ Nat.log2 a.sig) :
    RoundsTo f mode x (round f mode neg a) := by
  obtain ⟨hel, heu⟩ := h.exponent
  have hpw := prec_eq f
  set e := exponentOf a with he
  set q := max e (emin f) - prec f + 1 with hqd
  have hexp : e = a.exp + (Nat.log2 a.sig : ℤ) := rfl
  have hqu : a.sticky = true → a.exp < e - prec f + 1 := fun hs => by have := hbits hs; omega
  have hq : a.sticky = true → a.exp < q := fun hs => by have := hqu hs; omega
  have hqe : e - prec f + 1 ≤ q := by omega
  have hqm : emin f - prec f + 1 ≤ q := by omega
  have pow1 : (2 : ℝ) ^ e = ((2 ^ fracBits f : ℕ) : ℝ) * 2 ^ (e - prec f + 1) := by
    push_cast; rw [← zpow_natCast, ← zpow_add₀ (by norm_num)]; congr 1; omega
  have pow2 : (2 : ℝ) ^ (e + 1) = ((2 ^ prec f : ℕ) : ℝ) * 2 ^ (e - prec f + 1) := by
    push_cast; rw [← zpow_natCast, ← zpow_add₀ (by norm_num)]; congr 1; omega
  have pow3 : (2 : ℝ) ^ (e + 1) ≤ ((2 ^ prec f : ℕ) : ℝ) * 2 ^ q := by
    rw [pow2]; exact mul_le_mul_of_nonneg_left (zpow_le_zpow_right₀ (by norm_num) hqe) (by positivity)
  have hn := (roundInt_bounds h hq mode neg (lo := 0) (hi := 2 ^ prec f) (by simp) (heu.trans_le pow3)).2
  have hnu := (roundInt_bounds h hqu mode neg (lo := 2 ^ fracBits f) (hi := 2 ^ prec f) (pow1 ▸ hel) (pow2 ▸ heu)).1
  have hsub : roundInt mode neg a q < 2 ^ fracBits f → q = emin f - prec f + 1 := by
    intro hlt
    by_contra hc
    have hqe' : q = e - prec f + 1 := by omega
    rw [hqe'] at hlt; omega
  have hnu0 : roundInt mode neg a (e - prec f + 1) ≠ 0 := by have := Nat.two_pow_pos (fracBits f); omega
  have hin := inexactAt_iff h hq mode neg
  have htiny := log2_add_lt_iff hnu0 (e - prec f + 1) (emin f)
  have hov := overflow_iff f (q := q) hn (maxReal := ((2 : ℝ) ^ prec f - 1) * 2 ^ ((bias f : ℤ) - prec f + 1)) rfl
  refine ⟨neg, e, q, roundInt mode neg a q, roundInt mode neg a (e - prec f + 1), _, hneg, rfl, hel, heu, rfl,
    roundInt_is h hq mode neg, roundInt_is h hqu mode neg, ?_, ?_⟩
  · intro hlt
    have := hov.2 hlt
    unfold round
    simp only [← he, ← hqd]
    rw [if_pos this]
    exact ⟨rfl, overflowResult_meets f mode neg⟩
  · intro hle
    have hno : ¬(roundInt mode neg a q ≠ 0 ∧ q + (Nat.log2 (roundInt mode neg a q) : ℤ) > bias f) :=
      fun h => absurd (hov.1 h) (not_lt.2 hle)
    unfold round
    simp only [← he, ← hqd]
    rw [if_neg hno]
    refine ⟨encodeGrid_magnitude f neg hn hqm hsub hno, ?_, ?_, ?_⟩
    · rw [← hin]; exact (Bool.eq_iff_iff.1 (round_flags _ _).1)
    · rw [← hin, ← htiny]
      exact (Bool.eq_iff_iff.1 (round_flags _ _).2.1).trans (by simp)
    · exact (round_flags _ _).2.2

end Sys2Proof.Machine.Fp
end

