-- ==== Sys2Proof/Laws/FpValues.lean ====
section
/-! SUPPORT. Values of patterns (R452) as `unpack` gives them, exact sums and products, and the magnitudes of quotients and square
roots: what each operation of 45_fp_common needs before it rounds. -/

namespace Sys2Proof.Machine.Fp

open Sys2Proof.Ieee

/-! ## What `unpack` says -/

theorem fracField_lt (f : Fmt) (x : BitVec f.width) : fracField f x < 2 ^ fracBits f :=
  Nat.mod_lt _ (Nat.two_pow_pos _)

theorem expField_lt (f : Fmt) (x : BitVec f.width) : expField f x < 2 ^ expBits f :=
  Nat.mod_lt _ (Nat.two_pow_pos _)

theorem expMax_ne_zero (f : Fmt) : expMax f ≠ 0 := by rw [expMax_eq]; omega

/-- The top fraction bit is clear exactly below half the fraction's range. -/
theorem topFraction_clear (f : Fmt) (x : BitVec f.width) :
    (fracField f x).testBit (fracBits f - 1) = false ↔ fracField f x < 2 ^ (fracBits f - 1) := by
  have h := fracField_lt f x
  have h2 : 2 ^ fracBits f = 2 * 2 ^ (fracBits f - 1) := by
    rw [← pow_succ', Nat.sub_add_cancel (by have := two_le_fracBits f; omega)]
  have hp := Nat.two_pow_pos (fracBits f - 1)
  rw [Nat.testBit_eq_decide_div_mod_eq]
  by_cases hc : fracField f x < 2 ^ (fracBits f - 1)
  · simp [hc, Nat.div_eq_of_lt hc]
  · have : fracField f x / 2 ^ (fracBits f - 1) = 1 := by
      rw [Nat.div_eq_iff hp]; omega
    simp [this]; omega

/-- What a value says of its pattern. -/
def Value.Says (f : Fmt) (x : BitVec f.width) : Value → Prop
  | .nan s => IsNan f x ∧ (s = true ↔ IsSignallingNan f x)
  | .inf neg => IsInf f x neg
  | .zero neg => IsZero f x neg
  | .num neg sig exp => sig ≠ 0 ∧ HasMagnitude f x neg (sig * 2 ^ exp) ∧ (expField f x = 0 → fracField f x ≠ 0)

theorem unpack_says (f : Fmt) (x : BitVec f.width) : (unpack f x).Says f x := by
  unfold unpack
  have h2 := Nat.two_pow_pos (fracBits f)
  have h0 := expMax_ne_zero f
  split
  · rename_i he
    split
    · exact ⟨he, ‹_›, rfl⟩
    · refine ⟨⟨he, ‹_›⟩, ?_⟩
      rw [IsSignallingNan, topFraction_clear, decide_eq_true_iff]
      exact ⟨fun h => ⟨⟨he, ‹_›⟩, h⟩, fun h => h.2⟩
  · rename_i he
    split
    · rename_i he0
      split
      · exact ⟨he0, ‹_›, rfl⟩
      · exact ⟨‹_›, ⟨rfl, he, fun _ => rfl, fun h => absurd he0 h⟩, fun _ => ‹_›⟩
    · refine ⟨by omega, ⟨rfl, he, fun h => absurd h ‹_›, fun _ => ?_⟩, fun h => absurd h ‹_›⟩
      push_cast; ring

theorem unpack_nan_iff (f : Fmt) (x : BitVec f.width) : IsNan f x ↔ ∃ s, unpack f x = .nan s := by
  have h := unpack_says f x
  constructor
  · intro hn
    cases hv : unpack f x <;> rw [hv] at h
    · exact ⟨_, rfl⟩
    · exact absurd h.2.1 hn.2
    · exact absurd (h.1.symm.trans hn.1).symm (expMax_ne_zero f)
    · exact absurd hn.1 h.2.1.2.1
  · rintro ⟨s, hs⟩; rw [hs] at h; exact h.1

theorem isNan_unpack (f : Fmt) (x : BitVec f.width) : isNan (unpack f x) = true ↔ IsNan f x := by
  rw [unpack_nan_iff]; cases unpack f x <;> simp [isNan]

theorem isSignalling_unpack (f : Fmt) (x : BitVec f.width) :
    isSignalling (unpack f x) = true ↔ IsSignallingNan f x := by
  have h := unpack_says f x
  cases hv : unpack f x <;> rw [hv] at h <;> simp only [isSignalling]
  · exact h.2
  all_goals
    simp only [Bool.false_eq_true, false_iff]
    intro hs
    have := (unpack_nan_iff f x).1 hs.1
    simp [hv] at this

theorem unpack_inf_iff (f : Fmt) (x : BitVec f.width) (s : Bool) : IsInf f x s ↔ unpack f x = .inf s := by
  have h := unpack_says f x
  constructor
  · intro hi
    cases hv : unpack f x <;> rw [hv] at h
    · exact absurd hi.2.1 h.1.2
    · rw [← hi.2.2, ← h.2.2]
    · exact absurd (h.1.symm.trans hi.1).symm (expMax_ne_zero f)
    · exact absurd hi.1 h.2.1.2.1
  · intro hs; rw [hs] at h; exact h

theorem unpack_zero_iff (f : Fmt) (x : BitVec f.width) (s : Bool) : IsZero f x s ↔ unpack f x = .zero s := by
  have h := unpack_says f x
  constructor
  · intro hz
    cases hv : unpack f x <;> rw [hv] at h
    · exact absurd hz.2.1 h.1.2
    · exact absurd (hz.1.symm.trans h.1).symm (expMax_ne_zero f)
    · rw [← hz.2.2, ← h.2.2]
    · exact absurd hz.2.1 (h.2.2 hz.1)
  · intro hs; rw [hs] at h; exact h

theorem magnitude_unique {f : Fmt} {x : BitVec f.width} {n n' : Bool} {r r' : ℝ} (h : HasMagnitude f x n r)
    (h' : HasMagnitude f x n' r') : n = n' ∧ r = r' := by
  refine ⟨h.1.symm.trans h'.1, ?_⟩
  by_cases he : expField f x = 0
  · rw [h.2.2.1 he, h'.2.2.1 he]
  · rw [h.2.2.2 he, h'.2.2.2 he]

theorem magnitude_nonneg {f : Fmt} {x : BitVec f.width} {n : Bool} {r : ℝ} (h : HasMagnitude f x n r) : 0 ≤ r := by
  by_cases he : expField f x = 0
  · rw [h.2.2.1 he]; exact mul_nonneg (Nat.cast_nonneg _) (two_zpow_pos _).le
  · rw [h.2.2.2 he]; exact mul_nonneg (add_nonneg (by positivity) (Nat.cast_nonneg _)) (two_zpow_pos _).le

/-- The real a signed number stands for, as a relation. -/
def RealOf (p : ℤ × ℤ) (v : ℝ) : Prop := v = p.1 * 2 ^ p.2

theorem isZero_magnitude {f : Fmt} {x : BitVec f.width} {s : Bool} (h : IsZero f x s) : HasMagnitude f x s 0 :=
  ⟨h.2.2, fun he => expMax_ne_zero f (he.symm.trans h.1), fun _ => by rw [h.2.1]; simp, fun he => absurd h.1 he⟩

/-- A finite pattern is a zero or a number, and its real value is that of `signedOf`. -/
theorem hasValue_signed {f : Fmt} {x : BitVec f.width} {v : ℝ} (h : HasValue f x v) :
    RealOf (signedOf (unpack f x)) v ∧
      ((∃ s, unpack f x = .zero s ∧ v = 0) ∨
        ∃ s sig exp, unpack f x = .num s sig exp ∧ v ≠ 0 ∧ |v| = sig * 2 ^ exp ∧ (s = true ↔ v < 0)) := by
  obtain ⟨r, h⟩ := h
  obtain ⟨neg, hm, hv⟩ : ∃ neg : Bool, HasMagnitude f x neg r ∧ v = if neg then -r else r := by
    rcases h with ⟨hm, hv⟩ | ⟨hm, hv⟩
    · exact ⟨false, hm, by simpa using hv⟩
    · exact ⟨true, hm, by simpa using hv⟩
  have hs := unpack_says f x
  cases hu : unpack f x with
  | nan s => rw [hu] at hs; exact absurd hs.1.1 hm.2.1
  | inf s => rw [hu] at hs; exact absurd hs.1 hm.2.1
  | zero s =>
    rw [hu] at hs
    have := (magnitude_unique (isZero_magnitude hs) hm).2
    have hv0 : v = 0 := by rw [hv, ← this]; simp
    exact ⟨by rw [RealOf, hv0]; simp [signedOf], .inl ⟨s, rfl, hv0⟩⟩
  | num s sig exp =>
    rw [hu] at hs
    obtain ⟨h0, hm', -⟩ := hs
    obtain ⟨rfl, rfl⟩ := magnitude_unique hm' hm
    have hpos : (0 : ℝ) < sig * 2 ^ exp :=
      mul_pos (by exact_mod_cast Nat.pos_of_ne_zero h0) (two_zpow_pos _)
    refine ⟨?_, .inr ⟨s, sig, exp, rfl, ?_, ?_, ?_⟩⟩
    · rw [RealOf, hv]; cases s <;> simp [signedOf]
    · rw [hv]; cases s <;> simp <;> grind
    · rw [hv]; cases s <;> simp [abs_of_pos hpos]
    · rw [hv]; cases s <;> simp [hpos, hpos.le]

theorem signOf_unpack {f : Fmt} {x : BitVec f.width} (h : ¬IsNan f x) : signOf (unpack f x) = signBit f x := by
  have hs := unpack_says f x
  cases hu : unpack f x <;> rw [hu] at hs
  · exact absurd hs.1 h
  · exact hs.2.2.symm
  · exact hs.2.2.symm
  · exact hs.2.1.1.symm

/-! ## A pattern is its fields -/

theorem pack_fields (f : Fmt) (x : BitVec f.width) : pack f (signBit f x) (expField f x) (fracField f x) = x := by
  apply BitVec.eq_of_toNat_eq
  rw [pack_toNat f _ _ _ (expField_lt f x) (fracField_lt f x), signBit, BitVec.getLsbD]
  have hw : f.width - 1 = expBits f + fracBits f := by rw [width_eq]; omega
  have hlt : x.toNat < 2 * 2 ^ (expBits f + fracBits f) := by
    have h1 := x.isLt
    have h2 : 2 ^ f.width = 2 * 2 ^ (expBits f + fracBits f) := by
      rw [← pow_succ']; congr 1; rw [width_eq]; omega
    omega
  have hp := Nat.two_pow_pos (expBits f + fracBits f)
  have h1 := Nat.div_add_mod x.toNat (2 ^ fracBits f)
  have h2 := Nat.div_add_mod (x.toNat / 2 ^ fracBits f) (2 ^ expBits f)
  have h3 : x.toNat / 2 ^ fracBits f / 2 ^ expBits f = x.toNat / 2 ^ (expBits f + fracBits f) := by
    rw [Nat.div_div_eq_div_mul, ← pow_add, Nat.add_comm]
  rw [hw, Nat.testBit_eq_decide_div_mod_eq]
  have h4 : x.toNat / 2 ^ (expBits f + fracBits f) < 2 := by rwa [Nat.div_lt_iff_lt_mul hp]
  have h5 : (if decide (x.toNat / 2 ^ (expBits f + fracBits f) % 2 = 1) = true then 2 ^ (expBits f + fracBits f) else 0)
      = 2 ^ (expBits f + fracBits f) * (x.toNat / 2 ^ (expBits f + fracBits f)) := by
    rcases (show x.toNat / 2 ^ (expBits f + fracBits f) = 0 ∨ x.toNat / 2 ^ (expBits f + fracBits f) = 1 by
      generalize x.toNat / 2 ^ (expBits f + fracBits f) = d at h4; omega) with h | h <;>
      simp [h]
  rw [h5, expField, fracField]
  conv_rhs => rw [← h1, ← h2, h3, pow_add]
  rw [pow_add]; ring

theorem eq_zero_of_isZero {f : Fmt} {x : BitVec f.width} {s : Bool} (h : IsZero f x s) : x = zero f s := by
  rw [← pack_fields f x, h.1, h.2.1, h.2.2]; rfl

theorem eq_infinity_of_isInf {f : Fmt} {x : BitVec f.width} {s : Bool} (h : IsInf f x s) : x = infinity f s := by
  rw [← pack_fields f x, h.1, h.2.1, h.2.2]; rfl

/-! ## The sign bit flipped -/

theorem flipSign_toNat_lo (f : Fmt) (x : BitVec f.width) (i : Nat) (hi : i < f.width - 1) :
    (flipSign f x).toNat.testBit i = x.toNat.testBit i := by
  have h1 : (BitVec.twoPow f.width (f.width - 1)).getLsbD i = false := by
    rw [BitVec.getLsbD_twoPow]; simp; omega
  have h2 : (flipSign f x).getLsbD i = x.getLsbD i := by
    rw [flipSign, BitVec.getLsbD_xor, h1, Bool.xor_false]
  exact h2

theorem flipSign_fields (f : Fmt) (x : BitVec f.width) :
    expField f (flipSign f x) = expField f x ∧ fracField f (flipSign f x) = fracField f x ∧
      signBit f (flipSign f x) = !signBit f x := by
  have hw := width_eq f
  refine ⟨?_, ?_, ?_⟩
  · apply Nat.eq_of_testBit_eq; intro i
    simp only [expField, Nat.testBit_mod_two_pow, Nat.testBit_div_two_pow]
    by_cases hi : i < expBits f
    · simp only [hi, decide_true, Bool.true_and]; exact flipSign_toNat_lo f x _ (by omega)
    · simp [hi]
  · apply Nat.eq_of_testBit_eq; intro i
    simp only [fracField, Nat.testBit_mod_two_pow]
    by_cases hi : i < fracBits f
    · simp only [hi, decide_true, Bool.true_and]; exact flipSign_toNat_lo f x _ (by omega)
    · simp [hi]
  · have h1 : (BitVec.twoPow f.width (f.width - 1)).getLsbD (f.width - 1) = true := by
      rw [BitVec.getLsbD_twoPow]; simp; omega
    rw [signBit, signBit, flipSign, BitVec.getLsbD_xor, h1, Bool.xor_true]

/-- `-b` of R466: the value's sign flips, and a NaN keeps its kind. -/
theorem unpack_flipSign (f : Fmt) (x : BitVec f.width) : unpack f (flipSign f x) = negate (unpack f x) := by
  obtain ⟨h1, h2, h3⟩ := flipSign_fields f x
  unfold unpack
  rw [h1, h2, h3]
  split <;> split <;> (try split) <;> rfl

/-! ## Exact sums and products -/

theorem exactSum_real {a b : ℤ × ℤ} {x y : ℝ} (ha : RealOf a x) (hb : RealOf b y) : RealOf (exactSum a b) (x + y) := by
  unfold RealOf at *
  have key : ∀ c : ℤ × ℤ, min a.2 b.2 ≤ c.2 →
      (c.1 : ℝ) * 2 ^ c.2 = (c.1 * 2 ^ (c.2 - min a.2 b.2).toNat : ℤ) * 2 ^ min a.2 b.2 := by
    intro c hc
    obtain ⟨k, hk⟩ := Int.eq_ofNat_of_zero_le (show 0 ≤ c.2 - min a.2 b.2 by omega)
    have hk' : c.2 = k + min a.2 b.2 := by have : c.2 - min a.2 b.2 = k := hk; omega
    rw [hk, Int.toNat_natCast]
    conv_lhs => rw [hk', zpow_add₀ (by norm_num), zpow_natCast]
    push_cast; ring
  rw [ha, hb, key a (min_le_left _ _), key b (min_le_right _ _), exactSum]
  push_cast; ring

theorem exactProduct_real {a b : ℤ × ℤ} {x y : ℝ} (ha : RealOf a x) (hb : RealOf b y) :
    RealOf (exactProduct a b) (x * y) := by
  unfold RealOf at *
  rw [ha, hb, exactProduct, zpow_add₀ (by norm_num)]; push_cast; ring

theorem negateIf_real {p : ℤ × ℤ} {x : ℝ} (h : RealOf p x) (neg : Bool) :
    RealOf (negateIf neg p) (if neg then -x else x) := by
  unfold RealOf at *; cases neg <;> simp [negateIf, h]

/-- A signed number rounds as R458 says, and an exact zero as R462 says. -/
theorem roundSigned_is {f : Fmt} {mode : Mode} {p : ℤ × ℤ} {x : ℝ} (h : RealOf p x) :
    IsSumResult f mode x (roundSigned f mode p.1 p.2) := by
  unfold RealOf at h
  have hp := two_zpow_pos p.2
  constructor
  · intro hx
    have : p.1 = 0 := by
      rw [hx] at h; rcases mul_eq_zero.1 h.symm with h | h
      · exact_mod_cast h
      · exact absurd h hp.ne'
    rw [roundSigned, if_pos this]
    exact ⟨by cases mode <;> exact isZero_zero f _, rfl⟩
  · intro hx
    have h0 : p.1 ≠ 0 := by rintro h0; apply hx; rw [h, h0]; simp
    rw [roundSigned, if_neg h0]
    refine round_roundsTo f mode _ ⟨Int.natAbs_ne_zero.2 h0, fun _ => ?_, fun hs => by simp at hs⟩ ?_ (fun hs => by simp at hs)
    · rw [h, abs_mul, abs_of_pos hp]; congr 1; rw [Nat.cast_natAbs]; simp
    · rw [decide_eq_true_iff, h]
      constructor
      · intro hn; exact mul_neg_of_neg_of_pos (by exact_mod_cast hn) hp
      · intro hn
        have : (p.1 : ℝ) < 0 := by
          by_contra hc; exact absurd hn (not_lt.2 (mul_nonneg (not_lt.1 hc) hp.le))
        exact_mod_cast this

/-- A number's own magnitude rounds as R458 says. -/
theorem round_num {f : Fmt} {mode : Mode} {neg : Bool} {sig : Nat} {exp : ℤ} {x : ℝ} (h0 : sig ≠ 0)
    (habs : |x| = sig * 2 ^ exp) (hneg : neg = true ↔ x < 0) : RoundsTo f mode x (round f mode neg ⟨sig, exp, false⟩) :=
  round_roundsTo f mode neg ⟨h0, fun _ => habs, fun hs => by simp at hs⟩ hneg (fun hs => by simp at hs)

/-! ## The order of values (R474) -/

theorem hasValue_zero {f : Fmt} {x : BitVec f.width} {s : Bool} (h : unpack f x = .zero s) : HasValue f x 0 := by
  have := isZero_magnitude ((unpack_zero_iff f x s).2 h)
  cases s
  · exact ⟨0, .inl ⟨this, rfl⟩⟩
  · exact ⟨0, .inr ⟨this, by simp⟩⟩

theorem hasValue_num {f : Fmt} {x : BitVec f.width} {s : Bool} {sig : Nat} {exp : ℤ} (h : unpack f x = .num s sig exp) :
    HasValue f x (if s then -((sig : ℝ) * 2 ^ exp) else sig * 2 ^ exp) := by
  have := unpack_says f x
  rw [h] at this
  cases s
  · exact ⟨_, .inl ⟨this.2.1, rfl⟩⟩
  · exact ⟨_, .inr ⟨this.2.1, rfl⟩⟩

theorem hasValue_unique {f : Fmt} {x : BitVec f.width} {v w : ℝ} (h : HasValue f x v) (h' : HasValue f x w) : v = w :=
  (hasValue_signed h).1.trans (hasValue_signed h').1.symm

theorem hasValue_not_inf {f : Fmt} {x : BitVec f.width} {v : ℝ} (h : HasValue f x v) (s : Bool) : ¬IsInf f x s := by
  intro hi
  have e := (unpack_inf_iff f x s).1 hi
  rcases (hasValue_signed h).2 with ⟨_, h, -⟩ | ⟨_, _, _, h, -⟩ <;> simp [e] at h

/-- The sign of an exact difference is the order of the reals. -/
theorem exactDifference_neg {a b : ℤ × ℤ} {x y : ℝ} (ha : RealOf a x) (hb : RealOf b y) :
    (exactSum a (negateIf true b)).1 < 0 ↔ x < y := by
  have h := exactSum_real ha (negateIf_real hb true)
  simp only [if_true, RealOf] at h
  have hp := two_zpow_pos (exactSum a (negateIf true b)).2
  rw [← sub_neg (a := x), sub_eq_add_neg x, h]
  constructor
  · intro hn; exact mul_neg_of_neg_of_pos (by exact_mod_cast hn) hp
  · intro hn
    have : ((exactSum a (negateIf true b)).1 : ℝ) < 0 := by
      by_contra hc; exact absurd hn (not_lt.2 (mul_nonneg (not_lt.1 hc) hp.le))
    exact_mod_cast this

/-- Two finite patterns compare as their reals. -/
theorem lessValues_finite {f : Fmt} {a b : BitVec f.width} {x y : ℝ} (hx : HasValue f a x) (hy : HasValue f b y) :
    lessValues (unpack f a) (unpack f b) = true ↔ x < y := by
  obtain ⟨rx, cx⟩ := hasValue_signed hx
  obtain ⟨ry, cy⟩ := hasValue_signed hy
  rw [← exactDifference_neg rx ry]
  rcases cx with ⟨s, e, -⟩ | ⟨s, sg, ex, e, -⟩ <;> rcases cy with ⟨s', e', -⟩ | ⟨s', sg', ex', e', -⟩ <;>
    simp [e, e', lessValues]

/-- The order `lessValues` decides is that of R474. -/
theorem lessValues_iff {f : Fmt} {a b : BitVec f.width} (ha : ¬IsNan f a) (hb : ¬IsNan f b) :
    lessValues (unpack f a) (unpack f b) = true ↔ IsLess f a b := by
  by_cases hfin : (∃ x, HasValue f a x) ∧ ∃ y, HasValue f b y
  · obtain ⟨⟨x, hx⟩, y, hy⟩ := hfin
    rw [lessValues_finite hx hy]
    constructor
    · exact fun h => .inl ⟨x, y, hx, hy, h⟩
    · rintro (⟨x', y', hx', hy', h⟩ | ⟨h, -⟩ | ⟨h, -⟩)
      · rwa [hasValue_unique hx hx', hasValue_unique hy hy']
      · exact absurd h (hasValue_not_inf hx _)
      · exact absurd h (hasValue_not_inf hy _)
  · have hno : ∀ x y, ¬(HasValue f a x ∧ HasValue f b y ∧ x < y) := fun x y h => hfin ⟨⟨x, h.1⟩, y, h.2.1⟩
    have ha' := ha
    have hb' := hb
    rw [unpack_nan_iff] at ha' hb'
    simp only [IsLess, ha, hb, unpack_inf_iff, hno, exists_false, false_or, not_false_eq_true, and_true]
    cases hu : unpack f a with
    | nan s => exact absurd ⟨s, hu⟩ ha'
    | inf s =>
      cases hv : unpack f b with
      | nan t => exact absurd ⟨t, hv⟩ hb'
      | inf t => cases s <;> cases t <;> simp [lessValues]
      | zero t => cases s <;> simp [lessValues]
      | num t sig exp => cases s <;> simp [lessValues]
    | zero s =>
      cases hv : unpack f b with
      | nan t => exact absurd ⟨t, hv⟩ hb'
      | inf t => cases t <;> simp [lessValues]
      | zero t => exact absurd ⟨⟨_, hasValue_zero hu⟩, _, hasValue_zero hv⟩ hfin
      | num t sig exp => exact absurd ⟨⟨_, hasValue_zero hu⟩, _, hasValue_num hv⟩ hfin
    | num s sig exp =>
      cases hv : unpack f b with
      | nan t => exact absurd ⟨t, hv⟩ hb'
      | inf t => cases t <;> simp [lessValues]
      | zero t => exact absurd ⟨⟨_, hasValue_num hu⟩, _, hasValue_zero hv⟩ hfin
      | num t sig exp => exact absurd ⟨⟨_, hasValue_num hu⟩, _, hasValue_num hv⟩ hfin

/-- Patterns that are no NaNs and neither less than the other are equal in the sense of R474. -/
theorem neither_less {f : Fmt} {a b : BitVec f.width} (ha : ¬IsNan f a) (hb : ¬IsNan f b) :
    (¬ IsLess f a b ∧ ¬ IsLess f b a) ↔ IsEqual f a b := by
  have fin : ∀ x, ¬IsNan f x → (∃ v, HasValue f x v) ∨ (∃ s, IsInf f x s) := fun x hx => by
    rw [unpack_nan_iff] at hx
    cases hu : unpack f x with
    | nan s => exact absurd ⟨s, hu⟩ hx
    | inf s => exact .inr ⟨s, (unpack_inf_iff _ _ _).2 hu⟩
    | zero s => exact .inl ⟨_, hasValue_zero hu⟩
    | num s g e => exact .inl ⟨_, hasValue_num hu⟩
  have infu : ∀ x s t, IsInf f x s → IsInf f x t → s = t := fun x s t h h' => h.2.2.symm.trans h'.2.2
  rcases fin a ha with ⟨x, hx⟩ | ⟨s, hs⟩ <;> rcases fin b hb with ⟨y, hy⟩ | ⟨t, ht⟩
  · have n1 := hasValue_not_inf hx
    have n2 := hasValue_not_inf hy
    have e1 : ∀ v, HasValue f a v ↔ v = x := fun v => ⟨fun h => hasValue_unique h hx, fun h => h ▸ hx⟩
    have e2 : ∀ v, HasValue f b v ↔ v = y := fun v => ⟨fun h => hasValue_unique h hy, fun h => h ▸ hy⟩
    simp [IsLess, IsEqual, n1, n2, e1, e2]
    exact ⟨fun h => le_antisymm h.2 h.1, fun h => by simp [h]⟩
  · have n1 := hasValue_not_inf hx
    have n2 : ∀ v, ¬ HasValue f b v := fun v h => hasValue_not_inf h _ ht
    have e2 : ∀ v, IsInf f b v ↔ v = t := fun v => ⟨fun h => infu _ _ _ h ht, fun h => h ▸ ht⟩
    simp [IsLess, IsEqual, n1, n2, e2, ha, hb]
  · have n1 := hasValue_not_inf hy
    have n2 : ∀ v, ¬ HasValue f a v := fun v h => hasValue_not_inf h _ hs
    have e2 : ∀ v, IsInf f a v ↔ v = s := fun v => ⟨fun h => infu _ _ _ h hs, fun h => h ▸ hs⟩
    simp [IsLess, IsEqual, n1, n2, e2, ha, hb]
  · have n2 : ∀ v, ¬ HasValue f a v := fun v h => hasValue_not_inf h _ hs
    have n3 : ∀ v, ¬ HasValue f b v := fun v h => hasValue_not_inf h _ ht
    have e1 : ∀ v, IsInf f a v ↔ v = s := fun v => ⟨fun h => infu _ _ _ h hs, fun h => h ▸ hs⟩
    have e2 : ∀ v, IsInf f b v ↔ v = t := fun v => ⟨fun h => infu _ _ _ h ht, fun h => h ▸ ht⟩
    simp [IsLess, IsEqual, n3, n2, e2, e1, ha, hb]
    cases s <;> cases t <;> simp

/-- The order of R474 is one way only. -/
theorem isLess_asymm {f : Fmt} {a b : BitVec f.width} (h : IsLess f a b) : ¬ IsLess f b a := by
  have infu : ∀ x s t, IsInf f x s → IsInf f x t → s = t := fun x s t h h' => h.2.2.symm.trans h'.2.2
  intro h'
  rcases h with ⟨x, y, hx, hy, h⟩ | ⟨h1, h2, -⟩ | ⟨h1, h2, -⟩ <;> rcases h' with ⟨x', y', hx', hy', h'⟩ | ⟨h1', h2', -⟩ | ⟨h1', h2', -⟩
  · rw [hasValue_unique hx hy', hasValue_unique hy hx'] at h; linarith
  · exact hasValue_not_inf hy _ h1'
  · exact hasValue_not_inf hx _ h1'
  · exact hasValue_not_inf hy' _ h1
  · exact h2 h1'
  · have := infu _ _ _ h1 h1'; simp at this
  · exact hasValue_not_inf hx' _ h1
  · have := infu _ _ _ h1 h1'; simp at this
  · exact h2 h1'

/-- `lessOrdered` decides the order of R475. -/
theorem lessOrdered_iff {f : Fmt} {a b : BitVec f.width} (ha : ¬IsNan f a) (hb : ¬IsNan f b) :
    lessOrdered (unpack f a) (unpack f b) = true ↔ IsBefore f a b := by
  rw [IsBefore, ← lessValues_iff ha hb, unpack_zero_iff, unpack_zero_iff]
  cases unpack f a <;> cases unpack f b <;> simp [lessOrdered, lessValues]
  rename_i s t
  have : (exactSum (signedOf (.zero s)) (negateIf true (signedOf (.zero t)))).1 = 0 := by cases s <;> cases t <;> rfl
  simp [this];

/-- The order of R475 is one way only. -/
theorem isBefore_asymm {f : Fmt} {a b : BitVec f.width} (h : IsBefore f a b) : ¬ IsBefore f b a := by
  have fz : ∀ x s, IsZero f x s → HasValue f x 0 := fun x s h => hasValue_zero ((unpack_zero_iff f x s).1 h)
  have infu : ∀ x s t, IsZero f x s → IsZero f x t → s = t := fun x s t h h' => h.2.2.symm.trans h'.2.2
  have zl : ∀ x y s t, IsZero f x s → IsZero f y t → ¬ IsLess f x y := by
    rintro x y s t hx hy (⟨v, w, h1, h2, h3⟩ | ⟨h1, -⟩ | ⟨h1, -⟩)
    · rw [hasValue_unique h1 (fz _ _ hx), hasValue_unique h2 (fz _ _ hy)] at h3; exact lt_irrefl _ h3
    · exact hasValue_not_inf (fz _ _ hx) _ h1
    · exact hasValue_not_inf (fz _ _ hy) _ h1
  rcases h with h | ⟨h1, h2⟩
  · rintro (h' | ⟨h1, h2⟩)
    · exact isLess_asymm h h'
    · exact zl _ _ _ _ h2 h1 h
  · rintro (h' | ⟨h1', h2'⟩)
    · exact zl _ _ _ _ h2 h1 h'
    · have := infu _ _ _ h1 h2'; simp at this

/-! ## Quotients -/

theorem num_bounds {f : Fmt} {x : BitVec f.width} {s : Bool} {sig : Nat} {exp : ℤ} (h : unpack f x = .num s sig exp) :
    sig ≠ 0 ∧ sig < 2 ^ prec f := by
  have hl := fracField_lt f x
  have hp := prec_eq f
  have h2 := Nat.two_pow_pos (fracBits f)
  have hpp : 2 ^ prec f = 2 * 2 ^ fracBits f := by rw [hp, pow_succ']
  unfold unpack at h
  split at h
  · split at h <;> simp at h
  · split at h
    · split at h
      · simp at h
      · simp at h; omega
    · simp at h; omega

theorem quotientMag_stands (f : Fmt) {sig1 sig2 : Nat} {exp1 exp2 : ℤ} (h1 : sig1 ≠ 0) (h2 : sig2 ≠ 0)
    (hb : sig2 < 2 ^ prec f) :
    Stands (quotientMag f sig1 exp1 sig2 exp2) ((sig1 * 2 ^ exp1) / (sig2 * 2 ^ exp2)) ∧
      prec f ≤ Nat.log2 (quotientMag f sig1 exp1 sig2 exp2).sig := by
  have hs2 : 0 < sig2 := Nat.pos_of_ne_zero h2
  have hs2' : (0 : ℝ) < sig2 := by exact_mod_cast hs2
  set n := sig1 * 2 ^ (2 * prec f) with hn
  have hpe := two_zpow_pos (exp1 - exp2 - (2 * prec f : ℕ))
  have hge : 2 ^ prec f ≤ n / sig2 := by
    rw [Nat.le_div_iff_mul_le hs2]
    calc 2 ^ prec f * sig2 ≤ 2 ^ prec f * 2 ^ prec f := Nat.mul_le_mul_left _ hb.le
      _ = 2 ^ (2 * prec f) := by rw [two_mul, pow_add]
      _ ≤ n := Nat.le_mul_of_pos_left _ (Nat.pos_of_ne_zero h1)
  have hq0 : n / sig2 ≠ 0 := by have := Nat.two_pow_pos (prec f); omega
  have hval : ((sig1 : ℝ) * 2 ^ exp1) / (sig2 * 2 ^ exp2)
      = ((n : ℝ) / sig2) * 2 ^ (exp1 - exp2 - (2 * prec f : ℕ)) := by
    rw [hn, zpow_sub₀ (by norm_num), zpow_sub₀ (by norm_num), zpow_natCast]
    push_cast; field_simp
  have hdm : (n : ℝ) = sig2 * (n / sig2 : ℕ) + (n % sig2 : ℕ) := by exact_mod_cast (Nat.div_add_mod n sig2).symm
  refine ⟨⟨hq0, fun hst => ?_, fun hst => ?_⟩, (Nat.le_log2 hq0).2 hge⟩
  · have hm : n % sig2 = 0 := by simpa [quotientMag, ← hn] using hst
    rw [hval]
    simp only [quotientMag, ← hn]
    congr 1
    rw [hdm, hm]; field_simp; simp
  · have hm : n % sig2 ≠ 0 := by simpa [quotientMag, ← hn] using hst
    have hm1 : (0 : ℝ) < (n % sig2 : ℕ) := by exact_mod_cast Nat.pos_of_ne_zero hm
    have hm2 : ((n % sig2 : ℕ) : ℝ) < sig2 := by exact_mod_cast Nat.mod_lt _ hs2
    rw [hval]
    simp only [quotientMag, ← hn]
    constructor
    · apply mul_lt_mul_of_pos_right _ hpe
      rw [lt_div_iff₀ hs2']; nlinarith
    · apply mul_lt_mul_of_pos_right _ hpe
      rw [div_lt_iff₀ hs2']; nlinarith

/-! ## Square roots -/

theorem isqrtFrom_spec (n : Nat) (k r : Nat) (hr : r * r ≤ n) (hk : n < (r + 2 ^ k) * (r + 2 ^ k)) :
    isqrtFrom n k r * isqrtFrom n k r ≤ n ∧ n < (isqrtFrom n k r + 1) * (isqrtFrom n k r + 1) := by
  induction k generalizing r with
  | zero => rw [isqrtFrom]; exact ⟨hr, by simpa using hk⟩
  | succ k ih =>
    rw [isqrtFrom]
    split
    · refine ih _ ‹_› ?_
      have : r + 2 ^ k + 2 ^ k = r + 2 ^ (k + 1) := by rw [pow_succ]; ring
      rwa [this]
    · exact ih _ hr (by omega)

theorem isqrt_spec (n : Nat) : isqrt n * isqrt n ≤ n ∧ n < (isqrt n + 1) * (isqrt n + 1) := by
  refine isqrtFrom_spec n _ 0 (by simp) ?_
  have h1 : n < 2 ^ (Nat.log2 n + 1) := Nat.lt_log2_self
  refine h1.trans_le ?_
  rw [zero_add, ← pow_add]
  exact Nat.pow_le_pow_right (by norm_num) (by omega)

theorem sqrtMag_stands (f : Fmt) {sig : Nat} {exp : ℤ} (h0 : sig ≠ 0) :
    Stands (sqrtMag f sig exp) (Real.sqrt (sig * 2 ^ exp)) ∧ prec f ≤ Nat.log2 (sqrtMag f sig exp).sig := by
  set k := 2 * prec f + (exp % 2).toNat with hk
  set n := sig * 2 ^ k with hn
  obtain ⟨hlo, hhi⟩ := isqrt_spec n
  have hmod : ((exp % 2).toNat : ℤ) = exp % 2 := Int.toNat_of_nonneg (Int.emod_nonneg _ (by norm_num))
  have heven : exp - (k : ℤ) = 2 * ((exp - (k : ℤ)) / 2) := by rw [hk]; push_cast; omega
  set e := (exp - (k : ℤ)) / 2 with he
  have hpe := two_zpow_pos e
  have hge : 2 ^ prec f ≤ isqrt n := by
    by_contra hc
    have : isqrt n + 1 ≤ 2 ^ prec f := by omega
    have h3 : (isqrt n + 1) * (isqrt n + 1) ≤ 2 ^ prec f * 2 ^ prec f := Nat.mul_le_mul this this
    have h4 : 2 ^ prec f * 2 ^ prec f ≤ n := by
      calc 2 ^ prec f * 2 ^ prec f = 2 ^ (2 * prec f) := by rw [two_mul, pow_add]
        _ ≤ 2 ^ k := Nat.pow_le_pow_right (by norm_num) (by omega)
        _ ≤ n := Nat.le_mul_of_pos_left _ (Nat.pos_of_ne_zero h0)
    omega
  have hr0 : isqrt n ≠ 0 := by have := Nat.two_pow_pos (prec f); omega
  have hval : (sig : ℝ) * 2 ^ exp = n * (2 ^ e) ^ 2 := by
    have h1 : ((2 : ℝ) ^ e) ^ 2 = 2 ^ (exp - (k : ℤ)) := by
      rw [heven, ← zpow_natCast, ← zpow_mul]; congr 1; push_cast; ring
    rw [h1, hn, zpow_sub₀ (by norm_num), zpow_natCast]; push_cast; field_simp
  have hsq : Real.sqrt (sig * 2 ^ exp) = Real.sqrt n * 2 ^ e := by
    rw [hval, Real.sqrt_mul (Nat.cast_nonneg _), Real.sqrt_sq hpe.le]
  have hlo' : (isqrt n : ℝ) * isqrt n ≤ n := by exact_mod_cast hlo
  have hhi' : (n : ℝ) < (isqrt n + 1) * (isqrt n + 1) := by exact_mod_cast hhi
  refine ⟨⟨hr0, fun hst => ?_, fun hst => ?_⟩, (Nat.le_log2 hr0).2 hge⟩
  · have : isqrt n * isqrt n = n := by simpa [sqrtMag, ← hk, ← hn] using hst
    rw [hsq]
    simp only [sqrtMag, ← hk, ← hn, ← he]
    congr 1
    have hc : (n : ℝ) = isqrt n * isqrt n := by exact_mod_cast this.symm
    rw [hc]; exact Real.sqrt_mul_self (Nat.cast_nonneg _)
  · have hne : isqrt n * isqrt n ≠ n := by simpa [sqrtMag, ← hk, ← hn] using hst
    have hlt : (isqrt n : ℝ) * isqrt n < n := by exact_mod_cast lt_of_le_of_ne hlo hne
    rw [hsq]
    simp only [sqrtMag, ← hk, ← hn, ← he]
    exact ⟨mul_lt_mul_of_pos_right (Real.lt_sqrt_of_sq_lt (by rwa [sq])) hpe,
      mul_lt_mul_of_pos_right ((Real.sqrt_lt' (by positivity)).2 (by rwa [sq])) hpe⟩

/-! ## Exact roundings -/

/-- The square root halts exactly on a negative operand (R469). -/
theorem sqrt_eq_none_iff {f : Fmt} {cfg : Config} {mode : Mode} {a : BitVec f.width} :
    sqrt f cfg mode a = none ↔ IsNegativeOperand f a := by
  have hs := unpack_says f a
  have hn := unpack_nan_iff f a
  have hz := unpack_zero_iff f a true
  unfold sqrt IsNegativeOperand
  cases hu : unpack f a with
  | nan s => simp [hn.2 ⟨s, hu⟩]
  | zero neg =>
    rw [hu] at hs hz
    cases neg with
    | true => simp [hz.2 rfl]
    | false => simp [show signBit f a = false from hs.2.2]
  | inf neg =>
    rw [hu] at hs hz hn
    simp [hn, hz, show signBit f a = neg from hs.2.2]
  | num neg sig exp =>
    rw [hu] at hs hz hn
    simp [hn, hz, show signBit f a = neg from hs.2.1.1]

/-- Rounding an integer keeps it. -/
theorem isRoundInt_nat {mode : Mode} {neg : Bool} {m n : ℕ} (h : IsRoundInt mode neg (m : ℝ) n) : n = m := by
  obtain ⟨n0, frac, hm, h0, h1, _, hno⟩ := h
  have hz : frac = (m : ℤ) - (n0 : ℤ) := by push_cast; linarith
  have hz0 : ((m : ℤ) - (n0 : ℤ)) = 0 := by
    have a : (0 : ℝ) ≤ ((m : ℤ) - (n0 : ℤ) : ℤ) := by rw [hz] at h0; exact_mod_cast h0
    have b : (((m : ℤ) - (n0 : ℤ) : ℤ) : ℝ) < 1 := by rw [hz] at h1; exact_mod_cast h1
    have a' : (0 : ℤ) ≤ (m : ℤ) - n0 := by exact_mod_cast a
    have b' : (m : ℤ) - n0 < 1 := by exact_mod_cast b
    omega
  have hf : frac = 0 := by rw [hz]; exact_mod_cast hz0
  rw [hno (by simp [hf])]; omega

/-- A real the format holds exactly is rounded to itself, with no flag (R458, R460). -/
theorem roundsTo_exact {f : Fmt} {mode : Mode} {x : ℝ} {out : BitVec f.width × Flags} (h : RoundsTo f mode x out)
    {N : ℕ} {k : ℤ} (hx : |x| = N * 2 ^ k) (hN : N < 2 ^ prec f) (hk : emin f - prec f + 1 ≤ k)
    (hmax : ∀ r, IsMaxReal f r → |x| ≤ r) : HasValue f out.1 x ∧ out.2 = flagNone := by
  obtain ⟨neg, e, q, n, nu, maxReal, hneg, hM, he, _, hq, hr, _, _, hfin⟩ := h
  have hNr : (N : ℝ) < 2 ^ (prec f : ℤ) := by exact_mod_cast hN
  have hek : e < k + prec f := by
    have : (2 : ℝ) ^ e < 2 ^ (k + prec f) := by
      calc (2 : ℝ) ^ e ≤ N * 2 ^ k := hx ▸ he
        _ < 2 ^ (prec f : ℤ) * 2 ^ k := by
            exact mul_lt_mul_of_pos_right hNr (zpow_pos (by norm_num) _)
        _ = 2 ^ (k + prec f) := by rw [← zpow_add₀ (by norm_num)]; congr 1; ring
    exact (zpow_lt_zpow_iff_right₀ (by norm_num)).1 this
  obtain ⟨d, hd⟩ := Int.eq_ofNat_of_zero_le (show 0 ≤ k - q by omega)
  have hM' : |x| / 2 ^ q = ((N * 2 ^ d : ℕ) : ℝ) := by
    rw [hx, show k = q + d by omega, zpow_add₀ (by norm_num)]
    have : (2 : ℝ) ^ q ≠ 0 := (zpow_pos (by norm_num) _).ne'
    push_cast; field_simp; simp
  rw [hM'] at hr
  have hnq : (n : ℝ) * 2 ^ q = |x| := by
    rw [isRoundInt_nat hr, ← hM', div_mul_cancel₀ _ (zpow_pos (by norm_num) _).ne']
  rw [hnq] at hfin
  obtain ⟨hmag, h0, h1, hrest⟩ := hfin (hmax _ hM)
  refine ⟨⟨|x|, ?_⟩, ?_⟩
  · cases neg
    · exact .inl ⟨hmag, (abs_of_nonneg (not_lt.1 fun h => by simpa using hneg.2 h)).symm⟩
    · exact .inr ⟨hmag, by rw [abs_of_neg (hneg.1 rfl)]; ring⟩
  · have k0 : out.2.getLsbD 0 = false := by
      cases h : out.2.getLsbD 0 with
      | false => rfl
      | true => exact absurd rfl (h0.1 h)
    have k1 : out.2.getLsbD 1 = false := by
      cases h : out.2.getLsbD 1 with
      | false => rfl
      | true => exact absurd rfl (h1.1 h).2
    have key : ∀ g : Flags, g.getLsbD 0 = false → g.getLsbD 1 = false →
        g &&& (flagNV ||| flagDZ ||| flagOF) = flagNone → g = flagNone := by decide
    exact key _ k0 k1 hrest
end Sys2Proof.Machine.Fp
end

