-- ==== Sys2Proof/Laws/State.lean ====
section
/-! SUPPORT. One lemma for each field of State under each named update: what the update makes of it. -/

namespace Sys2Proof.Machine

/-! ## writeX -/

@[simp] theorem writeX_x (r : Reg) (v : Word) (s : State) : (writeX r v s).x = putX s.x r v := rfl
@[simp] theorem writeX_f (r : Reg) (v : Word) (s : State) : (writeX r v s).f = s.f := rfl
@[simp] theorem writeX_pc (r : Reg) (v : Word) (s : State) : (writeX r v s).pc = s.pc := rfl
@[simp] theorem writeX_frm (r : Reg) (v : Word) (s : State) : (writeX r v s).frm = s.frm := rfl
@[simp] theorem writeX_fflags (r : Reg) (v : Word) (s : State) : (writeX r v s).fflags = s.fflags := rfl
@[simp] theorem writeX_status (r : Reg) (v : Word) (s : State) : (writeX r v s).status = s.status := rfl
@[simp] theorem writeX_mem (r : Reg) (v : Word) (s : State) : (writeX r v s).mem = s.mem := rfl
@[simp] theorem writeX_modified (r : Reg) (v : Word) (s : State) : (writeX r v s).modified = s.modified := rfl
@[simp] theorem writeX_record (r : Reg) (v : Word) (s : State) : (writeX r v s).record = s.record := rfl
@[simp] theorem writeX_cfg (r : Reg) (v : Word) (s : State) : (writeX r v s).cfg = s.cfg := rfl
@[simp] theorem writeX_draws (r : Reg) (v : Word) (s : State) : (writeX r v s).draws = s.draws := rfl

/-! ## writeF -/

@[simp] theorem writeF_x (r : Reg) (v : Word) (s : State) : (writeF r v s).x = s.x := rfl
@[simp] theorem writeF_f (r : Reg) (v : Word) (s : State) : (writeF r v s).f = putF s.f r v := rfl
@[simp] theorem writeF_pc (r : Reg) (v : Word) (s : State) : (writeF r v s).pc = s.pc := rfl
@[simp] theorem writeF_frm (r : Reg) (v : Word) (s : State) : (writeF r v s).frm = s.frm := rfl
@[simp] theorem writeF_fflags (r : Reg) (v : Word) (s : State) : (writeF r v s).fflags = s.fflags := rfl
@[simp] theorem writeF_status (r : Reg) (v : Word) (s : State) : (writeF r v s).status = s.status := rfl
@[simp] theorem writeF_mem (r : Reg) (v : Word) (s : State) : (writeF r v s).mem = s.mem := rfl
@[simp] theorem writeF_modified (r : Reg) (v : Word) (s : State) : (writeF r v s).modified = s.modified := rfl
@[simp] theorem writeF_record (r : Reg) (v : Word) (s : State) : (writeF r v s).record = s.record := rfl
@[simp] theorem writeF_cfg (r : Reg) (v : Word) (s : State) : (writeF r v s).cfg = s.cfg := rfl
@[simp] theorem writeF_draws (r : Reg) (v : Word) (s : State) : (writeF r v s).draws = s.draws := rfl

/-! ## jumpTo -/

@[simp] theorem jumpTo_x (t : Word) (s : State) : (jumpTo t s).x = s.x := rfl
@[simp] theorem jumpTo_f (t : Word) (s : State) : (jumpTo t s).f = s.f := rfl
@[simp] theorem jumpTo_pc (t : Word) (s : State) : (jumpTo t s).pc = t := rfl
@[simp] theorem jumpTo_frm (t : Word) (s : State) : (jumpTo t s).frm = s.frm := rfl
@[simp] theorem jumpTo_fflags (t : Word) (s : State) : (jumpTo t s).fflags = s.fflags := rfl
@[simp] theorem jumpTo_status (t : Word) (s : State) : (jumpTo t s).status = s.status := rfl
@[simp] theorem jumpTo_mem (t : Word) (s : State) : (jumpTo t s).mem = s.mem := rfl
@[simp] theorem jumpTo_modified (t : Word) (s : State) : (jumpTo t s).modified = s.modified := rfl
@[simp] theorem jumpTo_record (t : Word) (s : State) : (jumpTo t s).record = s.record := rfl
@[simp] theorem jumpTo_cfg (t : Word) (s : State) : (jumpTo t s).cfg = s.cfg := rfl
@[simp] theorem jumpTo_draws (t : Word) (s : State) : (jumpTo t s).draws = s.draws := rfl

/-! ## advance -/

@[simp] theorem advance_x (s : State) : (advance s).x = s.x := rfl
@[simp] theorem advance_f (s : State) : (advance s).f = s.f := rfl
@[simp] theorem advance_pc (s : State) : (advance s).pc = s.pc + 4#32 := rfl
@[simp] theorem advance_frm (s : State) : (advance s).frm = s.frm := rfl
@[simp] theorem advance_fflags (s : State) : (advance s).fflags = s.fflags := rfl
@[simp] theorem advance_status (s : State) : (advance s).status = s.status := rfl
@[simp] theorem advance_mem (s : State) : (advance s).mem = s.mem := rfl
@[simp] theorem advance_modified (s : State) : (advance s).modified = s.modified := rfl
@[simp] theorem advance_record (s : State) : (advance s).record = s.record := rfl
@[simp] theorem advance_cfg (s : State) : (advance s).cfg = s.cfg := rfl
@[simp] theorem advance_draws (s : State) : (advance s).draws = s.draws := rfl

/-! ## setFlags -/

@[simp] theorem setFlags_x (mask : Flags) (s : State) : (setFlags mask s).x = s.x := rfl
@[simp] theorem setFlags_f (mask : Flags) (s : State) : (setFlags mask s).f = s.f := rfl
@[simp] theorem setFlags_pc (mask : Flags) (s : State) : (setFlags mask s).pc = s.pc := rfl
@[simp] theorem setFlags_frm (mask : Flags) (s : State) : (setFlags mask s).frm = s.frm := rfl
@[simp] theorem setFlags_fflags (mask : Flags) (s : State) : (setFlags mask s).fflags = accrued s.cfg s.fflags mask := rfl
@[simp] theorem setFlags_status (mask : Flags) (s : State) : (setFlags mask s).status = s.status := rfl
@[simp] theorem setFlags_mem (mask : Flags) (s : State) : (setFlags mask s).mem = s.mem := rfl
@[simp] theorem setFlags_modified (mask : Flags) (s : State) : (setFlags mask s).modified = s.modified := rfl
@[simp] theorem setFlags_record (mask : Flags) (s : State) : (setFlags mask s).record = s.record := rfl
@[simp] theorem setFlags_cfg (mask : Flags) (s : State) : (setFlags mask s).cfg = s.cfg := rfl
@[simp] theorem setFlags_draws (mask : Flags) (s : State) : (setFlags mask s).draws = s.draws := rfl

/-! ## storeBytes -/

@[simp] theorem storeBytes_x (a : Word) (bs : List Byte) (s : State) : (storeBytes a bs s).x = s.x := rfl
@[simp] theorem storeBytes_f (a : Word) (bs : List Byte) (s : State) : (storeBytes a bs s).f = s.f := rfl
@[simp] theorem storeBytes_pc (a : Word) (bs : List Byte) (s : State) : (storeBytes a bs s).pc = s.pc := rfl
@[simp] theorem storeBytes_frm (a : Word) (bs : List Byte) (s : State) : (storeBytes a bs s).frm = s.frm := rfl
@[simp] theorem storeBytes_fflags (a : Word) (bs : List Byte) (s : State) : (storeBytes a bs s).fflags = s.fflags := rfl
@[simp] theorem storeBytes_status (a : Word) (bs : List Byte) (s : State) : (storeBytes a bs s).status = s.status := rfl
@[simp] theorem storeBytes_mem (a : Word) (bs : List Byte) (s : State) : (storeBytes a bs s).mem = memWrite s.mem a bs := rfl
@[simp] theorem storeBytes_record (a : Word) (bs : List Byte) (s : State) : (storeBytes a bs s).record = s.record := rfl
@[simp] theorem storeBytes_cfg (a : Word) (bs : List Byte) (s : State) : (storeBytes a bs s).cfg = s.cfg := rfl
@[simp] theorem storeBytes_draws (a : Word) (bs : List Byte) (s : State) : (storeBytes a bs s).draws = s.draws := rfl

/-! ## writePair -/

@[simp] theorem writePair_x (p : Pair) (v : Dword) (s : State) : (writePair p v s).x = s.x := rfl
@[simp] theorem writePair_f (p : Pair) (v : Dword) (s : State) : (writePair p v s).f = putF (putF s.f p.lo (v.extractLsb' 0 32)) p.hi (v.extractLsb' 32 32) := rfl
@[simp] theorem writePair_pc (p : Pair) (v : Dword) (s : State) : (writePair p v s).pc = s.pc := rfl
@[simp] theorem writePair_frm (p : Pair) (v : Dword) (s : State) : (writePair p v s).frm = s.frm := rfl
@[simp] theorem writePair_fflags (p : Pair) (v : Dword) (s : State) : (writePair p v s).fflags = s.fflags := rfl
@[simp] theorem writePair_status (p : Pair) (v : Dword) (s : State) : (writePair p v s).status = s.status := rfl
@[simp] theorem writePair_mem (p : Pair) (v : Dword) (s : State) : (writePair p v s).mem = s.mem := rfl
@[simp] theorem writePair_modified (p : Pair) (v : Dword) (s : State) : (writePair p v s).modified = s.modified := rfl
@[simp] theorem writePair_record (p : Pair) (v : Dword) (s : State) : (writePair p v s).record = s.record := rfl
@[simp] theorem writePair_cfg (p : Pair) (v : Dword) (s : State) : (writePair p v s).cfg = s.cfg := rfl
@[simp] theorem writePair_draws (p : Pair) (v : Dword) (s : State) : (writePair p v s).draws = s.draws := rfl

/-! ## writeFcsr -/

@[simp] theorem writeFcsr_x (v : Word) (s : State) : (writeFcsr v s).x = s.x := rfl
@[simp] theorem writeFcsr_f (v : Word) (s : State) : (writeFcsr v s).f = s.f := rfl
@[simp] theorem writeFcsr_pc (v : Word) (s : State) : (writeFcsr v s).pc = s.pc := rfl
@[simp] theorem writeFcsr_frm (v : Word) (s : State) : (writeFcsr v s).frm = v.extractLsb' 5 3 := rfl
@[simp] theorem writeFcsr_fflags (v : Word) (s : State) : (writeFcsr v s).fflags = v.extractLsb' 0 5 := rfl
@[simp] theorem writeFcsr_status (v : Word) (s : State) : (writeFcsr v s).status = s.status := rfl
@[simp] theorem writeFcsr_mem (v : Word) (s : State) : (writeFcsr v s).mem = s.mem := rfl
@[simp] theorem writeFcsr_modified (v : Word) (s : State) : (writeFcsr v s).modified = s.modified := rfl
@[simp] theorem writeFcsr_record (v : Word) (s : State) : (writeFcsr v s).record = s.record := rfl
@[simp] theorem writeFcsr_cfg (v : Word) (s : State) : (writeFcsr v s).cfg = s.cfg := rfl
@[simp] theorem writeFcsr_draws (v : Word) (s : State) : (writeFcsr v s).draws = s.draws := rfl

/-- A store marks its bytes exactly when `FETCH_COHERENCE = fault` (R69, R120). -/
theorem storeBytes_modified (a : Word) (bs : List Byte) (s : State) :
    (storeBytes a bs s).modified =
      match s.cfg.fetchCoherence with
      | .fault => markModified s.modified a bs.length
      | .immediate => s.modified := rfl

/-! ## csrWrite and afterCsrRead: they touch `frm`, `fflags` and `draws` only -/

@[simp] theorem csrWrite_x (csr : BitVec 12) (v : Word) (s : State) : (csrWrite csr v s).x = s.x := by
  unfold csrWrite; split <;> rfl
@[simp] theorem csrWrite_f (csr : BitVec 12) (v : Word) (s : State) : (csrWrite csr v s).f = s.f := by
  unfold csrWrite; split <;> rfl
@[simp] theorem csrWrite_pc (csr : BitVec 12) (v : Word) (s : State) : (csrWrite csr v s).pc = s.pc := by
  unfold csrWrite; split <;> rfl
@[simp] theorem csrWrite_status (csr : BitVec 12) (v : Word) (s : State) : (csrWrite csr v s).status = s.status := by
  unfold csrWrite; split <;> rfl
@[simp] theorem csrWrite_mem (csr : BitVec 12) (v : Word) (s : State) : (csrWrite csr v s).mem = s.mem := by
  unfold csrWrite; split <;> rfl
@[simp] theorem csrWrite_modified (csr : BitVec 12) (v : Word) (s : State) : (csrWrite csr v s).modified = s.modified := by
  unfold csrWrite; split <;> rfl
@[simp] theorem csrWrite_record (csr : BitVec 12) (v : Word) (s : State) : (csrWrite csr v s).record = s.record := by
  unfold csrWrite; split <;> rfl
@[simp] theorem csrWrite_cfg (csr : BitVec 12) (v : Word) (s : State) : (csrWrite csr v s).cfg = s.cfg := by
  unfold csrWrite; split <;> rfl
@[simp] theorem csrWrite_draws (csr : BitVec 12) (v : Word) (s : State) : (csrWrite csr v s).draws = s.draws := by
  unfold csrWrite; split <;> rfl
@[simp] theorem afterCsrRead_x (csr : BitVec 12) (s : State) : (afterCsrRead csr s).x = s.x := by
  unfold afterCsrRead; split <;> rfl
@[simp] theorem afterCsrRead_f (csr : BitVec 12) (s : State) : (afterCsrRead csr s).f = s.f := by
  unfold afterCsrRead; split <;> rfl
@[simp] theorem afterCsrRead_pc (csr : BitVec 12) (s : State) : (afterCsrRead csr s).pc = s.pc := by
  unfold afterCsrRead; split <;> rfl
@[simp] theorem afterCsrRead_frm (csr : BitVec 12) (s : State) : (afterCsrRead csr s).frm = s.frm := by
  unfold afterCsrRead; split <;> rfl
@[simp] theorem afterCsrRead_fflags (csr : BitVec 12) (s : State) : (afterCsrRead csr s).fflags = s.fflags := by
  unfold afterCsrRead; split <;> rfl
@[simp] theorem afterCsrRead_status (csr : BitVec 12) (s : State) : (afterCsrRead csr s).status = s.status := by
  unfold afterCsrRead; split <;> rfl
@[simp] theorem afterCsrRead_mem (csr : BitVec 12) (s : State) : (afterCsrRead csr s).mem = s.mem := by
  unfold afterCsrRead; split <;> rfl
@[simp] theorem afterCsrRead_modified (csr : BitVec 12) (s : State) : (afterCsrRead csr s).modified = s.modified := by
  unfold afterCsrRead; split <;> rfl
@[simp] theorem afterCsrRead_record (csr : BitVec 12) (s : State) : (afterCsrRead csr s).record = s.record := by
  unfold afterCsrRead; split <;> rfl
@[simp] theorem afterCsrRead_cfg (csr : BitVec 12) (s : State) : (afterCsrRead csr s).cfg = s.cfg := by
  unfold afterCsrRead; split <;> rfl

theorem afterCsrRead_draws (csr : BitVec 12) (s : State) :
    (afterCsrRead csr s).draws = if isCounter csr then s.draws + 1 else s.draws := by
  unfold afterCsrRead; split <;> rfl

end Sys2Proof.Machine
end

