-- ==== Sys2Proof/Laws/Registers.lean ====
section
/-! SUPPORT. Reading a register after a write: integer registers, slots and pairs (00_scope R15, 10_state R51, R56 to R58). -/

namespace Sys2Proof.Machine

/-- `x0` reads 0 in every state (R51). -/
@[simp] theorem readX_zero (s : State) : readX 0#5 s = 0#32 := by simp [readX]

/-- Reading an integer register depends on the register file alone. -/
theorem readX_congr {s t : State} (h : t.x = s.x) (r : Reg) : readX r t = readX r s := by simp [readX, h]

/-- Reading a slot depends on the slots alone. -/
theorem readF_congr {s t : State} (h : t.f = s.f) (r : Reg) : readF r t = readF r s := by simp [readF, h]

/-- An entry of a register file after one entry is set. -/
theorem vector_get_set (v : Vector Word 32) (r r' : Reg) (w : Word) :
    (v.set r.toNat w r.isLt).get r'.toFin = if r' = r then w else v.get r'.toFin := by
  rw [Vector.get_eq_getElem, Vector.get_eq_getElem, Vector.getElem_set]
  simp [BitVec.toNat_eq, eq_comm]

/-- `x[r'] ` after `x[r] <- v`: the write shows at `r` unless `r` is `x0` (R15, R51). -/
theorem readX_writeX (r r' : Reg) (v : Word) (s : State) :
    readX r' (writeX r v s) = if r' = r ∧ r ≠ 0#5 then v else readX r' s := by
  unfold readX writeX putX
  by_cases h0 : r = 0#5
  · simp [h0]
  · by_cases h : r' = r
    · subst h; simp [h0, vector_get_set]
    · by_cases h' : r' = 0#5
      · subst h'; simp [h0, h]
      · simp [h0, h, h', vector_get_set]

@[simp] theorem readX_writeX_self (r : Reg) (v : Word) (s : State) :
    readX r (writeX r v s) = if r = 0#5 then 0#32 else v := by
  rw [readX_writeX]; by_cases h : r = 0#5 <;> simp [h]

theorem readX_writeX_of_ne {r r' : Reg} (h : r' ≠ r) (v : Word) (s : State) :
    readX r' (writeX r v s) = readX r' s := by simp [readX_writeX, h]

/-- A write to `x0` is discarded (R51). -/
@[simp] theorem writeX_zero (v : Word) (s : State) : writeX 0#5 v s = s := rfl

/-- `f[r']` after `f[r] <- v` (R15, R59). -/
theorem readF_writeF (r r' : Reg) (v : Word) (s : State) :
    readF r' (writeF r v s) = if r' = r then v else readF r' s := by
  unfold readF writeF putF; exact vector_get_set _ _ _ _

@[simp] theorem readF_writeF_self (r : Reg) (v : Word) (s : State) : readF r (writeF r v s) = v := by
  simp [readF_writeF]

theorem readF_writeF_of_ne {r r' : Reg} (h : r' ≠ r) (v : Word) (s : State) :
    readF r' (writeF r v s) = readF r' s := by simp [readF_writeF, h]

@[simp] theorem readX_jumpTo (r : Reg) (t : Word) (s : State) : readX r (jumpTo t s) = readX r s := rfl
@[simp] theorem readX_advance (r : Reg) (s : State) : readX r (advance s) = readX r s := rfl
@[simp] theorem readX_setFlags (r : Reg) (m : Flags) (s : State) : readX r (setFlags m s) = readX r s := rfl
@[simp] theorem readX_storeBytes (r : Reg) (a : Word) (bs : List Byte) (s : State) :
    readX r (storeBytes a bs s) = readX r s := rfl
@[simp] theorem readX_writeF (r q : Reg) (v : Word) (s : State) : readX r (writeF q v s) = readX r s := rfl
@[simp] theorem readX_writePair (r : Reg) (p : Pair) (v : Dword) (s : State) :
    readX r (writePair p v s) = readX r s := rfl
@[simp] theorem readX_csrWrite (r : Reg) (csr : BitVec 12) (v : Word) (s : State) :
    readX r (csrWrite csr v s) = readX r s := readX_congr (by simp) r
@[simp] theorem readX_afterCsrRead (r : Reg) (csr : BitVec 12) (s : State) :
    readX r (afterCsrRead csr s) = readX r s := readX_congr (by simp) r
@[simp] theorem readF_jumpTo (r : Reg) (t : Word) (s : State) : readF r (jumpTo t s) = readF r s := rfl
@[simp] theorem readF_advance (r : Reg) (s : State) : readF r (advance s) = readF r s := rfl
@[simp] theorem readF_setFlags (r : Reg) (m : Flags) (s : State) : readF r (setFlags m s) = readF r s := rfl
@[simp] theorem readF_storeBytes (r : Reg) (a : Word) (bs : List Byte) (s : State) :
    readF r (storeBytes a bs s) = readF r s := rfl
@[simp] theorem readF_writeX (r q : Reg) (v : Word) (s : State) : readF r (writeX q v s) = readF r s := rfl
@[simp] theorem readF_csrWrite (r : Reg) (csr : BitVec 12) (v : Word) (s : State) :
    readF r (csrWrite csr v s) = readF r s := readF_congr (by simp) r
@[simp] theorem readF_afterCsrRead (r : Reg) (csr : BitVec 12) (s : State) :
    readF r (afterCsrRead csr s) = readF r s := readF_congr (by simp) r

/-- The slots of a pair are two adjacent slots, the low one even (R57). -/
theorem pairOf_adjacent {cfg : Config} {r : Reg} {p : Pair} (h : pairOf cfg r = some p) :
    p.lo.getLsbD 0 = false ∧ p.hi = p.lo + 1#5 := by
  revert h; unfold pairOf
  cases cfg.dpairMode <;> revert r <;> intro r <;> simp only <;> split <;> intro h <;>
    simp only [Option.some.injEq, reduceCtorEq] at h
  · subst h; simp_all
  · subst h; refine ⟨?_, rfl⟩
    revert r; decide

theorem pairOf_hi_ne_lo {cfg : Config} {r : Reg} {p : Pair} (h : pairOf cfg r = some p) : p.hi ≠ p.lo := by
  rw [(pairOf_adjacent h).2]; generalize p.lo = l; revert l; decide

/-- A slot after a double write (R57, R58). -/
theorem readF_writePair (p : Pair) (v : Dword) (s : State) (r : Reg) :
    readF r (writePair p v s) =
      if r = p.hi then v.extractLsb' 32 32 else if r = p.lo then v.extractLsb' 0 32 else readF r s := by
  simp [writePair, readF_writeF]

/-- A double write reads back whole, for a pair a field names (R57). -/
theorem readPair_writePair {cfg : Config} {r : Reg} {p : Pair} (h : pairOf cfg r = some p) (v : Dword) (s : State) :
    readPair p (writePair p v s) = v := by
  have hne := pairOf_hi_ne_lo h
  simp only [readPair, readF_writePair, if_true, if_neg hne.symm]
  apply BitVec.eq_of_getLsbD_eq; intro i hi
  simp only [BitVec.getLsbD_append, BitVec.getLsbD_extractLsb']
  split
  · simp [*]
  · have h32 : i - 32 < 32 := by omega
    simp [h32, show 32 + (i - 32) = i by omega]

end Sys2Proof.Machine
end

