-- ==== Sys2Proof/Laws/Memory.lean ====
section
/-! SUPPORT. Memory in its canonical form: what a write leaves, what a read after it gives, and that every memory operation keeps the
form (20_memory R101 to R103, 10_state R69). -/

namespace Sys2Proof.Machine

/-! ## The canonical form -/

theorem Memory.wf_cons {k : Nat} {v : Byte} {rest : Memory} :
    Memory.wf ((k, v) :: rest) = true ↔
      k < 2 ^ 32 ∧ v ≠ unlistedByte ∧ Memory.wf rest = true ∧ ∀ c ∈ rest, k < c.1 := by
  induction rest generalizing k v with
  | nil => simp [Memory.wf]
  | cons c rest ih =>
    obtain ⟨k', v'⟩ := c
    rw [Memory.wf, ih]
    simp only [Bool.and_eq_true, decide_eq_true_eq, Bool.not_eq_true', decide_eq_false_iff_not, List.forall_mem_cons, ih]
    constructor
    · rintro ⟨⟨h1, h2⟩, h3, h4, h5, h6⟩
      exact ⟨by omega, h2, ⟨h3, h4, h5, h6⟩, h1, fun c hc => by have := h6 c hc; omega⟩
    · rintro ⟨h0, h2, h, h1, -⟩; exact ⟨⟨h1, h2⟩, h⟩

/-- An address below every listed one reads as unlisted. -/
theorem Memory.get_of_lt_all {m : Memory} {a : Nat} (h : ∀ c ∈ m, a < c.1) : Memory.get m a = unlistedByte := by
  induction m with
  | nil => rfl
  | cons c rest ih =>
    obtain ⟨k, v⟩ := c
    have hk : a < k := h (k, v) (by simp)
    rw [Memory.get, if_neg (by omega), ih fun c hc => h c (by simp [hc])]

/-- Addresses outside the 32-bit space (R103) are never listed. -/
theorem Memory.get_of_ge {m : Memory} (hm : Memory.wf m = true) {a : Nat} (ha : 2 ^ 32 ≤ a) :
    Memory.get m a = unlistedByte := by
  induction m with
  | nil => rfl
  | cons c rest ih =>
    obtain ⟨k, v⟩ := c
    obtain ⟨hk, -, hr, -⟩ := Memory.wf_cons.1 hm
    rw [Memory.get, if_neg (by omega), ih hr]

/-- One written byte reads back, and every other address reads as before. -/
theorem Memory.get_put {m : Memory} (hm : Memory.wf m = true) (a x : Nat) (b : Byte) :
    Memory.get (Memory.put m a b) x = if x = a then b else Memory.get m x := by
  induction m with
  | nil =>
    rw [Memory.put]
    by_cases hx : x = a
    · subst hx; by_cases hb : b = unlistedByte <;> simp [hb, Memory.get]
    · have hx' : ¬a = x := fun h => hx h.symm
      by_cases hb : b = unlistedByte <;> simp [hb, hx, hx', Memory.get]
  | cons c rest ih =>
    obtain ⟨k, v⟩ := c
    obtain ⟨hk, hv, hr, hlt⟩ := Memory.wf_cons.1 hm
    rw [Memory.put]
    by_cases hak : a < k
    · rw [if_pos hak]
      have hall : ∀ c ∈ (k, v) :: rest, a < c.1 := by
        intro c hc; rcases List.mem_cons.1 hc with rfl | hc
        · exact hak
        · have := hlt c hc; omega
      have hun := Memory.get_of_lt_all hall
      by_cases hb : b = unlistedByte
      · rw [if_pos hb]; split
        · subst x; rw [hun, hb]
        · rfl
      · rw [if_neg hb, Memory.get]; simp only [eq_comm]
    · rw [if_neg hak]
      by_cases hak' : a = k
      · subst hak'
        rw [if_pos rfl]
        have hun := Memory.get_of_lt_all hlt
        by_cases hb : b = unlistedByte
        · rw [if_pos hb, Memory.get]; by_cases hx : x = a
          · subst hx; rw [if_pos rfl, hun, hb]
          · rw [if_neg hx, if_neg (Ne.symm hx)]
        · rw [if_neg hb, Memory.get, Memory.get]; by_cases hx : a = x
          · rw [if_pos hx, if_pos hx.symm]
          · rw [if_neg hx, if_neg (Ne.symm hx), if_neg hx]
      · rw [if_neg hak', Memory.get, Memory.get, ih hr]
        by_cases hx : k = x
        · subst hx; rw [if_pos rfl, if_pos rfl, if_neg (by omega)]
        · rw [if_neg hx, if_neg hx]

theorem Memory.mem_put {m : Memory} {a : Nat} {b : Byte} {c : Host.Cell} (h : c ∈ Memory.put m a b) :
    c.1 = a ∨ c ∈ m := by
  induction m with
  | nil => rw [Memory.put] at h; split at h <;> simp_all
  | cons d rest ih =>
    obtain ⟨k, v⟩ := d
    rw [Memory.put] at h
    split at h
    · split at h
      · exact .inr h
      · rcases List.mem_cons.1 h with rfl | h
        · exact .inl rfl
        · exact .inr h
    · split at h
      · split at h
        · exact .inr (List.mem_cons_of_mem _ h)
        · rcases List.mem_cons.1 h with rfl | h
          · exact .inl rfl
          · exact .inr (List.mem_cons_of_mem _ h)
      · rcases List.mem_cons.1 h with rfl | h
        · exact .inr (by simp)
        · rcases ih h with h | h
          · exact .inl h
          · exact .inr (List.mem_cons_of_mem _ h)

/-- A byte written in the address space keeps the canonical form. -/
theorem Memory.wf_put {m : Memory} (hm : Memory.wf m = true) {a : Nat} (ha : a < 2 ^ 32) (b : Byte) :
    Memory.wf (Memory.put m a b) = true := by
  induction m with
  | nil => rw [Memory.put]; split <;> simp_all [Memory.wf]
  | cons c rest ih =>
    obtain ⟨k, v⟩ := c
    obtain ⟨hk, hv, hr, hlt⟩ := Memory.wf_cons.1 hm
    rw [Memory.put]
    split
    · rename_i hak
      split
      · exact hm
      · refine Memory.wf_cons.2 ⟨ha, ‹_›, hm, fun c hc => ?_⟩
        rcases List.mem_cons.1 hc with rfl | hc
        · exact hak
        · have := hlt c hc; omega
    · split
      · subst k
        split
        · exact hr
        · exact Memory.wf_cons.2 ⟨ha, ‹_›, hr, hlt⟩
      · refine Memory.wf_cons.2 ⟨hk, hv, ih hr, fun c hc => ?_⟩
        rcases Memory.mem_put hc with h | h
        · omega
        · exact hlt c h

/-- Two memories in canonical form that read alike everywhere are the same data. -/
theorem Memory.ext_get {m n : Memory} (hm : Memory.wf m = true) (hn : Memory.wf n = true)
    (h : ∀ a, Memory.get m a = Memory.get n a) : m = n := by
  induction m generalizing n with
  | nil =>
    cases n with
    | nil => rfl
    | cons c rest =>
      obtain ⟨k, v⟩ := c
      have := h k; rw [Memory.get, Memory.get, if_pos rfl] at this
      exact absurd this.symm (Memory.wf_cons.1 hn).2.1
  | cons c rest ih =>
    obtain ⟨k, v⟩ := c
    obtain ⟨hk, hv, hr, hlt⟩ := Memory.wf_cons.1 hm
    cases n with
    | nil =>
      have := h k; rw [Memory.get, Memory.get, if_pos rfl] at this
      exact absurd this hv
    | cons c' rest' =>
      obtain ⟨k', v'⟩ := c'
      obtain ⟨hk', hv', hr', hlt'⟩ := Memory.wf_cons.1 hn
      have hkk : k = k' := by
        rcases Nat.lt_trichotomy k k' with hlt1 | heq | hlt1
        · have h1 := h k
          rw [Memory.get, if_pos rfl, Memory.get_of_lt_all (m := (k', v') :: rest')] at h1
          · exact absurd h1 hv
          · intro c hc; rcases List.mem_cons.1 hc with rfl | hc
            · exact hlt1
            · have := hlt' c hc; omega
        · exact heq
        · have h1 := h k'
          rw [Memory.get_of_lt_all (m := (k, v) :: rest), Memory.get, if_pos rfl] at h1
          · exact absurd h1.symm hv'
          · intro c hc; rcases List.mem_cons.1 hc with rfl | hc
            · exact hlt1
            · have := hlt c hc; omega
      subst hkk
      have hvv : v = v' := by have := h k; rwa [Memory.get, Memory.get, if_pos rfl, if_pos rfl] at this
      subst hvv
      congr 1
      refine ih hr hr' fun a => ?_
      by_cases ha : k = a
      · subst ha; rw [Memory.get_of_lt_all hlt, Memory.get_of_lt_all hlt']
      · have := h a; rwa [Memory.get, Memory.get, if_neg ha, if_neg ha] at this

/-! ## Stores of several bytes -/

theorem memWrite_wf {m : Memory} (hm : Memory.wf m = true) (a : Word) (bs : List Byte) :
    Memory.wf (memWrite m a bs) = true := by
  induction bs generalizing m a with
  | nil => exact hm
  | cons b bs ih => exact ih (Memory.wf_put hm a.isLt b) _

/-- The byte at `x` after a store: the stored byte `x - a` places up where there is one, else as before (R102). -/
theorem readByte_memWrite {m : Memory} (hm : Memory.wf m = true) (a x : Word) (bs : List Byte)
    (hlen : bs.length ≤ 2 ^ 32) :
    readByte (memWrite m a bs) x = (bs[(x - a).toNat]?).getD (readByte m x) := by
  induction bs generalizing m a with
  | nil => simp [memWrite]
  | cons b bs ih =>
    rw [memWrite, ih (Memory.wf_put hm a.isLt b) _ (by simp at hlen; omega)]
    simp only [readByte, Memory.get_put hm]
    by_cases hx : x = a
    · subst hx
      have h1 : (x - (x + 1#32)).toNat = 2 ^ 32 - 1 := by bv_omega
      have h2 : bs.length ≤ 2 ^ 32 - 1 := by simp at hlen; omega
      rw [h1, List.getElem?_eq_none h2, List.getElem?_cons]; simp
    · have hd : (x - a).toNat = (x - (a + 1#32)).toNat + 1 := by bv_omega
      have hne : x.toNat ≠ a.toNat := fun h => hx (BitVec.eq_of_toNat_eq h)
      simp [hd, hne]

/-- Outside the stored bytes, every address reads as before. -/
theorem readByte_memWrite_of_ge {m : Memory} (hm : Memory.wf m = true) {a x : Word} {bs : List Byte}
    (hlen : bs.length ≤ 2 ^ 32) (hx : bs.length ≤ (x - a).toNat) :
    readByte (memWrite m a bs) x = readByte m x := by
  rw [readByte_memWrite hm a x bs hlen, List.getElem?_eq_none hx]; rfl

/-- Inside them, the stored byte. -/
theorem readByte_memWrite_of_lt {m : Memory} (hm : Memory.wf m = true) {a x : Word} {bs : List Byte}
    (hlen : bs.length ≤ 2 ^ 32) (hx : (x - a).toNat < bs.length) :
    readByte (memWrite m a bs) x = bs[(x - a).toNat] := by
  rw [readByte_memWrite hm a x bs hlen, List.getElem?_eq_getElem hx]; rfl

/-- A stored byte reads back (R101, R102). -/
theorem memRead8_memWrite {m : Memory} (hm : Memory.wf m = true) (a v : Word) :
    memRead8 (memWrite m a (bytes8 v)) a = v.extractLsb' 0 8 := by
  rw [memRead8, readByte_memWrite hm _ _ _ (by simp [bytes8])]; simp [bytes8]

/-- A stored half-word reads back (R101, R102). -/
theorem memRead16_memWrite {m : Memory} (hm : Memory.wf m = true) (a v : Word) :
    memRead16 (memWrite m a (bytes16 v)) a = v.extractLsb' 0 16 := by
  rw [memRead16, readByte_memWrite hm _ _ _ (by simp [bytes16]), readByte_memWrite hm _ _ _ (by simp [bytes16])]
  simp only [show a + 1#32 - a = 1#32 by bv_omega, bytes16, BitVec.sub_self]
  exact BitVec.extractLsb'_append_extractLsb'_eq_extractLsb' rfl

/-- The four bytes of a word, high byte first, are the word. -/
theorem word_of_its_bytes (v : Word) :
    v.extractLsb' 24 8 ++ v.extractLsb' 16 8 ++ v.extractLsb' 8 8 ++ v.extractLsb' 0 8 = v := by
  rw [BitVec.extractLsb'_append_extractLsb'_eq_extractLsb' (by rfl),
    BitVec.extractLsb'_append_extractLsb'_eq_extractLsb' (by rfl),
    BitVec.extractLsb'_append_extractLsb'_eq_extractLsb' (by rfl)]
  simp

/-- The two words of a double, high word first, are the double. -/
theorem dword_of_its_words (v : Dword) : v.extractLsb' 32 32 ++ v.extractLsb' 0 32 = v := by
  rw [BitVec.extractLsb'_append_extractLsb'_eq_extractLsb' (by rfl)]; simp

/-- A stored word reads back (R101, R102). -/
theorem memRead32_memWrite {m : Memory} (hm : Memory.wf m = true) (a v : Word) :
    memRead32 (memWrite m a (bytes32 v)) a = v := by
  have h := fun x => readByte_memWrite hm a x (bytes32 v) (by simp [bytes32, bytesOfWord])
  simp only [memRead32, h]
  simp only [show a + 1#32 - a = 1#32 by bv_omega, show a + 2#32 - a = 2#32 by bv_omega,
    show a + 3#32 - a = 3#32 by bv_omega, bytes32, bytesOfWord, BitVec.sub_self]
  exact word_of_its_bytes v

/-- The low word of a stored double reads back (R102, R106). -/
theorem memRead32_memWrite64_lo {m : Memory} (hm : Memory.wf m = true) (a : Word) (v : Dword) :
    memRead32 (memWrite m a (bytes64 v)) a = v.extractLsb' 0 32 := by
  have h := fun x => readByte_memWrite hm a x (bytes64 v) (by simp [bytes64, bytesOfWord])
  simp only [memRead32, h]
  simp only [show a + 1#32 - a = 1#32 by bv_omega, show a + 2#32 - a = 2#32 by bv_omega,
    show a + 3#32 - a = 3#32 by bv_omega, bytes64, bytesOfWord, BitVec.sub_self]
  exact word_of_its_bytes _

/-- The high word of a stored double reads back (R102, R106). -/
theorem memRead32_memWrite64_hi {m : Memory} (hm : Memory.wf m = true) (a : Word) (v : Dword) :
    memRead32 (memWrite m a (bytes64 v)) (a + 4#32) = v.extractLsb' 32 32 := by
  have h := fun x => readByte_memWrite hm a x (bytes64 v) (by simp [bytes64, bytesOfWord])
  simp only [memRead32, h]
  simp only [show a + 4#32 - a = 4#32 by bv_omega, show a + 4#32 + 1#32 - a = 5#32 by bv_omega,
    show a + 4#32 + 2#32 - a = 6#32 by bv_omega, show a + 4#32 + 3#32 - a = 7#32 by bv_omega, bytes64, bytesOfWord]
  exact word_of_its_bytes _

/-- A word read depends on its four bytes alone (R101). -/
theorem memRead32_congr {m n : Memory} {a : Word} (h : ∀ x : Word, (x - a).toNat < 4 → readByte m x = readByte n x) :
    memRead32 m a = memRead32 n a := by
  simp only [memRead32]
  rw [h a (by simp), h (a + 1#32) (by simp [show a + 1#32 - a = 1#32 by bv_omega]),
    h (a + 2#32) (by simp [show a + 2#32 - a = 2#32 by bv_omega]),
    h (a + 3#32) (by simp [show a + 3#32 - a = 3#32 by bv_omega])]

/-! ## Sets of addresses -/

theorem addrSetWf_cons {k : Nat} {rest : List Nat} :
    addrSetWf (k :: rest) = true ↔ k < 2 ^ 32 ∧ addrSetWf rest = true ∧ ∀ a ∈ rest, k < a := by
  induction rest generalizing k with
  | nil => simp [addrSetWf]
  | cons b rest ih =>
    rw [addrSetWf, ih]
    simp only [Bool.and_eq_true, decide_eq_true_eq, List.forall_mem_cons, ih]
    constructor
    · rintro ⟨h1, h2, h3, h4⟩
      exact ⟨by omega, ⟨h2, h3, h4⟩, h1, fun a ha => by have := h4 a ha; omega⟩
    · rintro ⟨-, h, h1, -⟩; exact ⟨h1, h⟩

theorem mem_insertAddr (a x : Nat) (set : List Nat) : x ∈ insertAddr a set ↔ x = a ∨ x ∈ set := by
  induction set with
  | nil => simp [insertAddr]
  | cons k rest ih =>
    rw [insertAddr]; split
    · simp
    · split
      · subst k; simp
      · simp only [List.mem_cons, ih]; tauto

theorem addrSetWf_insertAddr {a : Nat} {set : List Nat} (ha : a < 2 ^ 32) (hs : addrSetWf set = true) :
    addrSetWf (insertAddr a set) = true := by
  induction set with
  | nil => simp [insertAddr, addrSetWf]; omega
  | cons k rest ih =>
    obtain ⟨hk, hr, hlt⟩ := addrSetWf_cons.1 hs
    rw [insertAddr]; split
    · refine addrSetWf_cons.2 ⟨ha, hs, fun b hb => ?_⟩
      rcases List.mem_cons.1 hb with rfl | hb
      · assumption
      · have := hlt b hb; omega
    · split
      · exact hs
      · refine addrSetWf_cons.2 ⟨hk, ih hr, fun b hb => ?_⟩
        rcases (mem_insertAddr a b rest).1 hb with rfl | hb
        · omega
        · exact hlt b hb

theorem addrSetWf_markModified {set : List Nat} (hs : addrSetWf set = true) (a : Word) (n : Nat) :
    addrSetWf (markModified set a n) = true := by
  induction n generalizing set a with
  | zero => exact hs
  | succ n ih => exact ih (addrSetWf_insertAddr a.isLt hs) _

/-- Which addresses a store of `n` bytes leaves in `modified` (R69). -/
theorem mem_markModified (set : List Nat) (a x : Word) (n : Nat) (hn : n ≤ 2 ^ 32) :
    x.toNat ∈ markModified set a n ↔ (x - a).toNat < n ∨ x.toNat ∈ set := by
  induction n generalizing set a with
  | zero => simp [markModified]
  | succ n ih =>
    rw [markModified, ih _ _ (by omega), mem_insertAddr]
    by_cases hx : x = a
    · subst hx; simp
    · have hd : (x - a).toNat = (x - (a + 1#32)).toNat + 1 := by bv_omega
      have hne : x.toNat ≠ a.toNat := fun h => hx (BitVec.eq_of_toNat_eq h)
      rw [hd, Nat.succ_lt_succ_iff]; simp [hne]

theorem addrSetWf_filter {set : List Nat} (hs : addrSetWf set = true) (p : Nat → Bool) :
    addrSetWf (set.filter p) = true := by
  induction set with
  | nil => rfl
  | cons k rest ih =>
    obtain ⟨hk, hr, hlt⟩ := addrSetWf_cons.1 hs
    rw [List.filter_cons]; split
    · exact addrSetWf_cons.2 ⟨hk, ih hr, fun b hb => hlt b (List.mem_filter.1 hb).1⟩
    · exact ih hr

/-- A store keeps memory's and `modified`'s canonical forms. -/
theorem storeBytes_wf {s : State} (hm : Memory.wf s.mem = true) (hs : addrSetWf s.modified = true) (a : Word)
    (bs : List Byte) :
    Memory.wf (storeBytes a bs s).mem = true ∧ addrSetWf (storeBytes a bs s).modified = true := by
  refine ⟨memWrite_wf hm _ _, ?_⟩
  simp only [storeBytes]; split
  · exact addrSetWf_markModified hs _ _
  · exact hs

end Sys2Proof.Machine
end

