-- ==== Sys2Proof/Laws/Ops.lean ====
section
/-! SUPPORT. One lemma for each shared operation of the machine: all it can answer, and when. The spec's own conditions (Claims.lean) stand in
the hypotheses, so no later proof unfolds the operation. -/

namespace Sys2Proof.Machine

open Sys2Proof.Claims

/-! ## The conditions of the spec and the machine's tests -/

/-- The machine's word read is the little-endian word (R101). -/
theorem memRead32_eq (s : State) (a : Word) : memRead32 s.mem a = wordAt s a := rfl

/-- The word a fault records is the one at `pc` (R655). -/
theorem currentWord_eq (s : State) : currentWord s = wordAt s s.pc := rfl

theorem effAddr_eq (rs1 : Reg) (imm : BitVec 12) (s : State) : effAddr rs1 imm s = dispAddr s rs1 imm := rfl

theorem bytes32_eq (v : Word) : bytes32 v = leBytes v := rfl

/-! The bytes and halves of a word in memory (R101, R104). -/

theorem readByte_wordAt_0 (s : State) (a : Word) : readByte s.mem a = (wordAt s a).extractLsb' 0 8 := by
  ext i hi; simp [wordAt, BitVec.getElem_extractLsb']; grind

theorem readByte_wordAt_3 (s : State) (a : Word) : readByte s.mem (a + 3#32) = (wordAt s a).extractLsb' 24 8 := by
  ext i hi; simp [wordAt, BitVec.getElem_extractLsb']; grind

theorem halfAt_wordAt_2 (s : State) (a : Word) : halfAt s (a + 2#32) = (wordAt s a).extractLsb' 16 16 := by
  unfold halfAt wordAt
  rw [show a + 2#32 + 1#32 = a + 3#32 by bv_omega]
  ext i hi; simp [BitVec.getElem_extractLsb']; grind

theorem modeOf_modeCode (mode : Fp.Mode) : modeOf (modeCode mode) = some mode := by cases mode <;> rfl

theorem modeCode_of_modeOf {v : BitVec 3} {mode : Fp.Mode} (h : modeOf v = some mode) : v = modeCode mode := by
  revert h; cases mode <;> revert v <;> decide

theorem modeCode_ne_dyn (mode : Fp.Mode) : modeCode mode ≠ 0b111#3 := by cases mode <;> decide

/-- The rounding-mode check passes exactly where `rm` selects a mode (R455 to R457). -/
theorem effectiveMode_eq_some {rm frm : BitVec 3} {mode : Fp.Mode} :
    effectiveMode rm frm = some mode ↔ RmSelects rm frm mode := by
  unfold effectiveMode RmSelects
  by_cases h : rm = 0b111#3
  · simp only [h, if_true, ne_eq, not_true_eq_false, false_and, true_and, false_or]
    exact ⟨modeCode_of_modeOf, fun h => h ▸ modeOf_modeCode mode⟩
  · simp only [h, if_false, ne_eq, not_false_eq_true, true_and, false_and, or_false]
    exact ⟨modeCode_of_modeOf, fun h => h ▸ modeOf_modeCode mode⟩

theorem evenPair_iff (r lo hi : Reg) :
    (if r.getLsbD 0 then none else some (⟨r, r + 1#5⟩ : Pair)) = some ⟨lo, hi⟩ ↔
      r.toNat % 2 = 0 ∧ lo = r ∧ hi.toNat = r.toNat + 1 := by
  have h1 : ∀ r : Reg, r.getLsbD 0 = decide (r.toNat % 2 = 1) := by decide
  have h2 : r.toNat % 2 = 0 → (r + 1#5 = hi ↔ hi.toNat = r.toNat + 1) := by intro h; bv_omega
  rw [h1]
  rcases Nat.mod_two_eq_zero_or_one r.toNat with h | h
  · simp [h, h2 h, @eq_comm _ r lo]
  · simp [h]

theorem scaledPair_iff (r lo hi : Reg) :
    (if 16 ≤ r.toNat then none else some (⟨2#5 * r, 2#5 * r + 1#5⟩ : Pair)) = some ⟨lo, hi⟩ ↔
      r.toNat < 16 ∧ lo.toNat = 2 * r.toNat ∧ hi.toNat = 2 * r.toNat + 1 := by
  by_cases h : 16 ≤ r.toNat
  · simp [h, Nat.not_lt.2 h]
  · have h1 : 2#5 * r = lo ↔ lo.toNat = 2 * r.toNat := by bv_omega
    have h2 : 2#5 * r + 1#5 = hi ↔ hi.toNat = 2 * r.toNat + 1 := by bv_omega
    simp only [if_neg h, Option.some.injEq, Pair.mk.injEq, h1, h2, Nat.lt_of_not_le h, true_and]

/-- The pair check gives exactly the slots R57 names. -/
theorem pairOf_eq_some {cfg : Config} {r lo hi : Reg} : pairOf cfg r = some ⟨lo, hi⟩ ↔ PairIs cfg r lo hi := by
  unfold pairOf PairIs
  cases cfg.dpairMode with
  | evenPair => simpa using evenPair_iff r lo hi
  | scaled => simpa using scaledPair_iff r lo hi

/-- The pair check fails exactly where R57 names no slots. -/
theorem pairOf_eq_none {cfg : Config} {r : Reg} : pairOf cfg r = none ↔ ∀ lo hi, ¬PairIs cfg r lo hi := by
  constructor
  · intro h lo hi hp; rw [pairOf_eq_some.2 hp] at h; cases h
  · intro h
    cases hp : pairOf cfg r with
    | none => rfl
    | some p => exact absurd (pairOf_eq_some.1 hp) (h p.lo p.hi)

/-- The alignment check in the spec's terms (R105). -/
theorem misalignFaults_eq_false {cfg : Config} {a : Word} {n : Nat} : misalignFaults cfg a n = false ↔ AlignOk cfg a n := by
  unfold misalignFaults AlignOk; cases cfg.misalignedData <;> simp

theorem misalignFaults_eq_true {cfg : Config} {a : Word} {n : Nat} :
    misalignFaults cfg a n = true ↔ cfg.misalignedData = .fault ∧ a.toNat % n ≠ 0 := by
  unfold misalignFaults; cases cfg.misalignedData <;> simp

/-- The fetch's coherence check in the spec's terms (R661). -/
theorem fetchUnfenced_iff (s : State) : fetchUnfenced s = true ↔ Unfenced s := by
  unfold fetchUnfenced Unfenced
  cases s.cfg.fetchCoherence with
  | immediate => simp
  | fault =>
    simp only [Bool.or_eq_true, List.contains_iff_mem, true_and]
    constructor
    · rintro (((h | h) | h) | h)
      · exact ⟨s.pc, by simp, h⟩
      · exact ⟨s.pc + 1#32, by simp [show s.pc + 1#32 - s.pc = 1#32 by bv_omega], h⟩
      · exact ⟨s.pc + 2#32, by simp [show s.pc + 2#32 - s.pc = 2#32 by bv_omega], h⟩
      · exact ⟨s.pc + 3#32, by simp [show s.pc + 3#32 - s.pc = 3#32 by bv_omega], h⟩
    · rintro ⟨x, hx, h⟩
      have hx' : x = s.pc ∨ x = s.pc + 1#32 ∨ x = s.pc + 2#32 ∨ x = s.pc + 3#32 := by bv_omega
      rcases hx' with rfl | rfl | rfl | rfl <;> simp_all

theorem pcAligned_iff (a : Word) : a.extractLsb' 0 2 = 0#2 ↔ a.toNat % 4 = 0 := by
  rw [BitVec.toNat_eq]; simp [BitVec.extractLsb'_toNat]

/-! ## The outcomes that end a run -/

theorem raiseFault_eq (reason : FaultReason) (addr : Word) (s : State) :
    raiseFault reason addr s = .next (faultOutcome s reason (wordAt s s.pc) addr) := rfl

theorem raiseFetchFault_eq (reason : FaultReason) (s : State) :
    raiseFetchFault reason s = .next (faultOutcome s reason 0#32 s.pc) := rfl

theorem raiseHalt_eq (reason : HaltReason) (s : State) : raiseHalt reason s = .next (haltOutcome s reason) := rfl

theorem raiseStuck_eq (s : State) : raiseStuck s = .next (stuckOutcome s) := rfl

/-! ## The checks: where they pass, and what they raise where they do not -/

theorem withMode_pass {rm : BitVec 3} {s : State} {mode : Fp.Mode} (h : RmSelects rm s.frm mode)
    (done : Fp.Mode → Result) : withMode rm s done = done mode := by
  simp [withMode, effectiveMode_eq_some.2 h]

theorem withMode_reserved {rm : BitVec 3} {s : State} (h : ∀ mode, ¬RmSelects rm s.frm mode)
    (done : Fp.Mode → Result) :
    withMode rm s done = .next (faultOutcome s .illegal (wordAt s s.pc) 0#32) := by
  have h' : effectiveMode rm s.frm = none := by
    cases h' : effectiveMode rm s.frm with
    | none => rfl
    | some m => exact absurd (effectiveMode_eq_some.1 h') (h m)
  simp [withMode, h', raiseFault_eq]

theorem withPair_pass {r lo hi : Reg} {s : State} (h : PairIs s.cfg r lo hi) (done : Pair → Result) :
    withPair r s done = done ⟨lo, hi⟩ := by
  simp [withPair, pairOf_eq_some.2 h]

theorem withPair_unpaired {r : Reg} {s : State} (h : ∀ lo hi, ¬PairIs s.cfg r lo hi) (done : Pair → Result) :
    withPair r s done = .next (faultOutcome s .regPair (wordAt s s.pc) 0#32) := by
  simp [withPair, pairOf_eq_none.2 h, raiseFault_eq]

theorem withAccess_pass {a : Word} {n : Nat} {calls : List PortCall} {s : State} (ha : AlignOk s.cfg a n)
    (hc : ∀ c ∈ calls, Admits s.cfg c.addr c.size c.kind) (done : Result) : withAccess a n calls s done = done := by
  have h1 := misalignFaults_eq_false.2 ha
  have h2 : calls.all (memAdmit s.cfg) = true := List.all_eq_true.2 hc
  simp [withAccess, h1, h2]

theorem withAccess_misaligned {a : Word} {n : Nat} {calls : List PortCall} {s : State} (ha : ¬AlignOk s.cfg a n)
    (done : Result) :
    withAccess a n calls s done = .next (faultOutcome s .dataMisaligned (wordAt s s.pc) a) := by
  have h : misalignFaults s.cfg a n = true := by
    cases h : misalignFaults s.cfg a n with
    | true => rfl
    | false => exact absurd (misalignFaults_eq_false.1 h) ha
  simp [withAccess, h, raiseFault_eq]

theorem withAccess_refused {a : Word} {n : Nat} {calls : List PortCall} {s : State} (ha : AlignOk s.cfg a n)
    {c : PortCall} (hc : c ∈ calls) (hr : ¬Admits s.cfg c.addr c.size c.kind) (done : Result) :
    withAccess a n calls s done = .next (stuckOutcome s) := by
  have h1 := misalignFaults_eq_false.2 ha
  have h2 : ¬(∀ x ∈ calls, memAdmit s.cfg x = true) := fun h => hr (h c hc)
  simp [withAccess, h1, h2, raiseStuck_eq]

/-! ## The endings -/

theorem accrues_accrued (s t : State) (flags : Flags) (h1 : t.frm = s.frm) (h2 : t.fflags = accrued s.cfg s.fflags flags) :
    Accrues s flags t := by
  refine ⟨h1, fun h => ?_, fun h => ?_⟩ <;> rw [h2, accrued, h]

theorem accrued_none (cfg : Config) (old : Flags) : accrued cfg old flagNone = old := by
  unfold accrued; cases cfg.fflagsMode <;> simp

theorem finishX_completes (rd : Reg) (v : Word) (s : State) : ∃ t, finishX rd v s = .next t ∧ XResult s rd v t :=
  ⟨_, rfl, by simp, fun r hr => by simp_all [readX_writeX_of_ne], fun r _ => rfl, ⟨rfl, rfl⟩, ⟨fun _ => rfl, rfl⟩,
    ⟨rfl, rfl, rfl, rfl⟩, rfl⟩

theorem finishXFlags_completes (rd : Reg) (v : Word) (flags : Flags) (s : State) :
    ∃ t, finishXFlags rd v flags s = .next t ∧ XFlagResult s rd v flags t :=
  ⟨_, rfl, by simp, fun r hr => by simp_all [readX_writeX_of_ne], fun r _ => rfl, accrues_accrued _ _ _ rfl rfl,
    ⟨fun _ => rfl, rfl⟩, ⟨rfl, rfl, rfl, rfl⟩, rfl⟩

theorem finishF_completes (rd : Reg) (v : Word) (s : State) :
    ∃ t, finishF rd v s = .next t ∧ FResult s rd v flagNone t :=
  ⟨_, rfl, by simp, fun r hr => by simp_all [readF_writeF_of_ne], fun r _ => rfl,
    accrues_accrued _ _ _ rfl (accrued_none _ _).symm, ⟨fun _ => rfl, rfl⟩, ⟨rfl, rfl, rfl, rfl⟩, rfl⟩

theorem finishFFlags_completes (rd : Reg) (r : Word × Flags) (s : State) :
    ∃ t, finishFFlags rd r s = .next t ∧ FResult s rd r.1 r.2 t :=
  ⟨_, rfl, by simp, fun q hq => by simp_all [readF_writeF_of_ne], fun q _ => rfl, accrues_accrued _ _ _ rfl rfl,
    ⟨fun _ => rfl, rfl⟩, ⟨rfl, rfl, rfl, rfl⟩, rfl⟩

theorem finishDFlags_completes {cfg : Config} {rd lo hi : Reg} (hp : PairIs cfg rd lo hi) (r : Dword × Flags) (s : State) :
    ∃ t, finishDFlags ⟨lo, hi⟩ r s = .next t ∧ DResult s lo hi r.1 r.2 t := by
  have hne := pairOf_hi_ne_lo (pairOf_eq_some.2 hp)
  exact ⟨_, rfl, by simp [readF_writePair, hne.symm], by simp [readF_writePair],
    fun q hq => by simp_all [readF_writePair], fun q _ => rfl, accrues_accrued _ _ _ rfl rfl,
    ⟨fun _ => rfl, rfl⟩, ⟨rfl, rfl, rfl, rfl⟩, rfl⟩

theorem finishD_completes {cfg : Config} {rd lo hi : Reg} (hp : PairIs cfg rd lo hi) (v : Dword) (s : State) :
    ∃ t, finishD ⟨lo, hi⟩ v s = .next t ∧ DResult s lo hi v flagNone t := by
  have hne := pairOf_hi_ne_lo (pairOf_eq_some.2 hp)
  exact ⟨_, rfl, by simp [readF_writePair, hne.symm], by simp [readF_writePair],
    fun q hq => by simp_all [readF_writePair], fun q _ => rfl, accrues_accrued _ _ _ rfl (accrued_none _ _).symm,
    ⟨fun _ => rfl, rfl⟩, ⟨rfl, rfl, rfl, rfl⟩, rfl⟩

theorem branch_completes (taken : Bool) (offset : BitVec 13) (s : State) :
    ∃ t, branch taken offset s = .next t ∧
      JumpResult s (if taken then s.pc + offset.signExtend 32 else s.pc + 4#32) t := by
  cases taken <;>
    exact ⟨_, rfl, fun _ _ => rfl, fun _ _ => rfl, ⟨rfl, rfl⟩, ⟨fun _ => rfl, rfl⟩, ⟨rfl, rfl, rfl, rfl⟩, rfl⟩

theorem jumpAndLink_completes (rd : Reg) (target : Word) (s : State) :
    ∃ t, jumpAndLink rd target s = .next t ∧ LinkResult s rd target t :=
  ⟨_, rfl, by simp, fun r hr => by simp_all [readX_writeX_of_ne], fun r _ => rfl, ⟨rfl, rfl⟩,
    ⟨fun _ => rfl, rfl⟩, ⟨rfl, rfl, rfl, rfl⟩, rfl⟩

/-! ## Stores -/

theorem storeBytes_stores {s : State} (hm : Memory.wf s.mem = true) (a : Word) {bs : List Byte} (hlen : bs.length ≤ 2 ^ 32) :
    Stores s a bs (storeBytes a bs s) ∧ MarksModified s a bs.length (storeBytes a bs s) := by
  refine ⟨⟨fun x hx => ?_, fun x hx => readByte_memWrite_of_ge hm hlen hx⟩, fun h => ?_, fun h x => ?_⟩
  · rw [storeBytes_mem, readByte_memWrite_of_lt hm hlen hx, List.getElem?_eq_getElem hx]
  · rw [storeBytes_modified, h]
  · rw [storeBytes_modified, h]; exact mem_markModified _ _ _ _ hlen

theorem store_completes {s : State} (hm : Memory.wf s.mem = true) (a : Word) {bs : List Byte} (hlen : bs.length ≤ 2 ^ 32) :
    StoreResult s a bs (advance (storeBytes a bs s)) :=
  have h := storeBytes_stores hm a hlen
  ⟨h.1, h.2, fun _ _ => rfl, fun _ _ => rfl, ⟨rfl, rfl⟩, ⟨rfl, rfl, rfl, rfl⟩, rfl⟩

theorem storeX_completes {s : State} (hm : Memory.wf s.mem = true) (a : Word) {bs : List Byte} (hlen : bs.length ≤ 2 ^ 32)
    (rd : Reg) (v : Word) : StoreXResult s a bs rd v (advance (writeX rd v (storeBytes a bs s))) :=
  have h := storeBytes_stores hm a hlen
  ⟨h.1, h.2, by simp, fun r hr => by simp_all [readX_writeX_of_ne], fun _ _ => rfl, ⟨rfl, rfl⟩,
    ⟨rfl, rfl, rfl, rfl⟩, rfl⟩

theorem loadX_completes {s : State} {a : Word} {n : Nat} (ha : AlignOk s.cfg a n) (hc : Admits s.cfg a n .read) (rd : Reg)
    (v : Word) : ∃ t, loadX rd a n v s = .next t ∧ XResult s rd v t := by
  rw [loadX, withAccess_pass ha (by simpa using hc)]; exact finishX_completes _ _ _

theorem storeAt_pass {s : State} {a : Word} {bs : List Byte} (ha : AlignOk s.cfg a bs.length)
    (hc : Admits s.cfg a bs.length .write) : storeAt a bs s = .next (advance (storeBytes a bs s)) := by
  rw [storeAt, withAccess_pass ha (by simpa using hc)]

theorem storeAt_completes {s : State} (hm : Memory.wf s.mem = true) {a : Word} {bs : List Byte}
    (hlen : bs.length ≤ 2 ^ 32) (ha : AlignOk s.cfg a bs.length) (hc : Admits s.cfg a bs.length .write) :
    ∃ t, storeAt a bs s = .next t ∧ StoreResult s a bs t :=
  ⟨_, storeAt_pass ha hc, store_completes hm _ hlen⟩

theorem amo_completes {s : State} (hm : Memory.wf s.mem = true) {op : Word → Word → Word} {rd rs1 rs2 : Reg}
    (ha : AlignOk s.cfg (readX rs1 s) 4) (hr : Admits s.cfg (readX rs1 s) 4 .read)
    (hw : Admits s.cfg (readX rs1 s) 4 .write) :
    ∃ t, amo op rd rs1 rs2 s = .next t ∧
      StoreXResult s (readX rs1 s) (leBytes (op (wordAt s (readX rs1 s)) (readX rs2 s))) rd (wordAt s (readX rs1 s)) t := by
  rw [amo, withAccess_pass ha (by simpa using ⟨hr, hw⟩)]
  exact ⟨_, rfl, storeX_completes hm _ (by simp [leBytes]) _ _⟩

/-- The low and the high slot's bytes, in that order, are FSD's bytes (R312). -/
theorem bytes64_pair (p : Pair) (s : State) :
    bytes64 (readPair p s) = leBytes (readF p.lo s) ++ leBytes (readF p.hi s) := by
  simp only [bytes64, readPair, BitVec.extractLsb'_append_eq_of_le (Nat.le_refl 32),
    BitVec.extractLsb'_append_eq_of_add_le (show 0 + 32 ≤ 32 by norm_num)]
  simp [bytesOfWord, leBytes]

/-! ## CSR access (48_system R606 to R613) -/

theorem isFloatCsr_iff (csr : BitVec 12) : isFloatCsr csr = true ↔ csr ∈ [0x001#12, 0x002#12, 0x003#12] := by
  unfold isFloatCsr; split <;> simp_all

theorem isCounter_iff (csr : BitVec 12) : isCounter csr = true ↔ csr ∈ counterCsrs := by
  unfold isCounter counterCsrs; split <;> simp_all

theorem fcsrValue_eq (s : State) : fcsrValue s = (s.frm ++ s.fflags).zeroExtend 32 := by
  have h : ∀ (a : BitVec 3) (b : BitVec 5), (0#24 ++ a ++ b : Word) = (a ++ b).zeroExtend 32 := by decide
  exact h _ _

theorem fcsrAfter_csrWrite {csr : BitVec 12} (h : isFloatCsr csr = true) (v : Word) (s t : State)
    (ht : t.frm = (csrWrite csr v s).frm ∧ t.fflags = (csrWrite csr v s).fflags) : FcsrAfter s csr (some v) t := by
  rw [isFloatCsr_iff] at h
  simp only [List.mem_cons, List.not_mem_nil, or_false] at h
  rcases h with rfl | rfl | rfl <;> simp_all [FcsrAfter, csrWrite]

/-- An access to `fflags`, `frm` or `fcsr` completes (R612). -/
theorem csrAccess_float {s : State} {csr : BitVec 12} {v : Word} (h : FloatCsrValue s csr v) (rd : Reg)
    (reads writes : Bool) {new : Word → Word} (hn : reads = false → new 0#32 = new v) :
    ∃ t, csrAccess rd csr reads writes new s = .next t ∧
      CsrResult s rd csr (if reads then some v else none) (if writes then some (new v) else none) 0 t := by
  have hf : isFloatCsr csr = true := by rcases h with ⟨rfl, _⟩ | ⟨rfl, _⟩ | ⟨rfl, _⟩ <;> rfl
  have hc : isCounter csr = false := by rcases h with ⟨rfl, _⟩ | ⟨rfl, _⟩ | ⟨rfl, _⟩ <;> rfl
  have hv : csrRead csr s = v := by
    rcases h with ⟨rfl, rfl⟩ | ⟨rfl, rfl⟩ | ⟨rfl, rfl⟩
    · rfl
    · rfl
    · exact fcsrValue_eq s
  have ha : afterCsrRead csr s = s := by simp [afterCsrRead, hc]
  simp only [csrAccess, csrAllowed, hf, Bool.true_or, if_true, ha]
  cases reads <;> cases writes
  · exact ⟨_, rfl, by simp, by simp, fun _ _ => rfl, fun _ _ => rfl, ⟨rfl, rfl⟩, ⟨fun _ => rfl, rfl⟩,
      ⟨rfl, rfl, rfl⟩, rfl, rfl⟩
  · simp only [hn rfl, Bool.false_eq_true, if_false, if_true]
    exact ⟨_, rfl, by simp, by simp, fun _ _ => by simp, fun _ _ => by simp, fcsrAfter_csrWrite hf _ _ _ ⟨rfl, rfl⟩,
      ⟨fun _ => by simp, by simp⟩, ⟨by simp, by simp, by simp⟩, by simp, by simp [Advances]⟩
  · simp only [hv, Bool.false_eq_true, if_false, if_true]
    exact ⟨_, rfl, by simp, by simp, fun r hr => by simp_all [readX_writeX_of_ne], fun _ _ => rfl, ⟨rfl, rfl⟩,
      ⟨fun _ => rfl, rfl⟩, ⟨rfl, rfl, rfl⟩, rfl, rfl⟩
  · simp only [hv, if_true]
    exact ⟨_, rfl, by simp, by simp, fun r hr => by simp_all [readX_writeX_of_ne], fun _ _ => by simp,
      fcsrAfter_csrWrite hf _ _ _ ⟨rfl, rfl⟩, ⟨fun _ => by simp, by simp⟩, ⟨by simp, by simp, by simp⟩, by simp,
      by simp [Advances]⟩

/-- A counter read completes with a draw (R613). -/
theorem csrAccess_counter {s : State} {csr : BitVec 12} (h : csr ∈ counterCsrs) (rd : Reg) (new : Word → Word) :
    ∃ t, csrAccess rd csr true false new s = .next t ∧
      CsrResult s rd csr (some (Config.counterDraw s.draws)) none 1 t := by
  have hc := (isCounter_iff csr).2 h
  have hv : csrRead csr s = Config.counterDraw s.draws := by
    simp only [counterCsrs, List.mem_cons, List.not_mem_nil, or_false] at h
    rcases h with rfl | rfl | rfl | rfl | rfl | rfl <;> rfl
  simp only [csrAccess, csrAllowed, hc, Bool.not_false, Bool.and_self, Bool.or_true, if_true, hv, Bool.false_eq_true,
    if_false]
  exact ⟨_, rfl, by simp, by simp, fun r hr => by simp_all [readX_writeX_of_ne], fun _ _ => by simp,
    ⟨by simp, by simp⟩, ⟨fun _ => by simp, by simp⟩, ⟨by simp, by simp, by simp⟩, by simp [afterCsrRead_draws, hc],
    by simp [Advances]⟩

/-- Every other CSR access faults (R612). -/
theorem csrAccess_illegal {s : State} {csr : BitVec 12} {writes : Bool} (h1 : csr ∉ [0x001#12, 0x002#12, 0x003#12])
    (h2 : csr ∈ counterCsrs → writes = true) (rd : Reg) (reads : Bool) (new : Word → Word) :
    csrAccess rd csr reads writes new s = .next (faultOutcome s .illegal (wordAt s s.pc) 0#32) := by
  have h1' : isFloatCsr csr = false := by
    cases h : isFloatCsr csr with
    | false => rfl
    | true => exact absurd ((isFloatCsr_iff csr).1 h) h1
  have h2' : (isCounter csr && !writes) = false := by
    cases h : isCounter csr with
    | false => rfl
    | true => simp [h2 ((isCounter_iff csr).1 h)]
  simp [csrAccess, csrAllowed, h1', h2', raiseFault_eq]

end Sys2Proof.Machine
end

