-- ==== Sys2Proof/Laws/Endings.lean ====
section
/-! SUPPORT. Everything an instruction can answer, said once for all 118: it goes on (and what it then keeps), halts, faults or gets stuck
(60_exceptions R650 to R658), each with the conditions under which it can. The invariants follow from `exec_ends` and `step_ends` without unfolding a
meaning. -/

namespace Sys2Proof.Machine

open Sys2Proof.Claims

/-- What an instruction that goes on keeps. -/
structure GoesOn (i : Instr) (s t : State) : Prop where
  status : t.status = s.status
  record : t.record = s.record
  cfg : t.cfg = s.cfg
  x0 : s.x[0] = 0#32 → t.x[0] = 0#32
  sameMem : writesMemory i = false → t.mem = s.mem
  memWf : Memory.wf s.mem = true → Memory.wf t.mem = true
  sameModified : writesMemory i = false → t.modified = s.modified ∨ ∃ rd rs1 imm, i = .fenceI rd rs1 imm
  modifiedWf : addrSetWf s.modified = true → addrSetWf t.modified = true
  fcsr : csrField i = none → t.frm = s.frm ∧ ∃ flags, t.fflags = accrued s.cfg s.fflags flags
  pcEven : WellFormed i = true → s.pc.toNat % 2 = 0 → t.pc.toNat % 2 = 0

/-- What an instruction that halts is and leaves (R650). -/
inductive Halts (s t : State) : Instr → Prop
  | scall : t = haltOutcome s .scall → Halts s t .scall
  | sbreak : t = haltOutcome s .sbreak → Halts s t .sbreak
  | sqrtS (rd rs1 : Reg) (rm : BitVec 3) (negative : Ieee.IsNegativeOperand .S (readF rs1 s)) :
    t = haltOutcome (setFlags flagNV s) .sqrtNeg → Halts s t (.fsqrtS rd rs1 rm)
  | sqrtD (rd rs1 lo hi : Reg) (rm : BitVec 3) (pair : PairIs s.cfg rs1 lo hi)
      (negative : Ieee.IsNegativeOperand .D (doubleOf s lo hi)) :
    t = haltOutcome (setFlags flagNV s) .sqrtNeg → Halts s t (.fsqrtD rd rs1 rm)

/-- What an instruction that faults leaves, and which can (R652 to R655). -/
inductive Faults (i : Instr) (s t : State) : Prop
  | illegal (which : rmField i ≠ none ∨ csrField i ≠ none)
      (outcome : t = faultOutcome s .illegal (wordAt s s.pc) 0#32)
  | regPair (which : doubleFields i ≠ []) (outcome : t = faultOutcome s .regPair (wordAt s s.pc) 0#32)
  | dataMisaligned (acc : Access) (which : accessOf s i = some acc) (align : ¬AlignOk s.cfg acc.addr acc.align)
      (outcome : t = faultOutcome s .dataMisaligned (wordAt s s.pc) acc.addr)

/-- An instruction whose access is refused changes nothing but `status` (R107, R658). -/
inductive GetsStuck (i : Instr) (s t : State) : Prop
  | refused (acc : Access) (which : accessOf s i = some acc) (call : PortCall) (mem : call ∈ acc.calls)
      (no : memAdmit s.cfg call = false) (outcome : t = stuckOutcome s)

/-- An instruction answers a next state, in one of the four ways. -/
def Ends (i : Instr) (s : State) (r : Result) : Prop :=
  ∃ t, r = .next t ∧ (GoesOn i s t ∨ Halts s t i ∨ Faults i s t ∨ GetsStuck i s t)

/-! ## The checks -/

theorem Ends.goesOn {i : Instr} {s t : State} (h : GoesOn i s t) : Ends i s (.next t) := ⟨t, rfl, .inl h⟩

theorem Ends.withMode {i : Instr} {s : State} {rm : BitVec 3} {done : Fp.Mode → Result} (hf : rmField i = some rm)
    (h : ∀ mode, Ends i s (done mode)) : Ends i s (withMode rm s done) := by
  unfold Machine.withMode
  cases effectiveMode rm s.frm with
  | some mode => exact h mode
  | none => exact ⟨_, rfl, .inr (.inr (.inl (.illegal (.inl (by simp [hf])) rfl)))⟩

theorem Ends.withPairIs {i : Instr} {s : State} {r : Reg} {done : Pair → Result} (hf : r ∈ doubleFields i)
    (h : ∀ lo hi, PairIs s.cfg r lo hi → Ends i s (done ⟨lo, hi⟩)) : Ends i s (withPair r s done) := by
  unfold Machine.withPair
  cases hp : pairOf s.cfg r with
  | some p => exact h p.lo p.hi (pairOf_eq_some.1 hp)
  | none => exact ⟨_, rfl, .inr (.inr (.inl (.regPair (List.ne_nil_of_mem hf) rfl)))⟩

theorem Ends.withPair {i : Instr} {s : State} {r : Reg} {done : Pair → Result} (hf : r ∈ doubleFields i)
    (h : ∀ p, Ends i s (done p)) : Ends i s (withPair r s done) := .withPairIs hf fun _ _ _ => h _

theorem Ends.withAccess {i : Instr} {s : State} {a : Word} {n : Nat} {calls : List PortCall} {done : Result}
    (hf : accessOf s i = some ⟨a, n, calls⟩) (h : Ends i s done) : Ends i s (withAccess a n calls s done) := by
  by_cases ha : AlignOk s.cfg a n
  · by_cases hc : ∀ c ∈ calls, Admits s.cfg c.addr c.size c.kind
    · rwa [withAccess_pass ha hc]
    · push Not at hc
      obtain ⟨c, hc, hr⟩ := hc
      rw [withAccess_refused ha hc hr]
      exact ⟨_, rfl, .inr (.inr (.inr (.refused _ hf c hc (by simpa [Admits] using hr) rfl)))⟩
  · rw [withAccess_misaligned ha]
    exact ⟨_, rfl, .inr (.inr (.inl (.dataMisaligned _ hf ha rfl)))⟩

/-! ## The endings -/

theorem putX_zero (file : Vector Word 32) (r : Reg) (v : Word) : (putX file r v)[0] = file[0] := by
  unfold putX; split
  · rfl
  · rename_i h
    rw [Vector.getElem_set, if_neg]
    exact fun h' => h (BitVec.toNat_inj.1 h')

theorem even_add {a b : Word} (ha : a.toNat % 2 = 0) (hb : b.toNat % 2 = 0) : (a + b).toNat % 2 = 0 := by
  rw [BitVec.toNat_add]; omega

theorem even_signExtend {n : Nat} (hn : 0 < n) {offset : BitVec n} (h : evenOffset offset = true) :
    (offset.signExtend 32).toNat % 2 = 0 := by
  have h0 : (offset.signExtend 32).getLsbD 0 = false := by
    simp only [evenOffset, Bool.not_eq_true'] at h
    rw [BitVec.getLsbD_signExtend]; simp only [hn, if_true, h, Bool.and_false]
  simpa [BitVec.getLsbD, Nat.testBit_zero] using h0

/-- An update of registers, slots and flags that then advances `pc` goes on. -/
theorem goesOn_registers {i : Instr} {s : State} {x f : Vector Word 32} {flags : Flags}
    (hx : s.x[0] = 0#32 → x[0] = 0#32) :
    GoesOn i s (advance { s with x := x, f := f, fflags := accrued s.cfg s.fflags flags }) :=
  ⟨rfl, rfl, rfl, hx, fun _ => rfl, id, fun _ => .inl rfl, id, fun _ => ⟨rfl, _, rfl⟩,
    fun _ h => even_add h (by decide)⟩

theorem ends_finishX {i : Instr} (rd : Reg) (v : Word) (s : State) : Ends i s (finishX rd v s) := by
  refine .goesOn ?_
  simpa [accrued_none, writeX] using
    goesOn_registers (i := i) (s := s) (x := putX s.x rd v) (f := s.f) (flags := flagNone) (by simp [putX_zero])

theorem ends_finishXFlags {i : Instr} (rd : Reg) (v : Word) (flags : Flags) (s : State) :
    Ends i s (finishXFlags rd v flags s) :=
  .goesOn (goesOn_registers (by simp [putX_zero]))

theorem ends_finishF {i : Instr} (rd : Reg) (v : Word) (s : State) : Ends i s (finishF rd v s) := by
  refine .goesOn ?_
  simpa [accrued_none, writeF] using
    goesOn_registers (i := i) (s := s) (x := s.x) (f := putF s.f rd v) (flags := flagNone) id

theorem ends_finishFFlags {i : Instr} (rd : Reg) (r : Word × Flags) (s : State) : Ends i s (finishFFlags rd r s) :=
  .goesOn (goesOn_registers id)

theorem ends_finishD {i : Instr} (d : Pair) (v : Dword) (s : State) : Ends i s (finishD d v s) := by
  refine .goesOn ?_
  simpa [accrued_none, writePair, writeF] using
    goesOn_registers (i := i) (s := s) (x := s.x) (f := (writePair d v s).f) (flags := flagNone) id

theorem ends_finishDFlags {i : Instr} (d : Pair) (r : Dword × Flags) (s : State) : Ends i s (finishDFlags d r s) :=
  .goesOn (goesOn_registers (f := (writePair d r.1 s).f) id)

theorem ends_branch {i : Instr} (taken : Bool) (offset : BitVec 13) (s : State)
    (he : WellFormed i = true → evenOffset offset = true) : Ends i s (branch taken offset s) := by
  refine .goesOn ?_
  cases taken
  · exact ⟨rfl, rfl, rfl, id, fun _ => rfl, id, fun _ => .inl rfl, id, fun _ => ⟨rfl, flagNone, (accrued_none _ _).symm⟩,
      fun _ h => even_add h (by decide)⟩
  · exact ⟨rfl, rfl, rfl, id, fun _ => rfl, id, fun _ => .inl rfl, id, fun _ => ⟨rfl, flagNone, (accrued_none _ _).symm⟩,
      fun hw h => even_add h (even_signExtend (by omega) (he hw))⟩

theorem ends_jumpAndLink {i : Instr} (rd : Reg) (target : Word) (s : State)
    (he : WellFormed i = true → s.pc.toNat % 2 = 0 → target.toNat % 2 = 0) : Ends i s (jumpAndLink rd target s) :=
  .goesOn ⟨rfl, rfl, rfl, fun h => by simpa [putX_zero] using h, fun _ => rfl, id, fun _ => .inl rfl, id,
    fun _ => ⟨rfl, flagNone, (accrued_none _ _).symm⟩, he⟩

theorem even_jalrTarget (rs1 : Reg) (imm : BitVec 12) (s : State) : (jalrTarget rs1 imm s).toNat % 2 = 0 := by
  have : (jalrTarget rs1 imm s).getLsbD 0 = false := by simp [jalrTarget]
  simpa [BitVec.getLsbD, Nat.testBit_zero] using this

/-- A store and a register write go on. -/
theorem goesOn_store {i : Instr} {s : State} (hw : writesMemory i = true) (a : Word) (bs : List Byte)
    (x : Vector Word 32) (hx : s.x[0] = 0#32 → x[0] = 0#32) :
    GoesOn i s (advance { storeBytes a bs s with x := x }) :=
  ⟨rfl, rfl, rfl, hx, fun h => by simp_all, fun h => memWrite_wf h _ _, fun h => by simp_all,
    fun h => by
      change addrSetWf (storeBytes a bs s).modified = true
      rw [storeBytes_modified]; split
      · exact addrSetWf_markModified h _ _
      · exact h,
    fun _ => ⟨rfl, flagNone, (accrued_none _ _).symm⟩, fun _ h => even_add h (by decide)⟩

theorem ends_loadX {i : Instr} {rd : Reg} {a : Word} {n : Nat} {v : Word} {s : State}
    (hf : accessOf s i = some ⟨a, n, [⟨a, n, .read⟩]⟩) : Ends i s (loadX rd a n v s) :=
  .withAccess hf (ends_finishX _ _ _)

theorem ends_storeAt {i : Instr} {a : Word} {bs : List Byte} {s : State} (hw : writesMemory i = true)
    (hf : accessOf s i = some ⟨a, bs.length, [⟨a, bs.length, .write⟩]⟩) : Ends i s (storeAt a bs s) :=
  .withAccess hf (.goesOn (goesOn_store hw a bs s.x id))

theorem ends_amo {i : Instr} {op : Word → Word → Word} {rd rs1 rs2 : Reg} {s : State} (hw : writesMemory i = true)
    (hf : accessOf s i = some ⟨readX rs1 s, 4, [⟨readX rs1 s, 4, .read⟩, ⟨readX rs1 s, 4, .write⟩]⟩) :
    Ends i s (amo op rd rs1 rs2 s) :=
  .withAccess hf (.goesOn (goesOn_store hw _ _ _ (by simp [putX_zero])))

theorem ends_csrAccess {i : Instr} {rd : Reg} {csr : BitVec 12} {reads writes w : Bool} {new : Word → Word} {s : State}
    (hf : csrField i = some (csr, w)) : Ends i s (csrAccess rd csr reads writes new s) := by
  have hpc : (s.pc.toNat % 2 = 0 → (s.pc + 4#32).toNat % 2 = 0) := fun h => even_add h (by decide)
  unfold csrAccess
  split
  · cases reads <;> cases writes <;>
      (refine .goesOn ⟨?_, ?_, ?_, ?_, ?_, ?_, ?_, ?_, ?_, ?_⟩ <;> simp_all [putX_zero])
  · exact ⟨_, rfl, .inr (.inr (.inl (.illegal (.inr (by simp [hf])) rfl)))⟩

theorem ends_arithS {i : Instr} {op : Config → Fp.Mode → Word → Word → Word × Flags} {rd rs1 rs2 : Reg} {rm : BitVec 3}
    {s : State} (hm : rmField i = some rm) : Ends i s (arithS op rd rs1 rs2 rm s) :=
  .withMode hm fun _ => ends_finishFFlags _ _ _

theorem ends_fusedS {i : Instr} {negp negc : Bool} {rd rs1 rs2 rs3 : Reg} {rm : BitVec 3} {s : State}
    (hm : rmField i = some rm) : Ends i s (fusedS negp negc rd rs1 rs2 rs3 rm s) :=
  .withMode hm fun _ => ends_finishFFlags _ _ _

theorem ends_toIntS {i : Instr} {kind : Fp.IntKind} {rd rs1 : Reg} {rm : BitVec 3} {s : State}
    (hm : rmField i = some rm) : Ends i s (toIntS kind rd rs1 rm s) :=
  .withMode hm fun _ => ends_finishXFlags _ _ _ _

theorem ends_fromIntS {i : Instr} {kind : Fp.IntKind} {rd rs1 : Reg} {rm : BitVec 3} {s : State}
    (hm : rmField i = some rm) : Ends i s (fromIntS kind rd rs1 rm s) :=
  .withMode hm fun _ => ends_finishFFlags _ _ _

theorem ends_arithD {i : Instr} {op : Config → Fp.Mode → Dword → Dword → Dword × Flags} {rd rs1 rs2 : Reg}
    {rm : BitVec 3} {s : State} (hm : rmField i = some rm) (hd : doubleFields i = [rd, rs1, rs2]) :
    Ends i s (arithD op rd rs1 rs2 rm s) :=
  .withMode hm fun _ => .withPair (by simp [hd]) fun _ => .withPair (by simp [hd]) fun _ =>
    .withPair (by simp [hd]) fun _ => ends_finishDFlags _ _ _

theorem ends_minMaxD {i : Instr} {op : Config → Dword → Dword → Dword × Flags} {rd rs1 rs2 : Reg} {s : State}
    (hd : doubleFields i = [rd, rs1, rs2]) : Ends i s (minMaxD op rd rs1 rs2 s) :=
  .withPair (by simp [hd]) fun _ => .withPair (by simp [hd]) fun _ => .withPair (by simp [hd]) fun _ =>
    ends_finishDFlags _ _ _

theorem ends_fusedD {i : Instr} {negp negc : Bool} {rd rs1 rs2 rs3 : Reg} {rm : BitVec 3} {s : State}
    (hm : rmField i = some rm) (hd : doubleFields i = [rd, rs1, rs2, rs3]) :
    Ends i s (fusedD negp negc rd rs1 rs2 rs3 rm s) :=
  .withMode hm fun _ => .withPair (by simp [hd]) fun _ => .withPair (by simp [hd]) fun _ =>
    .withPair (by simp [hd]) fun _ => .withPair (by simp [hd]) fun _ => ends_finishDFlags _ _ _

theorem ends_toIntD {i : Instr} {kind : Fp.IntKind} {rd rs1 : Reg} {rm : BitVec 3} {s : State}
    (hm : rmField i = some rm) (hd : doubleFields i = [rs1]) : Ends i s (toIntD kind rd rs1 rm s) :=
  .withMode hm fun _ => .withPair (by simp [hd]) fun _ => ends_finishXFlags _ _ _ _

theorem ends_fromIntD {i : Instr} {kind : Fp.IntKind} {rd rs1 : Reg} {rm : BitVec 3} {s : State}
    (hm : rmField i = some rm) (hd : doubleFields i = [rd]) : Ends i s (fromIntD kind rd rs1 rm s) :=
  .withMode hm fun _ => .withPair (by simp [hd]) fun _ => ends_finishD _ _ _

theorem ends_compareD {i : Instr} {op : Fp.CmpOp} {rd rs1 rs2 : Reg} {s : State} (hd : doubleFields i = [rs1, rs2]) :
    Ends i s (compareD op rd rs1 rs2 s) :=
  .withPair (by simp [hd]) fun _ => .withPair (by simp [hd]) fun _ => ends_finishXFlags _ _ _ _

theorem ends_signInjectD {i : Instr} {neg : Dword → Dword → Bool} {rd rs1 rs2 : Reg} {s : State}
    (hd : doubleFields i = [rd, rs1, rs2]) : Ends i s (signInjectD neg rd rs1 rs2 s) :=
  .withPair (by simp [hd]) fun _ => .withPair (by simp [hd]) fun _ => .withPair (by simp [hd]) fun _ =>
    ends_finishD _ _ _

/-! ## The instructions that are not one shared operation -/

theorem ends_fld (rd rs1 : Reg) (imm : BitVec 12) (s : State) : Ends (.fld rd rs1 imm) s (execFld rd rs1 imm s) :=
  .withPair (by simp [doubleFields]) fun _ => .withAccess rfl (ends_finishD _ _ _)

theorem ends_fsd (rs1 rs2 : Reg) (imm : BitVec 12) (s : State) : Ends (.fsd rs1 rs2 imm) s (execFsd rs1 rs2 imm s) :=
  .withPair (by simp [doubleFields]) fun p => .withAccess rfl
    (.goesOn (goesOn_store rfl (effAddr rs1 imm s) (bytes64 (readPair p s)) s.x id))

theorem ends_scW (rd rs1 rs2 : Reg) (aq rl : BitVec 1) (s : State) :
    Ends (.scW rd rs1 rs2 aq rl) s (execScW rd rs1 rs2 s) :=
  .withAccess rfl (.goesOn (goesOn_store rfl (readX rs1 s) (bytes32 (readX rs2 s)) (putX s.x rd 0#32)
    (by simp [putX_zero])))

theorem ends_fence {i : Instr} (s : State) : Ends i s (execFence s) :=
  .goesOn ⟨rfl, rfl, rfl, id, fun _ => rfl, id, fun _ => .inl rfl, id,
    fun _ => ⟨rfl, flagNone, (accrued_none _ _).symm⟩, fun _ h => even_add h (by decide)⟩

theorem ends_fenceI (rd rs1 : Reg) (imm : BitVec 12) (s : State) : Ends (.fenceI rd rs1 imm) s (execFenceI s) := by
  refine .goesOn ⟨rfl, rfl, rfl, id, fun _ => rfl, id, fun _ => .inr ⟨_, _, _, rfl⟩, fun h => ?_,
    fun _ => ⟨rfl, flagNone, (accrued_none _ _).symm⟩, fun _ h => even_add h (by decide)⟩
  change addrSetWf (match s.cfg.fetchCoherence with | .fault => [] | .immediate => s.modified) = true
  split
  · rfl
  · exact h

theorem ends_fsqrtS (rd rs1 : Reg) (rm : BitVec 3) (s : State) : Ends (.fsqrtS rd rs1 rm) s (execFsqrtS rd rs1 rm s) := by
  refine .withMode rfl fun mode => ?_
  split
  · exact ends_finishFFlags _ _ _
  · exact ⟨_, rfl, .inr (.inl (.sqrtS _ _ _ (Fp.sqrt_eq_none_iff.1 ‹_›) rfl))⟩

theorem ends_fsqrtD (rd rs1 : Reg) (rm : BitVec 3) (s : State) : Ends (.fsqrtD rd rs1 rm) s (execFsqrtD rd rs1 rm s) := by
  refine .withMode rfl fun mode => .withPair (by simp [doubleFields]) fun d =>
    .withPairIs (by simp [doubleFields]) fun lo hi hp => ?_
  split
  · exact ends_finishDFlags _ _ _
  · exact ⟨_, rfl, .inr (.inl (.sqrtD _ _ lo hi _ hp (Fp.sqrt_eq_none_iff.1 ‹_›) rfl))⟩

theorem ends_fcvtSD (rd rs1 : Reg) (rm : BitVec 3) (s : State) : Ends (.fcvtSD rd rs1 rm) s (execFcvtSD rd rs1 rm s) :=
  .withMode rfl fun _ => .withPair (by simp [doubleFields]) fun _ => ends_finishFFlags _ _ _

theorem ends_fcvtDS (rd rs1 : Reg) (rm : BitVec 3) (s : State) : Ends (.fcvtDS rd rs1 rm) s (execFcvtDS rd rs1 rm s) :=
  .withMode rfl fun _ => .withPair (by simp [doubleFields]) fun _ => ends_finishDFlags _ _ _

theorem ends_fclassD (rd rs1 : Reg) (s : State) : Ends (.fclassD rd rs1) s (execFclassD rd rs1 s) :=
  .withPair (by simp [doubleFields]) fun _ => ends_finishX _ _ _

/-! ## Every instruction -/

/-- Every instruction answers a next state, in one of the four ways. -/
theorem exec_ends (i : Instr) (s : State) : Ends i s (exec i s) := by
  cases i with
  | lui | auipc | addi | slti | sltiu | xori | ori | andi | slli | srli | srai | add | sub | sll | slt | sltu | xor
  | srl | sra | or | and | mul | mulh | mulhsu | mulhu | div | divu | rem | remu | fmvXS | fclassS =>
    exact ends_finishX _ _ _
  | jal rd offset =>
    exact ends_jumpAndLink _ _ _ fun hw h => even_add h (even_signExtend (by omega) hw)
  | jalr rd rs1 imm => exact ends_jumpAndLink _ _ _ fun _ _ => even_jalrTarget _ _ _
  | beq | bne | blt | bge | bltu | bgeu => exact ends_branch _ _ _ id
  | lb | lh | lw | lbu | lhu => exact ends_loadX rfl
  | sb | sh | sw | fsw => exact ends_storeAt rfl rfl
  | flw rd rs1 imm => exact .withAccess rfl (ends_finishF _ _ _)
  | fld => exact ends_fld _ _ _ _
  | fsd => exact ends_fsd _ _ _ _
  | lrW rd rs1 aq rl => exact .withAccess rfl (ends_finishX _ _ _)
  | scW rd rs1 rs2 aq rl => exact ends_scW _ _ _ _ _ _
  | amoswapW => exact ends_amo (op := fun _ b => b) rfl rfl
  | amoaddW => exact ends_amo (op := fun old b => old + b) rfl rfl
  | amoxorW => exact ends_amo (op := fun old b => old ^^^ b) rfl rfl
  | amoandW => exact ends_amo (op := fun old b => old &&& b) rfl rfl
  | amoorW => exact ends_amo (op := fun old b => old ||| b) rfl rfl
  | amominW => exact ends_amo (op := minSigned) rfl rfl
  | amomaxW => exact ends_amo (op := maxSigned) rfl rfl
  | amominuW => exact ends_amo (op := minUnsigned) rfl rfl
  | amomaxuW => exact ends_amo (op := maxUnsigned) rfl rfl
  | fence => exact ends_fence _
  | fenceI => exact ends_fenceI _ _ _ _
  | scall => exact ⟨_, rfl, .inr (.inl (.scall rfl))⟩
  | sbreak => exact ⟨_, rfl, .inr (.inl (.sbreak rfl))⟩
  | csrrw rd rs1 csr => exact ends_csrAccess (reads := rd != 0#5) (writes := true) (new := fun _ => readX rs1 s) rfl
  | csrrs rd rs1 csr => exact ends_csrAccess (reads := true) (writes := rs1 != 0#5) (new := fun t => t ||| readX rs1 s) rfl
  | csrrc rd rs1 csr =>
    exact ends_csrAccess (reads := true) (writes := rs1 != 0#5) (new := fun t => t &&& ~~~(readX rs1 s)) rfl
  | csrrwi rd uimm csr =>
    exact ends_csrAccess (reads := rd != 0#5) (writes := true) (new := fun _ => uimm.zeroExtend 32) rfl
  | csrrsi rd uimm csr =>
    exact ends_csrAccess (reads := true) (writes := uimm != 0#5) (new := fun t => t ||| uimm.zeroExtend 32) rfl
  | csrrci rd uimm csr =>
    exact ends_csrAccess (reads := true) (writes := uimm != 0#5) (new := fun t => t &&& ~~~(uimm.zeroExtend 32)) rfl
  | faddS | fsubS | fmulS | fdivS => exact ends_arithS rfl
  | fmaddS | fmsubS | fnmsubS | fnmaddS => exact ends_fusedS rfl
  | fcvtSW | fcvtSWu => exact ends_fromIntS rfl
  | fcvtWS | fcvtWuS => exact ends_toIntS rfl
  | fsqrtS => exact ends_fsqrtS _ _ _ _
  | fminS | fmaxS => exact ends_finishFFlags _ _ _
  | fmvSX | fsgnjS | fsgnjnS | fsgnjxS => exact ends_finishF _ _ _
  | feqS | fltS | fleS => exact ends_finishXFlags _ _ _ _
  | faddD | fsubD | fmulD | fdivD => exact ends_arithD rfl rfl
  | fmaddD | fmsubD | fnmsubD | fnmaddD => exact ends_fusedD rfl rfl
  | fsqrtD => exact ends_fsqrtD _ _ _ _
  | fminD | fmaxD => exact ends_minMaxD rfl
  | fsgnjD => exact ends_signInjectD (neg := fun _ b => Fp.signBit .D b) rfl
  | fsgnjnD => exact ends_signInjectD (neg := fun _ b => !Fp.signBit .D b) rfl
  | fsgnjxD => exact ends_signInjectD (neg := fun a b => Fp.signBit .D a != Fp.signBit .D b) rfl
  | fcvtWD | fcvtWuD => exact ends_toIntD rfl rfl
  | fcvtDW | fcvtDWu => exact ends_fromIntD rfl rfl
  | fcvtSD => exact ends_fcvtSD _ _ _ _
  | fcvtDS => exact ends_fcvtDS _ _ _ _
  | feqD | fltD | fleD => exact ends_compareD rfl
  | fclassD => exact ends_fclassD _ _ _

/-! ## A step -/

/-- What a running state's step answers: a fetch fault, a refused fetch, an illegal word, or the decoded instruction. -/
inductive StepEnds (s t : State) : Prop
  | misaligned (pc : s.pc.toNat % 4 ≠ 0) (outcome : t = faultOutcome s .fetchMisaligned 0#32 s.pc)
  | unfenced (pc : s.pc.toNat % 4 = 0) (fenced : Unfenced s) (outcome : t = faultOutcome s .fetchUnfenced 0#32 s.pc)
  | refused (pc : s.pc.toNat % 4 = 0) (no : ¬Admits s.cfg s.pc 4 .read) (outcome : t = stuckOutcome s)
  | illegal (pc : s.pc.toNat % 4 = 0) (word : ∀ i, decode (wordAt s s.pc) = .ok i → ¬Admitted s i)
      (outcome : t = faultOutcome s .illegal (wordAt s s.pc) 0#32)
  | ran (pc : s.pc.toNat % 4 = 0) (i : Instr) (word : decode (wordAt s s.pc) = .ok i) (outcome : exec i s = .next t)

theorem admitted_iff (s : State) (i : Instr) : admitted s.cfg i = true ↔ Admitted s i := by
  simp [admitted, Admitted]

/-- Every running state steps, in one of the five ways. -/
theorem step_running {s : State} (hs : s.status = .running) : ∃ t, step s = .next t ∧ StepEnds s t := by
  unfold step fetch; rw [hs]; simp only
  by_cases hpc : s.pc.extractLsb' 0 2 = 0#2
  · have hpc4 := (pcAligned_iff _).1 hpc
    simp only [hpc, ne_eq, not_true_eq_false, if_false]
    by_cases hu : fetchUnfenced s = true
    · simp only [hu, if_true]
      exact ⟨_, rfl, .unfenced hpc4 ((fetchUnfenced_iff s).1 hu) rfl⟩
    · simp only [hu, if_false, Bool.false_eq_true]
      by_cases ha : memAdmit s.cfg (fetchCall s) = true
      · simp only [ha, Bool.not_true, Bool.false_eq_true, if_false]
        cases hd : decode (currentWord s) with
        | error e => exact ⟨_, rfl, .illegal hpc4 (fun i hi => by rw [← currentWord_eq, hd] at hi; cases hi) rfl⟩
        | ok i =>
          by_cases hi : admitted s.cfg i = true
          · simp only [hi, if_true]
            obtain ⟨t, ht, _⟩ := exec_ends i s
            exact ⟨t, ht, .ran hpc4 i hd ht⟩
          · simp only [hi, if_false, Bool.false_eq_true]
            refine ⟨_, rfl, .illegal hpc4 (fun j hj => ?_) rfl⟩
            rw [← currentWord_eq, hd] at hj; cases hj
            rwa [← admitted_iff]
      · simp only [Bool.not_eq_true] at ha
        simp only [ha, Bool.not_false, if_true]
        exact ⟨_, rfl, .refused hpc4 (by simp only [Admits]; rw [← fetchCall, ha]; simp) rfl⟩
  · simp only [hpc, ne_eq, not_false_eq_true, if_true]
    exact ⟨_, rfl, .misaligned (fun h => hpc ((pcAligned_iff _).2 h)) rfl⟩

/-- A step is of a running state, and answers in one of the five ways. -/
theorem step_ends {s t : State} (h : step s = .next t) : s.status = .running ∧ StepEnds s t := by
  cases hs : s.status with
  | running =>
    obtain ⟨u, hu, he⟩ := step_running hs
    rw [h] at hu; cases hu
    exact ⟨rfl, he⟩
  | halted _ | faulted _ | stuck => simp [step, hs] at h

end Sys2Proof.Machine
end

