-- ==== Sys2Proof/Laws/PerInstr.lean ====
section
/-! SUPPORT. One lemma for each instruction: its encoding is a word of its own row of the opcode table (30_encoding R171, section 5), whatever its
operands. -/

namespace Sys2Proof.Laws.EncodesRow

/-- The instruction's word, under its row's mask, is its row's match. -/
def Statement (i : Instr) : Prop := encode i &&& (tableRow i).mask = (tableRow i).pattern

theorem row_R (f7 : BitVec 7) (rs2 rs1 : Reg) (f3 : BitVec 3) (rd : Reg) (op : BitVec 7) :
    formatR f7 rs2 rs1 f3 rd op &&& 0xFE00707F#32 = formatR f7 0#5 0#5 f3 0#5 op := by
  rw [show 0xFE00707F#32 = formatR (BitVec.allOnes 7) 0#5 0#5 (BitVec.allOnes 3) 0#5 (BitVec.allOnes 7) from rfl]
  change (_ : BitVec (7 + 5 + 5 + 3 + 5 + 7)) &&& _ = _
  simp only [formatR, BitVec.and_append, BitVec.and_zero, BitVec.and_allOnes]
theorem row_R_rm (f7 : BitVec 7) (rs2 rs1 : Reg) (f3 : BitVec 3) (rd : Reg) (op : BitVec 7) :
    formatR f7 rs2 rs1 f3 rd op &&& 0xFE00007F#32 = formatR f7 0#5 0#5 0#3 0#5 op := by
  rw [show 0xFE00007F#32 = formatR (BitVec.allOnes 7) 0#5 0#5 0#3 0#5 (BitVec.allOnes 7) from rfl]
  change (_ : BitVec (7 + 5 + 5 + 3 + 5 + 7)) &&& _ = _
  simp only [formatR, BitVec.and_append, BitVec.and_zero, BitVec.and_allOnes]
theorem row_R_rs2 (f7 : BitVec 7) (rs2 rs1 : Reg) (f3 : BitVec 3) (rd : Reg) (op : BitVec 7) :
    formatR f7 rs2 rs1 f3 rd op &&& 0xFFF0707F#32 = formatR f7 rs2 0#5 f3 0#5 op := by
  rw [show 0xFFF0707F#32 = formatR (BitVec.allOnes 7) (BitVec.allOnes 5) 0#5 (BitVec.allOnes 3) 0#5 (BitVec.allOnes 7) from rfl]
  change (_ : BitVec (7 + 5 + 5 + 3 + 5 + 7)) &&& _ = _
  simp only [formatR, BitVec.and_append, BitVec.and_zero, BitVec.and_allOnes]
theorem row_R_rs2_rm (f7 : BitVec 7) (rs2 rs1 : Reg) (f3 : BitVec 3) (rd : Reg) (op : BitVec 7) :
    formatR f7 rs2 rs1 f3 rd op &&& 0xFFF0007F#32 = formatR f7 rs2 0#5 0#3 0#5 op := by
  rw [show 0xFFF0007F#32 = formatR (BitVec.allOnes 7) (BitVec.allOnes 5) 0#5 0#3 0#5 (BitVec.allOnes 7) from rfl]
  change (_ : BitVec (7 + 5 + 5 + 3 + 5 + 7)) &&& _ = _
  simp only [formatR, BitVec.and_append, BitVec.and_zero, BitVec.and_allOnes]
theorem row_I (imm : BitVec 12) (rs1 : Reg) (f3 : BitVec 3) (rd : Reg) (op : BitVec 7) :
    formatI imm rs1 f3 rd op &&& 0x0000707F#32 = formatI 0#12 0#5 f3 0#5 op := by
  rw [show 0x0000707F#32 = formatI 0#12 0#5 (BitVec.allOnes 3) 0#5 (BitVec.allOnes 7) from rfl]
  change (_ : BitVec (12 + 5 + 3 + 5 + 7)) &&& _ = _
  simp only [formatI, BitVec.and_append, BitVec.and_zero, BitVec.and_allOnes]
theorem row_S (imm : BitVec 12) (rs2 rs1 : Reg) (f3 : BitVec 3) (op : BitVec 7) :
    formatS imm rs2 rs1 f3 op &&& 0x0000707F#32 = formatS 0#12 0#5 0#5 f3 op := by
  rw [show 0x0000707F#32 = formatS 0#12 0#5 0#5 (BitVec.allOnes 3) (BitVec.allOnes 7) from rfl]
  change (_ : BitVec (7 + 5 + 5 + 3 + 5 + 7)) &&& _ = _
  simp only [formatS, BitVec.and_append, BitVec.extractLsb'_zero, BitVec.and_zero, BitVec.and_allOnes]
theorem row_B (offset : BitVec 13) (rs2 rs1 : Reg) (f3 : BitVec 3) (op : BitVec 7) :
    formatB offset rs2 rs1 f3 op &&& 0x0000707F#32 = formatB 0#13 0#5 0#5 f3 op := by
  rw [show 0x0000707F#32 = formatB 0#13 0#5 0#5 (BitVec.allOnes 3) (BitVec.allOnes 7) from rfl]
  change (_ : BitVec (1 + 6 + 5 + 5 + 3 + 4 + 1 + 7)) &&& _ = _
  simp only [formatB, BitVec.and_append, BitVec.extractLsb'_zero, BitVec.and_zero, BitVec.and_allOnes]
theorem row_U (imm : BitVec 20) (rd : Reg) (op : BitVec 7) :
    formatU imm rd op &&& 0x0000007F#32 = formatU 0#20 0#5 op := by
  rw [show 0x0000007F#32 = formatU 0#20 0#5 (BitVec.allOnes 7) from rfl]
  change (_ : BitVec (20 + 5 + 7)) &&& _ = _
  simp only [formatU, BitVec.and_append, BitVec.and_zero, BitVec.and_allOnes]
theorem row_J (offset : BitVec 21) (rd : Reg) (op : BitVec 7) :
    formatJ offset rd op &&& 0x0000007F#32 = formatJ 0#21 0#5 op := by
  rw [show 0x0000007F#32 = formatJ 0#21 0#5 (BitVec.allOnes 7) from rfl]
  change (_ : BitVec (1 + 10 + 1 + 8 + 5 + 7)) &&& _ = _
  simp only [formatJ, BitVec.and_append, BitVec.extractLsb'_zero, BitVec.and_zero, BitVec.and_allOnes]
theorem row_R4 (rs3 : Reg) (fmt : BitVec 2) (rs2 rs1 : Reg) (rm : BitVec 3) (rd : Reg) (op : BitVec 7) :
    formatR4 rs3 fmt rs2 rs1 rm rd op &&& 0x0600007F#32 = formatR4 0#5 fmt 0#5 0#5 0#3 0#5 op := by
  rw [show 0x0600007F#32 = formatR4 0#5 (BitVec.allOnes 2) 0#5 0#5 0#3 0#5 (BitVec.allOnes 7) from rfl]
  change (_ : BitVec (5 + 2 + 5 + 5 + 3 + 5 + 7)) &&& _ = _
  simp only [formatR4, BitVec.and_append, BitVec.and_zero, BitVec.and_allOnes]
theorem row_Amo (f5 : BitVec 5) (aq rl : BitVec 1) (rs2 rs1 : Reg) (f3 : BitVec 3) (rd : Reg) (op : BitVec 7) :
    formatAmo f5 aq rl rs2 rs1 f3 rd op &&& 0xF800707F#32 = formatAmo f5 0#1 0#1 0#5 0#5 f3 0#5 op := by
  rw [show 0xF800707F#32 = formatAmo (BitVec.allOnes 5) 0#1 0#1 0#5 0#5 (BitVec.allOnes 3) 0#5 (BitVec.allOnes 7) from rfl]
  change (_ : BitVec (5 + 1 + 1 + 5 + 5 + 3 + 5 + 7)) &&& _ = _
  simp only [formatAmo, BitVec.and_append, BitVec.and_zero, BitVec.and_allOnes]
theorem row_Amo_rs2 (f5 : BitVec 5) (aq rl : BitVec 1) (rs2 rs1 : Reg) (f3 : BitVec 3) (rd : Reg) (op : BitVec 7) :
    formatAmo f5 aq rl rs2 rs1 f3 rd op &&& 0xF9F0707F#32 = formatAmo f5 0#1 0#1 rs2 0#5 f3 0#5 op := by
  rw [show 0xF9F0707F#32 = formatAmo (BitVec.allOnes 5) 0#1 0#1 (BitVec.allOnes 5) 0#5 (BitVec.allOnes 3) 0#5 (BitVec.allOnes 7) from rfl]
  change (_ : BitVec (5 + 1 + 1 + 5 + 5 + 3 + 5 + 7)) &&& _ = _
  simp only [formatAmo, BitVec.and_append, BitVec.and_zero, BitVec.and_allOnes]
theorem row_Fence (fm pred succ : BitVec 4) (rs1 : Reg) (f3 : BitVec 3) (rd : Reg) (op : BitVec 7) :
    formatFence fm pred succ rs1 f3 rd op &&& 0x0000707F#32 = formatFence 0#4 0#4 0#4 0#5 f3 0#5 op := by
  rw [show 0x0000707F#32 = formatFence 0#4 0#4 0#4 0#5 (BitVec.allOnes 3) 0#5 (BitVec.allOnes 7) from rfl]
  change (_ : BitVec (4 + 4 + 4 + 5 + 3 + 5 + 7)) &&& _ = _
  simp only [formatFence, BitVec.and_append, BitVec.and_zero, BitVec.and_allOnes]

theorem lui (rd : Reg) (imm : BitVec 20) : Statement (.lui rd imm) := row_U _ _ _
theorem auipc (rd : Reg) (imm : BitVec 20) : Statement (.auipc rd imm) := row_U _ _ _
theorem jal (rd : Reg) (offset : BitVec 21) : Statement (.jal rd offset) := row_J _ _ _
theorem jalr (rd rs1 : Reg) (imm : BitVec 12) : Statement (.jalr rd rs1 imm) := row_I _ _ _ _ _
theorem beq (rs1 rs2 : Reg) (offset : BitVec 13) : Statement (.beq rs1 rs2 offset) := row_B _ _ _ _ _
theorem bne (rs1 rs2 : Reg) (offset : BitVec 13) : Statement (.bne rs1 rs2 offset) := row_B _ _ _ _ _
theorem blt (rs1 rs2 : Reg) (offset : BitVec 13) : Statement (.blt rs1 rs2 offset) := row_B _ _ _ _ _
theorem bge (rs1 rs2 : Reg) (offset : BitVec 13) : Statement (.bge rs1 rs2 offset) := row_B _ _ _ _ _
theorem bltu (rs1 rs2 : Reg) (offset : BitVec 13) : Statement (.bltu rs1 rs2 offset) := row_B _ _ _ _ _
theorem bgeu (rs1 rs2 : Reg) (offset : BitVec 13) : Statement (.bgeu rs1 rs2 offset) := row_B _ _ _ _ _
theorem lb (rd rs1 : Reg) (imm : BitVec 12) : Statement (.lb rd rs1 imm) := row_I _ _ _ _ _
theorem lh (rd rs1 : Reg) (imm : BitVec 12) : Statement (.lh rd rs1 imm) := row_I _ _ _ _ _
theorem lw (rd rs1 : Reg) (imm : BitVec 12) : Statement (.lw rd rs1 imm) := row_I _ _ _ _ _
theorem lbu (rd rs1 : Reg) (imm : BitVec 12) : Statement (.lbu rd rs1 imm) := row_I _ _ _ _ _
theorem lhu (rd rs1 : Reg) (imm : BitVec 12) : Statement (.lhu rd rs1 imm) := row_I _ _ _ _ _
theorem sb (rs1 rs2 : Reg) (imm : BitVec 12) : Statement (.sb rs1 rs2 imm) := row_S _ _ _ _ _
theorem sh (rs1 rs2 : Reg) (imm : BitVec 12) : Statement (.sh rs1 rs2 imm) := row_S _ _ _ _ _
theorem sw (rs1 rs2 : Reg) (imm : BitVec 12) : Statement (.sw rs1 rs2 imm) := row_S _ _ _ _ _
theorem addi (rd rs1 : Reg) (imm : BitVec 12) : Statement (.addi rd rs1 imm) := row_I _ _ _ _ _
theorem slti (rd rs1 : Reg) (imm : BitVec 12) : Statement (.slti rd rs1 imm) := row_I _ _ _ _ _
theorem sltiu (rd rs1 : Reg) (imm : BitVec 12) : Statement (.sltiu rd rs1 imm) := row_I _ _ _ _ _
theorem xori (rd rs1 : Reg) (imm : BitVec 12) : Statement (.xori rd rs1 imm) := row_I _ _ _ _ _
theorem ori (rd rs1 : Reg) (imm : BitVec 12) : Statement (.ori rd rs1 imm) := row_I _ _ _ _ _
theorem andi (rd rs1 : Reg) (imm : BitVec 12) : Statement (.andi rd rs1 imm) := row_I _ _ _ _ _
theorem slli (rd rs1 : Reg) (shamt : BitVec 5) : Statement (.slli rd rs1 shamt) := row_R _ _ _ _ _ _
theorem srli (rd rs1 : Reg) (shamt : BitVec 5) : Statement (.srli rd rs1 shamt) := row_R _ _ _ _ _ _
theorem srai (rd rs1 : Reg) (shamt : BitVec 5) : Statement (.srai rd rs1 shamt) := row_R _ _ _ _ _ _
theorem add (rd rs1 rs2 : Reg) : Statement (.add rd rs1 rs2) := row_R _ _ _ _ _ _
theorem sub (rd rs1 rs2 : Reg) : Statement (.sub rd rs1 rs2) := row_R _ _ _ _ _ _
theorem sll (rd rs1 rs2 : Reg) : Statement (.sll rd rs1 rs2) := row_R _ _ _ _ _ _
theorem slt (rd rs1 rs2 : Reg) : Statement (.slt rd rs1 rs2) := row_R _ _ _ _ _ _
theorem sltu (rd rs1 rs2 : Reg) : Statement (.sltu rd rs1 rs2) := row_R _ _ _ _ _ _
theorem xor (rd rs1 rs2 : Reg) : Statement (.xor rd rs1 rs2) := row_R _ _ _ _ _ _
theorem srl (rd rs1 rs2 : Reg) : Statement (.srl rd rs1 rs2) := row_R _ _ _ _ _ _
theorem sra (rd rs1 rs2 : Reg) : Statement (.sra rd rs1 rs2) := row_R _ _ _ _ _ _
theorem or (rd rs1 rs2 : Reg) : Statement (.or rd rs1 rs2) := row_R _ _ _ _ _ _
theorem and (rd rs1 rs2 : Reg) : Statement (.and rd rs1 rs2) := row_R _ _ _ _ _ _
theorem fence (rd rs1 : Reg) (fm pred succ : BitVec 4) : Statement (.fence rd rs1 fm pred succ) := row_Fence _ _ _ _ _ _ _
theorem fenceI (rd rs1 : Reg) (imm : BitVec 12) : Statement (.fenceI rd rs1 imm) := row_I _ _ _ _ _
theorem scall : Statement .scall := rfl
theorem sbreak : Statement .sbreak := rfl
theorem csrrw (rd rs1 : Reg) (csr : BitVec 12) : Statement (.csrrw rd rs1 csr) := row_I _ _ _ _ _
theorem csrrs (rd rs1 : Reg) (csr : BitVec 12) : Statement (.csrrs rd rs1 csr) := row_I _ _ _ _ _
theorem csrrc (rd rs1 : Reg) (csr : BitVec 12) : Statement (.csrrc rd rs1 csr) := row_I _ _ _ _ _
theorem csrrwi (rd : Reg) (uimm : BitVec 5) (csr : BitVec 12) : Statement (.csrrwi rd uimm csr) := row_I _ _ _ _ _
theorem csrrsi (rd : Reg) (uimm : BitVec 5) (csr : BitVec 12) : Statement (.csrrsi rd uimm csr) := row_I _ _ _ _ _
theorem csrrci (rd : Reg) (uimm : BitVec 5) (csr : BitVec 12) : Statement (.csrrci rd uimm csr) := row_I _ _ _ _ _
theorem mul (rd rs1 rs2 : Reg) : Statement (.mul rd rs1 rs2) := row_R _ _ _ _ _ _
theorem mulh (rd rs1 rs2 : Reg) : Statement (.mulh rd rs1 rs2) := row_R _ _ _ _ _ _
theorem mulhsu (rd rs1 rs2 : Reg) : Statement (.mulhsu rd rs1 rs2) := row_R _ _ _ _ _ _
theorem mulhu (rd rs1 rs2 : Reg) : Statement (.mulhu rd rs1 rs2) := row_R _ _ _ _ _ _
theorem div (rd rs1 rs2 : Reg) : Statement (.div rd rs1 rs2) := row_R _ _ _ _ _ _
theorem divu (rd rs1 rs2 : Reg) : Statement (.divu rd rs1 rs2) := row_R _ _ _ _ _ _
theorem rem (rd rs1 rs2 : Reg) : Statement (.rem rd rs1 rs2) := row_R _ _ _ _ _ _
theorem remu (rd rs1 rs2 : Reg) : Statement (.remu rd rs1 rs2) := row_R _ _ _ _ _ _
theorem lrW (rd rs1 : Reg) (aq rl : BitVec 1) : Statement (.lrW rd rs1 aq rl) := row_Amo_rs2 _ _ _ _ _ _ _ _
theorem scW (rd rs1 rs2 : Reg) (aq rl : BitVec 1) : Statement (.scW rd rs1 rs2 aq rl) := row_Amo _ _ _ _ _ _ _ _
theorem amoswapW (rd rs1 rs2 : Reg) (aq rl : BitVec 1) : Statement (.amoswapW rd rs1 rs2 aq rl) := row_Amo _ _ _ _ _ _ _ _
theorem amoaddW (rd rs1 rs2 : Reg) (aq rl : BitVec 1) : Statement (.amoaddW rd rs1 rs2 aq rl) := row_Amo _ _ _ _ _ _ _ _
theorem amoxorW (rd rs1 rs2 : Reg) (aq rl : BitVec 1) : Statement (.amoxorW rd rs1 rs2 aq rl) := row_Amo _ _ _ _ _ _ _ _
theorem amoandW (rd rs1 rs2 : Reg) (aq rl : BitVec 1) : Statement (.amoandW rd rs1 rs2 aq rl) := row_Amo _ _ _ _ _ _ _ _
theorem amoorW (rd rs1 rs2 : Reg) (aq rl : BitVec 1) : Statement (.amoorW rd rs1 rs2 aq rl) := row_Amo _ _ _ _ _ _ _ _
theorem amominW (rd rs1 rs2 : Reg) (aq rl : BitVec 1) : Statement (.amominW rd rs1 rs2 aq rl) := row_Amo _ _ _ _ _ _ _ _
theorem amomaxW (rd rs1 rs2 : Reg) (aq rl : BitVec 1) : Statement (.amomaxW rd rs1 rs2 aq rl) := row_Amo _ _ _ _ _ _ _ _
theorem amominuW (rd rs1 rs2 : Reg) (aq rl : BitVec 1) : Statement (.amominuW rd rs1 rs2 aq rl) := row_Amo _ _ _ _ _ _ _ _
theorem amomaxuW (rd rs1 rs2 : Reg) (aq rl : BitVec 1) : Statement (.amomaxuW rd rs1 rs2 aq rl) := row_Amo _ _ _ _ _ _ _ _
theorem flw (rd rs1 : Reg) (imm : BitVec 12) : Statement (.flw rd rs1 imm) := row_I _ _ _ _ _
theorem fsw (rs1 rs2 : Reg) (imm : BitVec 12) : Statement (.fsw rs1 rs2 imm) := row_S _ _ _ _ _
theorem faddS (rd rs1 rs2 : Reg) (rm : BitVec 3) : Statement (.faddS rd rs1 rs2 rm) := row_R_rm _ _ _ _ _ _
theorem fsubS (rd rs1 rs2 : Reg) (rm : BitVec 3) : Statement (.fsubS rd rs1 rs2 rm) := row_R_rm _ _ _ _ _ _
theorem fmulS (rd rs1 rs2 : Reg) (rm : BitVec 3) : Statement (.fmulS rd rs1 rs2 rm) := row_R_rm _ _ _ _ _ _
theorem fdivS (rd rs1 rs2 : Reg) (rm : BitVec 3) : Statement (.fdivS rd rs1 rs2 rm) := row_R_rm _ _ _ _ _ _
theorem fsqrtS (rd rs1 : Reg) (rm : BitVec 3) : Statement (.fsqrtS rd rs1 rm) := row_R_rs2_rm _ _ _ _ _ _
theorem fminS (rd rs1 rs2 : Reg) : Statement (.fminS rd rs1 rs2) := row_R _ _ _ _ _ _
theorem fmaxS (rd rs1 rs2 : Reg) : Statement (.fmaxS rd rs1 rs2) := row_R _ _ _ _ _ _
theorem fmaddS (rd rs1 rs2 rs3 : Reg) (rm : BitVec 3) : Statement (.fmaddS rd rs1 rs2 rs3 rm) := row_R4 _ _ _ _ _ _ _
theorem fmsubS (rd rs1 rs2 rs3 : Reg) (rm : BitVec 3) : Statement (.fmsubS rd rs1 rs2 rs3 rm) := row_R4 _ _ _ _ _ _ _
theorem fnmsubS (rd rs1 rs2 rs3 : Reg) (rm : BitVec 3) : Statement (.fnmsubS rd rs1 rs2 rs3 rm) := row_R4 _ _ _ _ _ _ _
theorem fnmaddS (rd rs1 rs2 rs3 : Reg) (rm : BitVec 3) : Statement (.fnmaddS rd rs1 rs2 rs3 rm) := row_R4 _ _ _ _ _ _ _
theorem fcvtWS (rd rs1 : Reg) (rm : BitVec 3) : Statement (.fcvtWS rd rs1 rm) := row_R_rs2_rm _ _ _ _ _ _
theorem fcvtWuS (rd rs1 : Reg) (rm : BitVec 3) : Statement (.fcvtWuS rd rs1 rm) := row_R_rs2_rm _ _ _ _ _ _
theorem fcvtSW (rd rs1 : Reg) (rm : BitVec 3) : Statement (.fcvtSW rd rs1 rm) := row_R_rs2_rm _ _ _ _ _ _
theorem fcvtSWu (rd rs1 : Reg) (rm : BitVec 3) : Statement (.fcvtSWu rd rs1 rm) := row_R_rs2_rm _ _ _ _ _ _
theorem fmvXS (rd rs1 : Reg) : Statement (.fmvXS rd rs1) := row_R_rs2 _ _ _ _ _ _
theorem fmvSX (rd rs1 : Reg) : Statement (.fmvSX rd rs1) := row_R_rs2 _ _ _ _ _ _
theorem feqS (rd rs1 rs2 : Reg) : Statement (.feqS rd rs1 rs2) := row_R _ _ _ _ _ _
theorem fltS (rd rs1 rs2 : Reg) : Statement (.fltS rd rs1 rs2) := row_R _ _ _ _ _ _
theorem fleS (rd rs1 rs2 : Reg) : Statement (.fleS rd rs1 rs2) := row_R _ _ _ _ _ _
theorem fsgnjS (rd rs1 rs2 : Reg) : Statement (.fsgnjS rd rs1 rs2) := row_R _ _ _ _ _ _
theorem fsgnjnS (rd rs1 rs2 : Reg) : Statement (.fsgnjnS rd rs1 rs2) := row_R _ _ _ _ _ _
theorem fsgnjxS (rd rs1 rs2 : Reg) : Statement (.fsgnjxS rd rs1 rs2) := row_R _ _ _ _ _ _
theorem fclassS (rd rs1 : Reg) : Statement (.fclassS rd rs1) := row_R_rs2 _ _ _ _ _ _
theorem fld (rd rs1 : Reg) (imm : BitVec 12) : Statement (.fld rd rs1 imm) := row_I _ _ _ _ _
theorem fsd (rs1 rs2 : Reg) (imm : BitVec 12) : Statement (.fsd rs1 rs2 imm) := row_S _ _ _ _ _
theorem faddD (rd rs1 rs2 : Reg) (rm : BitVec 3) : Statement (.faddD rd rs1 rs2 rm) := row_R_rm _ _ _ _ _ _
theorem fsubD (rd rs1 rs2 : Reg) (rm : BitVec 3) : Statement (.fsubD rd rs1 rs2 rm) := row_R_rm _ _ _ _ _ _
theorem fmulD (rd rs1 rs2 : Reg) (rm : BitVec 3) : Statement (.fmulD rd rs1 rs2 rm) := row_R_rm _ _ _ _ _ _
theorem fdivD (rd rs1 rs2 : Reg) (rm : BitVec 3) : Statement (.fdivD rd rs1 rs2 rm) := row_R_rm _ _ _ _ _ _
theorem fsqrtD (rd rs1 : Reg) (rm : BitVec 3) : Statement (.fsqrtD rd rs1 rm) := row_R_rs2_rm _ _ _ _ _ _
theorem fminD (rd rs1 rs2 : Reg) : Statement (.fminD rd rs1 rs2) := row_R _ _ _ _ _ _
theorem fmaxD (rd rs1 rs2 : Reg) : Statement (.fmaxD rd rs1 rs2) := row_R _ _ _ _ _ _
theorem fmaddD (rd rs1 rs2 rs3 : Reg) (rm : BitVec 3) : Statement (.fmaddD rd rs1 rs2 rs3 rm) := row_R4 _ _ _ _ _ _ _
theorem fmsubD (rd rs1 rs2 rs3 : Reg) (rm : BitVec 3) : Statement (.fmsubD rd rs1 rs2 rs3 rm) := row_R4 _ _ _ _ _ _ _
theorem fnmsubD (rd rs1 rs2 rs3 : Reg) (rm : BitVec 3) : Statement (.fnmsubD rd rs1 rs2 rs3 rm) := row_R4 _ _ _ _ _ _ _
theorem fnmaddD (rd rs1 rs2 rs3 : Reg) (rm : BitVec 3) : Statement (.fnmaddD rd rs1 rs2 rs3 rm) := row_R4 _ _ _ _ _ _ _
theorem fcvtWD (rd rs1 : Reg) (rm : BitVec 3) : Statement (.fcvtWD rd rs1 rm) := row_R_rs2_rm _ _ _ _ _ _
theorem fcvtWuD (rd rs1 : Reg) (rm : BitVec 3) : Statement (.fcvtWuD rd rs1 rm) := row_R_rs2_rm _ _ _ _ _ _
theorem fcvtDW (rd rs1 : Reg) (rm : BitVec 3) : Statement (.fcvtDW rd rs1 rm) := row_R_rs2_rm _ _ _ _ _ _
theorem fcvtDWu (rd rs1 : Reg) (rm : BitVec 3) : Statement (.fcvtDWu rd rs1 rm) := row_R_rs2_rm _ _ _ _ _ _
theorem feqD (rd rs1 rs2 : Reg) : Statement (.feqD rd rs1 rs2) := row_R _ _ _ _ _ _
theorem fltD (rd rs1 rs2 : Reg) : Statement (.fltD rd rs1 rs2) := row_R _ _ _ _ _ _
theorem fleD (rd rs1 rs2 : Reg) : Statement (.fleD rd rs1 rs2) := row_R _ _ _ _ _ _
theorem fsgnjD (rd rs1 rs2 : Reg) : Statement (.fsgnjD rd rs1 rs2) := row_R _ _ _ _ _ _
theorem fsgnjnD (rd rs1 rs2 : Reg) : Statement (.fsgnjnD rd rs1 rs2) := row_R _ _ _ _ _ _
theorem fsgnjxD (rd rs1 rs2 : Reg) : Statement (.fsgnjxD rd rs1 rs2) := row_R _ _ _ _ _ _
theorem fclassD (rd rs1 : Reg) : Statement (.fclassD rd rs1) := row_R_rs2 _ _ _ _ _ _
theorem fcvtSD (rd rs1 : Reg) (rm : BitVec 3) : Statement (.fcvtSD rd rs1 rm) := row_R_rs2_rm _ _ _ _ _ _
theorem fcvtDS (rd rs1 : Reg) (rm : BitVec 3) : Statement (.fcvtDS rd rs1 rm) := row_R_rs2_rm _ _ _ _ _ _

end Sys2Proof.Laws.EncodesRow
end

