-- ==== Sys2Proof/Laws/Step.lean ====
section
/-! SUPPORT. What `State.withFetchWord` does: the very next fetch reads the word placed, and nothing but memory at `pc` and
`modified` changes. -/

namespace Sys2Proof.Machine

open Sys2Proof.Claims

/-- A placed word is no longer unfenced. -/
theorem fetchUnfenced_placeFetchWord (s : State) (w : Word) : fetchUnfenced (placeFetchWord s w) = false := by
  unfold fetchUnfenced placeFetchWord
  cases s.cfg.fetchCoherence <;> simp

/-- A placed word is the word at `pc`. -/
theorem wordAt_placeFetchWord {s : State} (hm : Memory.wf s.mem = true) (w : Word) :
    wordAt (placeFetchWord s w) (placeFetchWord s w).pc = w :=
  memRead32_memWrite hm s.pc w

/-- A running state at an aligned `pc` where fetches are admitted fetches the word placed. -/
theorem fetchable_withFetchWord {s : State} (hs : s.status = .running) (hpc : s.pc.toNat % 4 = 0)
    (hm : Memory.wf s.mem = true) (ha : Admits s.cfg s.pc 4 .read) (nbits w : Nat) :
    Fetchable (s.withFetchWord nbits w) ∧
      wordAt (s.withFetchWord nbits w) (s.withFetchWord nbits w).pc = BitVec.ofNat 32 (w % 2 ^ nbits) := by
  refine ⟨⟨hs, hpc, fun h => ?_, ha⟩, wordAt_placeFetchWord hm _⟩
  have := (fetchUnfenced_iff _).2 h
  rw [State.withFetchWord, fetchUnfenced_placeFetchWord] at this
  cases this

/-- What placing a word leaves alone. -/
theorem placeFetchWord_frame (s : State) (w : Word) :
    (placeFetchWord s w).x = s.x ∧ (placeFetchWord s w).f = s.f ∧ (placeFetchWord s w).pc = s.pc ∧
      (placeFetchWord s w).frm = s.frm ∧ (placeFetchWord s w).fflags = s.fflags ∧
      (placeFetchWord s w).status = s.status ∧ (placeFetchWord s w).record = s.record ∧
      (placeFetchWord s w).cfg = s.cfg ∧ (placeFetchWord s w).draws = s.draws :=
  ⟨rfl, rfl, rfl, rfl, rfl, rfl, rfl, rfl, rfl⟩

end Sys2Proof.Machine
end

