-- ==== Sys2Proof/Tests/Slice0.lean ====
section
/-! SUPPORT. The model's own tests: the well-formedness smoke test, the decoding of words written out bit by bit from
spec/opcode_table.json, single steps with the expected results of spec/95_test_vectors.md, and a witness for the
hypotheses of every obligation. -/

namespace Sys2Proof.Tests

set_option Elab.async false

open Sys2Proof.Machine Sys2Proof.Claims Sys2Proof.Ieee

/-! ## Helpers -/

/-- The reset state at `pc = 0x1000` with the given registers, slots and memory words. -/
def start (x f : List (Reg × Word)) (words : List (Word × Word)) : State :=
  words.foldl (fun s p => { s with mem := memWrite s.mem p.1 (bytes32 p.2) })
    (f.foldl (fun s p => writeF p.1 p.2 s)
      (x.foldl (fun s p => writeX p.1 p.2 s) { State.reset with pc := 0x1000#32 }))

/-- The state after one step; the state itself where no step is admitted. -/
def afterStep (s : State) : State :=
  match step s with
  | .next t => t
  | .fault _ => s
  | .refused _ => s

/-- One view of the state after one step that fetches the word `w`. -/
def observe {α : Type} (w : Nat) (s : State) (view : State → α) : α := view (afterStep (s.withFetchWord 32 w))

/-! ## Well-formedness: each check refuses an ill-formed term (30_encoding R165, R167) -/

theorem test_wellFormed_refuses_odd_branch_offsets :
    WellFormed (.beq 1#5 2#5 3#13) = false ∧ WellFormed (.bne 1#5 2#5 3#13) = false ∧
    WellFormed (.blt 1#5 2#5 3#13) = false ∧ WellFormed (.bge 1#5 2#5 3#13) = false ∧
    WellFormed (.bltu 1#5 2#5 3#13) = false ∧ WellFormed (.bgeu 1#5 2#5 3#13) = false ∧
    WellFormed (.beq 1#5 2#5 2#13) = true := by
  decide

theorem test_wellFormed_refuses_odd_jump_offset :
    WellFormed (.jal 1#5 5#21) = false ∧ WellFormed (.jal 1#5 4#21) = true := by
  decide

/-! ## Decoding: words written out from the encoding of each row -/

/-- Encodings of 40_integer R201 to R211, fields from the table. -/
theorem test_decode_integer_upper_and_immediate :
    decode 0b10100110101100111101_10010_0110111#32 = .ok (.lui 18#5 0xA6B3D#20) ∧
    decode 0b10100110101100111101_10010_0010111#32 = .ok (.auipc 18#5 0xA6B3D#20) ∧
    decode 0b101001011100_01101_000_10010_0010011#32 = .ok (.addi 18#5 13#5 0xA5C#12) ∧
    decode 0b101001011100_01101_010_10010_0010011#32 = .ok (.slti 18#5 13#5 0xA5C#12) ∧
    decode 0b101001011100_01101_011_10010_0010011#32 = .ok (.sltiu 18#5 13#5 0xA5C#12) ∧
    decode 0b101001011100_01101_100_10010_0010011#32 = .ok (.xori 18#5 13#5 0xA5C#12) ∧
    decode 0b101001011100_01101_110_10010_0010011#32 = .ok (.ori 18#5 13#5 0xA5C#12) ∧
    decode 0b101001011100_01101_111_10010_0010011#32 = .ok (.andi 18#5 13#5 0xA5C#12) ∧
    decode 0b0000000_10101_01101_001_10010_0010011#32 = .ok (.slli 18#5 13#5 21#5) ∧
    decode 0b0000000_10101_01101_101_10010_0010011#32 = .ok (.srli 18#5 13#5 21#5) ∧
    decode 0b0100000_10101_01101_101_10010_0010011#32 = .ok (.srai 18#5 13#5 21#5) := by
  decide +kernel

/-- Encodings of R212 to R221, fields from the table. -/
theorem test_decode_integer_register :
    decode 0b0000000_11010_01101_000_10010_0110011#32 = .ok (.add 18#5 13#5 26#5) ∧
    decode 0b0100000_11010_01101_000_10010_0110011#32 = .ok (.sub 18#5 13#5 26#5) ∧
    decode 0b0000000_11010_01101_001_10010_0110011#32 = .ok (.sll 18#5 13#5 26#5) ∧
    decode 0b0000000_11010_01101_010_10010_0110011#32 = .ok (.slt 18#5 13#5 26#5) ∧
    decode 0b0000000_11010_01101_011_10010_0110011#32 = .ok (.sltu 18#5 13#5 26#5) ∧
    decode 0b0000000_11010_01101_100_10010_0110011#32 = .ok (.xor 18#5 13#5 26#5) ∧
    decode 0b0000000_11010_01101_101_10010_0110011#32 = .ok (.srl 18#5 13#5 26#5) ∧
    decode 0b0100000_11010_01101_101_10010_0110011#32 = .ok (.sra 18#5 13#5 26#5) ∧
    decode 0b0000000_11010_01101_110_10010_0110011#32 = .ok (.or 18#5 13#5 26#5) ∧
    decode 0b0000000_11010_01101_111_10010_0110011#32 = .ok (.and 18#5 13#5 26#5) := by
  decide +kernel

/-- Encodings of 41_control_flow R253 to R262, fields from the table. -/
theorem test_decode_branches_and_jumps :
    decode 0b1_110101_11010_01101_000_1010_0_1100011#32 = .ok (.beq 13#5 26#5 0x16B4#13) ∧
    decode 0b1_110101_11010_01101_001_1010_0_1100011#32 = .ok (.bne 13#5 26#5 0x16B4#13) ∧
    decode 0b1_110101_11010_01101_100_1010_0_1100011#32 = .ok (.blt 13#5 26#5 0x16B4#13) ∧
    decode 0b1_110101_11010_01101_101_1010_0_1100011#32 = .ok (.bge 13#5 26#5 0x16B4#13) ∧
    decode 0b1_110101_11010_01101_110_1010_0_1100011#32 = .ok (.bltu 13#5 26#5 0x16B4#13) ∧
    decode 0b1_110101_11010_01101_111_1010_0_1100011#32 = .ok (.bgeu 13#5 26#5 0x16B4#13) ∧
    decode 0b1_1101011010_0_00101111_10010_1101111#32 = .ok (.jal 18#5 0x12F6B4#21) ∧
    decode 0b101001011100_01101_000_10010_1100111#32 = .ok (.jalr 18#5 13#5 0xA5C#12) := by
  decide +kernel

/-- Encodings of 42_load_store R301 to R312, fields from the table. -/
theorem test_decode_loads_and_stores :
    decode 0b101001011100_01101_000_10010_0000011#32 = .ok (.lb 18#5 13#5 0xA5C#12) ∧
    decode 0b101001011100_01101_001_10010_0000011#32 = .ok (.lh 18#5 13#5 0xA5C#12) ∧
    decode 0b101001011100_01101_010_10010_0000011#32 = .ok (.lw 18#5 13#5 0xA5C#12) ∧
    decode 0b101001011100_01101_100_10010_0000011#32 = .ok (.lbu 18#5 13#5 0xA5C#12) ∧
    decode 0b101001011100_01101_101_10010_0000011#32 = .ok (.lhu 18#5 13#5 0xA5C#12) ∧
    decode 0b1010010_11010_01101_000_11100_0100011#32 = .ok (.sb 13#5 26#5 0xA5C#12) ∧
    decode 0b1010010_11010_01101_001_11100_0100011#32 = .ok (.sh 13#5 26#5 0xA5C#12) ∧
    decode 0b1010010_11010_01101_010_11100_0100011#32 = .ok (.sw 13#5 26#5 0xA5C#12) ∧
    decode 0b101001011100_01101_010_10010_0000111#32 = .ok (.flw 18#5 13#5 0xA5C#12) ∧
    decode 0b1010010_11010_01101_010_11100_0100111#32 = .ok (.fsw 13#5 26#5 0xA5C#12) ∧
    decode 0b101001011100_01101_011_10010_0000111#32 = .ok (.fld 18#5 13#5 0xA5C#12) ∧
    decode 0b1010010_11010_01101_011_11100_0100111#32 = .ok (.fsd 13#5 26#5 0xA5C#12) := by
  decide +kernel

/-- Encodings of 43_muldiv R351 to R358, fields from the table. -/
theorem test_decode_multiply_divide :
    decode 0b0000001_11010_01101_000_10010_0110011#32 = .ok (.mul 18#5 13#5 26#5) ∧
    decode 0b0000001_11010_01101_001_10010_0110011#32 = .ok (.mulh 18#5 13#5 26#5) ∧
    decode 0b0000001_11010_01101_010_10010_0110011#32 = .ok (.mulhsu 18#5 13#5 26#5) ∧
    decode 0b0000001_11010_01101_011_10010_0110011#32 = .ok (.mulhu 18#5 13#5 26#5) ∧
    decode 0b0000001_11010_01101_100_10010_0110011#32 = .ok (.div 18#5 13#5 26#5) ∧
    decode 0b0000001_11010_01101_101_10010_0110011#32 = .ok (.divu 18#5 13#5 26#5) ∧
    decode 0b0000001_11010_01101_110_10010_0110011#32 = .ok (.rem 18#5 13#5 26#5) ∧
    decode 0b0000001_11010_01101_111_10010_0110011#32 = .ok (.remu 18#5 13#5 26#5) := by
  decide +kernel

/-- Encodings of 44_atomic R401 to R411, fields from the table. -/
theorem test_decode_atomics :
    decode 0b00010_1_0_00000_01101_010_10010_0101111#32 = .ok (.lrW 18#5 13#5 1#1 0#1) ∧
    decode 0b00011_1_0_11010_01101_010_10010_0101111#32 = .ok (.scW 18#5 13#5 26#5 1#1 0#1) ∧
    decode 0b00001_1_0_11010_01101_010_10010_0101111#32 = .ok (.amoswapW 18#5 13#5 26#5 1#1 0#1) ∧
    decode 0b00000_1_0_11010_01101_010_10010_0101111#32 = .ok (.amoaddW 18#5 13#5 26#5 1#1 0#1) ∧
    decode 0b00100_1_0_11010_01101_010_10010_0101111#32 = .ok (.amoxorW 18#5 13#5 26#5 1#1 0#1) ∧
    decode 0b01100_1_0_11010_01101_010_10010_0101111#32 = .ok (.amoandW 18#5 13#5 26#5 1#1 0#1) ∧
    decode 0b01000_1_0_11010_01101_010_10010_0101111#32 = .ok (.amoorW 18#5 13#5 26#5 1#1 0#1) ∧
    decode 0b10000_1_0_11010_01101_010_10010_0101111#32 = .ok (.amominW 18#5 13#5 26#5 1#1 0#1) ∧
    decode 0b10100_1_0_11010_01101_010_10010_0101111#32 = .ok (.amomaxW 18#5 13#5 26#5 1#1 0#1) ∧
    decode 0b11000_1_0_11010_01101_010_10010_0101111#32 = .ok (.amominuW 18#5 13#5 26#5 1#1 0#1) ∧
    decode 0b11100_1_0_11010_01101_010_10010_0101111#32 = .ok (.amomaxuW 18#5 13#5 26#5 1#1 0#1) := by
  decide +kernel

/-- Encodings of 46_fp_single R501 to R511, fields from the table. -/
theorem test_decode_single_arithmetic :
    decode 0b0000000_11010_01101_011_10010_1010011#32 = .ok (.faddS 18#5 13#5 26#5 3#3) ∧
    decode 0b0000100_11010_01101_011_10010_1010011#32 = .ok (.fsubS 18#5 13#5 26#5 3#3) ∧
    decode 0b0001000_11010_01101_011_10010_1010011#32 = .ok (.fmulS 18#5 13#5 26#5 3#3) ∧
    decode 0b0001100_11010_01101_011_10010_1010011#32 = .ok (.fdivS 18#5 13#5 26#5 3#3) ∧
    decode 0b010110000000_01101_011_10010_1010011#32 = .ok (.fsqrtS 18#5 13#5 3#3) ∧
    decode 0b0010100_11010_01101_000_10010_1010011#32 = .ok (.fminS 18#5 13#5 26#5) ∧
    decode 0b0010100_11010_01101_001_10010_1010011#32 = .ok (.fmaxS 18#5 13#5 26#5) ∧
    decode 0b00111_00_11010_01101_011_10010_1000011#32 = .ok (.fmaddS 18#5 13#5 26#5 7#5 3#3) ∧
    decode 0b00111_00_11010_01101_011_10010_1000111#32 = .ok (.fmsubS 18#5 13#5 26#5 7#5 3#3) ∧
    decode 0b00111_00_11010_01101_011_10010_1001011#32 = .ok (.fnmsubS 18#5 13#5 26#5 7#5 3#3) ∧
    decode 0b00111_00_11010_01101_011_10010_1001111#32 = .ok (.fnmaddS 18#5 13#5 26#5 7#5 3#3) := by
  decide +kernel

/-- Encodings of R512 to R524, fields from the table. -/
theorem test_decode_single_conversion_and_compare :
    decode 0b110000000000_01101_011_10010_1010011#32 = .ok (.fcvtWS 18#5 13#5 3#3) ∧
    decode 0b110000000001_01101_011_10010_1010011#32 = .ok (.fcvtWuS 18#5 13#5 3#3) ∧
    decode 0b110100000000_01101_011_10010_1010011#32 = .ok (.fcvtSW 18#5 13#5 3#3) ∧
    decode 0b110100000001_01101_011_10010_1010011#32 = .ok (.fcvtSWu 18#5 13#5 3#3) ∧
    decode 0b111000000000_01101_000_10010_1010011#32 = .ok (.fmvXS 18#5 13#5) ∧
    decode 0b111100000000_01101_000_10010_1010011#32 = .ok (.fmvSX 18#5 13#5) ∧
    decode 0b1010000_11010_01101_010_10010_1010011#32 = .ok (.feqS 18#5 13#5 26#5) ∧
    decode 0b1010000_11010_01101_001_10010_1010011#32 = .ok (.fltS 18#5 13#5 26#5) ∧
    decode 0b1010000_11010_01101_000_10010_1010011#32 = .ok (.fleS 18#5 13#5 26#5) ∧
    decode 0b0010000_11010_01101_000_10010_1010011#32 = .ok (.fsgnjS 18#5 13#5 26#5) ∧
    decode 0b0010000_11010_01101_001_10010_1010011#32 = .ok (.fsgnjnS 18#5 13#5 26#5) ∧
    decode 0b0010000_11010_01101_010_10010_1010011#32 = .ok (.fsgnjxS 18#5 13#5 26#5) ∧
    decode 0b111000000000_01101_001_10010_1010011#32 = .ok (.fclassS 18#5 13#5) := by
  decide +kernel

/-- Encodings of 47_fp_double R551 to R561, fields from the table. -/
theorem test_decode_double_arithmetic :
    decode 0b0000001_11010_01101_011_10010_1010011#32 = .ok (.faddD 18#5 13#5 26#5 3#3) ∧
    decode 0b0000101_11010_01101_011_10010_1010011#32 = .ok (.fsubD 18#5 13#5 26#5 3#3) ∧
    decode 0b0001001_11010_01101_011_10010_1010011#32 = .ok (.fmulD 18#5 13#5 26#5 3#3) ∧
    decode 0b0001101_11010_01101_011_10010_1010011#32 = .ok (.fdivD 18#5 13#5 26#5 3#3) ∧
    decode 0b010110100000_01101_011_10010_1010011#32 = .ok (.fsqrtD 18#5 13#5 3#3) ∧
    decode 0b0010101_11010_01101_000_10010_1010011#32 = .ok (.fminD 18#5 13#5 26#5) ∧
    decode 0b0010101_11010_01101_001_10010_1010011#32 = .ok (.fmaxD 18#5 13#5 26#5) ∧
    decode 0b00111_01_11010_01101_011_10010_1000011#32 = .ok (.fmaddD 18#5 13#5 26#5 7#5 3#3) ∧
    decode 0b00111_01_11010_01101_011_10010_1000111#32 = .ok (.fmsubD 18#5 13#5 26#5 7#5 3#3) ∧
    decode 0b00111_01_11010_01101_011_10010_1001011#32 = .ok (.fnmsubD 18#5 13#5 26#5 7#5 3#3) ∧
    decode 0b00111_01_11010_01101_011_10010_1001111#32 = .ok (.fnmaddD 18#5 13#5 26#5 7#5 3#3) := by
  decide +kernel

/-- Encodings of R562 to R574, fields from the table. -/
theorem test_decode_double_conversion_and_compare :
    decode 0b110000100000_01101_011_10010_1010011#32 = .ok (.fcvtWD 18#5 13#5 3#3) ∧
    decode 0b110000100001_01101_011_10010_1010011#32 = .ok (.fcvtWuD 18#5 13#5 3#3) ∧
    decode 0b110100100000_01101_011_10010_1010011#32 = .ok (.fcvtDW 18#5 13#5 3#3) ∧
    decode 0b110100100001_01101_011_10010_1010011#32 = .ok (.fcvtDWu 18#5 13#5 3#3) ∧
    decode 0b1010001_11010_01101_010_10010_1010011#32 = .ok (.feqD 18#5 13#5 26#5) ∧
    decode 0b1010001_11010_01101_001_10010_1010011#32 = .ok (.fltD 18#5 13#5 26#5) ∧
    decode 0b1010001_11010_01101_000_10010_1010011#32 = .ok (.fleD 18#5 13#5 26#5) ∧
    decode 0b0010001_11010_01101_000_10010_1010011#32 = .ok (.fsgnjD 18#5 13#5 26#5) ∧
    decode 0b0010001_11010_01101_001_10010_1010011#32 = .ok (.fsgnjnD 18#5 13#5 26#5) ∧
    decode 0b0010001_11010_01101_010_10010_1010011#32 = .ok (.fsgnjxD 18#5 13#5 26#5) ∧
    decode 0b111000100000_01101_001_10010_1010011#32 = .ok (.fclassD 18#5 13#5) ∧
    decode 0b010000000001_01101_011_10010_1010011#32 = .ok (.fcvtSD 18#5 13#5 3#3) ∧
    decode 0b010000100000_01101_011_10010_1010011#32 = .ok (.fcvtDS 18#5 13#5 3#3) := by
  decide +kernel

/-- Encodings of 48_system R601 to R611, fields from the table. -/
theorem test_decode_system :
    decode 0b00000000000000000000000001110011#32 = .ok (.scall) ∧
    decode 0b00000000000100000000000001110011#32 = .ok (.sbreak) ∧
    decode 0b1010_1101_0110_01101_000_10010_0001111#32 = .ok (.fence 18#5 13#5 10#4 13#4 6#4) ∧
    decode 0b101001011100_01101_001_10010_0001111#32 = .ok (.fenceI 18#5 13#5 0xA5C#12) ∧
    decode 0b010111000011_01101_001_10010_1110011#32 = .ok (.csrrw 18#5 13#5 0x5C3#12) ∧
    decode 0b010111000011_01101_010_10010_1110011#32 = .ok (.csrrs 18#5 13#5 0x5C3#12) ∧
    decode 0b010111000011_01101_011_10010_1110011#32 = .ok (.csrrc 18#5 13#5 0x5C3#12) ∧
    decode 0b010111000011_10110_101_10010_1110011#32 = .ok (.csrrwi 18#5 22#5 0x5C3#12) ∧
    decode 0b010111000011_10110_110_10010_1110011#32 = .ok (.csrrsi 18#5 22#5 0x5C3#12) ∧
    decode 0b010111000011_10110_111_10010_1110011#32 = .ok (.csrrci 18#5 22#5 0x5C3#12) := by
  decide +kernel

/-! ## One step each, from the vectors of 95_test_vectors -/

/-- 95_test_vectors I25, I27. -/
theorem test_upper_immediates :
    observe 0xFFFFF2B7 (start [] [] []) (fun t => readX 5#5 t) = 0xFFFFF000#32 ∧
    observe 0xFFFFF297 (start [] [] []) (fun t => readX 5#5 t) = 0x00000000#32 := by
  decide +kernel

/-- 95_test_vectors I11, I15, I16, I18, I19, I20, I21, I22, I23. -/
theorem test_immediate_alu :
    observe 0xFFF00293 (start [] [] []) (fun t => readX 5#5 t) = 0xFFFFFFFF#32 ∧
    observe 0xFFF32293 (start [(6#5, 0xFFFFFFFE#32)] [] []) (fun t => readX 5#5 t) = 0x00000001#32 ∧
    observe 0xFFF33293 (start [(6#5, 0xFFFFFFFE#32)] [] []) (fun t => readX 5#5 t) = 0x00000001#32 ∧
    observe 0xFFF34293 (start [(6#5, 0x12345678#32)] [] []) (fun t => readX 5#5 t) = 0xEDCBA987#32 ∧
    observe 0x80036293 (start [(6#5, 0x00000001#32)] [] []) (fun t => readX 5#5 t) = 0xFFFFF801#32 ∧
    observe 0x7FF37293 (start [(6#5, 0xFFFFFFFF#32)] [] []) (fun t => readX 5#5 t) = 0x000007FF#32 ∧
    observe 0x01F31293 (start [(6#5, 0x00000003#32)] [] []) (fun t => readX 5#5 t) = 0x80000000#32 ∧
    observe 0x00435293 (start [(6#5, 0x80000000#32)] [] []) (fun t => readX 5#5 t) = 0x08000000#32 ∧
    observe 0x40435293 (start [(6#5, 0x80000000#32)] [] []) (fun t => readX 5#5 t) = 0xF8000000#32 := by
  decide +kernel

/-- 95_test_vectors I1, I2, I3, I4, I5, I6, I7, S35, I9, I10. -/
theorem test_register_alu :
    observe 0x007302B3 (start [(6#5, 0x7FFFFFFF#32), (7#5, 0x00000001#32)] [] []) (fun t => readX 5#5 t) =
      0x80000000#32 ∧
    observe 0x407302B3 (start [(6#5, 0x00000000#32), (7#5, 0x00000001#32)] [] []) (fun t => readX 5#5 t) =
      0xFFFFFFFF#32 ∧
    observe 0x007312B3 (start [(6#5, 0x00000001#32), (7#5, 0x00000021#32)] [] []) (fun t => readX 5#5 t) =
      0x00000002#32 ∧
    observe 0x007322B3 (start [(6#5, 0xFFFFFFFF#32), (7#5, 0x00000001#32)] [] []) (fun t => readX 5#5 t) =
      0x00000001#32 ∧
    observe 0x007332B3 (start [(6#5, 0xFFFFFFFF#32), (7#5, 0x00000001#32)] [] []) (fun t => readX 5#5 t) =
      0x00000000#32 ∧
    observe 0x007342B3 (start [(6#5, 0xF0F0F0F0#32), (7#5, 0xFF00FF00#32)] [] []) (fun t => readX 5#5 t) =
      0x0FF00FF0#32 ∧
    observe 0x007352B3 (start [(6#5, 0x80000000#32), (7#5, 0x0000001F#32)] [] []) (fun t => readX 5#5 t) =
      0x00000001#32 ∧
    observe 0x407352B3 (start [(6#5, 0x80000000#32), (7#5, 0x00000024#32)] [] []) (fun t => readX 5#5 t) =
      0xF8000000#32 ∧
    observe 0x007362B3 (start [(6#5, 0xF0F0F0F0#32), (7#5, 0x0F0F0F0F#32)] [] []) (fun t => readX 5#5 t) =
      0xFFFFFFFF#32 ∧
    observe 0x007372B3 (start [(6#5, 0xF0F0F0F0#32), (7#5, 0xFF00FF00#32)] [] []) (fun t => readX 5#5 t) =
      0xF000F000#32 := by
  decide +kernel

/-- 95_test_vectors I14, M18, L11, A13. -/
theorem test_writes_to_x0 :
    observe 0x00530013 (start [(6#5, 0x00000007#32)] [] []) (fun t => t.pc) = 0x00001004#32 ∧
    observe 0x02734033 (start [(6#5, 0x00000001#32), (7#5, 0x00000000#32)] [] []) (fun t => readX 0#5 t) =
      0x00000000#32 ∧
    observe 0x00032003
        (start [(6#5, 0x00002000#32)] [] [(0x00002000#32, 0x8899AABB#32), (0x00002004#32, 0x11223344#32)])
        (fun t => t.pc) =
      0x00001004#32 ∧
    observe 0x0873202F
        (start [(6#5, 0x00002000#32), (7#5, 0x00000003#32)] [] [(0x00002000#32, 0x80000001#32)])
        (fun t => memRead32 t.mem 0x00002000#32) =
      0x00000003#32 := by
  decide +kernel

/-- 95_test_vectors M1, M5, M6, M4. -/
theorem test_multiply :
    observe 0x027302B3 (start [(6#5, 0x7FFFFFFF#32), (7#5, 0x00000002#32)] [] []) (fun t => readX 5#5 t) =
      0xFFFFFFFE#32 ∧
    observe 0x027312B3 (start [(6#5, 0x80000000#32), (7#5, 0x80000000#32)] [] []) (fun t => readX 5#5 t) =
      0x40000000#32 ∧
    observe 0x027322B3 (start [(6#5, 0x80000000#32), (7#5, 0xFFFFFFFF#32)] [] []) (fun t => readX 5#5 t) =
      0x80000000#32 ∧
    observe 0x027332B3 (start [(6#5, 0xFFFFFFFF#32), (7#5, 0xFFFFFFFF#32)] [] []) (fun t => readX 5#5 t) =
      0xFFFFFFFE#32 := by
  decide +kernel

/-- 95_test_vectors M7, M10, M12, M16. -/
theorem test_divide :
    observe 0x027342B3 (start [(6#5, 0xFFFFFFF9#32), (7#5, 0x00000002#32)] [] []) (fun t => readX 5#5 t) =
      0xFFFFFFFD#32 ∧
    observe 0x027352B3 (start [(6#5, 0xFFFFFFF9#32), (7#5, 0x00000002#32)] [] []) (fun t => readX 5#5 t) =
      0x7FFFFFFC#32 ∧
    observe 0x027362B3 (start [(6#5, 0xFFFFFFF9#32), (7#5, 0x00000002#32)] [] []) (fun t => readX 5#5 t) =
      0xFFFFFFFF#32 ∧
    observe 0x027372B3 (start [(6#5, 0xFFFFFFF9#32), (7#5, 0x00000002#32)] [] []) (fun t => readX 5#5 t) =
      0x00000001#32 := by
  decide +kernel

/-- 95_test_vectors M9, M11, M15, M17. -/
theorem test_divide_corners :
    observe 0x027342B3 (start [(6#5, 0x80000000#32), (7#5, 0xFFFFFFFF#32)] [] []) (fun t => readX 5#5 t) =
      0x80000000#32 ∧
    observe 0x027352B3 (start [(6#5, 0x12345678#32), (7#5, 0x00000000#32)] [] []) (fun t => readX 5#5 t) =
      0xFFFFFFFF#32 ∧
    observe 0x027362B3 (start [(6#5, 0x80000000#32), (7#5, 0xFFFFFFFF#32)] [] []) (fun t => readX 5#5 t) =
      0x00000000#32 ∧
    observe 0x027372B3 (start [(6#5, 0xFFFFFFF9#32), (7#5, 0x00000000#32)] [] []) (fun t => readX 5#5 t) =
      0xFFFFFFF9#32 := by
  decide +kernel

/-- 95_test_vectors B1, B3, B4, B6, B5, B7. -/
theorem test_branches :
    observe 0x00628463 (start [(5#5, 0x00000003#32), (6#5, 0x00000003#32)] [] []) (fun t => t.pc) = 0x00001008#32 ∧
    observe 0xFE629EE3 (start [(5#5, 0x00000003#32), (6#5, 0x00000004#32)] [] []) (fun t => t.pc) = 0x00000FFC#32 ∧
    observe 0x0062C863 (start [(5#5, 0xFFFFFFFF#32), (6#5, 0x00000001#32)] [] []) (fun t => t.pc) = 0x00001010#32 ∧
    observe 0x0062D863 (start [(5#5, 0x80000000#32), (6#5, 0x80000000#32)] [] []) (fun t => t.pc) = 0x00001010#32 ∧
    observe 0x0062E863 (start [(5#5, 0xFFFFFFFF#32), (6#5, 0x00000001#32)] [] []) (fun t => t.pc) = 0x00001004#32 ∧
    observe 0x0062F863 (start [(5#5, 0x00000000#32), (6#5, 0x00000001#32)] [] []) (fun t => t.pc) = 0x00001004#32 := by
  decide +kernel

/-- 95_test_vectors B12, B14, B15. -/
theorem test_jumps :
    observe 0x800FE0EF (start [] [] []) (fun t => (readX 1#5 t, t.pc)) = (0x00001004#32, 0xFFFFF000#32) ∧
    observe 0x00430367 (start [(6#5, 0x00003000#32)] [] []) (fun t => (readX 6#5 t, t.pc)) =
      (0x00001004#32, 0x00003004#32) ∧
    observe 0xFFF30067 (start [(6#5, 0x00002000#32)] [] []) (fun t => t.pc) = 0x00001FFE#32 := by
  decide +kernel

/-- 95_test_vectors L1, L3, L7, L2, L4. -/
theorem test_integer_loads :
    observe 0x00030283
        (start [(6#5, 0x00002000#32)] [] [(0x00002000#32, 0x8899AABB#32), (0x00002004#32, 0x11223344#32)])
        (fun t => readX 5#5 t) =
      0xFFFFFFBB#32 ∧
    observe 0x00231283
        (start [(6#5, 0x00002000#32)] [] [(0x00002000#32, 0x8899AABB#32), (0x00002004#32, 0x11223344#32)])
        (fun t => readX 5#5 t) =
      0xFFFF8899#32 ∧
    observe 0x00232283
        (start [(6#5, 0x00002000#32)] [] [(0x00002000#32, 0x8899AABB#32), (0x00002004#32, 0x11223344#32)])
        (fun t => readX 5#5 t) =
      0x33448899#32 ∧
    observe 0x00034283
        (start [(6#5, 0x00002000#32)] [] [(0x00002000#32, 0x8899AABB#32), (0x00002004#32, 0x11223344#32)])
        (fun t => readX 5#5 t) =
      0x000000BB#32 ∧
    observe 0x00235283
        (start [(6#5, 0x00002000#32)] [] [(0x00002000#32, 0x8899AABB#32), (0x00002004#32, 0x11223344#32)])
        (fun t => readX 5#5 t) =
      0x00008899#32 := by
  decide +kernel

/-- 95_test_vectors L12, L13, L15. -/
theorem test_integer_stores :
    observe 0x007300A3
        (start [(6#5, 0x00002000#32), (7#5, 0x12345678#32)] [] [(0x00002000#32, 0x8899AABB#32), (0x00002004#32, 0x11223344#32)])
        (fun t => memRead32 t.mem 0x00002000#32) =
      0x889978BB#32 ∧
    observe 0x00731123
        (start [(6#5, 0x00002000#32), (7#5, 0x12345678#32)] [] [(0x00002000#32, 0x8899AABB#32), (0x00002004#32, 0x11223344#32)])
        (fun t => memRead32 t.mem 0x00002000#32) =
      0x5678AABB#32 ∧
    observe 0xFE732FA3
        (start [(6#5, 0x00000000#32), (7#5, 0xA1B2C3D4#32)] [] [])
        (fun t => (memRead32 t.mem 0x00000000#32, memRead32 t.mem 0xFFFFFFFC#32)) =
      (0x00A1B2C3#32, 0xD4000000#32) := by
  decide +kernel

/-- 95_test_vectors L17, L18, L19, L20. -/
theorem test_float_loads_and_stores :
    observe 0x00032087 (start [(6#5, 0x00002000#32)] [] [(0x00002000#32, 0x7F800001#32)]) (fun t => readF 1#5 t) =
      0x7F800001#32 ∧
    observe 0x00132227
        (start [(6#5, 0x00002000#32)] [(1#5, 0xFFC00001#32)] [])
        (fun t => memRead32 t.mem 0x00002004#32) =
      0xFFC00001#32 ∧
    observe 0x00033107
        (start [(6#5, 0x00002000#32)] [] [(0x00002000#32, 0x8899AABB#32), (0x00002004#32, 0x11223344#32)])
        (fun t => readPair ⟨2#5, 3#5⟩ t) =
      0x112233448899AABB#64 ∧
    observe 0x00233427
        (start [(6#5, 0x00002000#32)] [(2#5, 0x54442D18#32), (3#5, 0x400921FB#32)] [])
        (fun t => (memRead32 t.mem 0x00002008#32, memRead32 t.mem 0x0000200C#32)) =
      (0x54442D18#32, 0x400921FB#32) := by
  decide +kernel

/-- 95_test_vectors A1, A2. -/
theorem test_reserved_and_conditional :
    observe 0x100322AF (start [(6#5, 0x00002000#32)] [] [(0x00002000#32, 0x80000001#32)]) (fun t => readX 5#5 t) =
      0x80000001#32 ∧
    observe 0x187322AF
        (start [(6#5, 0x00002000#32), (7#5, 0x00000003#32), (5#5, 0x0000FFFF#32)] [] [(0x00002000#32, 0x80000001#32)])
        (fun t => (readX 5#5 t, memRead32 t.mem 0x00002000#32)) =
      (0x00000000#32, 0x00000003#32) := by
  decide +kernel

/-- 95_test_vectors A3, A12, A5, A6, A7, A8, A9, A10, A11. -/
theorem test_amos :
    observe 0x087322AF
        (start [(6#5, 0x00002000#32), (7#5, 0x00000003#32)] [] [(0x00002000#32, 0x80000001#32)])
        (fun t => (readX 5#5 t, memRead32 t.mem 0x00002000#32)) =
      (0x80000001#32, 0x00000003#32) ∧
    observe 0x007323AF
        (start [(6#5, 0x00002000#32), (7#5, 0x00000003#32)] [] [(0x00002000#32, 0x80000001#32)])
        (fun t => (readX 7#5 t, memRead32 t.mem 0x00002000#32)) =
      (0x80000001#32, 0x80000004#32) ∧
    observe 0x207322AF
        (start [(6#5, 0x00002000#32), (7#5, 0x00000003#32)] [] [(0x00002000#32, 0x80000001#32)])
        (fun t => (readX 5#5 t, memRead32 t.mem 0x00002000#32)) =
      (0x80000001#32, 0x80000002#32) ∧
    observe 0x607322AF
        (start [(6#5, 0x00002000#32), (7#5, 0x00000003#32)] [] [(0x00002000#32, 0x80000001#32)])
        (fun t => (readX 5#5 t, memRead32 t.mem 0x00002000#32)) =
      (0x80000001#32, 0x00000001#32) ∧
    observe 0x407322AF
        (start [(6#5, 0x00002000#32), (7#5, 0x00000003#32)] [] [(0x00002000#32, 0x80000001#32)])
        (fun t => (readX 5#5 t, memRead32 t.mem 0x00002000#32)) =
      (0x80000001#32, 0x80000003#32) ∧
    observe 0x807322AF
        (start [(6#5, 0x00002000#32), (7#5, 0x00000003#32)] [] [(0x00002000#32, 0x80000001#32)])
        (fun t => readX 5#5 t) =
      0x80000001#32 ∧
    observe 0xA07322AF
        (start [(6#5, 0x00002000#32), (7#5, 0x00000003#32)] [] [(0x00002000#32, 0x80000001#32)])
        (fun t => (readX 5#5 t, memRead32 t.mem 0x00002000#32)) =
      (0x80000001#32, 0x00000003#32) ∧
    observe 0xC07322AF
        (start [(6#5, 0x00002000#32), (7#5, 0x00000003#32)] [] [(0x00002000#32, 0x80000001#32)])
        (fun t => (readX 5#5 t, memRead32 t.mem 0x00002000#32)) =
      (0x80000001#32, 0x00000003#32) ∧
    observe 0xE07322AF
        (start [(6#5, 0x00002000#32), (7#5, 0x00000003#32)] [] [(0x00002000#32, 0x80000001#32)])
        (fun t => readX 5#5 t) =
      0x80000001#32 := by
  decide +kernel

/-- 95_test_vectors FS2, FS8, FS14, FS18. -/
theorem test_single_arithmetic :
    observe 0x003100D3 (start [] [(2#5, 0x3DCCCCCD#32), (3#5, 0x3E4CCCCD#32)] []) (fun t => (readF 1#5 t, t.fflags)) =
      (0x3E99999A#32, 0x01#5) ∧
    observe 0x083100D3 (start [] [(2#5, 0x7F800000#32), (3#5, 0x7F800000#32)] []) (fun t => (readF 1#5 t, t.fflags)) =
      (0x7FC00000#32, 0x10#5) ∧
    observe 0x103100D3 (start [] [(2#5, 0x00800001#32), (3#5, 0x3F000000#32)] []) (fun t => (readF 1#5 t, t.fflags)) =
      (0x00400000#32, 0x03#5) ∧
    observe 0x183100D3 (start [] [(2#5, 0x3F800000#32), (3#5, 0x40400000#32)] []) (fun t => (readF 1#5 t, t.fflags)) =
      (0x3EAAAAAB#32, 0x01#5) := by
  decide +kernel

/-- 95_test_vectors FS33, FS29, FS30, FS31. -/
theorem test_single_fused :
    observe 0x203100C3
        (start [] [(2#5, 0x3F800001#32), (3#5, 0x3F800001#32), (4#5, 0xBF800002#32)] [])
        (fun t => readF 1#5 t) =
      0x28800000#32 ∧
    observe 0x203100C7
        (start [] [(2#5, 0x40000000#32), (3#5, 0x40400000#32), (4#5, 0x3F800000#32)] [])
        (fun t => readF 1#5 t) =
      0x40A00000#32 ∧
    observe 0x203100CB
        (start [] [(2#5, 0x40000000#32), (3#5, 0x40400000#32), (4#5, 0x3F800000#32)] [])
        (fun t => readF 1#5 t) =
      0xC0A00000#32 ∧
    observe 0x203100CF
        (start [] [(2#5, 0x40000000#32), (3#5, 0x40400000#32), (4#5, 0x3F800000#32)] [])
        (fun t => readF 1#5 t) =
      0xC0E00000#32 := by
  decide +kernel

/-- 95_test_vectors FS20, S33, FS74. -/
theorem test_single_square_root :
    observe 0x580100D3 (start [] [(2#5, 0x40000000#32)] []) (fun t => (readF 1#5 t, t.fflags)) =
      (0x3FB504F3#32, 0x01#5) ∧
    observe 0x580100D3 (start [] [(2#5, 0xC0800000#32)] []) (fun t => (t.fflags, t.status, t.pc)) =
      (0x10#5, .halted .sqrtNeg, 0x00001004#32) ∧
    observe 0x580100D3 (start [] [(2#5, 0xFFC00000#32)] []) (fun t => readF 1#5 t) = 0x7FC00000#32 := by
  decide +kernel

/-- 95_test_vectors FS25, FS27, FS51, FS54, FS53. -/
theorem test_single_min_max_compare :
    observe 0x283100D3 (start [] [(2#5, 0x00000000#32), (3#5, 0x80000000#32)] []) (fun t => readF 1#5 t) =
      0x80000000#32 ∧
    observe 0x283110D3 (start [] [(2#5, 0x7FC00001#32), (3#5, 0xFFC00000#32)] []) (fun t => readF 1#5 t) =
      0x7FC00000#32 ∧
    observe 0xA020A2D3 (start [] [(1#5, 0x7FC00000#32), (2#5, 0x3F800000#32)] []) (fun t => (readX 5#5 t, t.fflags)) =
      (0x00000000#32, 0x10#5) ∧
    observe 0xA02092D3 (start [] [(1#5, 0xBF800000#32), (2#5, 0x3F800000#32)] []) (fun t => readX 5#5 t) =
      0x00000001#32 ∧
    observe 0xA02082D3 (start [] [(1#5, 0x80000000#32), (2#5, 0x00000000#32)] []) (fun t => readX 5#5 t) =
      0x00000001#32 := by
  decide +kernel

/-- 95_test_vectors FS37, FS41, FS45, FS46. -/
theorem test_single_conversions :
    observe 0xC000A2D3 (start [] [(1#5, 0xC0200000#32)] []) (fun t => (readX 5#5 t, t.fflags)) =
      (0xFFFFFFFD#32, 0x01#5) ∧
    observe 0xC01092D3 (start [] [(1#5, 0xBF800000#32)] []) (fun t => (readX 5#5 t, t.fflags)) =
      (0x00000000#32, 0x10#5) ∧
    observe 0xD00280D3 (start [(5#5, 0x01000001#32)] [] []) (fun t => (readF 1#5 t, t.fflags)) =
      (0x4B800000#32, 0x01#5) ∧
    observe 0xD01290D3 (start [(5#5, 0xFFFFFFFF#32)] [] []) (fun t => (readF 1#5 t, t.fflags)) =
      (0x4F7FFFFF#32, 0x01#5) := by
  decide +kernel

/-- 95_test_vectors FS48, FS49, FS55, FS56, FS57, FS60. -/
theorem test_single_moves_signs_class :
    observe 0xE00082D3 (start [] [(1#5, 0xFF800001#32)] []) (fun t => readX 5#5 t) = 0xFF800001#32 ∧
    observe 0xF00280D3 (start [(5#5, 0x7F800001#32)] [] []) (fun t => readF 1#5 t) = 0x7F800001#32 ∧
    observe 0x203100D3 (start [] [(2#5, 0x3F800000#32), (3#5, 0x80000000#32)] []) (fun t => readF 1#5 t) =
      0xBF800000#32 ∧
    observe 0x202110D3 (start [] [(2#5, 0x3F800000#32)] []) (fun t => readF 1#5 t) = 0xBF800000#32 ∧
    observe 0x203120D3 (start [] [(2#5, 0xBF800000#32), (3#5, 0xBF800000#32)] []) (fun t => readF 1#5 t) =
      0x3F800000#32 ∧
    observe 0xE00092D3 (start [] [(1#5, 0x80000001#32)] []) (fun t => readX 5#5 t) = 0x00000004#32 := by
  decide +kernel

/-- 95_test_vectors FD2, FD3, FD4, FD5. -/
theorem test_double_arithmetic :
    observe 0x02620153
        (start [] [(4#5, 0x9999999A#32), (5#5, 0x3FB99999#32), (6#5, 0x9999999A#32), (7#5, 0x3FC99999#32)] [])
        (fun t => (readPair ⟨2#5, 3#5⟩ t, t.fflags)) =
      (0x3FD3333333333334#64, 0x01#5) ∧
    observe 0x0A620153
        (start [] [(4#5, 0x00000000#32), (5#5, 0x3FF00000#32), (6#5, 0x00000000#32), (7#5, 0x40080000#32)] [])
        (fun t => readPair ⟨2#5, 3#5⟩ t) =
      0xC000000000000000#64 ∧
    observe 0x12620153
        (start [] [(4#5, 0xFFFFFFFF#32), (5#5, 0x7FEFFFFF#32), (6#5, 0x00000000#32), (7#5, 0x40000000#32)] [])
        (fun t => (readPair ⟨2#5, 3#5⟩ t, t.fflags)) =
      (0x7FF0000000000000#64, 0x05#5) ∧
    observe 0x1A620153
        (start [] [(4#5, 0x00000000#32), (5#5, 0x3FF00000#32), (6#5, 0x00000000#32), (7#5, 0x40080000#32)] [])
        (fun t => (readPair ⟨2#5, 3#5⟩ t, t.fflags)) =
      (0x3FD5555555555555#64, 0x01#5) := by
  decide +kernel

/-- 95_test_vectors FD11, FD13, FD14, FD12. -/
theorem test_double_fused :
    observe 0x42620143
        (start [] [(4#5, 0x00000000#32), (5#5, 0x40000000#32), (6#5, 0x00000000#32), (7#5, 0x40080000#32), (8#5, 0x00000000#32), (9#5, 0x3FF00000#32)] [])
        (fun t => readPair ⟨2#5, 3#5⟩ t) =
      0x401C000000000000#64 ∧
    observe 0x42620147
        (start [] [(4#5, 0x00000000#32), (5#5, 0x40000000#32), (6#5, 0x00000000#32), (7#5, 0x40080000#32), (8#5, 0x00000000#32), (9#5, 0x3FF00000#32)] [])
        (fun t => readPair ⟨2#5, 3#5⟩ t) =
      0x4014000000000000#64 ∧
    observe 0x4262014B
        (start [] [(4#5, 0x00000000#32), (5#5, 0x40000000#32), (6#5, 0x00000000#32), (7#5, 0x40080000#32), (8#5, 0x00000000#32), (9#5, 0x3FF00000#32)] [])
        (fun t => readPair ⟨2#5, 3#5⟩ t) =
      0xC014000000000000#64 ∧
    observe 0x4262014F
        (start [] [(4#5, 0x00000000#32), (5#5, 0x40000000#32), (6#5, 0x00000000#32), (7#5, 0x40080000#32), (8#5, 0x00000000#32), (9#5, 0x3FF00000#32)] [])
        (fun t => readPair ⟨2#5, 3#5⟩ t) =
      0xC01C000000000000#64 := by
  decide +kernel

/-- 95_test_vectors FD7, FD8. -/
theorem test_double_square_root :
    observe 0x5A020153
        (start [] [(4#5, 0x00000000#32), (5#5, 0x40000000#32)] [])
        (fun t => (readPair ⟨2#5, 3#5⟩ t, t.fflags)) =
      (0x3FF6A09E667F3BCD#64, 0x01#5) ∧
    observe 0x5A020153
        (start [] [(4#5, 0x00000000#32), (5#5, 0xBFF00000#32)] [])
        (fun t => (t.fflags, t.status, t.pc)) =
      (0x10#5, .halted .sqrtNeg, 0x00001004#32) := by
  decide +kernel

/-- 95_test_vectors FD9, FD10, FD21, FD22, FD23. -/
theorem test_double_min_max_compare :
    observe 0x2A620153
        (start [] [(4#5, 0x00000000#32), (5#5, 0x7FF80000#32), (6#5, 0x00000000#32), (7#5, 0x40080000#32)] [])
        (fun t => readPair ⟨2#5, 3#5⟩ t) =
      0x4008000000000000#64 ∧
    observe 0x2A621153
        (start [] [(4#5, 0x00000000#32), (5#5, 0xBFF00000#32), (6#5, 0x00000000#32), (7#5, 0x80000000#32)] [])
        (fun t => readPair ⟨2#5, 3#5⟩ t) =
      0x8000000000000000#64 ∧
    observe 0xA26222D3
        (start [] [(4#5, 0x00000000#32), (5#5, 0x3FF00000#32), (6#5, 0x00000000#32), (7#5, 0x3FF00000#32)] [])
        (fun t => readX 5#5 t) =
      0x00000001#32 ∧
    observe 0xA26212D3
        (start [] [(4#5, 0x00000000#32), (5#5, 0x3FF00000#32), (6#5, 0x00000000#32), (7#5, 0x40000000#32)] [])
        (fun t => readX 5#5 t) =
      0x00000001#32 ∧
    observe 0xA26202D3
        (start [] [(4#5, 0x00000000#32), (5#5, 0x7FF80000#32), (6#5, 0x00000000#32), (7#5, 0x40000000#32)] [])
        (fun t => (readX 5#5 t, t.fflags)) =
      (0x00000000#32, 0x10#5) := by
  decide +kernel

/-- 95_test_vectors FD18, FD17, FD19, FD20, FD31, FD33. -/
theorem test_double_conversions :
    observe 0xC20202D3 (start [] [(4#5, 0x00100000#32), (5#5, 0xC1E00000#32)] []) (fun t => (readX 5#5 t, t.fflags)) =
      (0x80000000#32, 0x01#5) ∧
    observe 0xC21212D3 (start [] [(4#5, 0xC0000000#32), (5#5, 0x41E65A0B#32)] []) (fun t => readX 5#5 t) =
      0xB2D05E00#32 ∧
    observe 0xD2028153 (start [(5#5, 0x80000000#32)] [] []) (fun t => readPair ⟨2#5, 3#5⟩ t) = 0xC1E0000000000000#64 ∧
    observe 0xD2128153 (start [(5#5, 0xFFFFFFFF#32)] [] []) (fun t => readPair ⟨2#5, 3#5⟩ t) = 0x41EFFFFFFFE00000#64 ∧
    observe 0x401200D3 (start [] [(4#5, 0x00000000#32), (5#5, 0x36200000#32)] []) (fun t => (readF 1#5 t, t.fflags)) =
      (0x00000000#32, 0x03#5) ∧
    observe 0x42008153 (start [] [(1#5, 0x3DCCCCCD#32)] []) (fun t => readPair ⟨2#5, 3#5⟩ t) = 0x3FB99999A0000000#64 := by
  decide +kernel

/-- 95_test_vectors FD24, FD25, FD26, FD27. -/
theorem test_double_signs_and_class :
    observe 0x22620153
        (start [] [(4#5, 0x00000000#32), (5#5, 0x3FF00000#32), (6#5, 0x00000000#32), (7#5, 0x80000000#32)] [])
        (fun t => readPair ⟨2#5, 3#5⟩ t) =
      0xBFF0000000000000#64 ∧
    observe 0x22421153 (start [] [(4#5, 0x00000000#32), (5#5, 0x3FF00000#32)] []) (fun t => readPair ⟨2#5, 3#5⟩ t) =
      0xBFF0000000000000#64 ∧
    observe 0x22622153
        (start [] [(4#5, 0x00000000#32), (5#5, 0xBFF00000#32), (6#5, 0x00000000#32), (7#5, 0xBFF00000#32)] [])
        (fun t => readPair ⟨2#5, 3#5⟩ t) =
      0x3FF0000000000000#64 ∧
    observe 0xE20212D3 (start [] [(4#5, 0x00000001#32), (5#5, 0x80000000#32)] []) (fun t => readX 5#5 t) =
      0x00000004#32 := by
  decide +kernel

/-- 95_test_vectors FS11, FS16, FD6. -/
theorem test_overflow_and_division_by_zero :
    observe 0x103110D3 (start [] [(2#5, 0x7F7FFFFF#32), (3#5, 0x40000000#32)] []) (fun t => (readF 1#5 t, t.fflags)) =
      (0x7F7FFFFF#32, 0x05#5) ∧
    observe 0x183100D3 (start [] [(2#5, 0xBF800000#32), (3#5, 0x00000000#32)] []) (fun t => (readF 1#5 t, t.fflags)) =
      (0xFF800000#32, 0x08#5) ∧
    observe 0x1A620153
        (start [] [(4#5, 0x00000000#32), (5#5, 0x3FF00000#32), (6#5, 0x00000000#32), (7#5, 0x00000000#32)] [])
        (fun t => (readPair ⟨2#5, 3#5⟩ t, t.fflags)) =
      (0x7FF0000000000000#64, 0x08#5) := by
  decide +kernel

/-- 95_test_vectors Y18, Y19, Y20, Y21. -/
theorem test_fences_and_calls :
    observe 0x0FF0000F (start [] [] []) (fun t => t.pc) = 0x00001004#32 ∧
    observe 0x0000100F { start [] [] [] with modified := [0x3000, 0x3001, 0x3002, 0x3003] } (fun t => t.modified) = [] ∧
    observe 0x00000073 (start [(17#5, 0x0000005D#32), (10#5, 0x00000000#32)] [] []) (fun t => (t.status, t.pc)) =
      (.halted .scall, 0x00001004#32) ∧
    observe 0x00100073 (start [] [] []) (fun t => (t.status, t.pc)) = (.halted .sbreak, 0x00001004#32) := by
  decide +kernel

/-- 95_test_vectors Y9, Y4, Y5, Y6, Y7, Y8. -/
theorem test_csr_instructions :
    observe 0x00331373
        { start [(6#5, 0x00000025#32)] [] [] with frm := 2#3, fflags := 0x03#5 }
        (fun t => (readX 6#5 t, t.frm, t.fflags)) =
      (0x00000043#32, 1#3, 0x05#5) ∧
    observe 0x001322F3 { start [(6#5, 0x00000006#32)] [] [] with fflags := 0x11#5 } (fun t => (readX 5#5 t, t.fflags)) =
      (0x00000011#32, 0x17#5) ∧
    observe 0x003332F3
        { start [(6#5, 0x0000001F#32)] [] [] with frm := 7#3, fflags := 0x1F#5 }
        (fun t => (readX 5#5 t, t.fflags)) =
      (0x000000FF#32, 0x00#5) ∧
    observe 0x0020D073 (start [] [] []) (fun t => t.frm) = 1#3 ∧
    observe 0x001262F3 { start [] [] [] with fflags := 0x01#5 } (fun t => (readX 5#5 t, t.fflags)) =
      (0x00000001#32, 0x05#5) ∧
    observe 0x001FF073 { start [] [] [] with fflags := 0x1F#5 } (fun t => t.fflags) = 0x00#5 := by
  decide +kernel

/-- 95_test_vectors FS68, FS69, FS70, FS71, FS72. -/
theorem test_rounding_mode_and_flags_modes :
    observe 0x003170D3
        { start [] [(2#5, 0x3DCCCCCD#32), (3#5, 0x3E4CCCCD#32)] [] with frm := 1#3 }
        (fun t => (readF 1#5 t, t.fflags)) =
      (0x3E999999#32, 0x01#5) ∧
    observe 0x003170D3
        { start [] [(2#5, 0x3F800000#32), (3#5, 0x40000000#32)] [] with frm := 5#3 }
        (fun t => (t.record, t.status, t.pc)) =
      (some ⟨.illegal, 0x00001000#32, 0x003170D3#32, 0x00000000#32⟩, .faulted .illegal, 0x00001000#32) ∧
    observe 0x003150D3
        (start [] [(2#5, 0x3F800000#32), (3#5, 0x40000000#32)] [])
        (fun t => (t.record, t.status, t.pc)) =
      (some ⟨.illegal, 0x00001000#32, 0x003150D3#32, 0x00000000#32⟩, .faulted .illegal, 0x00001000#32) ∧
    observe 0x003100D3
        { start [] [(2#5, 0x7F7FFFFF#32), (3#5, 0x7F7FFFFF#32)] [] with fflags := 0x01#5 }
        (fun t => (readF 1#5 t, t.fflags)) =
      (0x7F800000#32, 0x05#5) ∧
    observe 0x003100D3
        { start [] [(2#5, 0x7F7FFFFF#32), (3#5, 0x7F7FFFFF#32)] [] with cfg := { Config.default with fflagsMode := .frozen } }
        (fun t => readF 1#5 t) =
      0x7F800000#32 := by
  decide +kernel

/-- 95_test_vectors FD38, FD35, FD40. -/
theorem test_pairs :
    observe 0x02618153
        { start [] [(6#5, 0x00000000#32), (7#5, 0x3FF00000#32)] [] with cfg := { Config.default with dpairMode := .scaled } }
        (fun t => readPair ⟨4#5, 5#5⟩ t) =
      0x3FF0000000000000#64 ∧
    observe 0x02618153
        (start [] [(6#5, 0x00000000#32), (7#5, 0x3FF00000#32)] [])
        (fun t => (t.record, t.status, t.pc)) =
      (some ⟨.regPair, 0x00001000#32, 0x02618153#32, 0x00000000#32⟩, .faulted .regPair, 0x00001000#32) ∧
    observe 0x420081D3 (start [] [(1#5, 0x3F800000#32)] []) (fun t => (t.record, t.status, t.pc)) =
      (some ⟨.regPair, 0x00001000#32, 0x420081D3#32, 0x00000000#32⟩, .faulted .regPair, 0x00001000#32) := by
  decide +kernel

/-- 95_test_vectors FD37, X14, X15, X16. -/
theorem test_priority_of_checks :
    observe 0x026261D3
        (start [] [(4#5, 0x00000000#32), (5#5, 0x3FF00000#32), (6#5, 0x00000000#32), (7#5, 0x3FF00000#32)] [])
        (fun t => (t.record, t.status, t.pc)) =
      (some ⟨.illegal, 0x00001000#32, 0x026261D3#32, 0x00000000#32⟩, .faulted .illegal, 0x00001000#32) ∧
    observe 0x5A0281D3
        (start [] [(4#5, 0x00000000#32), (5#5, 0xBFF00000#32)] [])
        (fun t => (t.record, t.status, t.pc)) =
      (some ⟨.regPair, 0x00001000#32, 0x5A0281D3#32, 0x00000000#32⟩, .faulted .regPair, 0x00001000#32) ∧
    observe 0x00333227
        { start [(6#5, 0x00002000#32)] [] [] with cfg := { Config.default with misalignedData := .fault } }
        (fun t => (t.record, t.status, t.pc)) =
      (some ⟨.regPair, 0x00001000#32, 0x00333227#32, 0x00000000#32⟩, .faulted .regPair, 0x00001000#32) ∧
    observe 0x00732123
        { start [(6#5, 0x00002000#32)] [] [] with cfg := { Config.default with misalignedData := .fault, memRefusals := [⟨0x2002, 0x2002, none, none⟩] } }
        (fun t => (t.record, t.status, t.pc)) =
      (some ⟨.dataMisaligned, 0x00001000#32, 0x00732123#32, 0x00002002#32⟩, .faulted .dataMisaligned, 0x00001000#32) := by
  decide +kernel

/-- 95_test_vectors X1, X3, X4, X5, X12. -/
theorem test_fetch_checks :
    observe 0x00100093 { start [] [] [] with pc := 0x00001002#32 } (fun t => (t.record, t.status, t.pc)) =
      (some ⟨.fetchMisaligned, 0x00001002#32, 0x00000000#32, 0x00001002#32⟩, .faulted .fetchMisaligned, 0x00001002#32) ∧
    (fun t => (t.record, t.status, t.pc)) (afterStep
        { start [] [] [(0x00001000#32, 0x00100093#32)] with modified := [0x1000, 0x1001, 0x1002, 0x1003] }) =
      (some ⟨.fetchUnfenced, 0x00001000#32, 0x00000000#32, 0x00001000#32⟩, .faulted .fetchUnfenced, 0x00001000#32) ∧
    (fun t => readX 1#5 t) (afterStep
        { start [] [] [(0x00001000#32, 0x00100093#32)] with modified := [0x1000, 0x1001, 0x1002, 0x1003], cfg := { Config.default with fetchCoherence := .immediate } }) =
      0x00000001#32 ∧
    (fun t => (t.record, t.status, t.pc)) (afterStep
        { start [] [] [(0x00001002#32, 0x00100093#32)] with pc := 0x00001002#32, modified := [0x1000, 0x1001, 0x1002, 0x1003, 0x1004, 0x1005, 0x1006, 0x1007] }) =
      (some ⟨.fetchMisaligned, 0x00001002#32, 0x00000000#32, 0x00001002#32⟩, .faulted .fetchMisaligned, 0x00001002#32) ∧
    observe 0x00000000
        { start [] [] [] with cfg := { Config.default with memRefusals := [⟨0x1000, 0x1000, none, none⟩] } }
        (fun t => (t.status, t.pc)) =
      (.stuck, 0x00001000#32) := by
  decide +kernel

/-- 95_test_vectors X6, X8, I28, A16, Y22. -/
theorem test_illegal_words :
    observe 0x00000000 (start [] [] []) (fun t => (t.record, t.status, t.pc)) =
      (some ⟨.illegal, 0x00001000#32, 0x00000000#32, 0x00000000#32⟩, .faulted .illegal, 0x00001000#32) ∧
    observe 0x00000001 (start [] [] []) (fun t => (t.record, t.status, t.pc)) =
      (some ⟨.illegal, 0x00001000#32, 0x00000001#32, 0x00000000#32⟩, .faulted .illegal, 0x00001000#32) ∧
    observe 0x02031293 (start [(6#5, 0x00000001#32)] [] []) (fun t => (t.record, t.status, t.pc)) =
      (some ⟨.illegal, 0x00001000#32, 0x02031293#32, 0x00000000#32⟩, .faulted .illegal, 0x00001000#32) ∧
    observe 0x107322AF
        (start [(6#5, 0x00002000#32)] [] [(0x00002000#32, 0x80000001#32)])
        (fun t => (t.record, t.status, t.pc)) =
      (some ⟨.illegal, 0x00001000#32, 0x107322AF#32, 0x00000000#32⟩, .faulted .illegal, 0x00001000#32) ∧
    observe 0x30200073 (start [] [] []) (fun t => (t.record, t.status, t.pc)) =
      (some ⟨.illegal, 0x00001000#32, 0x30200073#32, 0x00000000#32⟩, .faulted .illegal, 0x00001000#32) := by
  decide +kernel

/-- 95_test_vectors L8, L22, L10, X17. -/
theorem test_misaligned_and_refused_data :
    observe 0x00232283
        { start [(6#5, 0x00002000#32)] [] [(0x00002000#32, 0x8899AABB#32), (0x00002004#32, 0x11223344#32)] with cfg := { Config.default with misalignedData := .fault } }
        (fun t => (t.record, t.status, t.pc)) =
      (some ⟨.dataMisaligned, 0x00001000#32, 0x00232283#32, 0x00002002#32⟩, .faulted .dataMisaligned, 0x00001000#32) ∧
    observe 0x00433107
        { start [(6#5, 0x00002000#32)] [] [(0x00002000#32, 0x8899AABB#32), (0x00002004#32, 0x11223344#32)] with cfg := { Config.default with misalignedData := .fault } }
        (fun t => (t.record, t.status, t.pc)) =
      (some ⟨.dataMisaligned, 0x00001000#32, 0x00433107#32, 0x00002004#32⟩, .faulted .dataMisaligned, 0x00001000#32) ∧
    observe 0x00034283
        { start [(6#5, 0x00002000#32)] [] [(0x00002000#32, 0x8899AABB#32), (0x00002004#32, 0x11223344#32)] with cfg := { Config.default with memRefusals := [⟨0x2000, 0x2000, none, some .read⟩] } }
        (fun t => (t.status, t.pc)) =
      (.stuck, 0x00001000#32) ∧
    observe 0x007322AF
        { start [(6#5, 0x00002000#32), (7#5, 0x00000001#32)] [] [(0x00002000#32, 0x00000005#32)] with cfg := { Config.default with memRefusals := [⟨0x2000, 0x2000, none, some .write⟩] } }
        (fun t => (t.status, t.pc)) =
      (.stuck, 0x00001000#32) := by
  decide +kernel

/-- 95_test_vectors Y13, Y14, Y16, Y17. -/
theorem test_csr_check_and_unnamed :
    observe 0xC00322F3 (start [(6#5, 0x00000000#32)] [] []) (fun t => (t.record, t.status, t.pc)) =
      (some ⟨.illegal, 0x00001000#32, 0xC00322F3#32, 0x00000000#32⟩, .faulted .illegal, 0x00001000#32) ∧
    observe 0xC0231073 (start [(6#5, 0x00000001#32)] [] []) (fun t => (t.record, t.status, t.pc)) =
      (some ⟨.illegal, 0x00001000#32, 0xC0231073#32, 0x00000000#32⟩, .faulted .illegal, 0x00001000#32) ∧
    observe 0x300022F3 (start [] [] []) (fun t => (t.record, t.status, t.pc)) =
      (some ⟨.illegal, 0x00001000#32, 0x300022F3#32, 0x00000000#32⟩, .faulted .illegal, 0x00001000#32) ∧
    observe 0x003312F3
        { start [(6#5, 0x00000001#32)] [] [] with cfg := { Config.default with admitUnnamed := false } }
        (fun t => (t.record, t.status, t.pc)) =
      (some ⟨.illegal, 0x00001000#32, 0x003312F3#32, 0x00000000#32⟩, .faulted .illegal, 0x00001000#32) := by
  decide +kernel

/-! ## Witnesses: concrete states and operands that meet the hypotheses of each obligation -/

/-- A state with a word pair at 0x2000 and a single, a double and two integers in registers. -/
def plain : State :=
  start [(6#5, 0x2000#32), (7#5, 0x12345678#32)] [(2#5, 0x3F800000#32), (5#5, 0x3FF00000#32)]
    [(0x2000#32, 0x8899AABB#32), (0x2004#32, 0x11223344#32)]

/-- `plain` with `MISALIGNED_DATA = fault`. -/
def strict : State := { plain with cfg := { Config.default with misalignedData := .fault } }

/-- `plain` with `DPAIR_MODE = scaled`. -/
def scaledPairs : State := { plain with cfg := { Config.default with dpairMode := .scaled } }

/-- `plain` with every read of the word at 0x2000 refused. -/
def refusing : State := { plain with cfg := { Config.default with memRefusals := [⟨0x2000, 0x2003, none, some .read⟩] } }

/-- `plain` with the fetch at 0x1000 refused. -/
def fetchRefused : State := { plain with cfg := { Config.default with memRefusals := [⟨0x1000, 0x1000, some 4, none⟩] } }

theorem step_eq_next {s : State} (h : s.status = .running) : step s = .next (afterStep s) := by
  obtain ⟨t, ht, -⟩ := step_running h
  rw [ht, afterStep, ht]

theorem fetchable_of_checks {s : State} (h1 : s.status = .running) (h2 : s.pc.toNat % 4 = 0)
    (h3 : fetchUnfenced s = false) (h4 : memAdmit s.cfg ⟨s.pc, 4, .read⟩ = true) : Fetchable s :=
  ⟨h1, h2, fun h => by simp [(fetchUnfenced_iff s).2 h] at h3, h4⟩

theorem witness_plain_memory : Memory.wf plain.mem = true := by decide +kernel

theorem witness_DecodeInvertsEncode :
    WellFormed (.bgeu 31#5 31#5 0x1FFE#13) = true ∧ WellFormed (.jal 31#5 0x1FFFFE#21) = true ∧
    WellFormed (.fmaddD 30#5 28#5 26#5 24#5 7#3) = true := by
  decide

theorem witness_EncodeInvertsDecode : decode 0x4262014B#32 = .ok (.fnmsubD 2#5 4#5 6#5 8#5 0#3) := by decide +kernel

theorem witness_DecodeFollowsOpcodeTable :
    tableRow (.lui 5#5 1#20) ∈ opcodeTable ∧
    0x000012B7#32 &&& (tableRow (.lui 5#5 1#20)).mask = (tableRow (.lui 5#5 1#20)).pattern ∧
    ∀ row ∈ opcodeTable, 0x00000000#32 &&& row.mask ≠ row.pattern := by
  decide +kernel

theorem witness_PrivilegedWordsAreIllegal :
    (0x30200073#32).extractLsb' 0 7 = 0b1110011#7 ∧ (0x30200073#32).extractLsb' 12 3 = 0b000#3 ∧
    Fetchable (plain.withFetchWord 32 0x30200073) ∧
    wordAt (plain.withFetchWord 32 0x30200073) (plain.withFetchWord 32 0x30200073).pc = 0x30200073#32 :=
  ⟨by decide, by decide,
    fetchable_of_checks (by decide +kernel) (by decide +kernel) (by decide +kernel) (by decide +kernel), by decide +kernel⟩

theorem witness_StepRunsDecodedInstruction :
    Fetchable (plain.withFetchWord 32 0x007302B3) ∧
    decode (wordAt (plain.withFetchWord 32 0x007302B3) (plain.withFetchWord 32 0x007302B3).pc) = .ok (.add 5#5 6#5 7#5) ∧
    Admitted (plain.withFetchWord 32 0x007302B3) (.add 5#5 6#5 7#5) :=
  ⟨fetchable_of_checks (by decide +kernel) (by decide +kernel) (by decide +kernel) (by decide +kernel), by decide +kernel,
    .inl (by decide +kernel)⟩

/-- `FetchChecksInOrder`, `OutcomesByInstruction`: misaligned at both odd and even addresses; an unfenced first and an
unfenced last byte; a refused fetch; an illegal word; an instruction not admitted. -/
theorem witness_fetch_misaligned :
    plain.status = .running ∧ ({ plain with pc := 0x1001#32 } : State).pc.toNat % 4 ≠ 0 ∧
    ({ plain with pc := 0x1003#32 } : State).pc.toNat % 4 ≠ 0 := by
  decide +kernel

theorem witness_fetch_unfenced :
    Unfenced { plain with modified := [0x1000] } ∧ Unfenced { plain with modified := [0x1003] } ∧
    ¬Unfenced { plain with modified := [0xFFF, 0x1004] } ∧ plain.pc.toNat % 4 = 0 := by
  refine ⟨(fetchUnfenced_iff _).1 (by decide +kernel), (fetchUnfenced_iff _).1 (by decide +kernel), ?_, by decide +kernel⟩
  intro h
  have := (fetchUnfenced_iff _).2 h
  revert this
  decide +kernel

theorem witness_fetch_refused :
    fetchRefused.status = .running ∧ fetchRefused.pc.toNat % 4 = 0 ∧ ¬Unfenced fetchRefused ∧
    ¬Admits fetchRefused.cfg fetchRefused.pc 4 .read := by
  refine ⟨by decide +kernel, by decide +kernel, fun h => ?_, fun h => ?_⟩
  · have := (fetchUnfenced_iff _).2 h
    revert this
    decide +kernel
  · revert h
    unfold Admits
    decide +kernel

theorem witness_fetch_illegal :
    Fetchable plain ∧ ∀ i, decode (wordAt plain plain.pc) = .ok i → ¬Admitted plain i := by
  refine ⟨fetchable_of_checks (by decide +kernel) (by decide +kernel) (by decide +kernel) (by decide +kernel), ?_⟩
  intro i h
  have : decode (wordAt plain plain.pc) = decode 0#32 := by
    rw [show wordAt plain plain.pc = 0#32 by decide +kernel]
  rw [this] at h
  cases h

theorem witness_fetch_not_admitted :
    ¬Admitted { plain with cfg := { Config.default with admitUnnamed := false } } (.fence 0#5 0#5 0#4 15#4 15#4) := by
  intro h
  revert h
  unfold Admitted
  decide +kernel

theorem witness_OnlyRunningSteps :
    plain.status = .running ∧ (afterStep (plain.withFetchWord 32 0x00000073)).status ≠ .running ∧
    (afterStep plain).status ≠ .running ∧ (afterStep fetchRefused).status ≠ .running := by
  decide +kernel

/-- `FaultChangesOnlyStatusAndRecord`: a step that faults for each reason. -/
theorem witness_each_fault :
    (∃ t, step plain = .next t ∧ t.status = .faulted .illegal) ∧
    (∃ t, step (plain.withFetchWord 32 0x00033187) = .next t ∧ t.status = .faulted .regPair) ∧
    (∃ t, step { plain with pc := 0x1002#32 } = .next t ∧ t.status = .faulted .fetchMisaligned) ∧
    (∃ t, step { plain with modified := [0x1003] } = .next t ∧ t.status = .faulted .fetchUnfenced) ∧
    (∃ t, step (strict.withFetchWord 32 0x00232283) = .next t ∧ t.status = .faulted .dataMisaligned) :=
  ⟨⟨afterStep plain, step_eq_next (by decide +kernel), by decide +kernel⟩,
    ⟨afterStep (plain.withFetchWord 32 0x00033187), step_eq_next (by decide +kernel), by decide +kernel⟩,
    ⟨afterStep { plain with pc := 0x1002#32 }, step_eq_next (by decide +kernel), by decide +kernel⟩,
    ⟨afterStep { plain with modified := [0x1003] }, step_eq_next (by decide +kernel), by decide +kernel⟩,
    ⟨afterStep (strict.withFetchWord 32 0x00232283), step_eq_next (by decide +kernel), by decide +kernel⟩⟩

/-- `StuckChangesOnlyStatus`: a refused fetch and a refused load. -/
theorem witness_stuck :
    (∃ t, step fetchRefused = .next t ∧ t.status = .stuck) ∧
    (∃ t, step (refusing.withFetchWord 32 0x00034283) = .next t ∧ t.status = .stuck) :=
  ⟨⟨afterStep fetchRefused, step_eq_next (by decide +kernel), by decide +kernel⟩,
    ⟨afterStep (refusing.withFetchWord 32 0x00034283), step_eq_next (by decide +kernel), by decide +kernel⟩⟩

/-- `HaltsAreScallSbreakAndNegativeSqrt`: a step that halts for each reason. -/
theorem witness_each_halt :
    (∃ t, step (plain.withFetchWord 32 0x00000073) = .next t ∧ t.status = .halted .scall) ∧
    (∃ t, step (plain.withFetchWord 32 0x00100073) = .next t ∧ t.status = .halted .sbreak) ∧
    (∃ t, step ((writeF 2#5 0xBF800000#32 plain).withFetchWord 32 0x580100D3) = .next t ∧ t.status = .halted .sqrtNeg) ∧
    (∃ t, step ((writeF 5#5 0xBFF00000#32 plain).withFetchWord 32 0x5A020153) = .next t ∧ t.status = .halted .sqrtNeg) :=
  ⟨⟨afterStep (plain.withFetchWord 32 0x00000073), step_eq_next (by decide +kernel), by decide +kernel⟩,
    ⟨afterStep (plain.withFetchWord 32 0x00100073), step_eq_next (by decide +kernel), by decide +kernel⟩,
    ⟨afterStep ((writeF 2#5 0xBF800000#32 plain).withFetchWord 32 0x580100D3), step_eq_next (by decide +kernel), by decide +kernel⟩,
    ⟨afterStep ((writeF 5#5 0xBFF00000#32 plain).withFetchWord 32 0x5A020153), step_eq_next (by decide +kernel), by decide +kernel⟩⟩

/-- `HaltsAreScallSbreakAndNegativeSqrt`: negative operands of both formats, from -infinity to the smallest subnormal; none of
-0, a NaN of sign 1 and a positive number. -/
theorem witness_negative_operands :
    IsNegativeOperand .S 0xBF800000#32 ∧ IsNegativeOperand .S 0xFF800000#32 ∧ IsNegativeOperand .S 0x80000001#32 ∧
    IsNegativeOperand .D 0xBFF0000000000000#64 ∧ ¬IsNegativeOperand .S 0x80000000#32 ∧
    ¬IsNegativeOperand .S 0xFFC00000#32 ∧ ¬IsNegativeOperand .S 0x3F800000#32 := by
  simp only [IsNegativeOperand, IsNan, IsZero]
  decide +kernel

/-- `OutcomesByInstruction`: an instruction that ends in each way a clause names. -/
theorem witness_each_outcome_of_exec :
    (∃ t, exec (.faddS 1#5 2#5 3#5 0b101#3) plain = .next t ∧ t.status = .faulted .illegal) ∧
    (∃ t, exec (.fld 3#5 6#5 0#12) plain = .next t ∧ t.status = .faulted .regPair) ∧
    (∃ t, exec (.lw 5#5 6#5 2#12) strict = .next t ∧ t.status = .faulted .dataMisaligned) ∧
    (∃ t, exec (.lw 5#5 6#5 0#12) refusing = .next t ∧ t.status = .stuck) ∧
    (∃ t, exec .scall plain = .next t ∧ t.status = .halted .scall) :=
  ⟨⟨_, rfl, by decide +kernel⟩, ⟨_, rfl, by decide +kernel⟩, ⟨_, rfl, by decide +kernel⟩, ⟨_, rfl, by decide +kernel⟩,
    ⟨_, rfl, by decide +kernel⟩⟩

theorem witness_StepKeepsInvariant :
    Inv (plain.withFetchWord 32 0x00732023) ∧
    ∃ t, step (plain.withFetchWord 32 0x00732023) = .next t ∧ memRead32 t.mem 0x2000#32 = 0x12345678#32 :=
  ⟨⟨by decide +kernel, by decide +kernel, by decide +kernel, by decide +kernel, by decide +kernel⟩,
    ⟨afterStep (plain.withFetchWord 32 0x00732023), step_eq_next (by decide +kernel), by decide +kernel⟩⟩

theorem witness_ResetMeetsInvariant : Inv plain :=
  ⟨by decide +kernel, by decide +kernel, by decide +kernel, by decide +kernel, by decide +kernel⟩

theorem witness_StepKeepsPcEven :
    plain.pc.toNat % 2 = 0 ∧ ∃ t, step (plain.withFetchWord 32 0x003300E7) = .next t ∧ t.pc = 0x2002#32 :=
  ⟨by decide +kernel, afterStep (plain.withFetchWord 32 0x003300E7), step_eq_next (by decide +kernel), by decide +kernel⟩

theorem witness_FlagsAreStickyAndFrmIsCsrOnly :
    csrField (.feqS 5#5 1#5 2#5) = none ∧
    (∃ t, exec (.feqS 5#5 1#5 2#5) (writeF 1#5 0x7FC00000#32 plain) = .next t ∧ t.fflags = 0x10#5) ∧
    ({ plain with cfg := { Config.default with fflagsMode := .frozen } } : State).cfg.fflagsMode = .frozen :=
  ⟨rfl, ⟨_, rfl, by decide +kernel⟩, rfl⟩

theorem witness_OnlyStoresChangeMemory :
    writesMemory (.lw 5#5 6#5 0#12) = false ∧ (∃ t, exec (.lw 5#5 6#5 0#12) plain = .next t ∧ readX 5#5 t = 0x8899AABB#32) ∧
    (∃ t, exec (.fenceI 0#5 0#5 0#12) { plain with modified := [0x3000] } = .next t ∧ t.modified = []) :=
  ⟨rfl, ⟨_, rfl, by decide +kernel⟩, ⟨_, rfl, by decide +kernel⟩⟩

/-- `X0ReadsZeroAfterEveryStep`: a step, an admitted aligned swap with rd = x0, and a refused load. -/
theorem witness_X0ReadsZeroAfterEveryStep :
    (∃ t, step (plain.withFetchWord 32 0x00530013) = .next t ∧ readX 0#5 t = 0#32) ∧
    Memory.wf plain.mem = true ∧ AlignOk plain.cfg (readX 6#5 plain) 4 ∧ Admits plain.cfg (readX 6#5 plain) 4 .read ∧
    Admits plain.cfg (readX 6#5 plain) 4 .write ∧ ¬Admits refusing.cfg (dispAddr refusing 6#5 0#12) 1 .read := by
  refine ⟨⟨afterStep (plain.withFetchWord 32 0x00530013), step_eq_next (by decide +kernel), by decide +kernel⟩, by decide +kernel,
    .inl (by decide +kernel), ?_, ?_, ?_⟩ <;> unfold Admits <;> decide +kernel

/-- A pair at each end of its range, in both modes. -/
theorem witness_pairs :
    PairIs plain.cfg 0#5 0#5 1#5 ∧ PairIs plain.cfg 4#5 4#5 5#5 ∧ PairIs plain.cfg 30#5 30#5 31#5 ∧
    PairIs scaledPairs.cfg 0#5 0#5 1#5 ∧ PairIs scaledPairs.cfg 15#5 30#5 31#5 := by
  unfold PairIs
  decide +kernel

theorem witness_no_pair :
    (∀ lo hi, ¬PairIs plain.cfg 1#5 lo hi) ∧ (∀ lo hi, ¬PairIs plain.cfg 31#5 lo hi) ∧
    (∀ lo hi, ¬PairIs scaledPairs.cfg 16#5 lo hi) :=
  ⟨pairOf_eq_none.1 (by decide +kernel), pairOf_eq_none.1 (by decide +kernel), pairOf_eq_none.1 (by decide +kernel)⟩

theorem witness_MemoryReadsWhatWasWritten :
    Memory.wf ([] : Memory) = true ∧ Memory.wf [(0, 1#8), (0xFFFFFFFF, 2#8)] = true ∧ Memory.wf [(3, 0#8)] = false ∧
    4 ≤ (0x00000003#32 - 0xFFFFFFFF#32).toNat := by
  decide

/-- `MisalignedAccessFaults`: a word load at 2 mod 4, and FLD at 4 mod 8 over a pair. -/
theorem witness_MisalignedAccessFaults :
    strict.cfg.misalignedData = .fault ∧
    (∃ acc, accessOf strict (.lw 5#5 6#5 2#12) = some acc ∧ acc.addr.toNat % acc.align ≠ 0) ∧
    (∃ acc, accessOf strict (.fld 2#5 6#5 4#12) = some acc ∧ acc.addr.toNat % acc.align ≠ 0) ∧
    (∀ r ∈ doubleFields (.fld 2#5 6#5 4#12), ∃ lo hi, PairIs strict.cfg r lo hi) ∧
    plain.status = .running ∧ plain.cfg.misalignedData = .bytewise ∧
    ∃ t, exec (.lw 5#5 6#5 2#12) plain = .next t ∧ readX 5#5 t = 0x33448899#32 := by
  refine ⟨by decide +kernel, ⟨_, rfl, by decide +kernel⟩, ⟨_, rfl, by decide +kernel⟩, ?_, by decide +kernel, by decide +kernel,
    ⟨_, rfl, by decide +kernel⟩⟩
  intro r hr
  obtain rfl : r = 2#5 := by simpa [doubleFields] using hr
  exact ⟨2#5, 3#5, .inl (by decide +kernel)⟩

/-- `RefusedAccessIsStuck`: the read of an atomic refused while its write is admitted. -/
theorem witness_RefusedAccessIsStuck :
    ∃ acc, accessOf refusing (.amoaddW 5#5 6#5 7#5 0#1 0#1) = some acc ∧ doubleFields (.amoaddW 5#5 6#5 7#5 0#1 0#1) = [] ∧
      AlignOk refusing.cfg acc.addr acc.align ∧ (∃ c ∈ acc.calls, ¬Admits refusing.cfg c.addr c.size c.kind) ∧
      ∃ c ∈ acc.calls, Admits refusing.cfg c.addr c.size c.kind := by
  refine ⟨_, rfl, rfl, .inl (by decide +kernel), ⟨⟨0x2000#32, 4, .read⟩, ?_, ?_⟩, ⟨⟨0x2000#32, 4, .write⟩, ?_, ?_⟩⟩
  · decide +kernel
  · unfold Admits
    decide +kernel
  · decide +kernel
  · unfold Admits
    decide +kernel

/-- `LoadsSeeEarlierStores`: misaligned where alignment is not checked, and aligned in a machine that checks it and refuses
another address; the pair f0:f1 and slot f0 among the destinations. -/
theorem witness_LoadsSeeEarlierStores :
    Memory.wf plain.mem = true ∧ dispAddr plain 6#5 1#12 = 0x2001#32 ∧
    readX 8#5 (writeX 8#5 0x2001#32 plain) = dispAddr (writeX 8#5 0x2001#32 plain) 6#5 1#12 ∧
    AlignOk plain.cfg 0x2001#32 4 ∧ AlignOk strict.cfg 0x2000#32 4 ∧ AlignOk strict.cfg 0x2000#32 8 ∧
    Admits fetchRefused.cfg 0x2000#32 4 .write ∧ Admits fetchRefused.cfg 0x2000#32 4 .read ∧
    Admits fetchRefused.cfg 0x2000#32 1 .read ∧ Admits fetchRefused.cfg (0x2000#32 + 3#32) 1 .read ∧
    Admits fetchRefused.cfg (0x2000#32 + 2#32) 2 .read ∧ Admits fetchRefused.cfg (0x2000#32 + 4#32) 4 .write ∧
    Admits fetchRefused.cfg (0x2000#32 + 4#32) 4 .read ∧ PairIs plain.cfg 4#5 4#5 5#5 ∧ PairIs plain.cfg 0#5 0#5 1#5 := by
  refine ⟨by decide +kernel, by decide +kernel, by decide +kernel, .inl (by decide +kernel), .inr (by decide),
    .inr (by decide), ?_, ?_, ?_, ?_, ?_, ?_, ?_, .inl (by decide +kernel), .inl (by decide +kernel)⟩ <;> unfold Admits <;>
    decide +kernel

theorem witness_ImmediateAluResults_reserved_shift :
    (0x02031293#32).extractLsb' 0 7 = 0b0010011#7 ∧ (0x02031293#32).extractLsb' 12 3 = 0b001#3 ∧
    (0x02031293#32).getLsbD 25 = true := by
  decide

/-- `DivideResults`: a zero divisor, the overflow, and an ordinary division beside each. -/
theorem witness_DivideResults :
    (readX 6#5 plain = 0x2000#32 ∧ readX 0#5 plain = 0#32) ∧
    (let s := writeX 8#5 0x80000000#32 (writeX 9#5 0xFFFFFFFF#32 plain)
     readX 8#5 s = 0x80000000#32 ∧ readX 9#5 s = 0xFFFFFFFF#32) ∧
    (let s := writeX 8#5 0x80000001#32 (writeX 9#5 0xFFFFFFFF#32 plain)
     readX 9#5 s ≠ 0#32 ∧ ¬(readX 8#5 s = 0x80000000#32 ∧ readX 9#5 s = 0xFFFFFFFF#32)) ∧
    (let s := writeX 8#5 0x80000000#32 (writeX 9#5 0xFFFFFFFE#32 plain)
     readX 9#5 s ≠ 0#32 ∧ ¬(readX 8#5 s = 0x80000000#32 ∧ readX 9#5 s = 0xFFFFFFFF#32)) := by
  decide +kernel

/-- The accesses of the load, store and atomic statements: aligned where alignment is checked, of any alignment where it is not,
admitted, up to the last byte of memory. -/
theorem witness_accesses :
    AlignOk strict.cfg 0x2000#32 8 ∧ AlignOk plain.cfg 0x2003#32 8 ∧ AlignOk strict.cfg 0xFFFFFFFF#32 1 ∧
    Admits plain.cfg 0xFFFFFFFF#32 1 .read ∧ Admits plain.cfg 0xFFFFFFFE#32 2 .read ∧
    Admits plain.cfg 0xFFFFFFFC#32 4 .write ∧ Admits plain.cfg (0xFFFFFFFC#32 + 4#32) 4 .write ∧
    Admits refusing.cfg 0x2004#32 4 .read ∧ Admits refusing.cfg 0x2000#32 4 .write := by
  refine ⟨.inr (by decide), .inl (by decide +kernel), .inr (by decide), ?_, ?_, ?_, ?_, ?_, ?_⟩ <;> unfold Admits <;>
    decide +kernel

/-- `IntegerLoadResults` to `AmoResults` on `plain`: the address, its alignment and its admission, together. -/
theorem witness_plain_accesses :
    dispAddr plain 6#5 0#12 = 0x2000#32 ∧ readX 6#5 plain = 0x2000#32 ∧ AlignOk plain.cfg 0x2000#32 8 ∧
    AlignOk plain.cfg 0x2000#32 4 ∧ Admits plain.cfg 0x2000#32 4 .read ∧ Admits plain.cfg 0x2000#32 4 .write ∧
    Admits plain.cfg (0x2000#32 + 4#32) 4 .read ∧ Admits plain.cfg (0x2000#32 + 4#32) 4 .write ∧
    wordAt plain 0x2000#32 = 0x8899AABB#32 ∧ Memory.wf plain.mem = true ∧ PairIs plain.cfg 4#5 4#5 5#5 := by
  refine ⟨by decide +kernel, by decide +kernel, .inl (by decide +kernel), .inl (by decide +kernel), ?_, ?_, ?_, ?_,
    by decide +kernel, by decide +kernel, .inl (by decide +kernel)⟩ <;> unfold Admits <;> decide +kernel

/-- A rounding mode selected by the field, for each mode, and by `frm`. -/
theorem witness_rounding_modes :
    RmSelects 0b000#3 7#3 .rne ∧ RmSelects 0b001#3 7#3 .rtz ∧ RmSelects 0b010#3 7#3 .rdn ∧ RmSelects 0b011#3 7#3 .rup ∧
    RmSelects 0b100#3 7#3 .rmm ∧ RmSelects 0b111#3 0#3 .rne ∧ RmSelects 0b111#3 4#3 .rmm := by
  unfold RmSelects modeCode
  decide

/-- `DoubleArithmeticResults`, `MinMaxCompareResults`, `MoveSignAndClassResults` and the conversions: mode and pairs together,
in both pair modes. -/
theorem witness_double_operands :
    RmSelects 0b111#3 plain.frm .rne ∧ PairIs plain.cfg 2#5 2#5 3#5 ∧ PairIs plain.cfg 4#5 4#5 5#5 ∧
    PairIs plain.cfg 6#5 6#5 7#5 ∧ PairIs plain.cfg 8#5 8#5 9#5 ∧ doubleOf plain 4#5 5#5 = 0x3FF0000000000000#64 ∧
    PairIs scaledPairs.cfg 2#5 4#5 5#5 ∧ doubleOf scaledPairs 4#5 5#5 = 0x3FF0000000000000#64 := by
  unfold RmSelects PairIs modeCode
  decide +kernel

/-! ### Values of patterns -/

theorem witness_nans :
    IsNan .S 0x7FC00000#32 ∧ IsNan .S 0x7F800001#32 ∧ IsSignallingNan .S 0x7F800001#32 ∧ IsNan .D 0x7FF8000000000000#64 ∧
    IsSignallingNan .D 0x7FF0000000000001#64 := by
  unfold IsSignallingNan IsNan
  decide +kernel

theorem witness_quiet : ¬IsSignallingNan .S 0x7FC00000#32 ∧ ¬IsNan .S 0x7F800000#32 ∧ ¬IsNan .S 0x3F800000#32 := by
  unfold IsSignallingNan IsNan
  decide +kernel

theorem witness_infinities_and_zeros :
    IsInf .S 0x7F800000#32 false ∧ IsInf .S 0xFF800000#32 true ∧ IsZero .S 0#32 false ∧ IsZero .S 0x80000000#32 true ∧
    IsInf .D 0xFFF0000000000000#64 true ∧ IsZero .D 0x8000000000000000#64 true := by
  unfold IsInf IsZero
  decide +kernel

theorem witness_value_one : HasMagnitude .S 0x3F800000#32 false 1 := by
  refine ⟨by decide +kernel, by decide +kernel, fun h => absurd h (by decide +kernel), fun _ => ?_⟩
  rw [show Fp.expField .S 0x3F800000#32 = 127 by decide +kernel, show Fp.fracField .S 0x3F800000#32 = 0 by decide +kernel]
  norm_num [Fp.fracBits, Fp.prec, Fp.bias]

theorem witness_value_minus_one : HasMagnitude .S 0xBF800000#32 true 1 := by
  refine ⟨by decide +kernel, by decide +kernel, fun h => absurd h (by decide +kernel), fun _ => ?_⟩
  rw [show Fp.expField .S 0xBF800000#32 = 127 by decide +kernel, show Fp.fracField .S 0xBF800000#32 = 0 by decide +kernel]
  norm_num [Fp.fracBits, Fp.prec, Fp.bias]

theorem witness_values :
    HasValue .S 0x3F800000#32 1 ∧ HasValue .S 0xBF800000#32 (-1) ∧ HasValue .S 0#32 0 ∧ HasValue .S 0x80000000#32 0 :=
  ⟨⟨1, .inl ⟨witness_value_one, rfl⟩⟩, ⟨1, .inr ⟨witness_value_minus_one, rfl⟩⟩,
    Fp.hasValue_zero (s := false) (by decide +kernel), Fp.hasValue_zero (s := true) (by decide +kernel)⟩

/-- `PatternFieldsAndClasses` and `MoveSignAndClassResults`: a pattern of a class at each end of the list. -/
theorem witness_classes : IsClass .S 0xFF800000#32 0 ∧ IsClass .S 0x00000001#32 5 ∧ IsClass .S 0x7FC00000#32 9 := by
  simp only [IsClass, IsInf, IsSubnormal, IsSignallingNan, IsNan]
  decide +kernel

/-- `AddSubMeetsIeee`, `MulMeetsIeee`, `DivMeetsIeee`, `FmaMeetsIeee`: the operands of each clause of their rules, from the
facts above; the products and sums of the finite clauses that are 0 and that are not. -/
theorem witness_arithmetic_rules :
    (IsInf .S 0x7F800000#32 false ∧ IsInf .S 0xFF800000#32 (!false)) ∧
    (IsInf .S 0x7F800000#32 false ∧ ¬IsNan .S 0x3F800000#32 ∧ ¬IsInf .S 0x3F800000#32 (!false)) ∧
    (IsZero .S 0#32 false ∧ IsZero .S 0x80000000#32 (!false)) ∧
    (IsInf .S 0x7F800000#32 false ∧ IsZero .S 0x80000000#32 true) ∧
    (∃ x y, HasValue .S 0x3F800000#32 x ∧ HasValue .S 0xBF800000#32 y ∧ x ≠ 0 ∧ y ≠ 0 ∧ x + y = 0 ∧ x * y ≠ 0) ∧
    (∃ x y, HasValue .S 0x3F800000#32 x ∧ HasValue .S 0#32 y ∧ x ≠ 0 ∧ x + y ≠ 0 ∧ x * y = 0) ∧
    (∀ t, ¬IsZero .S 0x3F800000#32 t) := by
  refine ⟨?_, ?_, ?_, ?_, ⟨1, -1, witness_values.1, witness_values.2.1, by norm_num⟩,
    ⟨1, 0, witness_values.1, witness_values.2.2.1, by norm_num⟩, ?_⟩ <;> simp only [IsInf, IsZero, IsNan] <;>
    decide +kernel

/-- `FmaMeetsIeee`: the signed product and addend of its finite clause, and the infinite product with an addend of either sign. -/
theorem witness_FmaMeetsIeee :
    SignedReal true (1 * -1) 1 ∧ SignedReal false 1 1 ∧
    (∀ s t, ¬(IsInf .S 0x3F800000#32 s ∧ IsZero .S 0x3F800000#32 t)) ∧
    ((true != false) = !((Fp.signBit .S 0x7F800000#32 != Fp.signBit .S 0x3F800000#32) != false)) ∧
    ((false != false) = ((Fp.signBit .S 0x7F800000#32 != Fp.signBit .S 0x3F800000#32) != false)) := by
  refine ⟨⟨by simp, by norm_num⟩, ⟨by simp, by simp⟩, ?_, by decide +kernel, by decide +kernel⟩
  unfold IsInf IsZero
  decide +kernel

/-- `SqrtMeetsIeee`, `SquareRootResults`: an operand of each clause, the negative ones down to -infinity. -/
theorem witness_square_roots :
    (¬IsNan .S 0xFF800000#32 ∧ ¬IsZero .S 0xFF800000#32 true ∧ Fp.signBit .S 0xFF800000#32 = true) ∧
    (¬IsNan .S 0x80000001#32 ∧ ¬IsZero .S 0x80000001#32 true ∧ Fp.signBit .S 0x80000001#32 = true) ∧
    (¬IsNan .D 0xBFF0000000000000#64 ∧ ¬IsZero .D 0xBFF0000000000000#64 true ∧ Fp.signBit .D 0xBFF0000000000000#64 = true) ∧
    Fp.signBit .S 0x3F800000#32 = false ∧ Fp.signBit .D 0x3FF0000000000000#64 = false := by
  unfold IsNan IsZero
  decide +kernel

/-- `ToIntMeetsIeee`: a magnitude whose integer is in range (1 and -1). For the unsigned kind -1 is below it. -/
theorem witness_ToIntMeetsIeee :
    HasMagnitude .S 0x3F800000#32 false 1 ∧ HasMagnitude .S 0xBF800000#32 true 1 ∧
    IsRoundInt .rne false 1 1 := by
  refine ⟨witness_value_one, witness_value_minus_one, 1, 0, by norm_num, by norm_num, by norm_num, fun h => absurd rfl h.1,
    fun _ => rfl⟩

/-- `ConversionsMeetIeee`: an integer that is 0 and one that is not; a NaN, an infinity, a zero and a nonzero value of each
format are above. -/
theorem witness_ConversionsMeetIeee :
    (0#32).toInt = 0 ∧ (0x80000000#32).toInt ≠ 0 ∧ ∃ x : ℝ, HasValue .S 0x3F800000#32 x ∧ x ≠ 0 :=
  ⟨by decide, by decide, 1, witness_values.1, by norm_num⟩

/-- `CompareMinMaxMeetIeee`: ordered, equal and unordered operands; `-0` before `+0`. -/
theorem witness_CompareMinMaxMeetIeee :
    Compares .S .lt 0xBF800000#32 0x3F800000#32 ∧ Compares .S .eq 0x80000000#32 0#32 ∧
    IsBefore .S 0x80000000#32 0#32 ∧ IsLess .S 0xFF800000#32 0x3F800000#32 := by
  refine ⟨.inl ⟨-1, 1, witness_values.2.1, witness_values.1, by norm_num⟩,
    .inl ⟨0, witness_values.2.2.2, witness_values.2.2.1⟩, .inr ?_, .inr (.inl ?_)⟩
  · unfold IsZero
    decide +kernel
  · unfold IsInf IsNan
    decide +kernel

/-- `MinMaxCompareResults`, `FenceResults`: their pairs are above; both fetch modes. -/
theorem witness_FenceResults :
    plain.cfg.fetchCoherence = .fault ∧
    ({ plain with cfg := { Config.default with fetchCoherence := .immediate } } : State).cfg.fetchCoherence = .immediate := by
  decide +kernel

theorem witness_CsrResults :
    FloatCsrValue { plain with frm := 5#3, fflags := 0x11#5 } 0x001#12 0x11#32 ∧
    FloatCsrValue { plain with frm := 5#3, fflags := 0x11#5 } 0x002#12 0x5#32 ∧
    FloatCsrValue { plain with frm := 5#3, fflags := 0x11#5 } 0x003#12 0xB1#32 := by
  unfold FloatCsrValue
  decide +kernel

/-- `CounterReadsAndCsrCheck`: the first and last counter; a counter write, an absent number below and above the three. -/
theorem witness_CounterReadsAndCsrCheck :
    0xC00#12 ∈ counterCsrs ∧ 0xC82#12 ∈ counterCsrs ∧ csrField (.csrrs 5#5 6#5 0xC00#12) = some (0xC00#12, true) ∧
    csrField (.csrrs 5#5 0#5 0x000#12) = some (0x000#12, false) ∧ 0x000#12 ∉ counterCsrs ∧
    0x000#12 ∉ [0x001#12, 0x002#12, 0x003#12] ∧ 0x004#12 ∉ [0x001#12, 0x002#12, 0x003#12] ∧ 0x004#12 ∉ counterCsrs := by
  decide

/-- `ReservedRoundingModeFaults`: a reserved field, and the dynamic field over the first reserved `frm`. -/
theorem witness_ReservedRoundingModeFaults :
    rmField (.faddS 1#5 2#5 3#5 0b101#3) = some 0b101#3 ∧ rmField (.fcvtDW 2#5 1#5 0b111#3) = some 0b111#3 ∧
    ({ plain with frm := 5#3 } : State).frm.toNat ∈ [5, 6, 7] ∧ ¬((4#3).toNat ∈ [5, 6, 7]) := by
  decide +kernel

/-- `UnpairedDoubleFieldFaults`: the last field of a fused multiply-add, and a store's field. -/
theorem witness_UnpairedDoubleFieldFaults :
    31#5 ∈ doubleFields (.fmaddD 2#5 4#5 6#5 31#5 0b000#3) ∧ 1#5 ∈ doubleFields (.fsd 6#5 1#5 0#12) ∧
    (∀ lo hi, ¬PairIs plain.cfg 31#5 lo hi) ∧ (∀ lo hi, ¬PairIs plain.cfg 1#5 lo hi) ∧
    (∀ rm, rmField (.fmaddD 2#5 4#5 6#5 31#5 0b000#3) = some rm → ∃ mode, RmSelects rm plain.frm mode) := by
  refine ⟨by decide, by decide, witness_no_pair.2.1, witness_no_pair.1, fun rm h => ⟨.rne, .inl ?_⟩⟩
  cases h
  decide

end Sys2Proof.Tests
end

section
/-! SUPPORT. The statements about the state (10_state): the invariant, who may step, sticky flags, `x0`, double pairs, `begin` and
the port. Those about every instruction or every step rest on `exec_leaves` and `step_leaves`. -/

namespace Sys2Proof.Machine

open Sys2Proof.Claims

/-! ## What an outcome leaves, whichever instruction or check it comes from -/

/-- The form of a next state: it goes on (`on` says what that keeps), or it is the state a halt leaves after it accrued its
flags, the state a fault leaves, or the state a refused access leaves (R650 to R658). -/
inductive Leaves (on : Prop) (s t : State) : Prop
  | goesOn (h : on)
  | halt (flags : Flags) (reason : HaltReason) (outcome : t = haltOutcome (setFlags flags s) reason)
  | fault (reason : FaultReason) (word addr : Word) (outcome : t = faultOutcome s reason word addr)
  | stuck (outcome : t = stuckOutcome s)

theorem Leaves.imp {on on' : Prop} {s t : State} (h : Leaves on s t) (himp : on → on') : Leaves on' s t := by
  cases h with
  | goesOn h => exact .goesOn (himp h)
  | halt flags reason ht => exact .halt flags reason ht
  | fault reason word addr ht => exact .fault reason word addr ht
  | stuck ht => exact .stuck ht

/-- Accruing no flag changes nothing. -/
theorem setFlags_none (s : State) : setFlags flagNone s = s := by rw [setFlags, accrued_none]

/-- The four endings of `exec_ends`, by the state they leave alone. -/
theorem exec_leaves {i : Instr} {s t : State} (he : exec i s = .next t) : Leaves (GoesOn i s t) s t := by
  obtain ⟨u, hu, h⟩ := exec_ends i s
  rw [he] at hu; cases hu
  rcases h with g | hh | hf | ⟨_, _, _, _, _, ht⟩
  · exact .goesOn g
  · cases hh with
    | scall ht | sbreak ht => exact .halt flagNone _ (by rw [setFlags_none]; exact ht)
    | sqrtS _ _ _ _ ht | sqrtD _ _ _ _ _ _ _ ht => exact .halt flagNV _ ht
  · cases hf with
    | illegal _ ht | regPair _ ht | dataMisaligned _ _ _ ht => exact .fault _ _ _ ht
  · exact .stuck ht

/-- A step leaves what its instruction leaves, or what a fetch fault, an illegal word or a refused fetch does. -/
theorem step_leaves {s t : State} (h : step s = .next t) : Leaves (∃ i, GoesOn i s t) s t := by
  obtain ⟨-, he⟩ := step_ends h
  cases he with
  | misaligned _ ht | unfenced _ _ ht | illegal _ _ ht => exact .fault _ _ _ ht
  | refused _ _ ht => exact .stuck ht
  | ran _ i _ he => exact (exec_leaves he).imp fun g => ⟨i, g⟩

/-! ## The invariant -/

/-- Outside a faulted state, the record agrees exactly when there is none (R652, R655). -/
theorem recordAgrees_iff_none {s : State} (hs : ∀ reason, s.status ≠ .faulted reason) :
    recordAgrees s = true ↔ s.record = none := by
  unfold recordAgrees
  cases hst : s.status with
  | faulted reason => exact absurd hst (hs reason)
  | running | halted _ | stuck => cases s.record <;> simp

theorem record_none_of_running {s : State} (hs : s.status = .running) (h : Inv s) : s.record = none :=
  (recordAgrees_iff_none (by simp [hs])).1 h.record

/-- The invariant says nothing of `fcsr`. -/
theorem inv_setFlags {s : State} (h : Inv s) (flags : Flags) : Inv (setFlags flags s) :=
  ⟨h.memory, h.x0, h.modified, h.cfg, h.record⟩

/-- A fault sets the record its status asks for (R652, R655). -/
theorem inv_faultOutcome {s : State} (h : Inv s) (reason : FaultReason) (word addr : Word) :
    Inv (faultOutcome s reason word addr) :=
  ⟨h.memory, h.x0, h.modified, h.cfg, by simp [recordAgrees, faultOutcome]⟩

/-- A halt of a running state has no record (R650). -/
theorem inv_haltOutcome {s : State} (hs : s.status = .running) (h : Inv s) (reason : HaltReason) :
    Inv (haltOutcome s reason) :=
  ⟨h.memory, h.x0, h.modified, h.cfg,
    (recordAgrees_iff_none (by simp [haltOutcome])).2 (record_none_of_running (s := s) hs h)⟩

/-- A refused access of a running state leaves no record (R658). -/
theorem inv_stuckOutcome {s : State} (hs : s.status = .running) (h : Inv s) : Inv (stuckOutcome s) :=
  ⟨h.memory, h.x0, h.modified, h.cfg,
    (recordAgrees_iff_none (by simp [stuckOutcome])).2 (record_none_of_running (s := s) hs h)⟩

/-- An instruction that goes on from a running state keeps the invariant: the next state is running too, without a record. -/
theorem GoesOn.inv {i : Instr} {s t : State} (g : GoesOn i s t) (hs : s.status = .running) (h : Inv s) : Inv t where
  memory := g.memWf h.memory
  x0 := g.x0 h.x0
  modified := g.modifiedWf h.modified
  cfg := g.cfg ▸ h.cfg
  record := (recordAgrees_iff_none (by simp [g.status, hs])).2 (g.record.trans (record_none_of_running hs h))

/-- Settles O13: whatever form the next state of a step has, it meets the invariant. -/
theorem stepKeepsInvariant : Obligations.StepKeepsInvariant := by
  intro s t h hstep
  have hs : s.status = .running := (step_ends hstep).1
  cases step_leaves hstep with
  | goesOn hg =>
    obtain ⟨i, g⟩ := hg
    exact g.inv hs h
  | halt flags reason ht => exact ht ▸ inv_haltOutcome (s := setFlags flags s) hs (inv_setFlags h flags) reason
  | fault reason word addr ht => exact ht ▸ inv_faultOutcome h reason word addr
  | stuck ht => exact ht ▸ inv_stuckOutcome hs h

/-- `begin` over canonical memory and legal parameters leaves a state that meets the invariant (R72, R705). -/
theorem inv_afterBegin {cfg : Config} {mem : Memory} (hc : cfg.wf = true) (hm : Memory.wf mem = true) (draws : Nat) :
    Inv (State.afterBegin cfg mem draws) :=
  ⟨hm, by simp [State.afterBegin], rfl, hc, rfl⟩

/-- Settles O14: reset and `begin` are both `State.afterBegin`. -/
theorem resetMeetsInvariant : Obligations.ResetMeetsInvariant :=
  ⟨inv_afterBegin (by decide) rfl 0, fun s h => inv_afterBegin h.cfg h.memory s.draws⟩

/-! ## Who may step -/

/-- Settles O8: `step_running` gives the next state; `step` refuses in every other status. -/
theorem onlyRunningSteps : Obligations.OnlyRunningSteps := by
  intro s
  refine ⟨fun hs => ?_, fun hs => ?_⟩
  · obtain ⟨t, ht, -⟩ := step_running hs
    exact ⟨t, ht⟩
  · cases hst : s.status with
    | running => exact absurd hst hs
    | halted _ | faulted _ | stuck => simp [step, hst]

/-! ## Sticky flags -/

/-- No flag of `s` is cleared in `t`, none is set where `FFLAGS_MODE = frozen`, and `frm` is kept (R61, R470). -/
def FlagsSticky (s t : State) : Prop :=
  t.frm = s.frm ∧ s.fflags &&& t.fflags = s.fflags ∧ (s.cfg.fflagsMode = .frozen → t.fflags = s.fflags)

/-- Accrued flags stay (R470). -/
theorem and_accrued (cfg : Config) (old mask : Flags) : old &&& accrued cfg old mask = old := by
  unfold accrued
  cases cfg.fflagsMode with
  | frozen => exact BitVec.and_self
  | accrue => revert old mask; decide

theorem accrued_frozen {cfg : Config} (h : cfg.fflagsMode = .frozen) (old mask : Flags) : accrued cfg old mask = old := by
  simp [accrued, h]

/-- `setflags` is sticky, and so is leaving the flags alone (`accrued_none`). -/
theorem flagsSticky_of_accrued {s t : State} {mask : Flags} (hfrm : t.frm = s.frm)
    (hflags : t.fflags = accrued s.cfg s.fflags mask) : FlagsSticky s t :=
  ⟨hfrm, by rw [hflags, and_accrued], fun h => by rw [hflags, accrued_frozen h]⟩

theorem flagsSticky_of_kept {s t : State} (hfrm : t.frm = s.frm) (hflags : t.fflags = s.fflags) : FlagsSticky s t :=
  flagsSticky_of_accrued (mask := flagNone) hfrm (by rw [hflags, accrued_none])

/-- Every instruction but the CSR instructions is sticky: it accrues, or it leaves `fcsr` alone (R61). -/
theorem exec_flagsSticky {i : Instr} {s t : State} (he : exec i s = .next t) (hc : csrField i = none) : FlagsSticky s t := by
  cases exec_leaves he with
  | goesOn g =>
    obtain ⟨hfrm, mask, hflags⟩ := g.fcsr hc
    exact flagsSticky_of_accrued hfrm hflags
  | halt flags _ ht => subst ht; exact flagsSticky_of_accrued (mask := flags) rfl rfl
  | fault _ _ _ ht | stuck ht => subst ht; exact flagsSticky_of_kept rfl rfl

/-- Settles O16; the CSR write that clears the flags is CSRRWI of 0 to `fflags`. -/
theorem flagsAreStickyAndFrmIsCsrOnly : Obligations.FlagsAreStickyAndFrmIsCsrOnly := by
  refine ⟨fun i s t he hc => exec_flagsSticky he hc, fun s => ?_, fun s => ⟨rfl, rfl⟩⟩
  obtain ⟨t, ht, hr⟩ := csrAccess_float (s := s) (.inl ⟨rfl, rfl⟩) 0#5 false true (new := fun _ => 0#32) fun _ => rfl
  exact ⟨t, ht, (hr.fcsr.1 rfl).1⟩

/-! ## `x0` -/

/-- A step keeps the stored `x0` at 0 (R51), whatever else the state holds. -/
theorem step_x0 {s t : State} (h : step s = .next t) (h0 : s.x[0] = 0#32) : t.x[0] = 0#32 := by
  cases step_leaves h with
  | goesOn hg =>
    obtain ⟨i, g⟩ := hg
    exact g.x0 h0
  | halt _ _ ht | fault _ _ _ ht | stuck ht => subst ht; exact h0

/-- Where only `x0` may have changed, every register reads as before (R51). -/
theorem keepsX_nil_of_x0 {s t : State} (h : KeepsX s t [0#5]) : KeepsX s t [] := by
  intro r _
  by_cases hr : r = 0#5
  · rw [hr, readX_zero, readX_zero]
  · exact h r (by simpa using hr)

theorem feqS_x0_completes (s : State) (rs1 rs2 : Reg) : Completes (.feqS 0#5 rs1 rs2) s fun t =>
    KeepsX s t [] ∧ Accrues s (Fp.compare .S .eq (readF rs1 s) (readF rs2 s)).2 t := by
  obtain ⟨t, ht, hr⟩ := finishXFlags_completes 0#5 (Fp.compare .S .eq (readF rs1 s) (readF rs2 s)).1
    (Fp.compare .S .eq (readF rs1 s) (readF rs2 s)).2 s
  exact ⟨t, ht, keepsX_nil_of_x0 hr.otherX, hr.fcsr⟩

theorem amoswapW_x0_completes {s : State} {rs1 : Reg} (hm : Memory.wf s.mem = true) (ha : AlignOk s.cfg (readX rs1 s) 4)
    (hr : Admits s.cfg (readX rs1 s) 4 .read) (hw : Admits s.cfg (readX rs1 s) 4 .write) (rs2 : Reg) (aq rl : BitVec 1) :
    Completes (.amoswapW 0#5 rs1 rs2 aq rl) s fun t => KeepsX s t [] ∧ Stores s (readX rs1 s) (leBytes (readX rs2 s)) t := by
  obtain ⟨t, ht, h⟩ := amo_completes hm (op := fun _ b => b) (rd := 0#5) (rs2 := rs2) ha hr hw
  exact ⟨t, ht, keepsX_nil_of_x0 h.otherX, h.memory⟩

/-- A byte access is always aligned (R105). -/
theorem alignOk_one (cfg : Config) (a : Word) : AlignOk cfg a 1 := .inr (Nat.mod_one _)

/-- Settles O20: `readX` and `writeX` at `x0`, `step_x0`, and one instruction of each kind with `rd = x0`. -/
theorem x0ReadsZeroAfterEveryStep : Obligations.X0ReadsZeroAfterEveryStep :=
  ⟨fun s t => ⟨readX_zero s, fun h => ⟨readX_zero t, step_x0 h⟩⟩, fun v s => ⟨writeX_zero v s, writeX_zero v s⟩,
    fun _ _ => rfl, feqS_x0_completes, fun _ _ rs2 aq rl hm ha hr hw => amoswapW_x0_completes hm ha hr hw rs2 aq rl,
    fun s _ _ hn => withAccess_refused (alignOk_one s.cfg _) (List.mem_singleton_self _) hn _⟩

/-! ## Double pairs -/

/-- The fields R57 gives no pair: the odd ones under `even_pair`, those from 16 up under `scaled`. -/
theorem pairOf_eq_none_iff (cfg : Config) (r : Reg) : pairOf cfg r = none ↔
    (cfg.dpairMode = .evenPair ∧ r.toNat % 2 = 1) ∨ (cfg.dpairMode = .scaled ∧ 16 ≤ r.toNat) := by
  have hodd : ∀ r : Reg, r.getLsbD 0 = true ↔ r.toNat % 2 = 1 := by decide
  unfold pairOf
  cases cfg.dpairMode with
  | evenPair => simpa using hodd r
  | scaled => simp

/-- The halves of a double are its slots (R57). -/
theorem extract_doubleOf (s : State) (lo hi : Reg) :
    (doubleOf s lo hi).extractLsb' 32 32 = readF hi s ∧ (doubleOf s lo hi).extractLsb' 0 32 = readF lo s := by
  constructor
  · rw [doubleOf, BitVec.extractLsb'_append_eq_of_le (Nat.le_refl 32)]; simp
  · rw [doubleOf, BitVec.extractLsb'_append_eq_of_add_le (show 0 + 32 ≤ 32 by norm_num)]; simp

/-- A write of the low slot keeps the double's high half, and shows in the low one (R58). -/
theorem doubleOf_writeF_lo {lo hi : Reg} (hne : hi ≠ lo) (w : Word) (s : State) :
    doubleOf (writeF lo w s) lo hi = (doubleOf s lo hi).extractLsb' 32 32 ++ w := by
  rw [(extract_doubleOf s lo hi).1, doubleOf, readF_writeF_of_ne hne, readF_writeF_self]

/-- A write of the high slot keeps the double's low half, and shows in the high one (R58). -/
theorem doubleOf_writeF_hi {lo hi : Reg} (hne : hi ≠ lo) (w : Word) (s : State) :
    doubleOf (writeF hi w s) lo hi = w ++ (doubleOf s lo hi).extractLsb' 0 32 := by
  rw [(extract_doubleOf s lo hi).2, doubleOf, readF_writeF_of_ne hne.symm, readF_writeF_self]

/-- Settles O21: the pair check is R57's table, and what a write of either slot, or of both, leaves of the other. -/
theorem doublePairsShareSlots : Obligations.DoublePairsShareSlots := by
  refine ⟨fun cfg r lo hi => pairOf_eq_some, pairOf_eq_none_iff, fun cfg r lo hi v w s hp => ?_⟩
  have hne : hi ≠ lo := pairOf_hi_ne_lo (pairOf_eq_some.2 hp)
  have keeps : KeepsF s (writePair ⟨lo, hi⟩ v s) [lo, hi] := fun q hq => by
    simp only [List.mem_cons, List.not_mem_nil, or_false, not_or] at hq
    rw [readF_writePair, if_neg hq.2, if_neg hq.1]
  exact ⟨rfl, by simp [readF_writePair, hne.symm], by simp [readF_writePair], keeps,
    readPair_writePair (pairOf_eq_some.2 hp) v s, doubleOf_writeF_lo hne w s, doubleOf_writeF_hi hne w s⟩

/-! ## Unpaired fields -/

/-- The outcome of an unpaired double field: Fault(REG_PAIR), the record's address 0 (R57, R655). -/
abbrev regPairFault (s : State) : Result := .next (faultOutcome s .regPair (wordAt s s.pc) 0#32)

section Unpaired

/-! One unpaired field among those an operation checks faults it, whatever the operation computes. -/

variable {s : State} {q : Reg} (hq : ∀ lo hi, ¬PairIs s.cfg q lo hi)
include hq

/-- One check fails, or a later one of the chain does (R480). -/
theorem withPair_unpaired_mem {r : Reg} {rest : List Reg} {done : Pair → Result} (hmem : q ∈ r :: rest)
    (later : q ∈ rest → ∀ p, done p = regPairFault s) : withPair r s done = regPairFault s := by
  by_cases hr : ∃ lo hi, PairIs s.cfg r lo hi
  · obtain ⟨lo, hi, hp⟩ := hr
    have hne : q ≠ r := fun h => hq lo hi (h ▸ hp)
    rw [withPair_pass hp]
    exact later ((List.mem_cons.1 hmem).resolve_left hne) _
  · exact withPair_unpaired (fun lo hi hp => hr ⟨lo, hi, hp⟩) done

theorem withPair_unpaired_one {r : Reg} {done : Pair → Result} (h : q ∈ [r]) : withPair r s done = regPairFault s :=
  withPair_unpaired_mem hq h nofun

theorem withPair_unpaired_two {r1 r2 : Reg} {done : Pair → Pair → Result} (h : q ∈ [r1, r2]) :
    (withPair r1 s fun d => withPair r2 s (done d)) = regPairFault s :=
  withPair_unpaired_mem hq h fun h _ => withPair_unpaired_one hq h

theorem withPair_unpaired_three {r1 r2 r3 : Reg} {done : Pair → Pair → Pair → Result} (h : q ∈ [r1, r2, r3]) :
    (withPair r1 s fun d => withPair r2 s fun a => withPair r3 s (done d a)) = regPairFault s :=
  withPair_unpaired_mem hq h fun h _ => withPair_unpaired_two hq h

theorem withPair_unpaired_four {r1 r2 r3 r4 : Reg} {done : Pair → Pair → Pair → Pair → Result}
    (h : q ∈ [r1, r2, r3, r4]) :
    (withPair r1 s fun d => withPair r2 s fun a => withPair r3 s fun b => withPair r4 s (done d a b)) =
      regPairFault s :=
  withPair_unpaired_mem hq h fun h _ => withPair_unpaired_three hq h

end Unpaired

/-- The rm check comes before the pair checks, and lets them answer where it passes (R455, R480). -/
theorem withMode_of_selects {s : State} {rm : BitVec 3} {done : Fp.Mode → Result} {r : Result}
    (hm : ∃ mode, RmSelects rm s.frm mode) (h : ∀ mode, done mode = r) : withMode rm s done = r := by
  obtain ⟨mode, hm⟩ := hm
  rw [withMode_pass hm, h]

/-- Settles O51: by the number of the double fields, after the rm check where there is one. -/
theorem unpairedDoubleFieldFaults : Obligations.UnpairedDoubleFieldFaults := by
  intro i s q hmem hq hrm
  cases i with
  | fld | fsd | fclassD => exact withPair_unpaired_one hq hmem
  | fcvtWD | fcvtWuD | fcvtDW | fcvtDWu | fcvtSD | fcvtDS =>
    exact withMode_of_selects (hrm _ rfl) fun _ => withPair_unpaired_one hq hmem
  | feqD | fltD | fleD => exact withPair_unpaired_two hq hmem
  | fsqrtD => exact withMode_of_selects (hrm _ rfl) fun _ => withPair_unpaired_two hq hmem
  | fminD | fmaxD | fsgnjD | fsgnjnD | fsgnjxD => exact withPair_unpaired_three hq hmem
  | faddD | fsubD | fmulD | fdivD =>
    exact withMode_of_selects (hrm _ rfl) fun _ => withPair_unpaired_three hq hmem
  | fmaddD | fmsubD | fnmsubD | fnmaddD =>
    exact withMode_of_selects (hrm _ rfl) fun _ => withPair_unpaired_four hq hmem
  | _ => cases hmem

/-! ## `begin` and the port -/

/-- Every integer register reads 0 after `begin` (R72). -/
theorem readX_afterBegin (cfg : Config) (mem : Memory) (draws : Nat) (r : Reg) :
    readX r (State.afterBegin cfg mem draws) = 0#32 := by
  simp [readX, State.afterBegin, Vector.get_eq_getElem]

/-- Every slot reads 0 after `begin` (R72). -/
theorem readF_afterBegin (cfg : Config) (mem : Memory) (draws : Nat) (r : Reg) :
    readF r (State.afterBegin cfg mem draws) = 0#32 := by
  simp [readF, State.afterBegin, Vector.get_eq_getElem]

/-- Every double reads +0.0 after `begin` (R72). -/
theorem doubleOf_afterBegin (cfg : Config) (mem : Memory) (draws : Nat) (lo hi : Reg) :
    doubleOf (State.afterBegin cfg mem draws) lo hi = 0#64 := by
  rw [doubleOf, readF_afterBegin, readF_afterBegin]; rfl

/-- Settles O18: `begin` and reset are both `State.afterBegin`. -/
theorem beginZeroesEverything : Obligations.BeginZeroesEverything :=
  ⟨fun s => ⟨readX_afterBegin _ _ _, readF_afterBegin _ _ _, doubleOf_afterBegin s.cfg s.mem s.draws,
      rfl, rfl, rfl, rfl, rfl, rfl, rfl, rfl, rfl⟩,
    readX_afterBegin _ _ _, readF_afterBegin _ _ _, rfl, rfl, rfl, rfl, rfl, rfl, rfl⟩

/-- Settles O19: the port is the register operations, whose rules stand in the layer of Laws. -/
theorem portWritesAndX0 : Obligations.PortWritesAndX0 := by
  intro s i v
  exact ⟨readX_zero s, writeX_zero v s, readX_writeX_self i v s, fun r hr => readX_writeX_of_ne hr v s,
    fun _ _ => rfl, ⟨rfl, rfl⟩, ⟨fun _ => rfl, rfl⟩, ⟨rfl, rfl, rfl, rfl⟩, rfl,
    readF_writeF_self i v s, fun r hr => readF_writeF_of_ne (by simpa using hr) v s, fun _ _ => rfl,
    ⟨rfl, rfl⟩, ⟨fun _ => rfl, rfl⟩, ⟨rfl, rfl, rfl, rfl⟩, rfl, rfl, rfl, rfl, fcsrValue_eq s⟩

end Sys2Proof.Machine
end

section
/-! SUPPORT. The statements about memory (20_memory): what a read and a write are, which instructions change memory, the checks before an
access, and loads that see an earlier store. Those about every access rest on `exec_access`. -/

namespace Sys2Proof.Machine

open Sys2Proof.Claims

/-! ## Reads and writes -/

/-- Byte `k + 1` above an appended byte is byte `k` of what it was appended to. -/
theorem byte_succ_append {n : Nat} (hi : BitVec n) (lo : Byte) (k : Nat) :
    (hi ++ lo).extractLsb' (8 * (k + 1)) 8 = hi.extractLsb' (8 * k) 8 := by
  rw [BitVec.extractLsb'_append_eq_of_le (by omega), show 8 * (k + 1) - 8 = 8 * k by omega]

/-- Byte `k` of the word read at `a` is the byte at `a + k` (R101). -/
theorem memRead32_byte (m : Memory) (a : Word) {k : Nat} (hk : k < 4) :
    (memRead32 m a).extractLsb' (8 * k) 8 = readByte m (a + BitVec.ofNat 32 k) := by
  unfold memRead32
  match k, hk with
  | 0, _ => rw [BitVec.add_zero]; exact BitVec.extractLsb'_append_eq_right
  | 1, _ => rw [byte_succ_append]; exact BitVec.extractLsb'_append_eq_right
  | 2, _ => rw [byte_succ_append, byte_succ_append]; exact BitVec.extractLsb'_append_eq_right
  | 3, _ => rw [byte_succ_append, byte_succ_append, byte_succ_append]; exact BitVec.extractLsb'_eq_self

/-- Byte `k` of the half-word read at `a` is the byte at `a + k` (R101). -/
theorem memRead16_byte (m : Memory) (a : Word) {k : Nat} (hk : k < 2) :
    (memRead16 m a).extractLsb' (8 * k) 8 = readByte m (a + BitVec.ofNat 32 k) := by
  unfold memRead16
  match k, hk with
  | 0, _ => rw [BitVec.add_zero]; exact BitVec.extractLsb'_append_eq_right
  | 1, _ => rw [byte_succ_append]; exact BitVec.extractLsb'_eq_self

/-- The only byte of the byte read at `a` (R101). -/
theorem memRead8_byte (m : Memory) (a : Word) {k : Nat} (hk : k < 1) :
    (memRead8 m a).extractLsb' (8 * k) 8 = readByte m (a + BitVec.ofNat 32 k) := by
  obtain rfl : k = 0 := by omega
  simp [memRead8]

/-- The `n` low bytes of a word, low byte first: what `MemWrite` of `n` bytes stores (R102). -/
def lowBytes (n : Nat) (v : Word) : List Byte := (List.range n).map fun k => v.extractLsb' (8 * k) 8

/-- At each width the model's bytes are `lowBytes`. -/
theorem bytes_eq_lowBytes (v : Word) : bytes8 v = lowBytes 1 v ∧ bytes16 v = lowBytes 2 v ∧ bytes32 v = lowBytes 4 v :=
  ⟨rfl, rfl, rfl⟩

@[simp] theorem length_lowBytes (n : Nat) (v : Word) : (lowBytes n v).length = n := by simp [lowBytes]

/-- A write of `n` bytes sets exactly those from `a` up, and keeps the canonical form (R102, R103). -/
theorem memWrite_lowBytes {m : Memory} (hm : Memory.wf m = true) (a v : Word) {n : Nat} (hn : n ≤ 4) :
    Memory.wf (memWrite m a (lowBytes n v)) = true ∧
      (∀ k < n, readByte (memWrite m a (lowBytes n v)) (a + BitVec.ofNat 32 k) = v.extractLsb' (8 * k) 8) ∧
      ∀ x : Word, n ≤ (x - a).toNat → readByte (memWrite m a (lowBytes n v)) x = readByte m x := by
  have hlen : (lowBytes n v).length ≤ 2 ^ 32 := by rw [length_lowBytes]; omega
  refine ⟨memWrite_wf hm _ _, fun k hk => ?_, fun x hx => readByte_memWrite_of_ge hm hlen (by simpa using hx)⟩
  have hoff : (a + BitVec.ofNat 32 k - a).toNat = k := by bv_omega
  rw [readByte_memWrite hm _ _ _ hlen, hoff]
  simp [lowBytes, hk]

/-- Settles O22: byte by byte for the reads, `memWrite_lowBytes` at each width for the writes. -/
theorem memoryReadsWhatWasWritten : Obligations.MemoryReadsWhatWasWritten := by
  intro m a v hm
  refine ⟨fun k => memRead8_byte m a, fun k => memRead16_byte m a, fun k => memRead32_byte m a, ?_,
    memRead8_memWrite hm a v, memRead16_memWrite hm a v, memRead32_memWrite hm a v⟩
  intro n hn bs hbs
  obtain ⟨rfl, hn4⟩ : bs = lowBytes n v ∧ n ≤ 4 := by
    simp only [List.mem_cons, List.not_mem_nil, or_false] at hn
    rcases hn with rfl | rfl | rfl <;> exact ⟨by simpa [bytes_eq_lowBytes] using hbs, by decide⟩
  exact ⟨length_lowBytes n v, memWrite_lowBytes hm a v hn4⟩

/-! ## Which instructions change memory -/

/-- Settles O17: an instruction that goes on keeps it by `GoesOn`; a halt, a fault and a refused access write nothing. -/
theorem onlyStoresChangeMemory : Obligations.OnlyStoresChangeMemory := by
  intro i s t he hw
  have hkeep : t.mem = s.mem ∧ (t.modified = s.modified ∨ ∃ rd rs1 imm, i = .fenceI rd rs1 imm) := by
    cases exec_leaves he with
    | goesOn g => exact ⟨g.sameMem hw, g.sameModified hw⟩
    | halt _ _ ht | fault _ _ _ ht | stuck ht => subst ht; exact ⟨rfl, .inl rfl⟩
  exact ⟨hkeep.1, fun a => by rw [hkeep.1], hkeep.2⟩

/-! ## The checks before an access -/

/-- An instruction of R106 whose double operand is paired does nothing before its alignment and admission checks. -/
theorem exec_access {i : Instr} {s : State} {acc : Access} (hacc : accessOf s i = some acc)
    (hpair : ∀ r ∈ doubleFields i, ∃ lo hi, PairIs s.cfg r lo hi) :
    ∃ done, exec i s = withAccess acc.addr acc.align acc.calls s done := by
  cases i with
  | lb | lbu | lh | lhu | lw | flw | sb | sh | sw | fsw | lrW | scW | amoswapW | amoaddW | amoxorW | amoandW | amoorW
  | amominW | amomaxW | amominuW | amomaxuW => cases hacc; exact ⟨_, rfl⟩
  | fld | fsd =>
    obtain ⟨lo, hi, hp⟩ := hpair _ (List.mem_singleton_self _)
    cases hacc; exact ⟨_, withPair_pass hp _⟩
  | _ => cases hacc

theorem not_alignOk_iff {cfg : Config} {a : Word} {n : Nat} :
    ¬AlignOk cfg a n ↔ cfg.misalignedData = .fault ∧ a.toNat % n ≠ 0 := by
  rw [← misalignFaults_eq_true, ← misalignFaults_eq_false, Bool.not_eq_false]

/-- Only a misaligned access faults DATA_MISALIGNED in a running state (R653). -/
theorem exec_dataMisaligned {i : Instr} {s t : State} (hs : s.status = .running) (he : exec i s = .next t)
    (ht : t.status = .faulted .dataMisaligned) : ∃ acc, accessOf s i = some acc ∧ ¬AlignOk s.cfg acc.addr acc.align := by
  obtain ⟨u, hu, h⟩ := exec_ends i s
  rw [he] at hu; cases hu
  rcases h with g | hh | hf | ⟨_, _, _, _, _, rfl⟩
  · rw [g.status, hs] at ht; cases ht
  · cases hh with
    | scall h | sbreak h | sqrtS _ _ _ _ h | sqrtD _ _ _ _ _ _ _ h => subst h; cases ht
  · cases hf with
    | illegal _ h | regPair _ h => subst h; cases ht
    | dataMisaligned acc hacc ha _ => exact ⟨acc, hacc, ha⟩
  · cases ht

/-- Settles O23: the alignment check is the first of `exec_access`, and the only source of the fault. -/
theorem misalignedAccessFaults : Obligations.MisalignedAccessFaults := by
  refine ⟨fun i s acc hacc hpair hcfg hmis => ?_, fun i s t hs hcfg he ht => ?_⟩
  · obtain ⟨done, h⟩ := exec_access hacc hpair
    rw [h, withAccess_misaligned (not_alignOk_iff.2 ⟨hcfg, hmis⟩)]
  · obtain ⟨acc, -, ha⟩ := exec_dataMisaligned hs he ht
    exact ha (.inl hcfg)

/-- Settles O24: the admission of every call is the last check of `exec_access`. -/
theorem refusedAccessIsStuck : Obligations.RefusedAccessIsStuck := by
  rintro i s acc hacc hpair ha ⟨c, hc, hr⟩
  obtain ⟨done, h⟩ := exec_access hacc hpair
  rw [h, withAccess_refused ha hc hr]

/-! ## A load after a store -/

/-- The only call of a single access is admitted where the access is (R106, R107). -/
theorem singleCall_admitted {cfg : Config} {a : Word} {n : Nat} {kind : AccessKind} (h : Admits cfg a n kind) :
    ∀ c ∈ [(⟨a, n, kind⟩ : PortCall)], Admits cfg c.addr c.size c.kind := by
  simpa using h

/-- Both calls of a double access are admitted where each of its words is (R106, R107). -/
theorem doubleCalls_admitted {cfg : Config} {a : Word} {kind : AccessKind} (hlo : Admits cfg a 4 kind)
    (hhi : Admits cfg (a + 4#32) 4 kind) : ∀ c ∈ doubleCalls a kind, Admits cfg c.addr c.size c.kind := by
  simpa [doubleCalls] using ⟨hlo, hhi⟩

section Accesses

/-! The loads and stores whose checks pass, at an address their base and displacement name. -/

variable {s : State} {rs1 : Reg} {imm : BitVec 12} {a : Word} (hea : dispAddr s rs1 imm = a)
include hea

/-- LW puts the word at its address into `rd` (R303). -/
theorem lw_completes (ha : AlignOk s.cfg a 4) (hc : Admits s.cfg a 4 .read) (rd : Reg) :
    Completes (.lw rd rs1 imm) s (XResult s rd (wordAt s a)) := by
  subst hea; exact loadX_completes ha hc rd _

/-- LBU puts the byte at its address, zero-extended, into `rd` (R304). -/
theorem lbu_completes (hc : Admits s.cfg a 1 .read) (rd : Reg) :
    Completes (.lbu rd rs1 imm) s (XResult s rd ((readByte s.mem a).zeroExtend 32)) := by
  subst hea; exact loadX_completes (alignOk_one _ _) hc rd _

/-- LHU puts the half-word at its address, zero-extended, into `rd` (R305). -/
theorem lhu_completes (ha : AlignOk s.cfg a 2) (hc : Admits s.cfg a 2 .read) (rd : Reg) :
    Completes (.lhu rd rs1 imm) s (XResult s rd ((halfAt s a).zeroExtend 32)) := by
  subst hea; exact loadX_completes ha hc rd _

/-- FLW puts the word at its address into slot `rd` (R309). -/
theorem flw_completes (ha : AlignOk s.cfg a 4) (hc : Admits s.cfg a 4 .read) (rd : Reg) :
    Completes (.flw rd rs1 imm) s (FResult s rd (wordAt s a) flagNone) := by
  subst hea
  obtain ⟨t, ht, hr⟩ := finishF_completes rd (wordAt s (dispAddr s rs1 imm)) s
  exact ⟨t, (withAccess_pass ha (singleCall_admitted hc) _).trans ht, hr⟩

/-- FLD puts the words at its address (low) and 4 above it (high) into the pair (R311). -/
theorem fld_completes {rd lo hi : Reg} (hp : PairIs s.cfg rd lo hi) (ha : AlignOk s.cfg a 8)
    (hlo : Admits s.cfg a 4 .read) (hhi : Admits s.cfg (a + 4#32) 4 .read) :
    Completes (.fld rd rs1 imm) s (DResult s lo hi (wordAt s (a + 4#32) ++ wordAt s a) flagNone) := by
  subst hea
  obtain ⟨t, ht, hr⟩ := finishD_completes hp (wordAt s (dispAddr s rs1 imm + 4#32) ++ wordAt s (dispAddr s rs1 imm)) s
  exact ⟨t, ((withPair_pass hp _).trans (withAccess_pass ha (doubleCalls_admitted hlo hhi) _)).trans ht, hr⟩

/-- SW leaves its word stored and `pc` advanced (R308). -/
theorem exec_sw (ha : AlignOk s.cfg a 4) (hc : Admits s.cfg a 4 .write) (rs2 : Reg) :
    exec (.sw rs1 rs2 imm) s = .next (advance (storeBytes a (bytes32 (readX rs2 s)) s)) := by
  subst hea; exact storeAt_pass ha hc

/-- FSW leaves its slot's bits stored and `pc` advanced (R310). -/
theorem exec_fsw (ha : AlignOk s.cfg a 4) (hc : Admits s.cfg a 4 .write) (rs2 : Reg) :
    exec (.fsw rs1 rs2 imm) s = .next (advance (storeBytes a (bytes32 (readF rs2 s)) s)) := by
  subst hea; exact storeAt_pass ha hc

/-- FSD leaves its pair's 64 bits stored and `pc` advanced (R312). -/
theorem exec_fsd {rs2 lo hi : Reg} (hp : PairIs s.cfg rs2 lo hi) (ha : AlignOk s.cfg a 8)
    (hlo : Admits s.cfg a 4 .write) (hhi : Admits s.cfg (a + 4#32) 4 .write) :
    exec (.fsd rs1 rs2 imm) s = .next (advance (storeBytes a (bytes64 (doubleOf s lo hi)) s)) := by
  subst hea; exact (withPair_pass hp _).trans (withAccess_pass ha (doubleCalls_admitted hlo hhi) _)

end Accesses

/-- The word four stored bytes leave at their address (R104). -/
theorem wordAt_storeBytes32 {s : State} (hm : Memory.wf s.mem = true) (a v : Word) :
    wordAt (advance (storeBytes a (bytes32 v) s)) a = v :=
  memRead32_memWrite hm a v

/-- The two words eight stored bytes leave at their address are the double (R104, R312). -/
theorem wordAt_storeBytes64 {s : State} (hm : Memory.wf s.mem = true) (a : Word) (v : Dword) :
    wordAt (advance (storeBytes a (bytes64 v) s)) (a + 4#32) ++ wordAt (advance (storeBytes a (bytes64 v) s)) a = v := by
  rw [← memRead32_eq, ← memRead32_eq, advance_mem, storeBytes_mem, memRead32_memWrite64_hi hm, memRead32_memWrite64_lo hm,
    dword_of_its_words]

/-- The slots of a double result hold the double (R57). -/
theorem doubleOf_of_dResult {s t : State} {lo hi : Reg} {v : Dword} {flags : Flags} (h : DResult s lo hi v flags t) :
    doubleOf t lo hi = v := by
  rw [doubleOf, h.low, h.high, dword_of_its_words]

theorem completes_imp {i : Instr} {s : State} {P Q : State → Prop} (h : Completes i s P) (hPQ : ∀ t, P t → Q t) :
    Completes i s Q :=
  Exists.imp (fun t ht => ⟨ht.1, hPQ t ht.2⟩) h

/-- Where an instruction's result is `v`, `rd` reads as `v` after it, unless it is `x0`. -/
theorem completes_readX {i : Instr} {s : State} {rd : Reg} {v w : Word} (h : Completes i s (XResult s rd v)) (hv : v = w) :
    Completes i s fun u => readX rd u = if rd = 0#5 then 0#32 else w :=
  completes_imp h fun _ hu => hv ▸ hu.result

/-- A displacement from a register that holds `a` (R111). -/
theorem dispAddr_of_readX {s : State} {rb : Reg} {a : Word} (hrb : readX rb s = a) (imm : BitVec 12) :
    dispAddr s rb imm = a + imm.signExtend 32 := by rw [dispAddr, hrb]

/-- The upper half of an aligned word is aligned (R105). -/
theorem alignOk_upper_half {cfg : Config} {a : Word} (h : AlignOk cfg a 4) : AlignOk cfg (a + 2#32) 2 :=
  h.imp_right fun h4 => even_add (by omega) (by decide)

/-- Settles O25: each load reads the word, a part of it or the double that its store left at `a`. -/
theorem loadsSeeEarlierStores : Obligations.LoadsSeeEarlierStores := by
  intro s rs1 rs2 rd rb imm a v hm ha hrb hv
  subst hv
  have hd (bs : List Byte) (disp : BitVec 12) : dispAddr (advance (storeBytes a bs s)) rb disp = a + disp.signExtend 32 :=
    dispAddr_of_readX hrb disp
  have hd0 (bs : List Byte) : dispAddr (advance (storeBytes a bs s)) rb 0#12 = a := (hd bs 0#12).trans (BitVec.add_zero a)
  refine ⟨fun hal hw => ⟨_, exec_sw ha.symm hal hw rs2, ?_⟩, fun hal hw => ⟨_, exec_fsw ha.symm hal hw rs2, fun hr => ?_⟩,
    fun lo hi lo' hi' hp hp' hal hwlo hwhi => ⟨_, exec_fsd ha.symm hp hal hwlo hwhi, fun hrlo hrhi => ?_⟩⟩
  · have hword := wordAt_storeBytes32 hm a (readX rs2 s)
    refine ⟨fun hr => completes_readX (lw_completes (hd0 _) hal hr rd) hword,
      fun hr => completes_readX (lbu_completes (hd0 _) hr rd) ?_,
      fun hr => completes_readX (lbu_completes (hd _ 3#12) hr rd) ?_,
      fun hr => completes_readX (lhu_completes (hd _ 2#12) (alignOk_upper_half hal) hr rd) ?_⟩
    · rw [readByte_wordAt_0, hword]
    · rw [show (3#12).signExtend 32 = 3#32 from rfl, readByte_wordAt_3, hword]
    · rw [show (2#12).signExtend 32 = 2#32 from rfl, halfAt_wordAt_2, hword]
  · exact completes_imp (flw_completes (hd0 _) hal hr rd) fun u hu => hu.result.trans (wordAt_storeBytes32 hm a _)
  · exact completes_imp (fld_completes (hd0 _) hp' hal hrlo hrhi) fun u hu =>
      (doubleOf_of_dResult hu).trans (wordAt_storeBytes64 hm a _)

end Sys2Proof.Machine
end

section
/-! SUPPORT. The statements about the encoding (30_encoding): a decoded word is the encoding of its instruction and so a word of the
instruction's row; a word of a row decodes to an instruction of the row; a step at such a word runs the instruction. -/

namespace Sys2Proof

section Words

variable {w mask pattern : Word} {i : Instr}

/-! ## A decoded word is the encoding of its instruction -/

/-- OP-IMM: R format for the shifts, I format for the others. -/
theorem encode_of_decodeOpImm (ho : fieldOpcode w = 0b0010011#7) (h : decodeOpImm w = .ok i) : encode i = w := by
  unfold decodeOpImm at h
  split at h
  case h_7 | h_8 =>
    split at h <;> cases h
    all_goals simpa only [encode, *] using formatR_fields w
  case h_9 => cases h
  all_goals
    cases h
    simpa only [encode, *] using formatI_fields w

/-- OP: by `funct7`, then `funct3`. -/
theorem encode_of_decodeOp (ho : fieldOpcode w = 0b0110011#7) (h : decodeOp w = .ok i) : encode i = w := by
  unfold decodeOp decodeOpBase decodeOpAlt decodeOpMulDiv at h
  split at h
  case h_4 => cases h
  all_goals
    split at h <;> cases h
    all_goals simpa only [encode, *] using formatR_fields w

/-- MISC-MEM: FENCE has a format of its own. -/
theorem encode_of_decodeMiscMem (ho : fieldOpcode w = 0b0001111#7) (h : decodeMiscMem w = .ok i) : encode i = w := by
  unfold decodeMiscMem at h
  split at h <;> cases h
  · simpa only [encode, *] using formatFence_fields w
  · simpa only [encode, *] using formatI_fields w

/-- SYSTEM: the two words of R603, and the CSR instructions. -/
theorem encode_of_decodeSystem (ho : fieldOpcode w = 0b1110011#7) (h : decodeSystem w = .ok i) : encode i = w := by
  unfold decodeSystem decodeSystemCall at h
  split at h
  case h_1 => split at h <;> cases h <;> rfl
  case h_8 => cases h
  all_goals
    cases h
    simpa only [encode, *] using formatI_fields w

/-- AMO: LR.W has a zero `rs2` beside its `funct5` (R173). -/
theorem encode_of_decodeAmo (ho : fieldOpcode w = 0b0101111#7) (h : decodeAmo w = .ok i) : encode i = w := by
  unfold decodeAmo at h
  split at h
  case h_2 => cases h
  split at h
  case h_1 =>
    split at h <;> cases h
    simpa only [encode, *] using formatAmo_fields w
  case h_12 => cases h
  all_goals
    cases h
    simpa only [encode, *] using formatAmo_fields w

/-- OP-FP square roots and conversions: by `funct7` and `rs2`. -/
theorem encode_of_decodeOpFpUnary (ho : fieldOpcode w = 0b1010011#7) (h : decodeOpFpUnary w = .ok i) :
    encode i = w := by
  unfold decodeOpFpUnary at h
  split at h <;> cases h
  all_goals simpa only [encode, *] using formatR_fields w

/-- OP-FP: by `funct7`, then by the minor fields `funct3` and `rs2` that it leaves to look at. -/
theorem encode_of_decodeOpFp (ho : fieldOpcode w = 0b1010011#7) (h : decodeOpFp w = .ok i) : encode i = w := by
  unfold decodeOpFp decodeSignInjectS decodeSignInjectD decodeMinMaxS decodeMinMaxD decodeCompareS decodeCompareD
    decodeMoveClassS decodeClassD decodeMoveIn at h
  split at h
  -- sign injection, minimum and maximum, comparisons
  case h_9 | h_10 | h_11 | h_12 | h_13 | h_14 =>
    split at h <;> cases h
    all_goals simpa only [encode, *] using formatR_fields w
  -- moves and classes
  case h_15 | h_16 | h_17 =>
    split at h
    case h_2 => cases h
    split at h <;> cases h
    all_goals simpa only [encode, *] using formatR_fields w
  case h_18 => exact encode_of_decodeOpFpUnary ho h
  -- arithmetic
  all_goals
    cases h
    simpa only [encode, *] using formatR_fields w

/-- No bit of a decoded word is dropped: each opcode by its format, or by its lemma above where it has several. -/
theorem encode_of_decode (h : decode w = .ok i) : encode i = w := by
  unfold decode decodeJalr decodeBranch decodeLoad decodeStore decodeLoadFp decodeStoreFp decodeMadd decodeMsub
    decodeNmsub decodeNmadd at h
  split at h
  -- LUI, AUIPC
  case h_1 | h_2 =>
    cases h
    simpa only [encode, *] using formatU_fields w
  -- JAL
  case h_3 =>
    cases h
    simpa only [encode, *] using formatJ_fields w
  -- BRANCH
  case h_5 =>
    split at h <;> cases h
    all_goals simpa only [encode, *] using formatB_fields w
  -- JALR, LOAD, LOAD-FP
  case h_4 | h_6 | h_13 =>
    split at h <;> cases h
    all_goals simpa only [encode, *] using formatI_fields w
  -- STORE, STORE-FP
  case h_7 | h_14 =>
    split at h <;> cases h
    all_goals simpa only [encode, *] using formatS_fields w
  -- MADD, MSUB, NMSUB, NMADD
  case h_15 | h_16 | h_17 | h_18 =>
    split at h <;> cases h
    all_goals simpa only [encode, *] using formatR4_fields w
  case h_8 ho => exact encode_of_decodeOpImm ho h
  case h_9 ho => exact encode_of_decodeOp ho h
  case h_10 ho => exact encode_of_decodeMiscMem ho h
  case h_11 ho => exact encode_of_decodeSystem ho h
  case h_12 ho => exact encode_of_decodeAmo ho h
  case h_19 ho => exact encode_of_decodeOpFp ho h
  case h_20 => cases h

/-! ## A decoded word is a word of its instruction's row -/

namespace Laws.EncodesRow

/-- Every instruction's encoding is a word of its row (R171). -/
theorem encode_matches_row (i : Instr) : Statement i := by
  cases i
  exacts [
    lui .., auipc .., jal .., jalr .., beq .., bne .., blt .., bge .., bltu .., bgeu .., lb .., lh .., lw .., lbu ..,
    lhu .., sb .., sh .., sw .., addi .., slti .., sltiu .., xori .., ori .., andi .., slli .., srli .., srai ..,
    add .., sub .., sll .., slt .., sltu .., xor .., srl .., sra .., or .., and .., fence .., fenceI .., scall,
    sbreak, csrrw .., csrrs .., csrrc .., csrrwi .., csrrsi .., csrrci .., mul .., mulh .., mulhsu .., mulhu ..,
    div .., divu .., rem .., remu .., lrW .., scW .., amoswapW .., amoaddW .., amoxorW .., amoandW .., amoorW ..,
    amominW .., amomaxW .., amominuW .., amomaxuW .., flw .., fsw .., faddS .., fsubS .., fmulS .., fdivS ..,
    fsqrtS .., fminS .., fmaxS .., fmaddS .., fmsubS .., fnmsubS .., fnmaddS .., fcvtWS .., fcvtWuS .., fcvtSW ..,
    fcvtSWu .., fmvXS .., fmvSX .., feqS .., fltS .., fleS .., fsgnjS .., fsgnjnS .., fsgnjxS .., fclassS .., fld ..,
    fsd .., faddD .., fsubD .., fmulD .., fdivD .., fsqrtD .., fminD .., fmaxD .., fmaddD .., fmsubD .., fnmsubD ..,
    fnmaddD .., fcvtWD .., fcvtWuD .., fcvtDW .., fcvtDWu .., feqD .., fltD .., fleD .., fsgnjD .., fsgnjnD ..,
    fsgnjxD .., fclassD .., fcvtSD .., fcvtDS ..]

end Laws.EncodesRow

/-- A decoded word matches the row of its instruction (R171). -/
theorem matches_row_of_decode (h : decode w = .ok i) : w &&& (tableRow i).mask = (tableRow i).pattern :=
  encode_of_decode h ▸ Laws.EncodesRow.encode_matches_row i

/-- The table lists the rows in the order of the instructions' constructors. -/
theorem opcodeTable_ctorIdx (i : Instr) : opcodeTable[i.ctorIdx]? = some (tableRow i) := by
  cases i <;> rfl

theorem tableRow_mem_opcodeTable (i : Instr) : tableRow i ∈ opcodeTable :=
  List.mem_of_getElem? (opcodeTable_ctorIdx i)

/-! ## A word of a row decodes to an instruction of the row

Of a word that matches a row, each field is the row's where the row's mask covers it, and the word's own elsewhere. With every field
the decoder looks at put that way, the row alone decides which instruction it answers. -/

theorem extract_of_row (h : w &&& mask = pattern) (s n : Nat) :
    w.extractLsb' s n = if mask.extractLsb' s n = BitVec.allOnes n then pattern.extractLsb' s n else w.extractLsb' s n := by
  split
  case isTrue hm => exact field_of_mask h s n hm
  case isFalse => rfl

theorem fieldOpcode_of_row (h : w &&& mask = pattern) :
    fieldOpcode w = if fieldOpcode mask = BitVec.allOnes 7 then fieldOpcode pattern else fieldOpcode w :=
  extract_of_row h 0 7

theorem fieldFunct3_of_row (h : w &&& mask = pattern) :
    fieldFunct3 w = if fieldFunct3 mask = BitVec.allOnes 3 then fieldFunct3 pattern else fieldFunct3 w :=
  extract_of_row h 12 3

theorem fieldRs2_of_row (h : w &&& mask = pattern) :
    fieldRs2 w = if fieldRs2 mask = BitVec.allOnes 5 then fieldRs2 pattern else fieldRs2 w :=
  extract_of_row h 20 5

theorem fieldFunct7_of_row (h : w &&& mask = pattern) :
    fieldFunct7 w = if fieldFunct7 mask = BitVec.allOnes 7 then fieldFunct7 pattern else fieldFunct7 w :=
  extract_of_row h 25 7

theorem fieldFmt_of_row (h : w &&& mask = pattern) :
    fieldFmt w = if fieldFmt mask = BitVec.allOnes 2 then fieldFmt pattern else fieldFmt w :=
  extract_of_row h 25 2

theorem fieldFunct5_of_row (h : w &&& mask = pattern) :
    fieldFunct5 w = if fieldFunct5 mask = BitVec.allOnes 5 then fieldFunct5 pattern else fieldFunct5 w :=
  extract_of_row h 27 5

/-- The same for SCALL and SBREAK, whose rows cover the whole word (R603). -/
theorem decodeSystemCall_of_row (h : w &&& mask = pattern) :
    decodeSystemCall w = if mask = BitVec.allOnes 32 then decodeSystemCall pattern else decodeSystemCall w := by
  split
  case isTrue hm => rw [← h, hm, BitVec.and_allOnes]
  case isFalse => rfl

/-- On the words of a row the decoder takes one path, to an instruction of the row. -/
theorem map_tableRow_decode (w : Word) :
    ∀ row ∈ opcodeTable, w &&& row.mask = row.pattern → (decode w).map tableRow = .ok row := by
  intro row hr h
  unfold decode decodeJalr decodeBranch decodeLoad decodeStore decodeOpImm decodeOp decodeOpBase decodeOpAlt
    decodeOpMulDiv decodeMiscMem decodeSystem decodeAmo decodeLoadFp decodeStoreFp decodeMadd decodeMsub decodeNmsub
    decodeNmadd decodeOpFp decodeSignInjectS decodeSignInjectD decodeMinMaxS decodeMinMaxD decodeCompareS
    decodeCompareD decodeMoveClassS decodeClassD decodeMoveIn decodeOpFpUnary
  rw [fieldOpcode_of_row h, fieldFunct3_of_row h, fieldRs2_of_row h, fieldFunct7_of_row h, fieldFmt_of_row h,
    fieldFunct5_of_row h, decodeSystemCall_of_row h]
  clear h
  revert row
  -- row by row, the decoder computes to an instruction of the row
  unfold opcodeTable
  repeat' refine List.forall_mem_append.2 ⟨?_, ?_⟩
  all_goals repeat' refine List.forall_mem_cons.2 ⟨rfl, ?_⟩
  all_goals exact List.forall_mem_nil _

/-- A word of a row decodes to an instruction of the row (R171). -/
theorem decode_of_matches_row {row : OpcodeRow} (hr : row ∈ opcodeTable) (h : w &&& row.mask = row.pattern) :
    ∃ i, decode w = .ok i ∧ tableRow i = row := by
  have hrow := map_tableRow_decode w row hr h
  cases hd : decode w with
  | ok i => exact ⟨i, rfl, Except.ok.inj (by rwa [hd] at hrow)⟩
  | error e => rw [hd] at hrow; cases hrow

/-- Two rows a word matches are both the row of the instruction it decodes to (R171). -/
theorem row_unique {row row' : OpcodeRow} (hr : row ∈ opcodeTable) (hr' : row' ∈ opcodeTable)
    (h : w &&& row.mask = row.pattern) (h' : w &&& row'.mask = row'.pattern) : row = row' := by
  obtain ⟨i, hi, rfl⟩ := decode_of_matches_row hr h
  obtain ⟨j, hj, rfl⟩ := decode_of_matches_row hr' h'
  rw [Except.ok.inj (hi.symm.trans hj)]

end Words

/-- Settles O3: `matches_row_of_decode` and `decode_of_matches_row`, from which no word outside the table decodes and
no two rows overlap; which rows are marked, instruction by instruction. -/
theorem decodeFollowsOpcodeTable : Obligations.DecodeFollowsOpcodeTable := by
  refine ⟨fun w i h => ⟨tableRow_mem_opcodeTable i, matches_row_of_decode h⟩, fun w row hr h => decode_of_matches_row hr h,
    fun w hno => ?_, fun w row row' hr hr' h h' => row_unique hr hr' h h', fun i => ?_⟩
  · cases hd : decode w with
    | ok i => exact absurd (matches_row_of_decode hd) (hno _ (tableRow_mem_opcodeTable i))
    | error e => exact ⟨e, rfl⟩
  · cases i <;> simp [isUnnamed, tableRow]

end Sys2Proof

namespace Sys2Proof.Machine

open Sys2Proof.Claims

/-- Settles O6: of the ways a running state steps, only running the decoded instruction passes the fetch's checks. -/
theorem stepRunsDecodedInstruction : Obligations.StepRunsDecodedInstruction := by
  intro s i hf hd ha
  obtain ⟨hs, hpc, hfenced, hread⟩ := hf
  obtain ⟨t, hstep, he⟩ := step_running hs
  cases he with
  | misaligned hpc' _ => exact absurd hpc hpc'
  | unfenced _ hu _ => exact absurd hu hfenced
  | refused _ hno _ => exact absurd hread hno
  | illegal _ hillegal _ => exact absurd ha (hillegal i hd)
  | ran _ j hj hexec =>
    obtain rfl : i = j := Except.ok.inj (hd.symm.trans hj)
    exact hstep.trans hexec.symm

end Sys2Proof.Machine
end

section
/-! SUPPORT. The statements about the integer computations (40_integer): what the upper-immediate, register-immediate and
register-register instructions put into `rd`. Each ends in `finishX`; what is left is its result in the spec's terms. -/

namespace Sys2Proof.Machine

open Sys2Proof.Claims

/-! ## Results in the spec's terms -/

/-- An instruction that computes `v` and finishes with it, where the rule writes the value as `v'` (R200, R250). -/
theorem means_of_finishX {i : Instr} {w : Word} {s : State} {rd : Reg} {v v' : Word} (hw : encode i = w)
    (he : exec i s = finishX rd v s) (hv : v = v') : Means i w s (XResult s rd v') := by
  subst hv
  obtain ⟨t, ht, hr⟩ := finishX_completes rd v s
  exact ⟨hw, t, he.trans ht, hr⟩

/-- The signed comparison is that of the integers (R204, R215). -/
theorem boolWord_slt (a b : Word) : boolWord (a.slt b) = if a.toInt < b.toInt then 1#32 else 0#32 := by
  simp [boolWord, BitVec.slt]

/-- The unsigned comparison is that of the naturals (R205, R216). -/
theorem boolWord_ult (a b : Word) : boolWord (a.ult b) = if a.toNat < b.toNat then 1#32 else 0#32 := by
  simp [boolWord, BitVec.ult]

/-- Only the low 5 bits of a register shift amount count (R214). -/
theorem shiftAmount_eq_mod (v : Word) : shiftAmount v = v.toNat % 32 := by
  simp [shiftAmount, BitVec.extractLsb'_toNat]

/-! ## The reserved shifts by 32 and more -/

theorem decode_opImm {w : Word} (ho : fieldOpcode w = 0b0010011#7) : decode w = decodeOpImm w := by
  simp only [decode, ho]

/-- The lowest bit of `funct7` is bit 25 of the word (R152), which a sixth bit of a shift amount would take (R209). -/
theorem fieldFunct7_ne_zero_of_bit25 {w : Word} (h : w.getLsbD 25 = true) : fieldFunct7 w ≠ 0#7 := by
  intro h7
  have hbit : (fieldFunct7 w).getLsbD 0 = w.getLsbD 25 := by simp [fieldFunct7]
  rw [h, h7] at hbit
  cases hbit

/-- SLLI is the only OP-IMM instruction with its `funct3`, and its `funct7` is zero (R209). -/
theorem decodeOpImm_slli_reserved {w : Word} (h3 : fieldFunct3 w = 0b001#3) (h7 : fieldFunct7 w ≠ 0#7) :
    decodeOpImm w = .error .noMinorOpcode := by
  -- `h7` excludes the one `funct7` that the inner match accepts
  simp only [decodeOpImm, h3]

/-! ## The obligations -/

/-- Settles O28: each of the ten finishes with its result; the shifts read their amount by `shiftAmount_eq_mod`, the
comparisons are those of `boolWord_slt` and `boolWord_ult`. -/
theorem registerAluResults : Obligations.RegisterAluResults := by
  intro s rd rs1 rs2
  have hshift := shiftAmount_eq_mod (readX rs2 s)
  refine ⟨?add, ?sub, ?sll, ?slt, ?sltu, ?xor, ?srl, ?sra, ?or, ?and⟩
  case add | sub | xor | or | and => exact means_of_finishX rfl rfl rfl
  case slt => exact means_of_finishX rfl rfl (boolWord_slt _ _)
  case sltu => exact means_of_finishX rfl rfl (boolWord_ult _ _)
  case sll => exact means_of_finishX rfl rfl (congrArg (readX rs1 s <<< ·) hshift)
  case srl => exact means_of_finishX rfl rfl (congrArg (readX rs1 s >>> ·) hshift)
  case sra => exact means_of_finishX rfl rfl (congrArg (readX rs1 s).sshiftRight hshift)

/-- Settles O26: both finish with the immediate in bits 31:12, AUIPC after adding it to `pc`. -/
theorem upperImmediateResults : Obligations.UpperImmediateResults :=
  fun _ _ _ => ⟨means_of_finishX rfl rfl rfl, means_of_finishX rfl rfl rfl⟩

/-- Settles O27: each of the nine finishes with its result; `funct7` refuses the words of the last clause. -/
theorem immediateAluResults : Obligations.ImmediateAluResults := by
  intro s rd rs1 imm shamt
  refine ⟨?addi, ?slti, ?sltiu, ?xori, ?ori, ?andi, ?slli, ?srli, ?srai, fun w ho h3 h25 => ⟨.noMinorOpcode, ?reserved⟩⟩
  case addi | xori | ori | andi | slli | srli | srai => exact means_of_finishX rfl rfl rfl
  case slti => exact means_of_finishX rfl rfl (boolWord_slt _ _)
  case sltiu => exact means_of_finishX rfl rfl (boolWord_ult _ _)
  case reserved => exact (decode_opImm ho).trans (decodeOpImm_slli_reserved h3 (fieldFunct7_ne_zero_of_bit25 h25))

end Sys2Proof.Machine
end

section
/-! SUPPORT. The statements about control flow (41_control_flow): the six branches and the two jumps. Each branch ends in
`branch`, each jump in `jumpAndLink`; what is left is the condition or the target in the spec's terms. -/

namespace Sys2Proof.Machine

open Sys2Proof.Claims

/-! ## Branches -/

/-- A branch on the test `taken`, where the rule states the condition as `P` (R253). -/
theorem means_of_branch {i : Instr} {w : Word} {s : State} {offset : BitVec 13} {taken : Bool} {P : Prop} [Decidable P]
    (hw : encode i = w) (he : exec i s = branch taken offset s) (hP : taken = true ↔ P) :
    Means i w s (JumpResult s (if P then s.pc + offset.signExtend 32 else s.pc + 4#32)) := by
  obtain ⟨t, ht, hr⟩ := branch_completes taken offset s
  rw [if_congr hP rfl rfl] at hr
  exact ⟨hw, t, he.trans ht, hr⟩

/-- Not less, signed, is greater or equal of the integers (R256). -/
theorem not_slt_iff (a b : Word) : (!a.slt b) = true ↔ b.toInt ≤ a.toInt := by
  rw [← BitVec.sle_eq_not_slt]
  exact BitVec.sle_iff_toInt_le

/-- Not less, unsigned, is greater or equal of the naturals (R258). -/
theorem not_ult_iff (a b : Word) : (!a.ult b) = true ↔ b.toNat ≤ a.toNat := by
  rw [← BitVec.ule_eq_not_ult]
  exact BitVec.ule_iff_toNat_le

/-- Settles O31: each branch is `branch` on the test of its condition. -/
theorem branchResults : Obligations.BranchResults := by
  intro s rs1 rs2 offset
  refine ⟨?beq, ?bne, ?blt, ?bge, ?bltu, ?bgeu⟩
  case beq => exact means_of_branch rfl rfl beq_iff_eq
  case bne => exact means_of_branch rfl rfl bne_iff_ne
  case blt => exact means_of_branch rfl rfl BitVec.slt_iff_toInt_lt
  case bge => exact means_of_branch rfl rfl (not_slt_iff _ _)
  case bltu => exact means_of_branch rfl rfl BitVec.ult_iff_toNat_lt
  case bgeu => exact means_of_branch rfl rfl (not_ult_iff _ _)

/-! ## Jumps -/

/-- A jump links and goes to its target; the target is an argument of `jumpAndLink`, so it is that of the state before the
link is written (R259, R262). -/
theorem means_of_jumpAndLink {i : Instr} {w : Word} {s : State} {rd : Reg} {target : Word} (hw : encode i = w)
    (he : exec i s = jumpAndLink rd target s) : Means i w s (LinkResult s rd target) := by
  obtain ⟨t, ht, hr⟩ := jumpAndLink_completes rd target s
  exact ⟨hw, t, he.trans ht, hr⟩

/-- The mask of the JALR target drops bit 0 by a shift out and back: it rounds down to even (R261). -/
theorem toNat_clear_bit0 (v : Word) : (v &&& 0xFFFFFFFE#32).toNat = v.toNat / 2 * 2 := by
  have hmask : v &&& 0xFFFFFFFE#32 = v >>> 1 <<< 1 := by rw [BitVec.shiftLeft_ushiftRight]; rfl
  have hlt : v.toNat / 2 * 2 < 2 ^ 32 := by omega
  rw [hmask, BitVec.toNat_shiftLeft, BitVec.toNat_ushiftRight, Nat.shiftRight_eq_div_pow, Nat.shiftLeft_eq, pow_one,
    Nat.mod_eq_of_lt hlt]

/-- Settles O32: both are `jumpAndLink`, JALR to a target whose bit 0 `toNat_clear_bit0` drops. -/
theorem jumpResults : Obligations.JumpResults :=
  fun _ _ _ _ _ => ⟨means_of_jumpAndLink rfl rfl, means_of_jumpAndLink rfl rfl, toNat_clear_bit0 _⟩

end Sys2Proof.Machine
end

section
/-! SUPPORT. The statements about loads and stores (42_load_store). An integer load is `loadX`, a store of one port call is `storeAt`; FLD and
FSD check their pair first and move two words. -/

namespace Sys2Proof.Machine

open Sys2Proof.Claims

/-- FSD stores the low slot's bytes, then the high slot's (R312). -/
theorem fsd_completes {s : State} {rs1 rs2 lo hi : Reg} {imm : BitVec 12} {a : Word} (hm : Memory.wf s.mem = true)
    (hea : dispAddr s rs1 imm = a) (hp : PairIs s.cfg rs2 lo hi) (ha : AlignOk s.cfg a 8) (hlo : Admits s.cfg a 4 .write)
    (hhi : Admits s.cfg (a + 4#32) 4 .write) :
    Completes (.fsd rs1 rs2 imm) s (StoreResult s a (leBytes (readF lo s) ++ leBytes (readF hi s))) := by
  have hbytes : bytes64 (doubleOf s lo hi) = leBytes (readF lo s) ++ leBytes (readF hi s) := bytes64_pair ⟨lo, hi⟩ s
  rw [← hbytes]
  exact ⟨_, exec_fsd hea hp ha hlo hhi, store_completes hm a (show 8 ≤ 2 ^ 32 by decide)⟩

/-- Settles O36: both pass the pair check and the two calls' admission, and move the low word at `a`, the high one 4 above. -/
theorem doubleLoadStoreResults : Obligations.DoubleLoadStoreResults := by
  intro s rd rs1 rs2 lo hi imm a ha hal
  exact ⟨fun hp hlo hhi => ⟨rfl, fld_completes ha.symm hp hal hlo hhi⟩,
    fun hm hp hlo hhi => ⟨rfl, fsd_completes hm ha.symm hp hal hlo hhi⟩⟩

/-- An integer load of `n` bytes whose checks pass puts its extended value into `rd` (R300). -/
theorem means_of_loadX {i : Instr} {w : Word} {s : State} {rd : Reg} {a : Word} {n : Nat} {v : Word} (hw : encode i = w)
    (he : exec i s = loadX rd a n v s) (ha : AlignOk s.cfg a n) (hc : Admits s.cfg a n .read) :
    Means i w s (XResult s rd v) := by
  obtain ⟨t, ht, hr⟩ := loadX_completes ha hc rd v
  exact ⟨hw, t, he.trans ht, hr⟩

/-- Settles O33: each of the five is `loadX` at its address, of the bytes there. -/
theorem integerLoadResults : Obligations.IntegerLoadResults := by
  rintro s rd rs1 imm _ rfl
  exact ⟨means_of_loadX rfl rfl, means_of_loadX rfl rfl, means_of_loadX rfl rfl, means_of_loadX rfl rfl,
    means_of_loadX rfl rfl⟩

/-- A store of one port call whose checks pass leaves its bytes at `a` (R300). -/
theorem means_of_storeAt {i : Instr} {w : Word} {s : State} {a : Word} {bs : List Byte} (hm : Memory.wf s.mem = true)
    (hlen : bs.length ≤ 2 ^ 32) (hw : encode i = w) (he : exec i s = storeAt a bs s) (ha : AlignOk s.cfg a bs.length)
    (hc : Admits s.cfg a bs.length .write) : Means i w s (StoreResult s a bs) := by
  obtain ⟨t, ht, hr⟩ := storeAt_completes hm hlen ha hc
  exact ⟨hw, t, he.trans ht, hr⟩

/-- Settles O34: each of the three is `storeAt` at its address, of the low bytes of `x[rs2]`. -/
theorem integerStoreResults : Obligations.IntegerStoreResults := by
  rintro s rs1 rs2 imm _ _ hm rfl rfl
  exact ⟨fun hal hc => means_of_storeAt hm (by simp) rfl rfl hal hc,
    fun hal hc => means_of_storeAt hm (by simp) rfl rfl hal hc,
    fun hal hc => means_of_storeAt hm (by simp [leBytes]) rfl rfl hal hc⟩

/-- Settles O35: FLW by `flw_completes`; FSW is `storeAt`, as SW is, of the slot's bytes. -/
theorem singleLoadStoreResults : Obligations.SingleLoadStoreResults := by
  rintro s rd rs1 rs2 imm _ rfl
  exact ⟨fun hal hc => ⟨rfl, flw_completes rfl hal hc rd⟩,
    fun hm hal hc => means_of_storeAt hm (by simp [leBytes]) rfl rfl hal hc⟩

end Sys2Proof.Machine
end

section
/-! SUPPORT. The statements about multiplication and division (43_muldiv). Each instruction ends in `finishX` with a value of
Machine/MulDiv.lean; what is left is that value in the spec's terms, division by division: by zero, the overflow, the rest. -/

namespace Sys2Proof.Machine

open Sys2Proof.Claims

/-! ## Products -/

/-- A product of naturals is itself one, and its 64 bits are the natural's (R354). -/
theorem highHalf_natCast_mul (m n : Nat) :
    highHalf ((m : Int) * (n : Int)) = (BitVec.ofNat 64 (m * n)).extractLsb' 32 32 := by
  rw [highHalf, ← Int.natCast_mul, BitVec.ofInt_natCast]

/-- Settles O29: three of the rules write the half as the model does, MULHU by `highHalf_natCast_mul`. -/
theorem multiplyResults : Obligations.MultiplyResults :=
  fun _ _ _ _ => ⟨means_of_finishX rfl rfl rfl, means_of_finishX rfl rfl rfl, means_of_finishX rfl rfl rfl,
    means_of_finishX rfl rfl (highHalf_natCast_mul _ _)⟩

/-! ## Division by zero (R359) -/

theorem divSigned_zero (a : Word) : divSigned a 0#32 = 0xFFFFFFFF#32 := if_pos rfl

theorem divUnsigned_zero (a : Word) : divUnsigned a 0#32 = 0xFFFFFFFF#32 := if_pos rfl

theorem remSigned_zero (a : Word) : remSigned a 0#32 = a := if_pos rfl

theorem remUnsigned_zero (a : Word) : remUnsigned a 0#32 = a := if_pos rfl

/-! ## The other divisions -/

theorem toInt_ne_zero {b : Word} (hb : b ≠ 0#32) : b.toInt ≠ 0 := BitVec.toInt_ne.2 hb

/-- The operands the model tests as integers overflow only as the words of R359. -/
theorem not_toInt_overflow {a b : Word} (hno : ¬(a = 0x80000000#32 ∧ b = 0xFFFFFFFF#32)) :
    ¬(a.toInt = -2 ^ 31 ∧ b.toInt = -1) :=
  fun ⟨ha, hb⟩ => hno ⟨BitVec.toInt_inj.1 ha, BitVec.toInt_inj.1 hb⟩

theorem divSigned_eq_tdiv {a b : Word} (hb : b ≠ 0#32) (hno : ¬(a = 0x80000000#32 ∧ b = 0xFFFFFFFF#32)) :
    divSigned a b = BitVec.ofInt 32 (a.toInt.tdiv b.toInt) := by
  rw [divSigned, if_neg (toInt_ne_zero hb), if_neg (not_toInt_overflow hno)]

theorem remSigned_eq_tmod {a b : Word} (hb : b ≠ 0#32) (hno : ¬(a = 0x80000000#32 ∧ b = 0xFFFFFFFF#32)) :
    remSigned a b = BitVec.ofInt 32 (a.toInt.tmod b.toInt) := by
  rw [remSigned, if_neg (toInt_ne_zero hb), if_neg (not_toInt_overflow hno), Int.tmod_def]

theorem divUnsigned_of_ne_zero (a : Word) {b : Word} (hb : b ≠ 0#32) :
    divUnsigned a b = BitVec.ofNat 32 (a.toNat / b.toNat) := if_neg (BitVec.toNat_ne.1 hb)

theorem remUnsigned_of_ne_zero (a : Word) {b : Word} (hb : b ≠ 0#32) :
    remUnsigned a b = BitVec.ofNat 32 (a.toNat % b.toNat) := if_neg (BitVec.toNat_ne.1 hb)

/-! ## The law of division toward zero (R355, R357) -/

theorem abs_tmod_lt (a : Int) {b : Int} (hb : b ≠ 0) : |a.tmod b| < |b| := by
  have hlt : a.natAbs % b.natAbs < b.natAbs := Nat.mod_lt _ (Int.natAbs_pos.2 hb)
  rw [← Int.natAbs_tmod] at hlt
  rw [Int.abs_eq_natAbs, Int.abs_eq_natAbs]
  exact_mod_cast hlt

/-- A remainder that is not zero has the dividend's sign. -/
theorem tmod_eq_zero_or_neg_iff (a b : Int) : a.tmod b = 0 ∨ (a.tmod b < 0 ↔ a < 0) := by
  have hsign := Int.sign_tmod a b
  split at hsign
  case isTrue => exact .inl (Int.sign_eq_zero_iff_zero.1 hsign)
  case isFalse => exact .inr (by rw [← Int.sign_eq_neg_one_iff_neg, hsign, Int.sign_eq_neg_one_iff_neg])

/-- But for the overflow the quotient is the signed value of a word, so it fits 32 bits. -/
theorem tdiv_toInt_bounds {a b : Word} (hno : ¬(a = 0x80000000#32 ∧ b = 0xFFFFFFFF#32)) :
    -2 ^ 31 ≤ a.toInt.tdiv b.toInt ∧ a.toInt.tdiv b.toInt < 2 ^ 31 := by
  have hq : (a.sdiv b).toInt = a.toInt.tdiv b.toInt := BitVec.toInt_sdiv_of_ne_or_ne a b (not_and_or.1 hno)
  rw [← hq]
  exact ⟨BitVec.le_toInt _, BitVec.toInt_lt⟩

/-- Settles O30: by zero and on overflow the values of R359; otherwise the quotient and remainder toward zero, which keep
the law of division, and for the unsigned forms those of the naturals. -/
theorem divideResults : Obligations.DivideResults := by
  rintro s rd rs1 rs2 _ _ rfl rfl
  refine ⟨fun hb => ⟨?div0, ?divu0, ?rem0, ?remu0⟩, fun ha hb => ⟨?divMin, ?divuMin, ?remMin, ?remuMin⟩,
    fun hb hno => ⟨(readX rs1 s).toInt.tdiv (readX rs2 s).toInt, (readX rs1 s).toInt.tmod (readX rs2 s).toInt,
      (Int.tdiv_mul_add_tmod _ _).symm, abs_tmod_lt _ (toInt_ne_zero hb), tmod_eq_zero_or_neg_iff _ _,
      (tdiv_toInt_bounds hno).1, (tdiv_toInt_bounds hno).2, ?div, ?rem⟩, fun hb => ⟨?divu, ?remu⟩⟩
  case div0 => exact means_of_finishX rfl rfl (by rw [hb, divSigned_zero])
  case divu0 => exact means_of_finishX rfl rfl (by rw [hb, divUnsigned_zero])
  case rem0 => exact means_of_finishX rfl rfl (by rw [hb, remSigned_zero])
  case remu0 => exact means_of_finishX rfl rfl (by rw [hb, remUnsigned_zero])
  -- both operands are literals here
  case divMin | divuMin | remMin | remuMin => exact means_of_finishX rfl rfl (by rw [ha, hb]; decide)
  case div => exact means_of_finishX rfl rfl (divSigned_eq_tdiv hb hno)
  case rem => exact means_of_finishX rfl rfl (remSigned_eq_tmod hb hno)
  case divu => exact means_of_finishX rfl rfl (divUnsigned_of_ne_zero _ hb)
  case remu => exact means_of_finishX rfl rfl (remUnsigned_of_ne_zero _ hb)

end Sys2Proof.Machine
end

section
/-! SUPPORT. The statements about the atomic instructions (44_atomic). LR.W is `loadX`, as LW is; each AMO is `amo` with its combination; SC.W
stores and writes `rd`, as an AMO does. No meaning reads `aq` or `rl`. -/

namespace Sys2Proof.Machine

open Sys2Proof.Claims

/-! ## The combinations in the spec's terms -/

/-- The comparison of the signed minimum is that of the integers (R408). -/
theorem minSigned_eq (old b : Word) : minSigned old b = if old.toInt < b.toInt then old else b :=
  if_congr BitVec.slt_iff_toInt_lt rfl rfl

/-- The comparison of the signed maximum is that of the integers (R409). -/
theorem maxSigned_eq (old b : Word) : maxSigned old b = if b.toInt < old.toInt then old else b :=
  if_congr BitVec.slt_iff_toInt_lt rfl rfl

/-- The comparison of the unsigned minimum is that of the naturals (R410). -/
theorem minUnsigned_eq (old b : Word) : minUnsigned old b = if old.toNat < b.toNat then old else b :=
  if_congr BitVec.ult_iff_toNat_lt rfl rfl

/-- The comparison of the unsigned maximum is that of the naturals (R411). -/
theorem maxUnsigned_eq (old b : Word) : maxUnsigned old b = if b.toNat < old.toNat then old else b :=
  if_congr BitVec.ult_iff_toNat_lt rfl rfl

/-! ## The instructions -/

/-- An AMO whose checks pass, where the rule writes the combination of the old word and the old `x[rs2]` as `v` (R414). -/
theorem means_of_amo {i : Instr} {w : Word} {s : State} (op : Word → Word → Word) {rd rs1 rs2 : Reg} {v : Word}
    (hm : Memory.wf s.mem = true) (ha : AlignOk s.cfg (readX rs1 s) 4) (hread : Admits s.cfg (readX rs1 s) 4 .read)
    (hwrite : Admits s.cfg (readX rs1 s) 4 .write) (hw : encode i = w) (he : exec i s = amo op rd rs1 rs2 s)
    (hv : op (wordAt s (readX rs1 s)) (readX rs2 s) = v) :
    Means i w s (StoreXResult s (readX rs1 s) (leBytes v) rd (wordAt s (readX rs1 s))) := by
  subst hv
  obtain ⟨t, ht, hr⟩ := amo_completes hm ha hread hwrite
  exact ⟨hw, t, he.trans ht, hr⟩

/-- Settles O38: each of the nine is `amo`; the four minima and maxima by their comparison in the rule's terms. -/
theorem amoResults : Obligations.AmoResults := by
  rintro s rd rs1 rs2 aq rl _ _ _ hm rfl rfl rfl ha hread hwrite
  refine ⟨?swap, ?add, ?xor, ?and, ?or, ?min, ?max, ?minu, ?maxu⟩
  case swap => exact means_of_amo (fun _ b => b) hm ha hread hwrite rfl rfl rfl
  case add => exact means_of_amo (· + ·) hm ha hread hwrite rfl rfl rfl
  case xor => exact means_of_amo (· ^^^ ·) hm ha hread hwrite rfl rfl rfl
  case and => exact means_of_amo (· &&& ·) hm ha hread hwrite rfl rfl rfl
  case or => exact means_of_amo (· ||| ·) hm ha hread hwrite rfl rfl rfl
  case min => exact means_of_amo minSigned hm ha hread hwrite rfl rfl (minSigned_eq _ _)
  case max => exact means_of_amo maxSigned hm ha hread hwrite rfl rfl (maxSigned_eq _ _)
  case minu => exact means_of_amo minUnsigned hm ha hread hwrite rfl rfl (minUnsigned_eq _ _)
  case maxu => exact means_of_amo maxUnsigned hm ha hread hwrite rfl rfl (maxUnsigned_eq _ _)

/-- SC.W leaves its word stored and reports success, in any state: there is no reservation to lose (R402, R412). -/
theorem scW_completes {s : State} {rs1 : Reg} (hm : Memory.wf s.mem = true) (ha : AlignOk s.cfg (readX rs1 s) 4)
    (hc : Admits s.cfg (readX rs1 s) 4 .write) (rd rs2 : Reg) (aq rl : BitVec 1) :
    Completes (.scW rd rs1 rs2 aq rl) s (StoreXResult s (readX rs1 s) (leBytes (readX rs2 s)) rd 0#32) :=
  ⟨_, withAccess_pass ha (singleCall_admitted hc) _, storeX_completes hm _ (by simp [leBytes]) _ _⟩

/-- Settles O37: LR.W is the load of the word at `x[rs1]`; SC.W by `scW_completes`. -/
theorem loadReservedStoreConditionalResults : Obligations.LoadReservedStoreConditionalResults := by
  rintro s rd rs1 rs2 aq rl _ rfl ha
  exact ⟨means_of_loadX rfl rfl ha, fun hm hc => ⟨rfl, scW_completes hm ha hc rd rs2 aq rl⟩⟩

end Sys2Proof.Machine
end

section
/-! SUPPORT. The statements about floating point (45_fp_common): the operations meet the rules over the reals. Each
operation is read off the values of its operands, and what is finite and not 0 is rounded from an exact magnitude by
`round_roundsTo`. -/

namespace Sys2Proof.Machine.Fp

open Sys2Proof.Ieee

/-! ## Outcomes the operations share -/

section
variable {f : Fmt} {cfg : Config}

theorem nanResult_is {s : Bool} {nv : Prop} (h : s = true ↔ nv) : IsNanResult f cfg nv (nanResult f cfg s) :=
  ⟨rfl, fun hn => congrArg (flagIf · flagNV) (h.2 hn),
    fun hn => congrArg (flagIf · flagNV) (Bool.eq_false_iff.2 fun hs => hn (h.1 hs))⟩

theorem invalid_is : IsNanResult f cfg True (invalid f cfg) := ⟨rfl, fun _ => rfl, fun h => absurd trivial h⟩

theorem infinity_is (s : Bool) : IsInfResult f s (infinity f s, flagNone) := ⟨isInf_infinity f s, rfl⟩

theorem zero_is (s : Bool) : IsZeroResult f s (zero f s, flagNone) := ⟨isZero_zero f s, rfl⟩

/-- The NaN check that opens each operation of two operands (R463, R464). -/
theorem nanCheck_is {a b : BitVec f.width} (h : IsNan f a ∨ IsNan f b) (rest : BitVec f.width × Flags) :
    IsNanResult f cfg (IsSignallingNan f a ∨ IsSignallingNan f b)
      (if isNan (unpack f a) || isNan (unpack f b) then
        nanResult f cfg (isSignalling (unpack f a) || isSignalling (unpack f b)) else rest) := by
  rw [if_pos (by simpa [isNan_unpack] using h)]
  exact nanResult_is (by simp [isSignalling_unpack])

end

/-! ## What a pattern's kind says of `unpack` -/

section
variable {f : Fmt} {x : BitVec f.width}

theorem unpack_of_isInf {s : Bool} (h : IsInf f x s) : unpack f x = .inf s := (unpack_inf_iff f x s).1 h

theorem unpack_of_isZero {s : Bool} (h : IsZero f x s) : unpack f x = .zero s := (unpack_zero_iff f x s).1 h

theorem not_isNan_of_hasValue {v : ℝ} (h : HasValue f x v) : ¬IsNan f x := by
  rw [unpack_nan_iff]
  rintro ⟨s, hs⟩
  rcases (hasValue_signed h).2 with ⟨_, e, -⟩ | ⟨_, _, _, e, -⟩ <;> simp [hs] at e

/-- A pattern with a real value 0 is a zero of its own sign. -/
theorem unpack_of_value_zero (h : HasValue f x 0) : unpack f x = .zero (signBit f x) := by
  rcases (hasValue_signed h).2 with ⟨s, e, -⟩ | ⟨_, _, _, _, h0, -⟩
  · rw [← signOf_unpack (not_isNan_of_hasValue h), e]; rfl
  · exact absurd rfl h0

/-- A pattern with another real value is a number of its own sign, and holds that value's magnitude. -/
theorem unpack_of_value_ne_zero {v : ℝ} (h : HasValue f x v) (h0 : v ≠ 0) : ∃ sig exp,
    unpack f x = .num (signBit f x) sig exp ∧ |v| = sig * 2 ^ exp ∧ (signBit f x = true ↔ v < 0) := by
  rcases (hasValue_signed h).2 with ⟨_, _, hv⟩ | ⟨s, sig, exp, e, -, habs, hs⟩
  · exact absurd hv h0
  · have : signBit f x = s := by rw [← signOf_unpack (not_isNan_of_hasValue h), e]; rfl
    exact ⟨sig, exp, this ▸ e, habs, this ▸ hs⟩

/-- A finite pattern is a zero or a number of its own sign. -/
theorem unpack_of_hasValue {v : ℝ} (h : HasValue f x v) :
    (unpack f x = .zero (signBit f x) ∧ v = 0) ∨
      (v ≠ 0 ∧ ∃ sig exp,
        unpack f x = .num (signBit f x) sig exp ∧ |v| = sig * 2 ^ exp ∧ (signBit f x = true ↔ v < 0)) := by
  by_cases h0 : v = 0
  · exact .inl ⟨unpack_of_value_zero (h0 ▸ h), h0⟩
  · exact .inr ⟨h0, unpack_of_value_ne_zero h h0⟩

/-- A pattern that is no NaN is an infinity, a zero or a number of its own sign. -/
theorem unpack_of_not_nan (h : ¬IsNan f x) :
    unpack f x = .inf (signBit f x) ∨ unpack f x = .zero (signBit f x) ∨
      ∃ sig exp, unpack f x = .num (signBit f x) sig exp := by
  rw [← signOf_unpack h]
  rw [unpack_nan_iff] at h
  cases hu : unpack f x with
  | nan s => exact absurd ⟨s, hu⟩ h
  | inf s => exact .inl rfl
  | zero s => exact .inr (.inl rfl)
  | num s sig exp => exact .inr (.inr ⟨sig, exp, rfl⟩)

/-- Beside an infinity of sign `s`, an operand that is neither a NaN nor the opposite infinity. -/
theorem unpack_of_not_opposite {s : Bool} (hn : ¬IsNan f x) (hi : ¬IsInf f x (!s)) :
    unpack f x = .inf s ∨ (∃ t, unpack f x = .zero t) ∨ ∃ t sig exp, unpack f x = .num t sig exp := by
  rw [unpack_inf_iff] at hi
  rcases unpack_of_not_nan hn with e | e | ⟨sig, exp, e⟩
  · have : signBit f x ≠ !s := fun h => hi (h ▸ e)
    exact .inl (by rw [e]; simpa using this)
  · exact .inr (.inl ⟨_, e⟩)
  · exact .inr (.inr ⟨_, sig, exp, e⟩)

end

/-! ## Addition and subtraction (R466) -/

theorem sub_eq_add_flipSign (f : Fmt) (cfg : Config) (mode : Mode) (a b : BitVec f.width) :
    sub f cfg mode a b = add f cfg mode a (flipSign f b) := by
  rw [sub, add, unpack_flipSign]

section
variable {f : Fmt} {cfg : Config} {mode : Mode} {a b : BitVec f.width}

theorem add_inf_left {s : Bool} (ha : IsInf f a s) (hb : ¬IsNan f b) (hi : ¬IsInf f b (!s)) :
    add f cfg mode a b = (infinity f s, flagNone) := by
  rcases unpack_of_not_opposite hb hi with e | ⟨t, e⟩ | ⟨t, sig, exp, e⟩ <;>
    simp [add, addValues, unpack_of_isInf ha, e, isNan]

theorem add_inf_right {s : Bool} (hb : IsInf f b s) (ha : ¬IsNan f a) (hi : ¬IsInf f a (!s)) :
    add f cfg mode a b = (infinity f s, flagNone) := by
  rcases unpack_of_not_opposite ha hi with e | ⟨t, e⟩ | ⟨t, sig, exp, e⟩ <;>
    simp [add, addValues, unpack_of_isInf hb, e, isNan]

/-- A finite sum that is no sum of two zeros is rounded from the exact one. -/
theorem add_finite {x y : ℝ} (hx : HasValue f a x) (hy : HasValue f b y) (h0 : x ≠ 0 ∨ y ≠ 0) :
    add f cfg mode a b = roundSigned f mode (exactSum (signedOf (unpack f a)) (signedOf (unpack f b))).1
      (exactSum (signedOf (unpack f a)) (signedOf (unpack f b))).2 := by
  rcases (hasValue_signed hx).2 with ⟨s, ea, hx0⟩ | ⟨s, sig, exp, ea, -⟩ <;>
    rcases (hasValue_signed hy).2 with ⟨t, eb, hy0⟩ | ⟨t, sig', exp', eb, -⟩
  · exact absurd h0 (by simp [hx0, hy0])
  all_goals simp [add, addValues, ea, eb, isNan]

theorem add_meets : AddRule f cfg mode a b (add f cfg mode a b) where
  nan h := nanCheck_is h _
  oppositeInf s ha hb := by
    have : add f cfg mode a b = invalid f cfg := by
      cases s <;> simp [add, addValues, unpack_of_isInf ha, unpack_of_isInf hb, isNan]
    exact this ▸ invalid_is
  infFirst s ha hb hi := add_inf_left ha hb hi ▸ infinity_is s
  infSecond s hb ha hi := add_inf_right hb ha hi ▸ infinity_is s
  sameZeros s ha hb := by
    have : add f cfg mode a b = (zero f s, flagNone) := by
      simp [add, addValues, unpack_of_isZero ha, unpack_of_isZero hb, isNan]
    exact this ▸ zero_is s
  oppositeZeros s ha hb := by
    have : add f cfg mode a b = (zero f (decide (mode = .rdn)), flagNone) := by
      cases s <;> simp [add, addValues, unpack_of_isZero ha, unpack_of_isZero hb, isNan]
    exact this ▸ zero_is _
  finite x y hx hy h0 := by
    rw [add_finite hx hy h0]
    exact roundSigned_is (exactSum_real (hasValue_signed hx).1 (hasValue_signed hy).1)

end

/-- Settles O52: a finite sum is exact before its one rounding, by `roundSigned_is`; a difference is a sum. -/
theorem addSubMeetsIeee : Obligations.AddSubMeetsIeee := fun f cfg mode a b =>
  ⟨add_meets, sub_eq_add_flipSign f cfg mode a b ▸ add_meets⟩

/-! ## Multiplication (R467) -/

section
variable {f : Fmt} {cfg : Config} {mode : Mode} {a b : BitVec f.width}

/-- A finite product that is not 0 is rounded from the exact one. -/
theorem mul_finite {x y : ℝ} (hx : HasValue f a x) (hy : HasValue f b y) (h0 : x * y ≠ 0) :
    mul f cfg mode a b = roundSigned f mode (exactProduct (signedOf (unpack f a)) (signedOf (unpack f b))).1
      (exactProduct (signedOf (unpack f a)) (signedOf (unpack f b))).2 := by
  obtain ⟨sig, exp, ea, -⟩ := unpack_of_value_ne_zero hx (left_ne_zero_of_mul h0)
  obtain ⟨sig', exp', eb, -⟩ := unpack_of_value_ne_zero hy (right_ne_zero_of_mul h0)
  simp [mul, ea, eb, isNan]

/-- A product of finite operands, one of them a zero, is a zero. -/
theorem mul_zero_finite {x y : ℝ} (hx : HasValue f a x) (hy : HasValue f b y) (h0 : x * y = 0) :
    mul f cfg mode a b = (zero f (signBit f a != signBit f b), flagNone) := by
  rcases unpack_of_hasValue hx with ⟨ea, -⟩ | ⟨hx0, sig, exp, ea, -⟩ <;>
    rcases unpack_of_hasValue hy with ⟨eb, -⟩ | ⟨hy0, sig', exp', eb, -⟩
  case inr.inr => exact absurd h0 (mul_ne_zero hx0 hy0)
  all_goals simp [mul, ea, eb, isNan, signOf]

theorem mul_meets : MulRule f cfg mode a b (mul f cfg mode a b) where
  nan h := nanCheck_is h _
  infZero s t ha hb := by
    have : mul f cfg mode a b = invalid f cfg := by simp [mul, unpack_of_isInf ha, unpack_of_isZero hb, isNan]
    exact this ▸ invalid_is
  zeroInf s t ha hb := by
    have : mul f cfg mode a b = invalid f cfg := by simp [mul, unpack_of_isZero ha, unpack_of_isInf hb, isNan]
    exact this ▸ invalid_is
  infInf s t ha hb := by
    have : mul f cfg mode a b = (infinity f (s != t), flagNone) := by
      simp [mul, unpack_of_isInf ha, unpack_of_isInf hb, isNan, signOf]
    exact this ▸ infinity_is _
  infFinite s y ha hy h0 := by
    obtain ⟨sig, exp, eb, -⟩ := unpack_of_value_ne_zero hy h0
    have : mul f cfg mode a b = (infinity f (s != signBit f b), flagNone) := by
      simp [mul, unpack_of_isInf ha, eb, isNan, signOf]
    exact this ▸ infinity_is _
  finiteInf t x hx hb h0 := by
    obtain ⟨sig, exp, ea, -⟩ := unpack_of_value_ne_zero hx h0
    have : mul f cfg mode a b = (infinity f (signBit f a != t), flagNone) := by
      simp [mul, unpack_of_isInf hb, ea, isNan, signOf]
    exact this ▸ infinity_is _
  zero x y hx hy h0 := mul_zero_finite hx hy h0 ▸ zero_is _
  finite x y hx hy h0 := by
    rw [mul_finite hx hy h0]
    exact (roundSigned_is (exactProduct_real (hasValue_signed hx).1 (hasValue_signed hy).1)).2 h0

end

/-- Settles O53: a nonzero finite product is exact before its one rounding, by `roundSigned_is`. -/
theorem mulMeetsIeee : Obligations.MulMeetsIeee := fun _ _ _ _ _ => mul_meets

/-! ## Division (R468, R481) -/

/-- The sign of a quotient is the exclusive or of the operands' signs. -/
theorem sign_div {s t : Bool} {x y : ℝ} (hx : x ≠ 0) (hy : y ≠ 0) (hs : s = true ↔ x < 0) (ht : t = true ↔ y < 0) :
    (s != t) = true ↔ x / y < 0 := by
  rw [div_neg_iff, bne_iff_ne, ne_eq, Bool.eq_iff_iff, hs, ht]
  rcases lt_or_gt_of_ne hx with h | h <;> rcases lt_or_gt_of_ne hy with h' | h' <;>
    simp [h, h', h.not_gt, h'.not_gt]

section
variable {f : Fmt} {cfg : Config} {mode : Mode} {a b : BitVec f.width}

/-- A finite dividend beside an infinity. -/
theorem div_finite_inf {x : ℝ} {t : Bool} (hx : HasValue f a x) (hb : IsInf f b t) :
    div f cfg mode a b = (zero f (signBit f a != t), flagNone) := by
  rcases unpack_of_hasValue hx with ⟨ea, -⟩ | ⟨-, sig, exp, ea, -⟩ <;>
    simp [div, ea, unpack_of_isInf hb, isNan, signOf]

/-- An infinity over a finite divisor; over a zero too there is no flag (R481). -/
theorem div_inf_finite {y : ℝ} {s : Bool} (ha : IsInf f a s) (hy : HasValue f b y) :
    div f cfg mode a b = (infinity f (s != signBit f b), flagNone) := by
  rcases unpack_of_hasValue hy with ⟨eb, -⟩ | ⟨-, sig, exp, eb, -⟩ <;>
    simp [div, eb, unpack_of_isInf ha, isNan, signOf]

/-- A finite quotient is rounded from the quotient's magnitude, whose bits suffice for the format. -/
theorem div_finite_rounds {x y : ℝ} (hx : HasValue f a x) (hy : HasValue f b y) (hx0 : x ≠ 0) (hy0 : y ≠ 0) :
    RoundsTo f mode (x / y) (div f cfg mode a b) := by
  obtain ⟨sig, exp, ea, absx, sx⟩ := unpack_of_value_ne_zero hx hx0
  obtain ⟨sig', exp', eb, absy, sy⟩ := unpack_of_value_ne_zero hy hy0
  have e : div f cfg mode a b = round f mode (signBit f a != signBit f b) (quotientMag f sig exp sig' exp') := by
    simp [div, ea, eb, isNan, signOf]
  obtain ⟨hst, hbits⟩ := quotientMag_stands f (exp1 := exp) (exp2 := exp') (num_bounds ea).1 (num_bounds eb).1
    (num_bounds eb).2
  rw [e]
  refine round_roundsTo f mode _ ?_ (sign_div hx0 hy0 sx sy) fun _ => hbits
  rwa [abs_div, absx, absy]

theorem div_meets : DivRule f cfg mode a b (div f cfg mode a b) where
  nan h := nanCheck_is h _
  infInf s t ha hb := by
    have : div f cfg mode a b = invalid f cfg := by simp [div, unpack_of_isInf ha, unpack_of_isInf hb, isNan]
    exact this ▸ invalid_is
  zeroZero s t ha hb := by
    have : div f cfg mode a b = invalid f cfg := by simp [div, unpack_of_isZero ha, unpack_of_isZero hb, isNan]
    exact this ▸ invalid_is
  infFinite s y ha hy := div_inf_finite ha hy ▸ infinity_is _
  finiteInf t x hx hb := div_finite_inf hx hb ▸ zero_is _
  byZero t x hx h0 hb := by
    obtain ⟨sig, exp, ea, -⟩ := unpack_of_value_ne_zero hx h0
    have : div f cfg mode a b = (infinity f (signBit f a != t), flagDZ) := by
      simp [div, ea, unpack_of_isZero hb, isNan, signOf]
    exact this ▸ ⟨isInf_infinity f _, rfl⟩
  zeroDividend s y ha hy h0 := by
    obtain ⟨sig, exp, eb, -⟩ := unpack_of_value_ne_zero hy h0
    have : div f cfg mode a b = (zero f (s != signBit f b), flagNone) := by
      simp [div, unpack_of_isZero ha, eb, isNan, signOf]
    exact this ▸ zero_is _
  finite _ _ hx hy hx0 hy0 := div_finite_rounds hx hy hx0 hy0

end

/-- Settles O54: a finite quotient by `div_finite_rounds`. -/
theorem divMeetsIeee : Obligations.DivMeetsIeee := fun _ _ _ _ _ => div_meets

/-! ## Square roots (R469) -/

section
variable {f : Fmt} {cfg : Config} {mode : Mode} {a : BitVec f.width}

/-- A positive operand's root is rounded from the root's magnitude, whose bits suffice for the format. -/
theorem sqrt_finite_rounds {x : ℝ} (hx : HasValue f a x) (h0 : 0 < x) :
    ∃ o, sqrt f cfg mode a = some o ∧ RoundsTo f mode (Real.sqrt x) o := by
  obtain ⟨sig, exp, e, habs, hs⟩ := unpack_of_value_ne_zero hx h0.ne'
  have hneg : signBit f a = false := Bool.eq_false_iff.2 fun h => absurd (hs.1 h) h0.not_gt
  have hroot := Real.sqrt_nonneg x
  obtain ⟨hst, hbits⟩ := sqrtMag_stands f (exp := exp) (num_bounds e).1
  refine ⟨_, by simp [sqrt, e, hneg], round_roundsTo f mode false ?_ (by simp) fun _ => hbits⟩
  rwa [abs_of_nonneg hroot, ← abs_of_pos h0, habs]

theorem sqrt_meets : SqrtRule f cfg mode a (sqrt f cfg mode a) where
  nan h := by
    obtain ⟨s, e⟩ := (unpack_nan_iff f a).1 h
    refine ⟨nanResult f cfg s, by simp [sqrt, e], nanResult_is ?_⟩
    rw [← isSignalling_unpack, e]; rfl
  zero s h := by simp [sqrt, unpack_of_isZero h, ← eq_zero_of_isZero h]
  negative hn hz hs := sqrt_eq_none_iff.2 ⟨hs, hn, hz⟩
  inf h := by simp [sqrt, unpack_of_isInf h, ← eq_infinity_of_isInf h]
  finite _ hx h0 := sqrt_finite_rounds hx h0

end

/-- Settles O55: the halt by `sqrt_eq_none_iff`, a positive operand by `sqrt_finite_rounds`. -/
theorem sqrtMeetsIeee : Obligations.SqrtMeetsIeee := fun _ _ _ _ => sqrt_meets

/-! ## The fused multiply-add (R471) -/

theorem isInfTimesZero_iff {f : Fmt} {a b : BitVec f.width} : isInfTimesZero (unpack f a) (unpack f b) = true ↔
    (∃ s t, IsInf f a s ∧ IsZero f b t) ∨ ∃ s t, IsZero f a s ∧ IsInf f b t := by
  simp only [unpack_inf_iff, unpack_zero_iff]
  cases unpack f a <;> cases unpack f b <;> simp [isInfTimesZero]

theorem negateIf_signedReal {neg : Bool} {p : ℤ × ℤ} {x y : ℝ} (h : RealOf p x) (hy : SignedReal neg x y) :
    RealOf (negateIf neg p) y := by
  have e : y = if neg then -x else x := by
    cases neg
    · exact hy.1 rfl
    · exact hy.2 rfl
  exact e ▸ negateIf_real h neg

section
variable {f : Fmt} {cfg : Config} {mode : Mode} {negp negc : Bool} {a b c : BitVec f.width}

/-- A product of an infinity and no zero: each operand is an infinity or a number of its own sign, one an infinity. -/
theorem unpack_of_infinite_product (h : (∃ s, IsInf f a s) ∨ ∃ s, IsInf f b s) (hna : ¬IsNan f a) (hnb : ¬IsNan f b)
    (hza : ∀ t, ¬IsZero f a t) (hzb : ∀ t, ¬IsZero f b t) :
    (unpack f a = .inf (signBit f a) ∧ unpack f b = .inf (signBit f b)) ∨
    (unpack f a = .inf (signBit f a) ∧ ∃ sig exp, unpack f b = .num (signBit f b) sig exp) ∨
    ((∃ sig exp, unpack f a = .num (signBit f a) sig exp) ∧ unpack f b = .inf (signBit f b)) := by
  rcases unpack_of_not_nan hna with ea | ea | ⟨sig, exp, ea⟩ <;>
    rcases unpack_of_not_nan hnb with eb | eb | ⟨sig', exp', eb⟩
  case inr.inr.inr.inr => simp [unpack_inf_iff, ea, eb] at h
  all_goals simp_all [unpack_zero_iff]

theorem fma_invalid (h : isInfTimesZero (unpack f a) (unpack f b) = true) :
    fma f cfg mode negp negc a b c = invalid f cfg := if_pos h

/-- A NaN operand, and no product of an infinity and a zero. -/
theorem fma_nan (h : IsNan f a ∨ IsNan f b ∨ IsNan f c) (hp : isInfTimesZero (unpack f a) (unpack f b) = false) :
    fma f cfg mode negp negc a b c =
      nanResult f cfg (isSignalling (unpack f a) || isSignalling (unpack f b) || isSignalling (unpack f c)) := by
  have hn : (isNan (unpack f a) || isNan (unpack f b) || isNan (unpack f c)) = true := by
    simpa [isNan_unpack, or_assoc] using h
  simp [fma, hp, hn]

/-- Finite operands whose product and addend are not both zeros: the exact value, rounded once. -/
theorem fma_finite {x y z : ℝ} (hx : HasValue f a x) (hy : HasValue f b y) (hz : HasValue f c z)
    (h0 : x * y ≠ 0 ∨ z ≠ 0) {v : ℤ × ℤ}
    (hv : v = exactSum (negateIf negp (exactProduct (signedOf (unpack f a)) (signedOf (unpack f b))))
      (negateIf negc (signedOf (unpack f c)))) :
    fma f cfg mode negp negc a b c = roundSigned f mode v.1 v.2 := by
  subst hv
  rcases unpack_of_hasValue hx with ⟨ea, hx0⟩ | ⟨-, sig, exp, ea, -⟩ <;>
    rcases unpack_of_hasValue hy with ⟨eb, hy0⟩ | ⟨-, sig', exp', eb, -⟩ <;>
    rcases unpack_of_hasValue hz with ⟨ec, hz0⟩ | ⟨-, sig'', exp'', ec, -⟩
  case inl.inl.inl | inl.inr.inl | inr.inl.inl => exact absurd h0 (by simp [*])
  all_goals simp [fma, ea, eb, ec, isNan, isInfTimesZero]

/-- A zero product and a zero addend: the common sign, or R462's zero. -/
theorem fma_zeros {x y : ℝ} {sc : Bool} (hx : HasValue f a x) (hy : HasValue f b y) (h0 : x * y = 0)
    (hc : IsZero f c sc) :
    fma f cfg mode negp negc a b c = if ((signBit f a != signBit f b) != negp) = (sc != negc) then
      (zero f ((signBit f a != signBit f b) != negp), flagNone) else (zero f (decide (mode = .rdn)), flagNone) := by
  rcases unpack_of_hasValue hx with ⟨ea, -⟩ | ⟨hx0, sig, exp, ea, -⟩ <;>
    rcases unpack_of_hasValue hy with ⟨eb, -⟩ | ⟨hy0, sig', exp', eb, -⟩
  case inr.inr => exact absurd h0 (mul_ne_zero hx0 hy0)
  all_goals simp [fma, ea, eb, unpack_of_isZero hc, isNan, isInfTimesZero, signOf]

/-- A finite product beside an infinite addend. -/
theorem fma_inf_addend {x y : ℝ} {sc : Bool} (hx : HasValue f a x) (hy : HasValue f b y) (hc : IsInf f c sc) :
    fma f cfg mode negp negc a b c = (infinity f (sc != negc), flagNone) := by
  rcases unpack_of_hasValue hx with ⟨ea, -⟩ | ⟨-, sig, exp, ea, -⟩ <;>
    rcases unpack_of_hasValue hy with ⟨eb, -⟩ | ⟨-, sig', exp', eb, -⟩ <;>
    simp [fma, ea, eb, unpack_of_isInf hc, isNan, isInfTimesZero, signOf]

theorem fma_meets : FmaRule f cfg mode negp negc a b c (fma f cfg mode negp negc a b c) where
  infZero s t ha hb := fma_invalid (isInfTimesZero_iff.2 (.inl ⟨s, t, ha, hb⟩)) ▸ invalid_is
  zeroInf s t ha hb := fma_invalid (isInfTimesZero_iff.2 (.inr ⟨s, t, ha, hb⟩)) ▸ invalid_is
  nan h hiz hzi := by
    have hp : isInfTimesZero (unpack f a) (unpack f b) = false :=
      Bool.eq_false_iff.2 fun hp => (isInfTimesZero_iff.1 hp).elim
        (fun ⟨s, t, h⟩ => hiz s t h) fun ⟨s, t, h⟩ => hzi s t h
    rw [fma_nan h hp]
    exact nanResult_is (by simp [isSignalling_unpack, or_assoc])
  oppositeInf ps h hna hnb hza hzb hps sc hc hopp := by
    have : fma f cfg mode negp negc a b c = invalid f cfg := by
      rcases unpack_of_infinite_product h hna hnb hza hzb with
          ⟨ea, eb⟩ | ⟨ea, sig, exp, eb⟩ | ⟨⟨sig, exp, ea⟩, eb⟩ <;>
        simp [fma, ea, eb, unpack_of_isInf hc, isNan, isInfTimesZero, signOf, hopp, ← hps]
    exact this ▸ invalid_is
  infProduct ps h hna hnb hnc hza hzb hps hsame := by
    have : fma f cfg mode negp negc a b c = (infinity f ps, flagNone) := by
      rcases unpack_of_infinite_product h hna hnb hza hzb with
          ⟨ea, eb⟩ | ⟨ea, sig, exp, eb⟩ | ⟨⟨sig, exp, ea⟩, eb⟩ <;>
        rcases unpack_of_not_nan hnc with ec | ec | ⟨sig', exp', ec⟩ <;>
        simp_all [fma, isNan, isInfTimesZero, signOf, unpack_inf_iff]
    exact this ▸ infinity_is _
  infAddend x y sc hx hy hc := fma_inf_addend hx hy hc ▸ infinity_is _
  zeros x y ps sc hx hy h0 hc hps := by
    rw [fma_zeros hx hy h0 hc, ← hps]
    exact ⟨fun h => if_pos h ▸ zero_is _, fun h => if_neg h ▸ zero_is _⟩
  finite x y z p d hx hy hz h0 hp hd := by
    rw [fma_finite hx hy hz h0 rfl]
    exact roundSigned_is (exactSum_real
      (negateIf_signedReal (exactProduct_real (hasValue_signed hx).1 (hasValue_signed hy).1) hp)
      (negateIf_signedReal (hasValue_signed hz).1 hd))

end

/-- Settles O56: a finite value is exact before its one rounding, by `roundSigned_is`. -/
theorem fmaMeetsIeee : Obligations.FmaMeetsIeee := fun _ _ _ _ _ _ _ _ => fma_meets

/-! ## Conversion to an integer (R472) -/

section
variable {f : Fmt} {mode : Mode} {a : BitVec f.width}

theorem isRoundInt_zero {neg : Bool} : IsRoundInt mode neg 0 0 :=
  ⟨0, 0, by simp, le_rfl, one_pos, fun h => absurd rfl h.1, fun _ => rfl⟩

/-- A number's own magnitude. -/
theorem stands_num {sig : Nat} (h0 : sig ≠ 0) (exp : ℤ) : Stands ⟨sig, exp, false⟩ ((sig : ℝ) * 2 ^ exp) :=
  ⟨h0, fun _ => rfl, nofun⟩

/-- The signed integer a number rounds to, below, above or in the range of its kind. -/
theorem toInt_num {kind : IntKind} {neg : Bool} {sig : Nat} {exp : ℤ} {v : ℤ} (e : unpack f a = .num neg sig exp)
    (hv : v = if neg then -(roundInt mode neg ⟨sig, exp, false⟩ 0 : ℤ) else roundInt mode neg ⟨sig, exp, false⟩ 0) :
    toInt f mode kind a = if v > intMax kind then saturateHigh kind else if v < intMin kind then saturateLow kind
      else (BitVec.ofInt 32 v, flagIf (inexactAt ⟨sig, exp, false⟩ 0) flagNX) := by
  subst hv
  simp [toInt, e]

theorem intRange (kind : IntKind) : intMin kind ≤ 0 ∧ 0 ≤ intMax kind := by cases kind <;> decide

theorem toInt_meets (kind : IntKind) : ToIntRule f mode (intMin kind) (intMax kind) a (toInt f mode kind a) where
  nan h := by
    obtain ⟨s, e⟩ := (unpack_nan_iff f a).1 h
    simp [toInt, e, saturateHigh]
  posInf h := by simp [toInt, unpack_of_isInf h, saturateHigh]
  negInf h := by simp [toInt, unpack_of_isInf h, saturateLow]
  finite neg r hm := by
    obtain ⟨hlo, hhi⟩ := intRange kind
    have hsays := unpack_says f a
    cases e : unpack f a with
    | nan s => rw [e] at hsays; exact absurd hsays.1.1 hm.2.1
    | inf s => rw [e] at hsays; exact absurd hsays.1 hm.2.1
    | zero s =>
      rw [e] at hsays
      obtain ⟨rfl, rfl⟩ := magnitude_unique (isZero_magnitude hsays) hm
      refine ⟨0, 0, isRoundInt_zero, fun _ => rfl, fun _ => rfl, fun h => absurd hhi h.not_ge,
        fun h => absurd hlo h.not_ge, fun _ _ => ?_⟩
      simp [toInt, e]
    | num s sig exp =>
      rw [e] at hsays
      obtain ⟨h0, hm', -⟩ := hsays
      obtain ⟨rfl, rfl⟩ := magnitude_unique hm' hm
      have hst := stands_num h0 exp
      have hr := roundInt_is hst (q := 0) nofun mode s
      have hin := inexactAt_iff hst (q := 0) nofun mode s
      simp only [zpow_zero, div_one, mul_one] at hr hin
      obtain ⟨v, hv⟩ : ∃ v : ℤ, v = if s then -(roundInt mode s ⟨sig, exp, false⟩ 0 : ℤ)
        else roundInt mode s ⟨sig, exp, false⟩ 0 := ⟨_, rfl⟩
      rw [toInt_num e hv]
      refine ⟨_, v, hr, fun hs => by simp [hv, hs], fun hs => by simp [hv, hs], fun h => if_pos h, fun h => ?_,
        fun h1 h2 => ?_⟩
      · rw [if_neg (by omega), if_pos h]; rfl
      · rw [if_neg h2.not_gt, if_neg h1.not_gt]
        exact ⟨rfl, fun h => by simp [flagIf, mt hin.1 (not_not.2 h)], fun h => by simp [flagIf, hin.2 h]⟩

end

/-- Settles O57: both ranges by `toInt_meets`. -/
theorem toIntMeetsIeee : Obligations.ToIntMeetsIeee := fun _ _ _ => ⟨toInt_meets .W, toInt_meets .WU⟩

/-! ## Conversion from an integer (R473) -/

/-- A real on the format's grid, below its overflow, is rounded to itself with no flag. -/
theorem roundsTo_grid {f : Fmt} {mode : Mode} {x : ℝ} {out : BitVec f.width × Flags} (h : RoundsTo f mode x out)
    {N : ℕ} {k : ℤ} (hx : |x| = N * 2 ^ k) (hN : N < 2 ^ prec f) (hlo : emin f - prec f + 1 ≤ k)
    (hhi : k ≤ (bias f : ℤ) - prec f + 1) : HasValue f out.1 x ∧ out.2 = flagNone := by
  refine roundsTo_exact h hx hN hlo fun r hr => ?_
  have hN' : (N : ℝ) ≤ 2 ^ prec f - 1 := by
    have : (N : ℝ) + 1 ≤ 2 ^ prec f := by exact_mod_cast hN
    linarith
  rw [hx, hr]
  exact mul_le_mul hN' (zpow_le_zpow_right₀ (by norm_num) hhi) (two_zpow_pos k).le ((Nat.cast_nonneg N).trans hN')

theorem hasValue_of_isZero {f : Fmt} {x : BitVec f.width} {s : Bool} (h : IsZero f x s) : HasValue f x 0 :=
  hasValue_zero (unpack_of_isZero h)

/-- An integer, `+0` where it is 0 and else rounded. -/
theorem roundInteger_meets {f : Fmt} {mode : Mode} (n : ℤ) :
    FromIntRule f mode n
      (if n = 0 then (zero f false, flagNone) else round f mode (decide (n < 0)) ⟨n.natAbs, 0, false⟩) where
  zero h := if_pos h ▸ zero_is false
  nonzero h := by
    rw [if_neg h]
    exact round_num (Int.natAbs_ne_zero.2 h) (by simp [Nat.cast_natAbs]) (by simp)

/-- An integer of at most 53 bits is exact in double. -/
theorem fromInt_exact {mode : Mode} {n : ℤ} {out : BitVec 64 × Flags} (h : FromIntRule .D mode n out)
    (hn : n.natAbs < 2 ^ 53) : HasValue .D out.1 n ∧ out.2 = flagNone := by
  by_cases h0 : n = 0
  · obtain ⟨hz, hf⟩ := h.zero h0
    exact ⟨by simpa [h0] using hasValue_of_isZero hz, hf⟩
  · exact roundsTo_grid (h.nonzero h0) (N := n.natAbs) (k := 0) (by simp [Nat.cast_natAbs]) hn (by decide) (by decide)

theorem fromInt_signed_meets {f : Fmt} {mode : Mode} (v : Word) :
    FromIntRule f mode v.toInt (fromInt f mode .W v) := roundInteger_meets _

theorem fromInt_unsigned_meets {f : Fmt} {mode : Mode} (v : Word) :
    FromIntRule f mode v.toNat (fromInt f mode .WU v) := roundInteger_meets _

/-! ## Conversion between the formats (R479) -/

theorem convert_meets {f g : Fmt} {cfg : Config} {mode : Mode} {a : BitVec g.width} :
    ConvertRule f g cfg mode a (convert f g cfg mode a) where
  nan h := by
    obtain ⟨s, e⟩ := (unpack_nan_iff g a).1 h
    have : convert f g cfg mode a = nanResult f cfg s := by simp [convert, e]
    exact this ▸ nanResult_is (by rw [← isSignalling_unpack, e]; rfl)
  inf s h := by
    have : convert f g cfg mode a = (infinity f s, flagNone) := by simp [convert, unpack_of_isInf h]
    exact this ▸ infinity_is s
  zero s h := by
    have : convert f g cfg mode a = (zero f s, flagNone) := by simp [convert, unpack_of_isZero h]
    exact this ▸ zero_is s
  finite x hx h0 := by
    obtain ⟨sig, exp, e, habs, hs⟩ := unpack_of_value_ne_zero hx h0
    have : convert f g cfg mode a = round f mode (signBit g a) ⟨sig, exp, false⟩ := by simp [convert, e]
    exact this ▸ round_num (num_bounds e).1 habs hs

/-- The exponents of a format's numbers (R452). -/
theorem num_exponent {f : Fmt} {x : BitVec f.width} {s : Bool} {sig : Nat} {exp : ℤ}
    (h : unpack f x = .num s sig exp) : emin f - fracBits f ≤ exp ∧ exp ≤ (bias f : ℤ) - fracBits f := by
  have hl := expField_lt f x
  have hb := bias_eq f
  have hm := expMax_eq f
  have he := emin_eq f
  have hw := fracBits_lt_bias f
  unfold unpack at h
  split at h
  · split at h <;> simp at h
  · split at h
    · split at h
      · simp at h
      · simp at h; omega
    · simp at h; omega

/-- Every single is exact in double. -/
theorem convert_single_to_double_exact {cfg : Config} {mode : Mode} {a : Word} {x : ℝ} (hx : HasValue .S a x) :
    HasValue .D (convert .D .S cfg mode a).1 x ∧ (convert .D .S cfg mode a).2 = flagNone := by
  have rule := convert_meets (f := .D) (g := .S) (cfg := cfg) (mode := mode) (a := a)
  by_cases h0 : x = 0
  · subst h0
    obtain ⟨hz, hf⟩ := rule.zero _ ((unpack_zero_iff _ _ _).2 (unpack_of_value_zero hx))
    exact ⟨hasValue_of_isZero hz, hf⟩
  · obtain ⟨sig, exp, e, habs, -⟩ := unpack_of_value_ne_zero hx h0
    obtain ⟨hlo, hhi⟩ := num_exponent e
    have hsig : sig < 2 ^ 24 := (num_bounds e).2
    simp only [emin, bias, fracBits, prec] at hlo hhi
    exact roundsTo_grid (rule.finite x hx h0) habs (hsig.trans (by decide)) (by simp [emin, bias, prec]; omega)
      (by simp [bias, prec]; omega)

/-- Settles O58: the rules by `roundInteger_meets` and `convert_meets`; every word and every single is on the
grid of the doubles. -/
theorem conversionsMeetIeee : Obligations.ConversionsMeetIeee := by
  refine ⟨fun f mode v => ⟨fromInt_signed_meets v, fromInt_unsigned_meets v⟩, fun mode v => ?_,
    fun _ _ _ => convert_meets, fun _ _ _ => convert_meets, fun _ _ _ _ => convert_single_to_double_exact⟩
  have hs : v.toInt.natAbs < 2 ^ 53 := by
    have := v.toInt_lt
    have := v.le_toInt
    omega
  have hu : (v.toNat : ℤ).natAbs < 2 ^ 53 := by
    have := v.isLt
    omega
  obtain ⟨hv, hf⟩ := fromInt_exact (fromInt_signed_meets (mode := mode) v) hs
  obtain ⟨hv', hf'⟩ := fromInt_exact (fromInt_unsigned_meets (mode := mode) v) hu
  exact ⟨hv, hf, by exact_mod_cast hv', hf'⟩

/-! ## Comparisons (R474) -/

section
variable {f : Fmt} {cfg : Config} {a b : BitVec f.width}

theorem holds_iff {op : CmpOp} (ha : ¬IsNan f a) (hb : ¬IsNan f b) :
    holds op (unpack f a) (unpack f b) = true ↔ Compares f op a b := by
  have hl := lessValues_iff ha hb
  have hg := lessValues_iff hb ha
  have he := neither_less ha hb
  cases op with
  | eq => simp [holds, Compares, ← he, ← hl, ← hg]
  | lt => exact hl
  | le =>
    have hasymm : IsLess f a b → ¬IsLess f b a := isLess_asymm
    simp only [holds, Compares, Bool.not_eq_true', ← Bool.not_eq_true, hg, ← he]
    tauto

/-- A comparison of operands that are no NaNs. -/
theorem compare_of_not_nan {op : CmpOp} (ha : ¬IsNan f a) (hb : ¬IsNan f b) :
    compare f op a b = (if holds op (unpack f a) (unpack f b) then 1#32 else 0#32, flagNone) :=
  if_neg (by simp [isNan_unpack, ha, hb])

theorem compare_meets {op : CmpOp} : CompareRule f op a b (compare f op a b) where
  nan h := if_pos (by simpa [isNan_unpack] using h)
  holds ha hb h := by rw [compare_of_not_nan ha hb, if_pos ((holds_iff ha hb).2 h)]
  fails ha hb h := by rw [compare_of_not_nan ha hb, if_neg (mt (holds_iff ha hb).1 h)]

/-! ## Minimum and maximum (R475) -/

/-- The operand Min and Max give: the second where `second` holds, unless a NaN decides. -/
def chosen (f : Fmt) (cfg : Config) (a b : BitVec f.width) (second : Bool) : BitVec f.width :=
  if isNan (unpack f a) && isNan (unpack f b) then canonicalNan cfg f
  else if isNan (unpack f a) then b
  else if isNan (unpack f b) then a
  else if second then b else a

theorem minimum_fst : (minimum f cfg a b).1 = chosen f cfg a b (lessOrdered (unpack f b) (unpack f a)) := rfl

theorem maximum_fst : (maximum f cfg a b).1 = chosen f cfg a b (lessOrdered (unpack f a) (unpack f b)) := rfl

theorem chosen_both_nan {second : Bool} (ha : IsNan f a) (hb : IsNan f b) :
    chosen f cfg a b second = canonicalNan cfg f := by
  simp [chosen, (isNan_unpack f a).2 ha, (isNan_unpack f b).2 hb]

theorem chosen_first_nan {second : Bool} (ha : IsNan f a) (hb : ¬IsNan f b) : chosen f cfg a b second = b := by
  simp [chosen, (isNan_unpack f a).2 ha, mt (isNan_unpack f b).1 hb]

theorem chosen_second_nan {second : Bool} (ha : ¬IsNan f a) (hb : IsNan f b) : chosen f cfg a b second = a := by
  simp [chosen, mt (isNan_unpack f a).1 ha, (isNan_unpack f b).2 hb]

theorem chosen_of_not_nan {second : Bool} (ha : ¬IsNan f a) (hb : ¬IsNan f b) :
    chosen f cfg a b second = if second then b else a := by
  simp [chosen, mt (isNan_unpack f a).1 ha, mt (isNan_unpack f b).1 hb]

/-- What comes before an operand does not come after it. -/
theorem lessOrdered_of_isBefore (ha : ¬IsNan f a) (hb : ¬IsNan f b) (h : IsBefore f a b) :
    lessOrdered (unpack f a) (unpack f b) = true ∧ lessOrdered (unpack f b) (unpack f a) = false :=
  ⟨(lessOrdered_iff ha hb).2 h, Bool.eq_false_iff.2 fun h' => isBefore_asymm h ((lessOrdered_iff hb ha).1 h')⟩

/-- NV exactly for a signalling operand. -/
theorem signallingFlag :
    (IsSignallingNan f a ∨ IsSignallingNan f b →
      flagIf (isSignalling (unpack f a) || isSignalling (unpack f b)) flagNV = flagNV) ∧
    (¬(IsSignallingNan f a ∨ IsSignallingNan f b) →
      flagIf (isSignalling (unpack f a) || isSignalling (unpack f b)) flagNV = flagNone) := by
  rw [← isSignalling_unpack, ← isSignalling_unpack, ← Bool.or_eq_true]
  exact ⟨fun h => if_pos h, fun h => if_neg h⟩

theorem minimum_meets : MinRule f cfg a b (minimum f cfg a b) where
  bothNan := chosen_both_nan
  firstNan := chosen_first_nan
  secondNan := chosen_second_nan
  first ha hb h := by
    rw [minimum_fst, chosen_of_not_nan ha hb, (lessOrdered_of_isBefore ha hb h).2]; rfl
  second ha hb h := by
    rw [minimum_fst, chosen_of_not_nan ha hb, (lessOrdered_of_isBefore hb ha h).1]; rfl
  signalling := signallingFlag.1
  noFlag := signallingFlag.2
  operand ha hb := by
    rw [minimum_fst, chosen_of_not_nan ha hb]
    exact (ite_eq_or_eq _ b a).symm

theorem maximum_meets : MaxRule f cfg a b (maximum f cfg a b) where
  bothNan := chosen_both_nan
  firstNan := chosen_first_nan
  secondNan := chosen_second_nan
  first ha hb h := by
    rw [maximum_fst, chosen_of_not_nan ha hb, (lessOrdered_of_isBefore hb ha h).2]; rfl
  second ha hb h := by
    rw [maximum_fst, chosen_of_not_nan ha hb, (lessOrdered_of_isBefore ha hb h).1]; rfl
  signalling := signallingFlag.1
  noFlag := signallingFlag.2
  operand ha hb := by
    rw [maximum_fst, chosen_of_not_nan ha hb]
    exact (ite_eq_or_eq _ b a).symm

end

/-- Settles O59: the order of R474 and R475 is what `lessValues` and `lessOrdered` decide. -/
theorem compareMinMaxMeetIeee : Obligations.CompareMinMaxMeetIeee := fun _ _ _ _ =>
  ⟨fun _ => compare_meets, minimum_meets, maximum_meets⟩

/-! ## Fields and classes (R450, R451, R453, R477) -/

/-- A field of a word, as a quotient and a remainder. -/
theorem extractLsb'_toNat_eq_div_mod {n : Nat} (x : BitVec n) (start len : Nat) :
    (x.extractLsb' start len).toNat = x.toNat / 2 ^ start % 2 ^ len := by
  rw [BitVec.extractLsb'_toNat, Nat.shiftRight_eq_div_pow]

section
variable {f : Fmt} {x : BitVec f.width}

theorem unpack_of_isSubnormal {s : Bool} (h : IsSubnormal f x s) : ∃ sig exp, unpack f x = .num s sig exp := by
  obtain ⟨he, ht, rfl⟩ := h
  exact ⟨_, _, by rw [unpack, if_neg fun h => expMax_ne_zero f (h.symm.trans he), if_pos he, if_neg ht]⟩

theorem unpack_of_isNormal {s : Bool} (h : IsNormal f x s) : ∃ sig exp, unpack f x = .num s sig exp := by
  obtain ⟨he, hm, rfl⟩ := h
  exact ⟨_, _, by rw [unpack, if_neg hm, if_neg he]⟩

theorem classBit_of_subnormal {s : Bool} (h : IsSubnormal f x s) : classBit f x = if s then 2 else 5 := by
  obtain ⟨sig, exp, e⟩ := unpack_of_isSubnormal h
  simp [classBit, e, h.1]

theorem classBit_of_normal {s : Bool} (h : IsNormal f x s) : classBit f x = if s then 1 else 6 := by
  obtain ⟨sig, exp, e⟩ := unpack_of_isNormal h
  simp [classBit, e, h.1]

theorem classBit_of_inf {s : Bool} (h : IsInf f x s) : classBit f x = if s then 0 else 7 := by
  simp [classBit, unpack_of_isInf h]

theorem classBit_of_zero {s : Bool} (h : IsZero f x s) : classBit f x = if s then 3 else 4 := by
  simp [classBit, unpack_of_isZero h]

theorem classBit_of_nan (h : IsNan f x) : classBit f x = if isSignalling (unpack f x) then 8 else 9 := by
  obtain ⟨s, e⟩ := (unpack_nan_iff f x).1 h
  simp [classBit, e, isSignalling]

/-- FCLASS's bit is that of any class the pattern is in. -/
theorem eq_classBit_of_isClass {k : ℕ} (h : IsClass f x k) : k = classBit f x := by
  match k, h with
  | 0, h | 7, h => rw [classBit_of_inf h]; rfl
  | 1, h | 6, h => rw [classBit_of_normal h]; rfl
  | 2, h | 5, h => rw [classBit_of_subnormal h]; rfl
  | 3, h | 4, h => rw [classBit_of_zero h]; rfl
  | 8, h => rw [classBit_of_nan h.1, if_pos ((isSignalling_unpack f x).2 h)]
  | 9, h => rw [classBit_of_nan h.1, if_neg (mt (isSignalling_unpack f x).1 h.2)]

/-- Every pattern is in a class. -/
theorem exists_isClass (f : Fmt) (x : BitVec f.width) : ∃ k ≤ 9, IsClass f x k := by
  by_cases hm : expField f x = expMax f
  · by_cases ht : fracField f x = 0
    · cases hs : signBit f x
      · exact ⟨7, by decide, hm, ht, hs⟩
      · exact ⟨0, by decide, hm, ht, hs⟩
    · by_cases hq : IsSignallingNan f x
      · exact ⟨8, by decide, hq⟩
      · exact ⟨9, by decide, ⟨hm, ht⟩, hq⟩
  · by_cases he : expField f x = 0
    · by_cases ht : fracField f x = 0
      · cases hs : signBit f x
        · exact ⟨4, by decide, he, ht, hs⟩
        · exact ⟨3, by decide, he, ht, hs⟩
      · cases hs : signBit f x
        · exact ⟨5, by decide, he, ht, hs⟩
        · exact ⟨2, by decide, he, ht, hs⟩
    · cases hs : signBit f x
      · exact ⟨6, by decide, he, hm, hs⟩
      · exact ⟨1, by decide, he, hm, hs⟩

/-- FCLASS's word has one bit set. -/
theorem classMask_bit (h : classBit f x ≤ 9) (i : Nat) : (classMask f x).getLsbD i = decide (i = classBit f x) := by
  have : classMask f x = BitVec.twoPow 32 (classBit f x) := (BitVec.twoPow_eq _ _).symm
  rw [this, BitVec.getLsbD_twoPow, decide_eq_true (by omega : classBit f x < 32), Bool.true_and]
  exact decide_eq_decide.2 eq_comm

end

/-- Settles O60: a pattern has a class by its fields, and any class it has is that of FCLASS's bit. -/
theorem patternFieldsAndClasses : Obligations.PatternFieldsAndClasses := by
  refine ⟨fun x => ⟨rfl, (extractLsb'_toNat_eq_div_mod x 23 8).symm, ?_⟩,
    fun x => ⟨rfl, (extractLsb'_toNat_eq_div_mod x 52 11).symm, ?_⟩, fun f x => ?_⟩
  · simp [fracField, fracBits, prec]
  · simp [fracField, fracBits, prec]
  · obtain ⟨k, hk, hc⟩ := exists_isClass f x
    obtain rfl := eq_classBit_of_isClass hc
    exact ⟨_, hc, fun _ => eq_classBit_of_isClass, hk, classMask_bit hk⟩

end Sys2Proof.Machine.Fp

/-! ## The rounding-mode check (R455 to R457) -/

namespace Sys2Proof.Machine

open Sys2Proof.Claims

/-- An instruction with an `rm` field begins with the check of its mode. -/
theorem exec_eq_withMode {i : Instr} {rm : BitVec 3} (h : rmField i = some rm) (s : State) :
    ∃ done, exec i s = withMode rm s done := by
  cases i with
  | faddS | fsubS | fmulS | fdivS | fsqrtS | fmaddS | fmsubS | fnmsubS | fnmaddS | fcvtWS | fcvtWuS | fcvtSW | fcvtSWu
  | faddD | fsubD | fmulD | fdivD | fsqrtD | fmaddD | fmsubD | fnmsubD | fnmaddD | fcvtWD | fcvtWuD | fcvtDW | fcvtDWu
  | fcvtSD | fcvtDS => cases h; exact ⟨_, rfl⟩
  | _ => cases h

/-- The reserved values of R456 and R457 are those that name no mode. -/
theorem effectiveMode_eq_none_iff : ∀ rm frm : BitVec 3, effectiveMode rm frm = none ↔
    rm = 0b101#3 ∨ rm = 0b110#3 ∨ (rm = 0b111#3 ∧ frm.toNat ∈ [5, 6, 7]) := by decide

/-- Settles O50: the check comes first, and passes exactly where `rm` or `frm` names a mode. -/
theorem reservedRoundingModeFaults : Obligations.ReservedRoundingModeFaults := by
  refine ⟨fun i s rm hrm hres => ?_, fun rm frm hres => ?_⟩
  · obtain ⟨done, he⟩ := exec_eq_withMode hrm s
    have hnone := (effectiveMode_eq_none_iff rm s.frm).2 hres
    rw [he]
    exact withMode_reserved (fun mode hm => by simp [effectiveMode_eq_some.2 hm] at hnone) done
  · obtain ⟨mode, hm⟩ := Option.ne_none_iff_exists'.1 (mt (effectiveMode_eq_none_iff rm frm).1 hres)
    exact ⟨mode, effectiveMode_eq_some.1 hm, hm⟩

end Sys2Proof.Machine
end

section
/-! SUPPORT. The statements about single precision, and about double precision where one statement has both (46_fp_single,
47_fp_double). An instruction is its checks around one ending: the checks pass by `withMode_completes` and `withPair_completes`,
the ending completes by its lemma in Laws/Ops.lean. What is left is a result in the rule's terms: the root, the sign, the class. -/

namespace Sys2Proof.Machine

open Sys2Proof.Claims Sys2Proof.Ieee

/-! ## Checks that pass -/

/-- Past the rm check the instruction is what its mode makes it (R455). -/
theorem withMode_completes {rm : BitVec 3} {s : State} {mode : Fp.Mode} {done : Fp.Mode → Result} {P : State → Prop}
    (hm : RmSelects rm s.frm mode) (h : ∃ t, done mode = .next t ∧ P t) : ∃ t, withMode rm s done = .next t ∧ P t := by
  rwa [withMode_pass hm]

/-- Past a pair check the instruction is what the field's slots make it (R57, R480). -/
theorem withPair_completes {r lo hi : Reg} {s : State} {done : Pair → Result} {P : State → Prop}
    (hp : PairIs s.cfg r lo hi) (h : ∃ t, done ⟨lo, hi⟩ = .next t ∧ P t) : ∃ t, withPair r s done = .next t ∧ P t := by
  rwa [withPair_pass hp]

/-- A mapped pair's slots hold its double (R57). -/
theorem readPair_eq (lo hi : Reg) (s : State) : readPair ⟨lo, hi⟩ s = doubleOf s lo hi := rfl

/-! ## Square roots (R469) -/

/-- An operand that is a NaN, a zero or has sign 0 is no negative operand, so it has a root. -/
theorem exists_sqrt {f : Fp.Fmt} {a : BitVec f.width} (h : IsNan f a ∨ IsZero f a true ∨ Fp.signBit f a = false)
    (cfg : Config) (mode : Fp.Mode) : ∃ r, Fp.sqrt f cfg mode a = some r := by
  refine Option.ne_none_iff_exists'.1 fun hnone => ?_
  obtain ⟨hsign, hnan, hzero⟩ := Fp.sqrt_eq_none_iff.1 hnone
  rcases h with h | h | h
  · exact hnan h
  · exact hzero h
  · simp [hsign] at h

/-- What SQRT_NEG leaves: NV accrued, and nothing else but `pc` and `status` (R650). -/
theorem sqrtNeg_halts (s : State) : ∃ t, raiseHalt .sqrtNeg (setFlags flagNV s) = .next t ∧
    Accrues s flagNV t ∧ t = haltOutcome { s with fflags := t.fflags } .sqrtNeg :=
  ⟨_, raiseHalt_eq _ _, accrues_accrued _ _ _ rfl rfl, rfl⟩

section SquareRoots

variable {s : State} {rd rs1 : Reg} {rm : BitVec 3} {mode : Fp.Mode} (hm : RmSelects rm s.frm mode)
include hm

/-- FSQRT.S writes the root where there is one (R505). -/
theorem fsqrtS_root {r : Word × Flags} (h : Fp.sqrt .S s.cfg mode (readF rs1 s) = some r) :
    Completes (.fsqrtS rd rs1 rm) s (FResult s rd r.1 r.2) :=
  withMode_completes hm (by rw [h]; exact finishFFlags_completes rd r s)

/-- FSQRT.S halts on a negative operand (R505, R650). -/
theorem fsqrtS_negative (h : IsNegativeOperand .S (readF rs1 s)) : Completes (.fsqrtS rd rs1 rm) s fun t =>
    Accrues s flagNV t ∧ t = haltOutcome { s with fflags := t.fflags } .sqrtNeg :=
  withMode_completes hm (by rw [Fp.sqrt_eq_none_iff.2 h]; exact sqrtNeg_halts s)

variable {lo hi lo1 hi1 : Reg} (hd : PairIs s.cfg rd lo hi) (h1 : PairIs s.cfg rs1 lo1 hi1)
include hd h1

/-- FSQRT.D writes the root where there is one (R555). -/
theorem fsqrtD_root {r : Dword × Flags} (h : Fp.sqrt .D s.cfg mode (doubleOf s lo1 hi1) = some r) :
    Completes (.fsqrtD rd rs1 rm) s (DResult s lo hi r.1 r.2) :=
  withMode_completes hm <| withPair_completes hd <| withPair_completes h1 <| by
    rw [readPair_eq, h]; exact finishDFlags_completes hd r s

/-- FSQRT.D halts on a negative operand (R555, R650). -/
theorem fsqrtD_negative (h : IsNegativeOperand .D (doubleOf s lo1 hi1)) : Completes (.fsqrtD rd rs1 rm) s fun t =>
    Accrues s flagNV t ∧ t = haltOutcome { s with fflags := t.fflags } .sqrtNeg :=
  withMode_completes hm <| withPair_completes hd <| withPair_completes h1 <| by
    rw [readPair_eq, Fp.sqrt_eq_none_iff.2 h]; exact sqrtNeg_halts s

end SquareRoots

/-- Settles O41: an operand has a root by `exists_sqrt`, or it is negative and both forms halt alike. -/
theorem squareRootResults : Obligations.SquareRootResults := by
  intro s rd rs1 lo hi lo1 hi1 rm mode hm
  refine ⟨?rootS, ?negativeS, fun hd h1 a ha => ⟨fun h => ?rootD, fun hnan hzero hsign => ?negativeD⟩⟩
  case rootS =>
    rintro _ rfl h
    obtain ⟨r, hr⟩ := exists_sqrt h s.cfg mode
    exact ⟨r, hr, rfl, fsqrtS_root hm hr⟩
  case negativeS =>
    rintro _ rfl hnan hzero hsign
    exact fsqrtS_negative hm ⟨hsign, hnan, hzero⟩
  case rootD =>
    subst ha
    obtain ⟨r, hr⟩ := exists_sqrt h s.cfg mode
    exact ⟨r, hr, rfl, fsqrtD_root hm hd h1 hr⟩
  case negativeD =>
    subst ha
    exact fsqrtD_negative hm hd h1 ⟨hsign, hnan, hzero⟩

/-! ## Signs and classes in the rule's terms (R476, R477) -/

/-- The fields below the sign are the bits below the sign. -/
theorem withSign_toNat (f : Fp.Fmt) (neg : Bool) (a : BitVec f.width) : (Fp.withSign f neg a).toNat =
    (if neg then 2 ^ (Fp.expBits f + Fp.fracBits f) else 0) + a.toNat % 2 ^ (Fp.expBits f + Fp.fracBits f) := by
  have hlow : a.toNat % 2 ^ (Fp.expBits f + Fp.fracBits f) =
      Fp.expField f a * 2 ^ Fp.fracBits f + Fp.fracField f a := by
    rw [Fp.expField, Fp.fracField, Nat.add_comm, pow_add, Nat.mod_mul, Nat.add_comm, Nat.mul_comm]
  rw [Fp.withSign, Fp.pack_toNat f _ _ _ (Fp.expField_lt f a) (Fp.fracField_lt f a), hlow, Nat.add_assoc]

/-- A sign bit above `n` bits. -/
theorem toNat_ofBool_append {n : Nat} (neg : Bool) (x : BitVec n) :
    (BitVec.ofBool neg ++ x).toNat = (if neg then 2 ^ n else 0) + x.toNat := by
  rw [BitVec.toNat_append, ← Nat.shiftLeft_add_eq_or_of_lt x.isLt]
  cases neg <;> simp [Nat.shiftLeft_eq]

/-- A single's sign replaced is the sign bit above the other 31 (R476). -/
theorem withSign_single (neg : Bool) (a : Word) :
    Fp.withSign .S neg a = BitVec.ofBool neg ++ a.extractLsb' 0 31 :=
  BitVec.eq_of_toNat_eq <| (withSign_toNat .S neg a).trans <| by rw [toNat_ofBool_append, BitVec.extractLsb'_toNat]; rfl

/-- A double's sign replaced is the sign bit above the other 63 (R476). -/
theorem withSign_double (neg : Bool) (a : Dword) :
    Fp.withSign .D neg a = BitVec.ofBool neg ++ a.extractLsb' 0 63 :=
  BitVec.eq_of_toNat_eq <| (withSign_toNat .D neg a).trans <| by rw [toNat_ofBool_append, BitVec.extractLsb'_toNat]; rfl

/-- FCLASS's word is 1 shifted left by a class the operand is in. -/
theorem exists_class_of_mask (f : Fp.Fmt) (a : BitVec f.width) : ∃ k, IsClass f a k ∧ Fp.classMask f a = 1#32 <<< k := by
  obtain ⟨k, -, hk⟩ := Fp.exists_isClass f a
  exact ⟨k, hk, by rw [Fp.eq_classBit_of_isClass hk, Fp.classMask]⟩

/-- FCLASS.S writes the bit of its slot's class (R524). -/
theorem fclassS_completes (s : State) (rd rs1 : Reg) : ∃ k, IsClass .S (readF rs1 s) k ∧
    Completes (.fclassS rd rs1) s (XResult s rd (1#32 <<< k)) := by
  obtain ⟨k, hk, hmask⟩ := exists_class_of_mask .S (readF rs1 s)
  exact ⟨k, hk, hmask ▸ finishX_completes rd _ s⟩

/-- FCLASS.D writes the bit of its pair's class (R572). -/
theorem fclassD_completes {s : State} {rs1 lo1 hi1 : Reg} (h1 : PairIs s.cfg rs1 lo1 hi1) (rd : Reg) :
    ∃ k, IsClass .D (doubleOf s lo1 hi1) k ∧ Completes (.fclassD rd rs1) s (XResult s rd (1#32 <<< k)) := by
  obtain ⟨k, hk, hmask⟩ := exists_class_of_mask .D (doubleOf s lo1 hi1)
  exact ⟨k, hk, withPair_completes h1 (hmask ▸ finishX_completes rd _ s)⟩

/-- The ending of a single sign injection whose result has the sign `neg`. -/
theorem signInjectS_completes (s : State) (rd rs1 : Reg) (neg : Bool) :
    ∃ t, finishF rd (Fp.withSign .S neg (readF rs1 s)) s = .next t ∧
      FResult s rd (BitVec.ofBool neg ++ (readF rs1 s).extractLsb' 0 31) flagNone t :=
  withSign_single neg (readF rs1 s) ▸ finishF_completes rd _ s

/-- A double sign injection, where the rule writes the result's sign as `sign`. -/
theorem means_of_signInjectD {i : Instr} {w : Word} {s : State} (neg : Dword → Dword → Bool)
    {rd rs1 rs2 lo hi lo1 hi1 lo2 hi2 : Reg} {sign : Bool} (hd : PairIs s.cfg rd lo hi) (h1 : PairIs s.cfg rs1 lo1 hi1)
    (h2 : PairIs s.cfg rs2 lo2 hi2) (hw : encode i = w) (he : exec i s = signInjectD neg rd rs1 rs2 s)
    (hsign : neg (doubleOf s lo1 hi1) (doubleOf s lo2 hi2) = sign) :
    Means i w s (DResult s lo hi (BitVec.ofBool sign ++ (doubleOf s lo1 hi1).extractLsb' 0 63) flagNone) := by
  subst hsign
  refine ⟨hw, ?_⟩
  rw [Completes, he, ← withSign_double]
  exact withPair_completes hd <| withPair_completes h1 <| withPair_completes h2 (finishD_completes hd _ s)

/-- Settles O44: the moves write their operand's bits; the signs and classes are those of the lemmas above. -/
theorem moveSignAndClassResults : Obligations.MoveSignAndClassResults := by
  rintro s rd rs1 rs2 _ _ rfl rfl
  refine ⟨?moveToX, ?moveToF, ?signS, ?signNotS, ?signXorS, ?classS, ?double⟩
  case moveToX => exact means_of_finishX rfl rfl rfl
  case moveToF => exact ⟨rfl, finishF_completes rd _ s⟩
  case signS | signNotS | signXorS => exact ⟨rfl, signInjectS_completes s rd rs1 _⟩
  case classS =>
    obtain ⟨k, hk, hc⟩ := fclassS_completes s rd rs1
    exact ⟨k, hk, rfl, hc⟩
  case double =>
    rintro lo hi lo1 hi1 lo2 hi2 _ q h1 rfl
    refine ⟨?signsD, ?classD⟩
    case signsD =>
      rintro hd h2 rfl
      refine ⟨?sign, ?signNot, ?signXor⟩
      case sign => exact means_of_signInjectD (fun _ b => Fp.signBit .D b) hd h1 h2 rfl rfl rfl
      case signNot => exact means_of_signInjectD (fun _ b => !Fp.signBit .D b) hd h1 h2 rfl rfl rfl
      case signXor =>
        exact means_of_signInjectD (fun a b => Fp.signBit .D a != Fp.signBit .D b) hd h1 h2 rfl rfl rfl
    case classD =>
      obtain ⟨k, hk, hc⟩ := fclassD_completes h1 rd
      exact ⟨k, hk, rfl, hc⟩

/-! ## Arithmetic and conversions (R501 to R504, R508 to R515, R562 to R565, R573, R574) -/

section Modes

/-! The operations with an rm field, under the mode it selects. -/

variable {s : State} {rm : BitVec 3} {mode : Fp.Mode} (hm : RmSelects rm s.frm mode)
include hm

theorem arithS_completes (op : Config → Fp.Mode → Word → Word → Word × Flags) (rd rs1 rs2 : Reg) :
    ∃ t, arithS op rd rs1 rs2 rm s = .next t ∧ FResult s rd (op s.cfg mode (readF rs1 s) (readF rs2 s)).1
      (op s.cfg mode (readF rs1 s) (readF rs2 s)).2 t :=
  withMode_completes hm (finishFFlags_completes rd _ s)

theorem fusedS_completes (negp negc : Bool) (rd rs1 rs2 rs3 : Reg) :
    ∃ t, fusedS negp negc rd rs1 rs2 rs3 rm s = .next t ∧
      FResult s rd (Fp.fma .S s.cfg mode negp negc (readF rs1 s) (readF rs2 s) (readF rs3 s)).1
        (Fp.fma .S s.cfg mode negp negc (readF rs1 s) (readF rs2 s) (readF rs3 s)).2 t :=
  withMode_completes hm (finishFFlags_completes rd _ s)

theorem toIntS_completes (kind : Fp.IntKind) (rd rs1 : Reg) : ∃ t, toIntS kind rd rs1 rm s = .next t ∧
    XFlagResult s rd (Fp.toInt .S mode kind (readF rs1 s)).1 (Fp.toInt .S mode kind (readF rs1 s)).2 t :=
  withMode_completes hm (finishXFlags_completes rd _ _ s)

theorem toIntD_completes {rs1 lo1 hi1 : Reg} (h1 : PairIs s.cfg rs1 lo1 hi1) (kind : Fp.IntKind) (rd : Reg) :
    ∃ t, toIntD kind rd rs1 rm s = .next t ∧ XFlagResult s rd (Fp.toInt .D mode kind (doubleOf s lo1 hi1)).1
      (Fp.toInt .D mode kind (doubleOf s lo1 hi1)).2 t :=
  withMode_completes hm <| withPair_completes h1 (finishXFlags_completes rd _ _ s)

theorem fromIntS_completes (kind : Fp.IntKind) (rd rs1 : Reg) : ∃ t, fromIntS kind rd rs1 rm s = .next t ∧
    FResult s rd (Fp.fromInt .S mode kind (readX rs1 s)).1 (Fp.fromInt .S mode kind (readX rs1 s)).2 t :=
  withMode_completes hm (finishFFlags_completes rd _ s)

theorem fromIntD_completes {rd lo hi : Reg} (hd : PairIs s.cfg rd lo hi) (kind : Fp.IntKind) (rs1 : Reg) :
    ∃ t, fromIntD kind rd rs1 rm s = .next t ∧ DResult s lo hi (Fp.fromInt .D mode kind (readX rs1 s)).1 flagNone t :=
  withMode_completes hm <| withPair_completes hd (finishD_completes hd _ s)

theorem fcvtDS_completes {rd lo hi : Reg} (hd : PairIs s.cfg rd lo hi) (rs1 : Reg) :
    Completes (.fcvtDS rd rs1 rm) s (DResult s lo hi (Fp.convert .D .S s.cfg mode (readF rs1 s)).1
      (Fp.convert .D .S s.cfg mode (readF rs1 s)).2) :=
  withMode_completes hm <| withPair_completes hd (finishDFlags_completes hd _ s)

theorem fcvtSD_completes {rs1 lo1 hi1 : Reg} (h1 : PairIs s.cfg rs1 lo1 hi1) (rd : Reg) :
    Completes (.fcvtSD rd rs1 rm) s (FResult s rd (Fp.convert .S .D s.cfg mode (doubleOf s lo1 hi1)).1
      (Fp.convert .S .D s.cfg mode (doubleOf s lo1 hi1)).2) :=
  withMode_completes hm <| withPair_completes h1 (finishFFlags_completes rd _ s)

end Modes

/-- Settles O39: four of `arithS`, four of `fusedS`. -/
theorem singleArithmeticResults : Obligations.SingleArithmeticResults := by
  rintro s rd rs1 rs2 rs3 rm mode _ _ _ hm rfl rfl rfl
  refine ⟨?add, ?sub, ?mul, ?div, ?madd, ?msub, ?nmsub, ?nmadd⟩
  case add | sub | mul | div => exact ⟨rfl, arithS_completes hm _ rd rs1 rs2⟩
  case madd | msub | nmsub | nmadd => exact ⟨rfl, fusedS_completes hm _ _ rd rs1 rs2 rs3⟩

/-- Settles O42: two of `toIntS`, two of `toIntD`. -/
theorem floatToIntResults : Obligations.FloatToIntResults :=
  fun _ rd rs1 _ _ _ _ hm => ⟨⟨rfl, toIntS_completes hm .W rd rs1⟩, ⟨rfl, toIntS_completes hm .WU rd rs1⟩,
    fun h1 => ⟨⟨rfl, toIntD_completes hm h1 .W rd⟩, ⟨rfl, toIntD_completes hm h1 .WU rd⟩⟩⟩

/-- Settles O43: two of `fromIntS`, two of `fromIntD`, and the two conversions between the formats. -/
theorem intAndFormatConversionResults : Obligations.IntAndFormatConversionResults :=
  fun _ rd rs1 _ _ _ _ hm => ⟨⟨rfl, fromIntS_completes hm .W rd rs1⟩, ⟨rfl, fromIntS_completes hm .WU rd rs1⟩,
    fun hd => ⟨⟨rfl, fromIntD_completes hm hd .W rs1⟩, ⟨rfl, fromIntD_completes hm hd .WU rs1⟩,
      ⟨rfl, fcvtDS_completes hm hd rs1⟩⟩,
    fun h1 => ⟨rfl, fcvtSD_completes hm h1 rd⟩⟩

/-! ## Minimum, maximum and comparisons (R506, R507, R518 to R520, R556, R557, R566 to R568) -/

theorem compareS_completes (op : Fp.CmpOp) (rd rs1 rs2 : Reg) (s : State) : ∃ t, compareS op rd rs1 rs2 s = .next t ∧
    XFlagResult s rd (Fp.compare .S op (readF rs1 s) (readF rs2 s)).1 (Fp.compare .S op (readF rs1 s) (readF rs2 s)).2 t :=
  finishXFlags_completes rd _ _ s

section Pairs

variable {s : State} {rs1 rs2 lo1 hi1 lo2 hi2 : Reg} (h1 : PairIs s.cfg rs1 lo1 hi1) (h2 : PairIs s.cfg rs2 lo2 hi2)
include h1 h2

theorem compareD_completes (op : Fp.CmpOp) (rd : Reg) : ∃ t, compareD op rd rs1 rs2 s = .next t ∧
    XFlagResult s rd (Fp.compare .D op (doubleOf s lo1 hi1) (doubleOf s lo2 hi2)).1
      (Fp.compare .D op (doubleOf s lo1 hi1) (doubleOf s lo2 hi2)).2 t :=
  withPair_completes h1 <| withPair_completes h2 (finishXFlags_completes rd _ _ s)

theorem minMaxD_completes {rd lo hi : Reg} (hd : PairIs s.cfg rd lo hi) (op : Config → Dword → Dword → Dword × Flags) :
    ∃ t, minMaxD op rd rs1 rs2 s = .next t ∧ DResult s lo hi (op s.cfg (doubleOf s lo1 hi1) (doubleOf s lo2 hi2)).1
      (op s.cfg (doubleOf s lo1 hi1) (doubleOf s lo2 hi2)).2 t :=
  withPair_completes hd <| withPair_completes h1 <| withPair_completes h2 (finishDFlags_completes hd _ s)

end Pairs

/-- Settles O45: none of the ten has an rm field, so no premise is about `frm`. -/
theorem minMaxCompareResults : Obligations.MinMaxCompareResults := by
  intro s rd rs1 rs2
  refine ⟨?minS, ?maxS, ?eqS, ?ltS, ?leS, ?double⟩
  case minS | maxS => exact ⟨rfl, finishFFlags_completes rd _ s⟩
  case eqS | ltS | leS => exact ⟨rfl, compareS_completes _ rd rs1 rs2 s⟩
  case double =>
    rintro lo1 hi1 lo2 hi2 _ _ h1 h2 rfl rfl
    refine ⟨fun lo hi hd => ⟨?minD, ?maxD⟩, ?eqD, ?ltD, ?leD⟩
    case minD | maxD => exact ⟨rfl, minMaxD_completes h1 h2 hd _⟩
    case eqD | ltD | leD => exact ⟨rfl, compareD_completes h1 h2 _ rd⟩

end Sys2Proof.Machine
end

section
/-! SUPPORT. The statement about double-precision arithmetic (47_fp_double). Each instruction is `arithD` or `fusedD`: the rm check, the
pair checks of `rd`, `rs1`, `rs2` and (fused) `rs3` in the order of R480, then `finishDFlags`. All of them pass by
`withMode_completes` and `withPair_completes`. -/

namespace Sys2Proof.Machine

open Sys2Proof.Claims

/-! ## Arithmetic of the pairs (R551 to R554, R558 to R561) -/

section PairedArithmetic

variable {s : State} {rm : BitVec 3} {mode : Fp.Mode} {rd rs1 rs2 rs3 lo hi lo1 hi1 lo2 hi2 lo3 hi3 : Reg}
  (hm : RmSelects rm s.frm mode) (hd : PairIs s.cfg rd lo hi) (h1 : PairIs s.cfg rs1 lo1 hi1) (h2 : PairIs s.cfg rs2 lo2 hi2)
include hm hd h1 h2

theorem arithD_completes (op : Config → Fp.Mode → Dword → Dword → Dword × Flags) :
    ∃ t, arithD op rd rs1 rs2 rm s = .next t ∧
      DResult s lo hi (op s.cfg mode (doubleOf s lo1 hi1) (doubleOf s lo2 hi2)).1
        (op s.cfg mode (doubleOf s lo1 hi1) (doubleOf s lo2 hi2)).2 t :=
  withMode_completes hm <| withPair_completes hd <| withPair_completes h1 <| withPair_completes h2
    (finishDFlags_completes hd _ s)

theorem fusedD_completes (h3 : PairIs s.cfg rs3 lo3 hi3) (negp negc : Bool) :
    ∃ t, fusedD negp negc rd rs1 rs2 rs3 rm s = .next t ∧
      DResult s lo hi (Fp.fma .D s.cfg mode negp negc (doubleOf s lo1 hi1) (doubleOf s lo2 hi2) (doubleOf s lo3 hi3)).1
        (Fp.fma .D s.cfg mode negp negc (doubleOf s lo1 hi1) (doubleOf s lo2 hi2) (doubleOf s lo3 hi3)).2 t :=
  withMode_completes hm <| withPair_completes hd <| withPair_completes h1 <| withPair_completes h2 <|
    withPair_completes h3 (finishDFlags_completes hd _ s)

end PairedArithmetic

/-- Settles O40: four of `arithD`, four of `fusedD`, which needs the pair of `rs3` too. -/
theorem doubleArithmeticResults : Obligations.DoubleArithmeticResults := by
  rintro s rd rs1 rs2 rs3 lo hi lo1 hi1 lo2 hi2 rm mode _ _ hm hd h1 h2 rfl rfl
  refine ⟨?add, ?sub, ?mul, ?div, ?fused⟩
  case add | sub | mul | div => exact ⟨rfl, arithD_completes hm hd h1 h2 _⟩
  case fused =>
    rintro lo3 hi3 _ h3 rfl
    refine ⟨?madd, ?msub, ?nmsub, ?nmadd⟩
    case madd | msub | nmsub | nmadd => exact ⟨rfl, fusedD_completes hm hd h1 h2 h3 _ _⟩

end Sys2Proof.Machine
end

section
/-! SUPPORT. The round trips of the encoding (30_encoding), which rest on the field lemmas of Laws/Decode.lean and on `encode_of_decode`; the spec's
example words, each as the encoding of its instruction. -/

namespace Sys2Proof

variable {w : Word} {i : Instr}

/-! ## A decoded instruction is well-formed -/

theorem wellFormed_of_decodeBranch (h : decodeBranch w = .ok i) : WellFormed i = true := by
  unfold decodeBranch at h
  split at h <;> cases h
  all_goals exact evenOffset_fieldOffsetB w

/-- Only the branches and JAL have an offset to be even, and the decoder puts a zero bit below each (R165, R167). -/
theorem wellFormed_of_decode (h : decode w = .ok i) : WellFormed i = true := by
  have hw : encode i = w := encode_of_decode h
  cases i with
  | beq | bne | blt | bge | bltu | bgeu =>
    have ho : fieldOpcode w = 0b1100011#7 := hw ▸ fieldOpcode_formatB ..
    simp only [decode, ho] at h
    exact wellFormed_of_decodeBranch h
  | jal =>
    have ho : fieldOpcode w = 0b1101111#7 := hw ▸ fieldOpcode_formatJ ..
    simp only [decode, ho] at h
    cases h
    exact evenOffset_fieldOffsetJ w
  | _ => rfl

/-- Settles O2: `wellFormed_of_decode` and `encode_of_decode`. -/
theorem encodeInvertsDecode : Obligations.EncodeInvertsDecode :=
  fun _ _ h => ⟨wellFormed_of_decode h, encode_of_decode h⟩

/-! ## An encoding decodes to its instruction -/

/-- The fields of a well-formed instruction's encoding take the decoder to its row, major opcode by major opcode, and give
its operands back. -/
theorem decode_encode (hw : WellFormed i = true) : decode (encode i) = .ok i := by
  cases i with
  | lui | auipc => simp [encode, decode]
  | jal => simp [encode, decode, fieldOffsetJ_formatJ _ _ _ hw]
  | jalr => simp [encode, decode, decodeJalr]
  | beq | bne | blt | bge | bltu | bgeu => simp [encode, decode, decodeBranch, fieldOffsetB_formatB _ _ _ _ _ hw]
  | lb | lh | lw | lbu | lhu => simp [encode, decode, decodeLoad]
  | sb | sh | sw => simp [encode, decode, decodeStore]
  | flw | fld => simp [encode, decode, decodeLoadFp]
  | fsw | fsd => simp [encode, decode, decodeStoreFp]
  | addi | slti | sltiu | xori | ori | andi | slli | srli | srai => simp [encode, decode, decodeOpImm]
  | add | sll | slt | sltu | xor | srl | or | and => simp [encode, decode, decodeOp, decodeOpBase]
  | sub | sra => simp [encode, decode, decodeOp, decodeOpAlt]
  | mul | mulh | mulhsu | mulhu | div | divu | rem | remu => simp [encode, decode, decodeOp, decodeOpMulDiv]
  | fence | fenceI => simp [encode, decode, decodeMiscMem]
  | scall | sbreak => rfl
  | csrrw | csrrs | csrrc | csrrwi | csrrsi | csrrci => simp [encode, decode, decodeSystem]
  | lrW | scW | amoswapW | amoaddW | amoxorW | amoandW | amoorW | amominW | amomaxW | amominuW | amomaxuW =>
    simp [encode, decode, decodeAmo]
  | fmaddS | fmaddD => simp [encode, decode, decodeMadd]
  | fmsubS | fmsubD => simp [encode, decode, decodeMsub]
  | fnmsubS | fnmsubD => simp [encode, decode, decodeNmsub]
  | fnmaddS | fnmaddD => simp [encode, decode, decodeNmadd]
  | faddS | fsubS | fmulS | fdivS | faddD | fsubD | fmulD | fdivD => simp [encode, decode, decodeOpFp]
  | fsgnjS | fsgnjnS | fsgnjxS => simp [encode, decode, decodeOpFp, decodeSignInjectS]
  | fsgnjD | fsgnjnD | fsgnjxD => simp [encode, decode, decodeOpFp, decodeSignInjectD]
  | fminS | fmaxS => simp [encode, decode, decodeOpFp, decodeMinMaxS]
  | fminD | fmaxD => simp [encode, decode, decodeOpFp, decodeMinMaxD]
  | feqS | fltS | fleS => simp [encode, decode, decodeOpFp, decodeCompareS]
  | feqD | fltD | fleD => simp [encode, decode, decodeOpFp, decodeCompareD]
  | fmvXS | fclassS => simp [encode, decode, decodeOpFp, decodeMoveClassS]
  | fclassD => simp [encode, decode, decodeOpFp, decodeClassD]
  | fmvSX => simp [encode, decode, decodeOpFp, decodeMoveIn]
  | fsqrtS | fsqrtD | fcvtWS | fcvtWuS | fcvtSW | fcvtSWu | fcvtWD | fcvtWuD | fcvtDW | fcvtDWu | fcvtSD | fcvtDS =>
    simp [encode, decode, decodeOpFp, decodeOpFpUnary]

/-- The four bytes of a word that decodes are taken, and the bytes after them come back (R151). -/
theorem decodeBytes_bytesOfWord (h : decode w = .ok i) (rest : List Byte) :
    decodeBytes (bytesOfWord w ++ rest) = .ok (i, rest) := by
  simp only [bytesOfWord, List.cons_append, List.nil_append, decodeBytes, wordOfBytes_bytes, h]

/-- Settles O1: `decode_encode`, and `decodeBytes_bytesOfWord` at the encoding. -/
theorem decodeInvertsEncode : Obligations.DecodeInvertsEncode :=
  fun _ hw => ⟨decode_encode hw, decodeBytes_bytesOfWord (decode_encode hw)⟩

/-! ## The spec's example words -/

/-- A word written out decodes to a well-formed instruction whose encoding it is. -/
theorem decode_of_encode (hw : WellFormed i = true) (h : encode i = w) : decode w = .ok i :=
  h ▸ decode_encode hw

/-- Settles O4: each word is the encoding of its instruction. -/
theorem specExampleWordsDecode : Obligations.SpecExampleWordsDecode := by
  unfold Obligations.SpecExampleWordsDecode
  and_intros
  all_goals exact decode_of_encode rfl rfl

end Sys2Proof
end

section
/-! SUPPORT. The statements about the outcomes of a step (60_exceptions): the checks of the fetch in their order, and what a step that faults,
halts or gets stuck was and leaves, read off `step_ends` and `exec_ends`. -/

namespace Sys2Proof.Machine

open Sys2Proof.Claims

section Fetch

variable {s : State}

/-! ## The checks of the fetch (R656, items 1 to 4) -/

theorem fetch_misaligned (hpc : s.pc.toNat % 4 ≠ 0) : fetch s = .fault .fetchMisaligned := by
  rw [fetch, if_pos (mt (pcAligned_iff _).1 hpc)]

theorem fetch_unfenced (hpc : s.pc.toNat % 4 = 0) (hu : Unfenced s) : fetch s = .fault .fetchUnfenced := by
  rw [fetch, if_neg (not_not.2 ((pcAligned_iff _).2 hpc)), if_pos ((fetchUnfenced_iff s).2 hu)]

theorem fetch_refused (hpc : s.pc.toNat % 4 = 0) (hu : ¬Unfenced s) (hno : ¬Admits s.cfg s.pc 4 .read) :
    fetch s = .refused := by
  rw [fetch, if_neg (not_not.2 ((pcAligned_iff _).2 hpc)), if_neg (mt (fetchUnfenced_iff s).1 hu), if_pos]
  simpa [Admits, fetchCall] using hno

/-- A fetchable word with no admitted instruction is illegal, whether it decodes or not (R172, R177). -/
theorem fetch_illegal (hf : Fetchable s) (hno : ∀ i, decode (wordAt s s.pc) = .ok i → ¬Admitted s i) :
    fetch s = .illegal := by
  obtain ⟨-, hpc, hu, hread⟩ := hf
  have hread' : ¬(!memAdmit s.cfg (fetchCall s)) = true := by simpa [Admits, fetchCall] using hread
  rw [fetch, if_neg (not_not.2 ((pcAligned_iff _).2 hpc)), if_neg (mt (fetchUnfenced_iff s).1 hu), if_neg hread',
    currentWord_eq]
  cases hd : decode (wordAt s s.pc) with
  | error e => rfl
  | ok i => simp [mt (admitted_iff s i).1 (hno i hd)]

theorem step_of_fetch_fault {reason : FaultReason} (hs : s.status = .running) (hf : fetch s = .fault reason) :
    step s = .next (faultOutcome s reason 0#32 s.pc) := by
  simp only [step, hs, hf, raiseFetchFault_eq]

theorem step_of_fetch_refused (hs : s.status = .running) (hf : fetch s = .refused) : step s = .next (stuckOutcome s) := by
  simp only [step, hs, hf, raiseStuck_eq]

theorem step_of_fetch_illegal (hs : s.status = .running) (hf : fetch s = .illegal) :
    step s = .next (faultOutcome s .illegal (wordAt s s.pc) 0#32) := by
  simp only [step, hs, hf, raiseFault_eq]

end Fetch

/-- Settles O7: the four lemmas of the fetch, each with what the step makes of it. -/
theorem fetchChecksInOrder : Obligations.FetchChecksInOrder :=
  fun _ hs => ⟨fun hpc => step_of_fetch_fault hs (fetch_misaligned hpc),
    fun hpc hu => step_of_fetch_fault hs (fetch_unfenced hpc hu),
    fun hpc hu hno => step_of_fetch_refused hs (fetch_refused hpc hu hno),
    fun hf hno => step_of_fetch_illegal hs (fetch_illegal hf hno)⟩

/-! ## Which of its endings an instruction took, by the status it left -/

section Outcomes

variable {i : Instr} {s t : State}

theorem Halts.status (h : Halts s t i) : ∃ reason, t.status = .halted reason := by
  cases h with
  | scall ht | sbreak ht | sqrtS _ _ _ _ ht | sqrtD _ _ _ _ _ _ _ ht => subst ht; exact ⟨_, rfl⟩

theorem Faults.status (h : Faults i s t) : ∃ reason, t.status = .faulted reason := by
  cases h with
  | illegal _ ht | regPair _ ht | dataMisaligned _ _ _ ht => subst ht; exact ⟨_, rfl⟩

theorem GetsStuck.status (h : GetsStuck i s t) : t.status = .stuck := by
  obtain ⟨_, _, _, _, _, ht⟩ := h
  subst ht; rfl

/-- An instruction that ends a run halts, faults or gets stuck: one that goes on keeps `running`. -/
theorem exec_stops (hs : s.status = .running) (he : exec i s = .next t) (ht : t.status ≠ .running) :
    Halts s t i ∨ Faults i s t ∨ GetsStuck i s t := by
  obtain ⟨u, hu, h⟩ := exec_ends i s
  rw [he] at hu; cases hu
  exact h.resolve_left fun g => ht (g.status.trans hs)

theorem exec_halts {reason : HaltReason} (hs : s.status = .running) (he : exec i s = .next t)
    (ht : t.status = .halted reason) : Halts s t i := by
  rcases exec_stops hs he (by simp [ht]) with h | h | h
  · exact h
  · obtain ⟨_, h'⟩ := h.status
    cases ht.symm.trans h'
  · cases ht.symm.trans h.status

theorem exec_faults {reason : FaultReason} (hs : s.status = .running) (he : exec i s = .next t)
    (ht : t.status = .faulted reason) : Faults i s t := by
  rcases exec_stops hs he (by simp [ht]) with h | h | h
  · obtain ⟨_, h'⟩ := h.status
    cases ht.symm.trans h'
  · exact h
  · cases ht.symm.trans h.status

theorem exec_getsStuck (hs : s.status = .running) (he : exec i s = .next t) (ht : t.status = .stuck) :
    GetsStuck i s t := by
  rcases exec_stops hs he (by simp [ht]) with h | h | h
  · obtain ⟨_, h'⟩ := h.status
    cases ht.symm.trans h'
  · obtain ⟨_, h'⟩ := h.status
    cases ht.symm.trans h'
  · exact h

/-- What ended a run takes no further step (R651, R658). -/
theorem step_ne_next (ht : t.status ≠ .running) (u : State) : step t ≠ .next u := by
  rw [(onlyRunningSteps t).2 ht]
  nofun

end Outcomes

/-- Settles O12: `exec_faults`, `exec_getsStuck` and `exec_halts` name the instruction; the fetch's words are those of O7. -/
theorem outcomesByInstruction : Obligations.OutcomesByInstruction := by
  refine ⟨fun i s t hs he => ⟨fun ht => ?illegal, fun ht => ?regPair, fun ht => ?dataMisaligned, fun ht => ?stuck,
      fun reason ht => ?halted, fun ht => ?fetchMisaligned, fun ht => ?fetchUnfenced⟩,
    fun s hs => (fetchChecksInOrder s hs).1, fun s hs => (fetchChecksInOrder s hs).2.1,
    fun s hf => (fetchChecksInOrder s hf.1).2.2.2 hf⟩
  case illegal =>
    cases exec_faults hs he ht with
    | illegal which _ => exact which
    | regPair _ h | dataMisaligned _ _ _ h => subst h; cases ht
  case regPair =>
    cases exec_faults hs he ht with
    | regPair which _ => exact which
    | illegal _ h | dataMisaligned _ _ _ h => subst h; cases ht
  case dataMisaligned =>
    obtain ⟨acc, hacc, ha⟩ := exec_dataMisaligned hs he ht
    exact ⟨acc, hacc, fun h1 => ha (h1 ▸ alignOk_one _ _)⟩
  case stuck =>
    obtain ⟨acc, hacc, _⟩ := exec_getsStuck hs he ht
    simp [hacc]
  case halted =>
    cases exec_halts hs he ht with
    | scall => exact .inl rfl
    | sbreak => exact .inr (.inl rfl)
    | sqrtS => exact .inr (.inr (.inl ⟨_, _, _, rfl⟩))
    | sqrtD => exact .inr (.inr (.inr ⟨_, _, _, rfl⟩))
  case fetchMisaligned | fetchUnfenced =>
    cases exec_faults hs he ht with
    | illegal _ h | regPair _ h | dataMisaligned _ _ _ h => subst h; cases ht

/-! ## A step that ends a run -/

/-- Settles O9: a fetch fault or an illegal word by `step_ends`, any other fault by `exec_faults`. -/
theorem faultChangesOnlyStatusAndRecord : Obligations.FaultChangesOnlyStatusAndRecord := by
  intro s t reason h ht
  refine ⟨?_, step_ne_next (by simp [ht])⟩
  obtain ⟨hs, he⟩ := step_ends h
  cases he with
  | misaligned _ h | unfenced _ _ h => subst h; cases ht; exact ⟨_, _, rfl, fun _ => ⟨rfl, rfl⟩, by simp, by simp⟩
  | refused _ _ h => subst h; cases ht
  | illegal _ _ h => subst h; cases ht; exact ⟨_, _, rfl, by simp, fun _ => ⟨rfl, rfl⟩, by simp⟩
  | ran _ i hd he =>
    cases exec_faults hs he ht with
    | illegal _ h | regPair _ h => subst h; cases ht; exact ⟨_, _, rfl, by simp, fun _ => ⟨rfl, rfl⟩, by simp⟩
    | dataMisaligned acc hacc _ h =>
      subst h; cases ht
      exact ⟨_, _, rfl, by simp, by simp, fun _ => ⟨rfl, i, acc, hd, hacc, rfl⟩⟩

/-- Settles O10: a refused fetch by `step_ends`, a refused access by `exec_getsStuck`. -/
theorem stuckChangesOnlyStatus : Obligations.StuckChangesOnlyStatus := by
  intro s t h ht
  have hfinal := step_ne_next (t := t) (by simp [ht])
  obtain ⟨hs, he⟩ := step_ends h
  cases he with
  | misaligned _ h | unfenced _ _ h | illegal _ _ h => subst h; cases ht
  | refused _ hno h => exact ⟨h, hfinal, .inl hno⟩
  | ran _ i hd he =>
    obtain ⟨acc, hacc, c, hc, hno, h⟩ := exec_getsStuck hs he ht
    exact ⟨h, hfinal, .inr ⟨i, acc, hd, hacc, c, hc, hno⟩⟩

/-- A step that halts ran an instruction that halts: no check of the fetch raises a halt (R650). -/
theorem step_halts {s t : State} {reason : HaltReason} (h : step s = .next t) (ht : t.status = .halted reason) :
    ∃ i, decode (wordAt s s.pc) = .ok i ∧ Halts s t i := by
  obtain ⟨hs, he⟩ := step_ends h
  cases he with
  | misaligned _ h | unfenced _ _ h | refused _ _ h | illegal _ _ h => subst h; cases ht
  | ran _ i hd he => exact ⟨i, hd, exec_halts hs he ht⟩

/-- Settles O11: the four cases of `step_halts`; a negative square root accrues NV before it halts. -/
theorem haltsAreScallSbreakAndNegativeSqrt : Obligations.HaltsAreScallSbreakAndNegativeSqrt := by
  refine ⟨fun s t reason h ht => ⟨?_, by simp [haltOutput, ht]⟩, rfl, rfl, rfl⟩
  obtain ⟨i, hd, hh⟩ := step_halts h ht
  refine ⟨i, hd, ?_⟩
  cases hh with
  | scall h => subst h; cases ht; exact ⟨fun _ => ⟨rfl, rfl⟩, nofun, nofun⟩
  | sbreak h => subst h; cases ht; exact ⟨nofun, fun _ => ⟨rfl, rfl⟩, nofun⟩
  | sqrtS rd rs1 rm hneg h =>
    subst h; cases ht
    exact ⟨nofun, nofun, fun _ => ⟨.inl ⟨rd, rs1, rm, rfl, hneg⟩, accrues_accrued _ _ _ rfl rfl, rfl⟩⟩
  | sqrtD rd rs1 lo hi rm hp hneg h =>
    subst h; cases ht
    exact ⟨nofun, nofun, fun _ => ⟨.inr ⟨rd, rs1, rm, lo, hi, rfl, hp, hneg⟩, accrues_accrued _ _ _ rfl rfl, rfl⟩⟩

/-! ## `pc` stays even (R251, R261) -/

/-- Settles O15: an instruction that goes on keeps it by `GoesOn`, as a decoded one is well-formed; a halt adds 4, and a
fault or a refused access keeps `pc`. -/
theorem stepKeepsPcEven : Obligations.StepKeepsPcEven := by
  intro s t heven h
  obtain ⟨-, he⟩ := step_ends h
  cases he with
  | misaligned _ ht | unfenced _ _ ht | refused _ _ ht | illegal _ _ ht => subst ht; exact heven
  | ran _ i hd he =>
    cases exec_leaves he with
    | goesOn g => exact g.pcEven (wellFormed_of_decode hd) heven
    | halt _ _ ht => subst ht; exact even_add heven (by decide)
    | fault _ _ _ ht | stuck ht => subst ht; exact heven

end Sys2Proof.Machine
end

section
/-! SUPPORT. The statements about the system instructions (48_system): the words of SYSTEM that are illegal, the two that halt, the fences, and
the CSR instructions, each of which is `csrAccess`. -/

namespace Sys2Proof.Machine

open Sys2Proof.Claims

/-! ## Privileged words (R603) -/

/-- SYSTEM with `funct3 = 000` has no row but those of SCALL and SBREAK. -/
theorem decode_privileged {w : Word} (ho : fieldOpcode w = 0b1110011#7) (h3 : fieldFunct3 w = 0b000#3)
    (hscall : w ≠ 0x00000073#32) (hsbreak : w ≠ 0x00100073#32) : decode w = .error .noMinorOpcode := by
  simp only [decode, ho, decodeSystem, h3, decodeSystemCall]

/-- A fetchable word that decodes to nothing is illegal (R172). -/
theorem step_of_decode_error {s : State} {e : DecodeError} (hf : Fetchable s) (hd : decode (wordAt s s.pc) = .error e) :
    step s = .next (faultOutcome s .illegal (wordAt s s.pc) 0#32) :=
  step_of_fetch_illegal hf.1 (fetch_illegal hf fun i hi => by rw [hd] at hi; cases hi)

/-- Settles O5: `decode_privileged`; SFENCE.VMA is told from SCALL and SBREAK by its `funct7`. -/
theorem privilegedWordsAreIllegal : Obligations.PrivilegedWordsAreIllegal := by
  refine ⟨fun w ho h3 h1 h2 => ⟨⟨_, decode_privileged ho h3 h1 h2⟩, fun s hf hw => ?_⟩, by simp, fun rs1 rs2 w hw => ?_⟩
  · subst hw
    exact step_of_decode_error hf (decode_privileged ho h3 h1 h2)
  · obtain rfl : w = formatR 0b0001001#7 rs2 rs1 0b000#3 0b00000#5 0b1110011#7 := hw
    have h7 := fieldFunct7_formatR 0b0001001#7 rs2 rs1 0b000#3 0b00000#5 0b1110011#7
    refine ⟨fieldOpcode_formatR .., fieldFunct3_formatR .., fun h => ?_, fun h => ?_⟩ <;>
      (rw [h] at h7; cases h7)

/-! ## Environment calls and fences (R601, R602, R604, R605) -/

/-- Settles O46: both meanings are `raiseHalt`. -/
theorem environmentCallsHalt : Obligations.EnvironmentCallsHalt :=
  fun s => ⟨rfl, rfl, raiseHalt_eq _ s, raiseHalt_eq _ s, step_ne_next nofun, step_ne_next nofun⟩

/-- Settles O47: what FENCE.I leaves of `modified` is by `FETCH_COHERENCE`. -/
theorem fenceResults : Obligations.FenceResults := by
  refine fun s rd rs1 fm pred succ imm => ⟨rfl, rfl, rfl, fun h => ?_, fun h => ?_⟩
  all_goals simp [exec, execFenceI, advance, jumpTo, h]

/-! ## CSR instructions (R606 to R613) -/

section CsrAccesses

variable (rd rs1 : Reg) (uimm : BitVec 5) (csr : BitVec 12) (s : State)

/-! Each of the six is `csrAccess`: what decides its read, what decides its write, and the value it writes. -/

theorem exec_csrrw :
    exec (.csrrw rd rs1 csr) s = csrAccess rd csr (rd != 0#5) true (fun _ => readX rs1 s) s := rfl

theorem exec_csrrs :
    exec (.csrrs rd rs1 csr) s = csrAccess rd csr true (rs1 != 0#5) (fun t => t ||| readX rs1 s) s := rfl

theorem exec_csrrc :
    exec (.csrrc rd rs1 csr) s = csrAccess rd csr true (rs1 != 0#5) (fun t => t &&& ~~~readX rs1 s) s := rfl

theorem exec_csrrwi :
    exec (.csrrwi rd uimm csr) s = csrAccess rd csr (rd != 0#5) true (fun _ => uimm.zeroExtend 32) s := rfl

theorem exec_csrrsi :
    exec (.csrrsi rd uimm csr) s = csrAccess rd csr true (uimm != 0#5) (fun t => t ||| uimm.zeroExtend 32) s := rfl

theorem exec_csrrci :
    exec (.csrrci rd uimm csr) s = csrAccess rd csr true (uimm != 0#5) (fun t => t &&& ~~~uimm.zeroExtend 32) s := rfl

end CsrAccesses

/-- A CSR instruction on `fflags`, `frm` or `fcsr`, where the rule writes what it reads and what it writes as `read` and
`written`. -/
theorem means_of_csrAccess {i : Instr} {w : Word} {s : State} {rd : Reg} {csr : BitVec 12} {v : Word} {reads writes : Bool}
    {new : Word → Word} {read written : Option Word} (hv : FloatCsrValue s csr v) (hw : encode i = w)
    (he : exec i s = csrAccess rd csr reads writes new s) (hn : reads = false → new 0#32 = new v)
    (hread : (if reads then some v else none) = read) (hwritten : (if writes then some (new v) else none) = written) :
    Means i w s (CsrResult s rd csr read written 0) := by
  obtain ⟨t, ht, hr⟩ := csrAccess_float hv rd reads writes hn
  exact ⟨hw, t, he.trans ht, hread ▸ hwritten ▸ hr⟩

/-- A CSR instruction leaves out its read or its write where a field is 0 (R606 to R611). -/
theorem ite_field_ne_zero (r : BitVec 5) (a : Word) :
    (if r != 0#5 then some a else none) = if r = 0#5 then none else some a := by
  simp only [bne_iff_ne, ne_eq, ite_not]

/-- Settles O48: CSRRW and CSRRWI read unless `rd` is `x0` and always write, the others the other way round. -/
theorem csrResults : Obligations.CsrResults := by
  rintro s rd rs1 uimm csr v _ _ hv rfl rfl
  refine ⟨?rw, ?rs, ?rc, ?rwi, ?rsi, ?rci⟩
  case rw => exact means_of_csrAccess hv rfl (exec_csrrw ..) (fun _ => rfl) (ite_field_ne_zero _ _) rfl
  case rs => exact means_of_csrAccess hv rfl (exec_csrrs ..) nofun rfl (ite_field_ne_zero _ _)
  case rc => exact means_of_csrAccess hv rfl (exec_csrrc ..) nofun rfl (ite_field_ne_zero _ _)
  case rwi => exact means_of_csrAccess hv rfl (exec_csrrwi ..) (fun _ => rfl) (ite_field_ne_zero _ _) rfl
  case rsi => exact means_of_csrAccess hv rfl (exec_csrrsi ..) nofun rfl (ite_field_ne_zero _ _)
  case rci => exact means_of_csrAccess hv rfl (exec_csrrci ..) nofun rfl (ite_field_ne_zero _ _)

/-- A CSR instruction accesses the CSR of its field, and writes where `csrField` says so (R612). -/
theorem exec_of_csrField {i : Instr} {csr : BitVec 12} {writes : Bool} (h : csrField i = some (csr, writes)) (s : State) :
    ∃ rd reads new, exec i s = csrAccess rd csr reads writes new s := by
  cases i with
  | csrrw => cases h; exact ⟨_, _, _, exec_csrrw ..⟩
  | csrrs => cases h; exact ⟨_, _, _, exec_csrrs ..⟩
  | csrrc => cases h; exact ⟨_, _, _, exec_csrrc ..⟩
  | csrrwi => cases h; exact ⟨_, _, _, exec_csrrwi ..⟩
  | csrrsi => cases h; exact ⟨_, _, _, exec_csrrsi ..⟩
  | csrrci => cases h; exact ⟨_, _, _, exec_csrrci ..⟩
  | _ => cases h

/-- A CSR instruction that reads a counter and writes nothing draws (R613). -/
theorem completes_of_counterRead {i : Instr} {s : State} {rd : Reg} {csr : BitVec 12} {new : Word → Word}
    (h : csr ∈ counterCsrs) (he : exec i s = csrAccess rd csr true false new s) :
    Completes i s (CsrResult s rd csr (some (Config.counterDraw s.draws)) none 1) := by
  obtain ⟨t, ht, hr⟩ := csrAccess_counter h rd new
  exact ⟨t, he.trans ht, hr⟩

/-- Settles O49: counter reads by `completes_of_counterRead`, every access the check refuses by `csrAccess_illegal`. -/
theorem counterReadsAndCsrCheck : Obligations.CounterReadsAndCsrCheck := by
  refine ⟨fun s rd csr h => ⟨?rs, ?rc, ?rsi, ?rci⟩, fun i s csr writes hfield hfloat hcounter => ?illegal⟩
  case rs => exact completes_of_counterRead h (exec_csrrs ..)
  case rc => exact completes_of_counterRead h (exec_csrrc ..)
  case rsi => exact completes_of_counterRead h (exec_csrrsi ..)
  case rci => exact completes_of_counterRead h (exec_csrrci ..)
  case illegal =>
    obtain ⟨rd, reads, new, he⟩ := exec_of_csrField hfield s
    exact he.trans (csrAccess_illegal hfloat hcounter rd reads new)

end Sys2Proof.Machine
end
